-- ==== Sys2Proof/Word.lean ====
section
/-! DEFINITION. The words the machine computes with: bytes, 32-bit words, and the binary64 value as its 64 bits
(00_scope.md R10 to R12). The arithmetic on binary64 values is in Sys2Proof/Machine/Float.lean. -/

namespace Sys2Proof

/-- One byte of a memory. -/
abbrev Byte := BitVec 8

/-- A 32-bit word: a register of the register file, or a word W0 .. W7 of an event record. -/
abbrev Word := BitVec 32

/-- An IEEE 754 binary64 value, held as its bit pattern (00_scope.md R12). Equality of two `F64` is equality of
bits: +0.0 and -0.0 differ, and two NaNs are equal only when sign and payload are. -/
structure F64 where
  bits : BitVec 64
  deriving DecidableEq, Repr, Inhabited

/-- +0.0 -/
def F64.zero : F64 := ⟨0x0000000000000000#64⟩

/-- 1.0 -/
def F64.one : F64 := ⟨0x3FF0000000000000#64⟩

/-- -1.0 -/
def F64.negOne : F64 := ⟨0xBFF0000000000000#64⟩

/-- The operations of 00_scope.md R12 whose NaN results have a free sign and payload (60_exceptions.md R516). -/
inductive FloatOp where
  | add | sub | mul | div | exp
  deriving DecidableEq, Repr

/-- Little-endian assembly of bytes into a natural number, the first byte lowest (20_memory.md R104). -/
def leNat : List Byte → Nat
  | [] => 0
  | b :: bs => b.toNat + 256 * leNat bs

/-- The `n` low bytes of `v`, the lowest first (20_memory.md R104). -/
def leBytes : Nat → Nat → List Byte
  | 0, _ => []
  | n + 1, v => BitVec.ofNat 8 v :: leBytes n (v / 256)

end Sys2Proof
end

