-- ==== Sys2Proof/Syntax.lean ====
section
/-! DEFINITION. The instructions: one constructor for each row of spec/opcode_table.json. An instruction is one
event record (00_scope.md R15); its operands are the fields of 30_encoding.md R144 as the record holds them, before
clamping, and its DELTA (R141). A reserved row that covers more than one KIND code also carries the code. -/

namespace Sys2Proof

/-- An event record by kind (30_encoding.md R142). Reserved bits and words are not part of it (R171). -/
inductive Instr where
  /-- KIND 0x01 (41_channel.md R250). -/
  | noteOn (delta : Word) (note vel : Byte)
  /-- KIND 0x02 (41_channel.md R251): both operands are carried and not used. -/
  | noteOff (delta : Word) (note vel : Byte)
  /-- KIND 0x03 (41_channel.md R252). -/
  | note (delta : Word) (note : Byte)
  /-- KIND 0x04 (40_track_dispatch.md R220). -/
  | tempo (delta mbpm : Word)
  /-- KIND 0x05 (42_oscillator.md R321). -/
  | form (delta : Word) (form sub : Byte)
  /-- KIND 0x06 (43_envelope.md R400). -/
  | vcoEnv (delta atk dec sus rel : Word)
  /-- KIND 0x07 (43_envelope.md R401). -/
  | vcfEnv (delta atk dec sus rel : Word)
  /-- KIND 0x08 (42_oscillator.md R323). -/
  | noiseFreq (delta mhz : Word)
  /-- KIND 0x09 (42_oscillator.md R322). -/
  | pwm (delta : Word) (pw : Byte)
  /-- KIND 0x0A (41_channel.md R258). -/
  | pan (delta : Word) (pan : Byte)
  /-- KIND 0x0B (45_formant.md R470). -/
  | vowel (delta : Word) (vowel : Byte)
  /-- KIND 0x0C (41_channel.md R255): `cents` is two's complement. -/
  | detune (delta cents : Word)
  /-- KIND 0x0D (42_oscillator.md R324): `depth` is two's complement. -/
  | lfo (delta : Word) (form sub : Byte) (rev : BitVec 1) (depth width delay len : Word)
  /-- KIND 0x0E (44_filter.md R440): `ftype`, `amt` and `cut` are two's complement. -/
  | lpf (delta : Word) (ftype : Byte) (amt cut res : Word)
  /-- KIND 0x0F (41_channel.md R257). -/
  | volmode (delta : Word) (mode : Byte)
  /-- KIND 0x10 (41_channel.md R259). -/
  | input (delta : Word) (pipe : Byte) (sens : Word)
  /-- KIND 0x11 (41_channel.md R260). -/
  | output (delta : Word) (pipe mode : Byte)
  /-- KIND 0x12 (41_channel.md R256). -/
  | expression (delta : Word) (expr : Byte)
  /-- KIND 0x13 (41_channel.md R261). -/
  | ring (delta : Word) (pipe : Byte) (sens : Word)
  /-- KIND 0x14 (41_channel.md R262). -/
  | sync (delta : Word) (pipe mode : Byte)
  /-- KIND 0x15 (40_track_dispatch.md R221). -/
  | close (delta : Word)
  /-- KIND 0x16 (40_track_dispatch.md R222). -/
  | eot (delta : Word)
  /-- KIND 0x00, reserved (40_track_dispatch.md R223). -/
  | reserved00 (delta : Word)
  /-- KIND 0x17, reserved (R223). -/
  | reserved17 (delta : Word)
  /-- KIND 0x18 .. 0x1F, reserved (R223). -/
  | reserved18 (delta : Word) (kind : Byte)
  /-- KIND 0x20 .. 0x3F, reserved (R223). -/
  | reserved20 (delta : Word) (kind : Byte)
  /-- KIND 0x40 .. 0x7F, reserved (R223). -/
  | reserved40 (delta : Word) (kind : Byte)
  /-- KIND 0x80 .. 0xFF, reserved (R223). -/
  | reserved80 (delta : Word) (kind : Byte)
  deriving DecidableEq, Repr

/-- DELTA, the ticks since the previous record of the track (30_encoding.md R141). -/
def Instr.delta : Instr → Word
  | .noteOn d _ _ | .noteOff d _ _ | .note d _ | .tempo d _ | .form d _ _ => d
  | .vcoEnv d _ _ _ _ | .vcfEnv d _ _ _ _ | .noiseFreq d _ | .pwm d _ | .pan d _ => d
  | .vowel d _ | .detune d _ | .lfo d _ _ _ _ _ _ _ | .lpf d _ _ _ _ | .volmode d _ => d
  | .input d _ _ | .output d _ _ | .expression d _ | .ring d _ _ | .sync d _ _ => d
  | .close d | .eot d | .reserved00 d | .reserved17 d => d
  | .reserved18 d _ | .reserved20 d _ | .reserved40 d _ | .reserved80 d _ => d

/-- The KIND code of a record (30_encoding.md R142). -/
def Instr.kindCode : Instr → Byte
  | .noteOn .. => 0x01 | .noteOff .. => 0x02 | .note .. => 0x03 | .tempo .. => 0x04
  | .form .. => 0x05 | .vcoEnv .. => 0x06 | .vcfEnv .. => 0x07 | .noiseFreq .. => 0x08
  | .pwm .. => 0x09 | .pan .. => 0x0A | .vowel .. => 0x0B | .detune .. => 0x0C
  | .lfo .. => 0x0D | .lpf .. => 0x0E | .volmode .. => 0x0F | .input .. => 0x10
  | .output .. => 0x11 | .expression .. => 0x12 | .ring .. => 0x13 | .sync .. => 0x14
  | .close .. => 0x15 | .eot .. => 0x16 | .reserved00 .. => 0x00 | .reserved17 .. => 0x17
  | .reserved18 _ k | .reserved20 _ k | .reserved40 _ k | .reserved80 _ k => k

/-- The record is one of the kinds that 30_encoding.md R170 reserves. -/
def Instr.isReserved : Instr → Bool
  | .reserved00 .. | .reserved17 .. | .reserved18 .. | .reserved20 .. | .reserved40 .. | .reserved80 .. => true
  | _ => false

end Sys2Proof
end

