-- ==== Sys2Proof/WellFormed.lean ====
section
/-! DEFINITION. Which instructions have an encoding. Every operand has the width of its field, so every value of it
is encodable, out-of-range values included (they are clamped when the record is applied, 30_encoding.md R146). What is
left to check is that the KIND code a reserved record carries belongs to its row of spec/opcode_table.json. -/

namespace Sys2Proof

/-- The KIND code `k` lies in `lo .. hi`. -/
def kindIn (lo hi : Nat) (k : Byte) : Bool := decide (lo ≤ k.toNat) && decide (k.toNat ≤ hi)

/-- The record has an encoding (30_encoding.md R142, R143). -/
def Instr.wellFormed : Instr → Bool
  | .reserved18 _ k => kindIn 0x18 0x1F k
  | .reserved20 _ k => kindIn 0x20 0x3F k
  | .reserved40 _ k => kindIn 0x40 0x7F k
  | .reserved80 _ k => kindIn 0x80 0xFF k
  | .noteOn .. | .noteOff .. | .note .. | .tempo .. | .form .. | .vcoEnv .. | .vcfEnv .. | .noiseFreq .. => true
  | .pwm .. | .pan .. | .vowel .. | .detune .. | .lfo .. | .lpf .. | .volmode .. | .input .. | .output .. => true
  | .expression .. | .ring .. | .sync .. | .close .. | .eot .. | .reserved00 .. | .reserved17 .. => true

end Sys2Proof
end

