-- ==== Sys2Proof/Decode.lean ====
section
/-! DEFINITION. The event record format (30_encoding.md R140 to R145): reading a record's eight words from its 32
bytes, the total decoder, and the encoder written from the same tables. -/

namespace Sys2Proof

/-- The eight little-endian words of a record (30_encoding.md R140). -/
structure Record where
  w0 : Word
  w1 : Word
  w2 : Word
  w3 : Word
  w4 : Word
  w5 : Word
  w6 : Word
  w7 : Word
  deriving DecidableEq, Repr

/-- Why a byte list is not a record. -/
inductive DecodeError where
  /-- Fewer or more than the 32 bytes of a record (30_encoding.md R180). -/
  | notARecord
  deriving DecidableEq, Repr

/-- `KIND`, W0[31:24] (30_encoding.md R140). -/
def Record.kind (r : Record) : Byte := r.w0.extractLsb' 24 8
/-- A[7:0], W0[7:0] (R140, R144). -/
def Record.a0 (r : Record) : Byte := r.w0.extractLsb' 0 8
/-- A[15:8], W0[15:8] (R140, R144). -/
def Record.a1 (r : Record) : Byte := r.w0.extractLsb' 8 8
/-- A[16], W0[16] (R140, R144). -/
def Record.a16 (r : Record) : BitVec 1 := r.w0.extractLsb' 16 1
/-- `DELTA`, W1 (R141). -/
def Record.delta (r : Record) : Word := r.w1

/-- W0 from its KIND and its A field (R140). -/
def kindWord (k : Byte) (a : BitVec 24) : Word := k ++ a
/-- An A field with one operand in A[7:0]. -/
def fieldA0 (x : Byte) : BitVec 24 := 0#16 ++ x
/-- An A field with operands in A[7:0] and A[15:8]. -/
def fieldA01 (x y : Byte) : BitVec 24 := 0#8 ++ (y ++ x)
/-- The A field of LFO: A[7:0], A[15:8] and A[16]. -/
def fieldA016 (x y : Byte) (z : BitVec 1) : BitVec 24 := 0#7 ++ (z ++ (y ++ x))

/-- The instruction of a record (30_encoding.md R142 to R145). `KIND` alone selects the row; bits and words that
R144 does not name for the kind are not read (R171). Every record has exactly one instruction. -/
def decodeRecord (r : Record) : Instr :=
  let k := r.kind
  if k = 0x01#8 then .noteOn r.delta r.a0 r.a1
  else if k = 0x02#8 then .noteOff r.delta r.a0 r.a1
  else if k = 0x03#8 then .note r.delta r.a0
  else if k = 0x04#8 then .tempo r.delta r.w2
  else if k = 0x05#8 then .form r.delta r.a0 r.a1
  else if k = 0x06#8 then .vcoEnv r.delta r.w2 r.w3 r.w4 r.w5
  else if k = 0x07#8 then .vcfEnv r.delta r.w2 r.w3 r.w4 r.w5
  else if k = 0x08#8 then .noiseFreq r.delta r.w2
  else if k = 0x09#8 then .pwm r.delta r.a0
  else if k = 0x0A#8 then .pan r.delta r.a0
  else if k = 0x0B#8 then .vowel r.delta r.a0
  else if k = 0x0C#8 then .detune r.delta r.w2
  else if k = 0x0D#8 then .lfo r.delta r.a0 r.a1 r.a16 r.w2 r.w3 r.w4 r.w5
  else if k = 0x0E#8 then .lpf r.delta r.a0 r.w2 r.w3 r.w4
  else if k = 0x0F#8 then .volmode r.delta r.a0
  else if k = 0x10#8 then .input r.delta r.a0 r.w2
  else if k = 0x11#8 then .output r.delta r.a0 r.a1
  else if k = 0x12#8 then .expression r.delta r.a0
  else if k = 0x13#8 then .ring r.delta r.a0 r.w2
  else if k = 0x14#8 then .sync r.delta r.a0 r.a1
  else if k = 0x15#8 then .close r.delta
  else if k = 0x16#8 then .eot r.delta
  else if k = 0x00#8 then .reserved00 r.delta
  else if k = 0x17#8 then .reserved17 r.delta
  else if k.toNat < 0x20 then .reserved18 r.delta k
  else if k.toNat < 0x40 then .reserved20 r.delta k
  else if k.toNat < 0x80 then .reserved40 r.delta k
  else .reserved80 r.delta k

/-- The 32-bit little-endian word at byte `4·j` of a byte list; bytes past the end read 0. -/
def wordAt (bs : List Byte) (j : Nat) : Word := BitVec.ofNat 32 (leNat ((bs.drop (4 * j)).take 4))

/-- The words of 32 bytes (30_encoding.md R140). -/
def recordOfBytes (bs : List Byte) : Record :=
  { w0 := wordAt bs 0, w1 := wordAt bs 1, w2 := wordAt bs 2, w3 := wordAt bs 3
    w4 := wordAt bs 4, w5 := wordAt bs 5, w6 := wordAt bs 6, w7 := wordAt bs 7 }

/-- The 32 bytes of a record, word by word, each little-endian (30_encoding.md R140). -/
def Record.bytes (r : Record) : List Byte :=
  leBytes 4 r.w0.toNat ++ leBytes 4 r.w1.toNat ++ leBytes 4 r.w2.toNat ++ leBytes 4 r.w3.toNat ++
  leBytes 4 r.w4.toNat ++ leBytes 4 r.w5.toNat ++ leBytes 4 r.w6.toNat ++ leBytes 4 r.w7.toNat

/-- The decoder: total on any bytes. Every 32 bytes are a record; any other number of bytes is refused by name. -/
def decode (bs : List Byte) : Except DecodeError Instr :=
  if bs.length = 32 then .ok (decodeRecord (recordOfBytes bs)) else .error .notARecord

/-- A record from its W0, DELTA and the wide operands P0 .. P3; P4 and P5 are 0 (R140, R171). -/
def mkRecord (w0 delta p0 p1 p2 p3 : Word) : Record :=
  { w0 := w0, w1 := delta, w2 := p0, w3 := p1, w4 := p2, w5 := p3, w6 := 0#32, w7 := 0#32 }

/-- The words of an instruction, reserved bits 0 (30_encoding.md R144, R171). -/
def encodeRecord : Instr → Record
  | .noteOn d n v => mkRecord (kindWord 0x01#8 (fieldA01 n v)) d 0#32 0#32 0#32 0#32
  | .noteOff d n v => mkRecord (kindWord 0x02#8 (fieldA01 n v)) d 0#32 0#32 0#32 0#32
  | .note d n => mkRecord (kindWord 0x03#8 (fieldA0 n)) d 0#32 0#32 0#32 0#32
  | .tempo d m => mkRecord (kindWord 0x04#8 0#24) d m 0#32 0#32 0#32
  | .form d f b => mkRecord (kindWord 0x05#8 (fieldA01 f b)) d 0#32 0#32 0#32 0#32
  | .vcoEnv d a e u r => mkRecord (kindWord 0x06#8 0#24) d a e u r
  | .vcfEnv d a e u r => mkRecord (kindWord 0x07#8 0#24) d a e u r
  | .noiseFreq d m => mkRecord (kindWord 0x08#8 0#24) d m 0#32 0#32 0#32
  | .pwm d p => mkRecord (kindWord 0x09#8 (fieldA0 p)) d 0#32 0#32 0#32 0#32
  | .pan d p => mkRecord (kindWord 0x0A#8 (fieldA0 p)) d 0#32 0#32 0#32 0#32
  | .vowel d v => mkRecord (kindWord 0x0B#8 (fieldA0 v)) d 0#32 0#32 0#32 0#32
  | .detune d c => mkRecord (kindWord 0x0C#8 0#24) d c 0#32 0#32 0#32
  | .lfo d f b z dep w del len => mkRecord (kindWord 0x0D#8 (fieldA016 f b z)) d dep w del len
  | .lpf d t a c r => mkRecord (kindWord 0x0E#8 (fieldA0 t)) d a c r 0#32
  | .volmode d m => mkRecord (kindWord 0x0F#8 (fieldA0 m)) d 0#32 0#32 0#32 0#32
  | .input d p x => mkRecord (kindWord 0x10#8 (fieldA0 p)) d x 0#32 0#32 0#32
  | .output d p m => mkRecord (kindWord 0x11#8 (fieldA01 p m)) d 0#32 0#32 0#32 0#32
  | .expression d e => mkRecord (kindWord 0x12#8 (fieldA0 e)) d 0#32 0#32 0#32 0#32
  | .ring d p x => mkRecord (kindWord 0x13#8 (fieldA0 p)) d x 0#32 0#32 0#32
  | .sync d p m => mkRecord (kindWord 0x14#8 (fieldA01 p m)) d 0#32 0#32 0#32 0#32
  | .close d => mkRecord (kindWord 0x15#8 0#24) d 0#32 0#32 0#32 0#32
  | .eot d => mkRecord (kindWord 0x16#8 0#24) d 0#32 0#32 0#32 0#32
  | .reserved00 d => mkRecord (kindWord 0x00#8 0#24) d 0#32 0#32 0#32 0#32
  | .reserved17 d => mkRecord (kindWord 0x17#8 0#24) d 0#32 0#32 0#32 0#32
  | .reserved18 d k => mkRecord (kindWord k 0#24) d 0#32 0#32 0#32 0#32
  | .reserved20 d k => mkRecord (kindWord k 0#24) d 0#32 0#32 0#32 0#32
  | .reserved40 d k => mkRecord (kindWord k 0#24) d 0#32 0#32 0#32 0#32
  | .reserved80 d k => mkRecord (kindWord k 0#24) d 0#32 0#32 0#32 0#32

/-- The bytes of an instruction as EVM holds them. -/
def encode (i : Instr) : List Byte := (encodeRecord i).bytes

/-- The bits of `A` that the kind names, as a mask on W0 with the KIND field (30_encoding.md R144). -/
def usedW0 (k : Byte) : Word :=
  if k = 0x01#8 ∨ k = 0x02#8 ∨ k = 0x05#8 ∨ k = 0x11#8 ∨ k = 0x14#8 then 0xFF00FFFF#32
  else if k = 0x0D#8 then 0xFF01FFFF#32
  else if k = 0x03#8 ∨ k = 0x09#8 ∨ k = 0x0A#8 ∨ k = 0x0B#8 ∨ k = 0x0E#8 ∨ k = 0x0F#8 ∨ k = 0x10#8 ∨ k = 0x12#8 ∨
      k = 0x13#8 then 0xFF0000FF#32
  else 0xFF000000#32

/-- How many of the wide operands P0 .. P3 the kind names, from P0 on (30_encoding.md R144). -/
def usedWide (k : Byte) : Nat :=
  if k = 0x06#8 ∨ k = 0x07#8 ∨ k = 0x0D#8 then 4
  else if k = 0x0E#8 then 3
  else if k = 0x04#8 ∨ k = 0x08#8 ∨ k = 0x0C#8 ∨ k = 0x10#8 ∨ k = 0x13#8 then 1
  else 0

/-- The record with every reserved bit and word of its kind at 0 (30_encoding.md R171). -/
def Record.clearReserved (r : Record) : Record :=
  let n := usedWide r.kind
  { w0 := r.w0 &&& usedW0 r.kind, w1 := r.w1
    w2 := if 1 ≤ n then r.w2 else 0#32, w3 := if 2 ≤ n then r.w3 else 0#32
    w4 := if 3 ≤ n then r.w4 else 0#32, w5 := if 4 ≤ n then r.w5 else 0#32, w6 := 0#32, w7 := 0#32 }

/-- The 32 bytes in memory of an instruction whose bits are `w`, bit 0 the least significant of W0 and later words
above it; bits at or above `nbits` are 0. -/
def bytesOfTableWord (nbits w : Nat) : List Byte := leBytes 32 (w % 2 ^ nbits)

/-- The instruction the decoder reads from an instruction whose bits are `w`. -/
def decodeTableWord (nbits w : Nat) : Option Instr :=
  match decode (bytesOfTableWord nbits w) with
  | .ok i => some i
  | .error _ => none

end Sys2Proof
end

