-- ==== Sys2Proof/Config.lean ====
section
/-! DEFINITION. What an implementation fixes and the machine only reads: the constants of 00_scope.md R9, its OPEN
parameters, capacities and tables (10_state.md R54) as a record of parameters, and the values the spec leaves free. -/

namespace Sys2Proof

/-- `SR` (00_scope.md R9, 10_state.md R36). -/
def Config.sampleRate : Nat := 44100
/-- The identification value (10_state.md R31). -/
def Config.idValue : Word := 0x534C4D4C#32
/-- `NWAVE·WAVE_LEN`, the bytes of the wave RAM (10_state.md R52). -/
def Config.waveSize : Nat := 512
/-- `NOTE_MAX` (00_scope.md R9). -/
def Config.noteMax : Nat := 143
/-- `P_MAX` (00_scope.md R9). -/
def Config.pMax : Nat := 14399

/-- The coefficients of a quality filter, `Coef(±1, fc) = (f, fbk)` (44_filter.md R443). -/
structure QCoef where
  f : F64
  fbk : F64
  deriving DecidableEq, Repr, Inhabited

/-- The coefficients of a fast filter, `Coef(±2, fc) = (p, fk, k)` (44_filter.md R444). -/
structure FCoef where
  p : F64
  fk : F64
  k : F64
  deriving DecidableEq, Repr, Inhabited

/-- The OPEN parameters of 00_scope.md R9 and the capacities of decision D47, each "a named parameter that a model
takes as an argument" (93_implementation_defined.md items 1 to 11 and 14). Every rule that reads one takes a `Params`;
the spec's defaults are `Sys2Proof.Machine.defaultParams`. A table is a function of its index. -/
structure Params where
  /-- `TABLE_BITS`: the phase tables have `2^TABLE_BITS` entries. -/
  tableBits : Nat
  /-- `FRAC_BITS`: `PW_BITS = TABLE_BITS + FRAC_BITS` is the phase width. -/
  fracBits : Nat
  /-- `NTRACK_MAX`, at most the 64 slots of the register table (log 8). -/
  ntrackMax : Nat
  /-- `NDPCM`, at most the 16 slots of the register table (log 8). -/
  ndpcm : Nat
  /-- `BLOCK_MAX`, in frames. -/
  blockMax : Nat
  /-- `EVM_SIZE`, in bytes. -/
  evmSize : Nat
  /-- `DPCM_SIZE`, in bytes. -/
  dpcmSize : Nat
  /-- `FREQ_TAB[0..P_MAX]`, in Hz (42_oscillator.md R326). -/
  freqTab : Nat → F64
  /-- `SINE_TAB`, `2^TABLE_BITS` entries (R336). -/
  sineTab : Nat → F64
  /-- `SAW_TAB` (R336). -/
  sawTab : Nat → F64
  /-- `TRI_TAB` (R336). -/
  triTab : Nat → F64
  /-- `NOISE_TAB` (R336). -/
  noiseTab : Nat → F64
  /-- `TRI32[0..31]` (R342). -/
  tri32 : Nat → Nat
  /-- `NOISE_PERIOD[0..15]`, in reference-clock cycles for one shift (R352). -/
  noisePeriod : BitVec 4 → Nat
  /-- `DPCM_RATE[0..15]`, in reference-clock cycles for one bit (R362). -/
  dpcmRate : BitVec 4 → Nat
  /-- `REF_NUM`, with `REF_DEN` the reference clock in Hz (R350). -/
  refNum : Nat
  /-- `REF_DEN` (R350). -/
  refDen : Nat
  /-- `DB_TAB[0..255]` (41_channel.md R287). -/
  dbTab : Nat → F64
  /-- `LFO_BATCH` (41_channel.md R284). -/
  lfoBatch : Nat
  /-- `QCOEF`: the quality coefficients from `ch.fres` and the cutoff in Hz (44_filter.md R443). -/
  qcoef : F64 → F64 → QCoef
  /-- `FCOEF`: the fast coefficients from `ch.fres` and the cutoff in Hz (44_filter.md R444). -/
  fcoef : F64 → F64 → FCoef
  /-- `FORMANT_COEF[v][j]`, v = 0..4 for A, E, I, O, U and j = 0..10 (45_formant.md R472). -/
  formantCoef : Nat → Nat → F64

/-- FREE VALUE (log 6). The sign and payload of a NaN that an operation produces are not fixed
(60_exceptions.md R516): nothing is known of this constant. `Sys2Proof.F64.nanResult` makes a NaN of it. -/
opaque Config.nanBits (op : FloatOp) (a b : F64) : BitVec 64

/-- FREE VALUE (log 10). `floor` of a NaN: no rule states an integer for it. -/
opaque Config.nanFloor (a : F64) : Int

/-- FREE VALUE (log 11). `min` of two values of which one is a NaN: no rule states it. -/
opaque Config.nanMin (a b : F64) : F64

/-- FREE VALUE (log 11). `max` of two values of which one is a NaN. -/
opaque Config.nanMax (a b : F64) : F64

/-- FREE VALUE (log 7). What a host read of an EVM byte that nothing has written returns: the spec states that
the dispatcher's read of it is a model fault and states nothing for the host's. -/
opaque Config.unwrittenEvmByte (addr : Nat) : Byte

/-- FREE VALUE (log 7). The same for a DPCM RAM byte. -/
opaque Config.unwrittenDpcmByte (addr : Nat) : Byte

/-- FREE VALUE (log 5). `FORMANT_COEF` has no default (00_scope.md R9, 45_formant.md R472). -/
opaque Config.formantCoef (vowel coef : Nat) : F64

end Sys2Proof
end

