-- ==== Sys2Proof/Machine/State.lean ====
section
/-! DEFINITION. The state of the block: every register, dispatcher field, Channel field, shared buffer and memory of
10_state.md, where a RENDER in progress stands, and the queue of the host's accesses. All of it is plain data. Its
values after power-on are those of 70_reset_and_hazards.md R540 and R542. -/

namespace Sys2Proof.Machine

/-- Why the model stops: the model faults of 60_exceptions.md R506, and no other. -/
inductive Fault where
  /-- Raised by the dispatcher's fetch of an event record any byte of which lies at or beyond `EVM_SIZE` or was
  never written (R506 item 1). Safe: the spec defines no behaviour there. -/
  | eventFetch
  /-- Raised by a DPCM clock's read of a byte at or beyond `DPCM_SIZE` or never written (R506 item 2). Safe: the
  spec defines no behaviour there. -/
  | dpcmRead
  deriving DecidableEq, Repr

/-- Why an instruction has no meaning. -/
inductive Refusal where
  /-- Raised by `exec` for an instruction not modelled; no arm raises it. Safe: nothing is claimed of it. -/
  | notModelled (mnemonic : String)
  deriving DecidableEq, Repr

/-! ### Registers -/

/-- The bits of STATUS (10_state.md R31, R33). Bits 31..7 read 0 and hold nothing. -/
structure Status where
  /-- bit 0, RUNNING -/
  running : Bool
  /-- bit 1, END -/
  ended : Bool
  /-- bit 2, DONE -/
  done : Bool
  /-- bit 3, UNK -/
  unk : Bool
  /-- bit 4, CLAMP -/
  clamp : Bool
  /-- bit 5, BUSERR -/
  buserr : Bool
  /-- bit 6, CMDERR -/
  cmderr : Bool
  deriving DecidableEq, Repr

/-- The registers of one DPCM slot (10_state.md R31, R38). -/
structure DpcmSlot where
  base : Word
  bits : Word
  vol : BitVec 7
  loop : Bool
  deriving DecidableEq, Repr

/-! ### Oscillators (10_state.md R43, R44) -/

/-- The phase-accumulator kinds (42_oscillator.md R320: codes 0..6 and 10). -/
inductive PhaseKind where
  | sine | saw | triangle | pulse | noise | fcPulse | fcTri | gbWave
  deriving DecidableEq, Repr

/-- The LFSR kinds (R320: codes 7, 8, 11, 12). -/
inductive LfsrKind where
  | fcNoise | fcSNoise | gbNoise | gbSNoise
  deriving DecidableEq, Repr

/-- The modulator kinds by group (R320); `dpcm` is code 9. -/
inductive Kind where
  | phase (k : PhaseKind)
  | lfsr (k : LfsrKind)
  | dpcm
  deriving DecidableEq, Repr

/-- The phase accumulators `P` (R44), unsigned integers of PW_BITS bits: 30 by default, and PW_BITS is a parameter
(00_scope.md R9), so each is a number that every operation keeps below `2^PW_BITS`. -/
structure Phases where
  sine : Nat
  saw : Nat
  triangle : Nat
  pulse : Nat
  noise : Nat
  fcPulse : Nat
  fcTri : Nat
  gbWave : Nat
  deriving DecidableEq, Repr

/-- An LFSR modulator of `w` bits (R44). -/
structure Lfsr (w : Nat) where
  lfsr : BitVec w
  acc : Nat
  pidx : BitVec 4
  deriving DecidableEq, Repr

/-- The DPCM modulator (R44). -/
structure Dpcm where
  amp : BitVec 7
  bitpos : Word
  acc : Nat
  pidx : BitVec 4
  deriving DecidableEq, Repr

/-- An Oscillator (R43): the selected kind, the sub-form, the increment (an integer below `2^PW_BITS`), and one
modulator of each kind. -/
structure Oscillator where
  form : Kind
  sub : BitVec 4
  inc : Nat
  phases : Phases
  fcNoise : Lfsr 15
  fcSNoise : Lfsr 15
  gbNoise : Lfsr 15
  gbSNoise : Lfsr 7
  dpcm : Dpcm
  deriving DecidableEq, Repr

/-! ### Envelopes (10_state.md R46) -/

/-- The ADSR phase. -/
inductive EnvState where
  | idle | attack | decay | sustain | release
  deriving DecidableEq, Repr

/-- An Envelope (R46). -/
structure Envelope where
  A : Word
  D : Word
  S : F64
  R : Word
  state : EnvState
  value : F64
  step : F64
  len : Word
  target : F64
  count : Word
  playing : Bool
  deriving DecidableEq, Repr

/-! ### Channel (10_state.md R42, R45, R47 to R49) -/

/-- `ch.volmode`: 0 linear, 1 non-linear (R42). -/
inductive VolMode where
  | linear | nonLinear
  deriving DecidableEq, Repr

/-- `ch.ftype`, −2..2 (R47, 44_filter.md R440). -/
inductive FilterType where
  | fastHpf | qualityHpf | off | qualityLpf | fastLpf
  deriving DecidableEq, Repr

/-- `ch.vowel`, 0..5 (R48). -/
inductive Vowel where
  | off | a | e | i | o | u
  deriving DecidableEq, Repr

/-- `ch.out_mode`: 0 mix to master, 1 overwrite pipe, 2 add to pipe (R49). -/
inductive OutMode where
  | mix | overwrite | add
  deriving DecidableEq, Repr

/-- `ch.sync_mode`: 0 off, 1 out, 2 in (R49). -/
inductive SyncMode where
  | off | out | inp
  deriving DecidableEq, Repr

/-- A Channel (R42 to R49). -/
structure Channel where
  note : Byte
  vel : Byte
  expr : Byte
  detune : Word
  volmode : VolMode
  pan : Byte
  pw : Byte
  noisefreq : Word
  oncount : BitVec 64
  osc1 : Oscillator
  osc2 : Oscillator
  lfoDepth : Word
  lfoWidth : F64
  lfoDelay : F64
  lfoLen : F64
  lfoRev : Bool
  env1 : Envelope
  env2 : Envelope
  ftype : FilterType
  famt : Word
  fcut : Word
  fres : F64
  fb : Vector F64 5
  vowel : Vowel
  fm : Vector F64 10
  inSens : F64
  inPipe : Fin 3
  outMode : OutMode
  outPipe : Fin 3
  ringSens : F64
  ringPipe : Fin 3
  syncMode : SyncMode
  syncPipe : Fin 3
  deriving DecidableEq, Repr

/-- A track slot: its dispatcher state (10_state.md R41) and its Channel (R40). -/
structure Track where
  cursor : Word
  needle : F64
  spt : F64
  ended : Bool
  ch : Channel
  deriving DecidableEq, Repr

/-! ### The host's side -/

/-- The width of a host access, 1, 2, 4 or 8 bytes (20_memory.md R105). -/
inductive Width where
  | w1 | w2 | w4 | w8
  deriving DecidableEq, Repr

/-- One host access at a host address (20_memory.md R101). A write carries 64 bits of which the low `8·width` are
written. -/
inductive Access where
  | read (addr : Word) (width : Width)
  | write (addr : Word) (width : Width) (data : BitVec 64)
  deriving DecidableEq, Repr

/-- Where a RENDER in progress stands: the `t`, `i` and `N` of 40_track_dispatch.md R201 and R210 (log 1). `track` is
the track being processed, whose Channel and dispatcher the rules call `ch` and `tr` (00_scope.md R13). -/
structure Engine where
  busy : Bool
  track : Fin 64
  pos : Nat
  frames : Nat
  deriving DecidableEq, Repr

/-- A sparse buffer or memory: address and value pairs, addresses strictly rising, none holding the value that an
unlisted address reads as (`Cells.wf` in Sys2Proof/Machine/Ops.lean). -/
abbrev Cells (β : Type) := List (Nat × β)

/-- The machine. -/
structure State where
  status : Status
  ntracks : Word
  blockLen : Word
  trkBase : Vector Word 64
  trkLen : Vector Word 64
  dpcmSlots : Vector DpcmSlot 16
  tracks : Vector Track 64
  pipes : Vector (Cells F64) 3
  syncs : Vector (Cells Bool) 3
  out : Cells F64
  evm : List Host.Cell
  dpcm : List Host.Cell
  wave : List Host.Cell
  engine : Engine
  inbox : List Access
  replies : List (BitVec 64)
  deriving DecidableEq, Repr

/-! ### Reset values (70_reset_and_hazards.md R542) -/

def Status.reset : Status :=
  { running := false, ended := false, done := false, unk := false, clamp := false, buserr := false, cmderr := false }

def DpcmSlot.reset : DpcmSlot := { base := 0#32, bits := 0#32, vol := 0#7, loop := false }

def Phases.reset : Phases :=
  { sine := 0, saw := 0, triangle := 0, pulse := 0, noise := 0, fcPulse := 0, fcTri := 0
    gbWave := 0 }

def Lfsr.reset (w : Nat) : Lfsr w := { lfsr := 1#w, acc := 0, pidx := 0#4 }

def Dpcm.reset : Dpcm := { amp := 0#7, bitpos := 0#32, acc := 0, pidx := 0#4 }

def Oscillator.reset : Oscillator :=
  { form := .phase .sine, sub := 0#4, inc := 0, phases := Phases.reset, fcNoise := Lfsr.reset 15
    fcSNoise := Lfsr.reset 15, gbNoise := Lfsr.reset 15, gbSNoise := Lfsr.reset 7, dpcm := Dpcm.reset }

def Envelope.reset : Envelope :=
  { A := 0#32, D := 0#32, S := F64.one, R := 0#32, state := .idle, value := F64.zero, step := F64.zero, len := 0#32
    target := F64.zero, count := 0#32, playing := false }

def Channel.reset : Channel :=
  { note := 0#8, vel := 0#8, expr := 127#8, detune := 0#32, volmode := .linear, pan := 64#8, pw := 50#8
    noisefreq := 0#32, oncount := 0#64, osc1 := Oscillator.reset, osc2 := Oscillator.reset, lfoDepth := 0#32
    lfoWidth := F64.zero, lfoDelay := F64.zero, lfoLen := F64.zero, lfoRev := false, env1 := Envelope.reset
    env2 := Envelope.reset, ftype := .off, famt := 0#32, fcut := 0#32, fres := F64.zero
    fb := Vector.replicate 5 F64.zero, vowel := .off, fm := Vector.replicate 10 F64.zero, inSens := F64.zero, inPipe := 0
    outMode := .mix, outPipe := 0, ringSens := F64.zero, ringPipe := 0, syncMode := .off, syncPipe := 0 }

/-- 229.6875, the samples per tick at 120 BPM (10_state.md R41). -/
def sptReset : F64 := ⟨0x406CB60000000000#64⟩

def Track.reset : Track :=
  { cursor := 0#32, needle := F64.zero, spt := sptReset, ended := false, ch := Channel.reset }

/-- No RENDER in progress. -/
def Engine.idle : Engine := { busy := false, track := 0, pos := 0, frames := 0 }

/-- The machine at power-on (70_reset_and_hazards.md R540, R542): every register at its reset value, no byte of EVM
or DPCM RAM written, the wave RAM all 0, OUT, PIPE and SYNC all 0, the engine idle and no host access pending. -/
def State.reset : State :=
  { status := Status.reset, ntracks := 1#32, blockLen := 1024#32, trkBase := Vector.replicate 64 0#32
    trkLen := Vector.replicate 64 0#32, dpcmSlots := Vector.replicate 16 DpcmSlot.reset
    tracks := Vector.replicate 64 Track.reset, pipes := Vector.replicate 3 [], syncs := Vector.replicate 3 [], out := []
    evm := [], dpcm := [], wave := [], engine := Engine.idle, inbox := [], replies := [] }

end Sys2Proof.Machine
end

