-- ==== Sys2Proof/Machine/Flags.lean ====
section
/-! DEFINITION. The STATUS register as a word and every way its bits change (10_state.md R31, R33, 60_exceptions.md
R500). The block has no arithmetic condition codes (R53): these are its only flags beside `tr.ended` and an
envelope's `playing`. -/

namespace Sys2Proof.Machine

/-- The weight of a bit in a word. -/
def bitAt (b : Bool) (n : Nat) : Word := if b then BitVec.ofNat 32 (2 ^ n) else 0#32

/-- STATUS as the host reads it: bits 6..0, the rest 0 (10_state.md R31). -/
def Status.toWord (st : Status) : Word :=
  bitAt st.running 0 ||| bitAt st.ended 1 ||| bitAt st.done 2 ||| bitAt st.unk 3 ||| bitAt st.clamp 4 |||
  bitAt st.buserr 5 ||| bitAt st.cmderr 6

/-- A write of `v` to STATUS: a 1 clears the W1C bits 2..6; RUNNING and END are read-only (10_state.md R33). -/
def Status.writeOneToClear (st : Status) (v : Word) : Status :=
  { st with
    done := st.done && !v.getLsbD 2
    unk := st.unk && !v.getLsbD 3
    clamp := st.clamp && !v.getLsbD 4
    buserr := st.buserr && !v.getLsbD 5
    cmderr := st.cmderr && !v.getLsbD 6 }

/-- `flag STATUS.UNK` (00_scope.md R13). -/
def State.flagUnk (s : State) : State := { s with status := { s.status with unk := true } }

/-- `flag STATUS.CLAMP` when a field of the record was clamped (30_encoding.md R146). -/
def State.flagClamp (s : State) (clamped : Bool) : State :=
  { s with status := { s.status with clamp := s.status.clamp || clamped } }

/-- `flag STATUS.BUSERR` (20_memory.md R101, R105). -/
def State.flagBuserr (s : State) : State := { s with status := { s.status with buserr := true } }

/-- `flag STATUS.CMDERR` (10_state.md R34, 40_track_dispatch.md R200, R201). -/
def State.flagCmderr (s : State) : State := { s with status := { s.status with cmderr := true } }

/-- STATUS.END set by the tempo track's EOT (40_track_dispatch.md R222). -/
def State.setEnd (s : State) : State := { s with status := { s.status with ended := true } }

end Sys2Proof.Machine
end

