-- ==== Sys2Proof/Machine/Float.lean ====
section
/-! DEFINITION. IEEE 754 binary64 arithmetic on bit patterns, round to nearest, ties to even (00_scope.md R12,
60_exceptions.md R516). Every finite binary64 value is an integer number of units of 2^-1074; an operation
computes its exact result in units, as an integer or a ratio of integers, and rounds it once. -/

namespace Sys2Proof

/-- The magnitude bits (all but the sign) of an infinity: exponent field all ones, fraction 0. -/
def F64.infMag : Nat := 0x7FF0000000000000

/-- The sign bit. -/
def F64.sign (a : F64) : Bool := a.bits.getLsbD 63

/-- The bits below the sign, as a number. It grows with the magnitude of the value. -/
def F64.mag (a : F64) : Nat := a.bits.toNat % 0x8000000000000000

def F64.isNaN (a : F64) : Bool := F64.infMag < a.mag
def F64.isInf (a : F64) : Bool := a.mag == F64.infMag
def F64.isFinite (a : F64) : Bool := a.mag < F64.infMag
/-- True of +0.0 and of -0.0. -/
def F64.isZero (a : F64) : Bool := a.mag == 0

/-- A value from its sign and its magnitude bits. -/
def F64.pack (neg : Bool) (m : Nat) : F64 := ⟨BitVec.ofNat 64 (if neg then 0x8000000000000000 + m else m)⟩

/-- 2^1074: the number of units in 1.0. -/
def F64.unitScale : Nat := 2 ^ 1074

/-- The magnitude of a finite value in units of 2^-1074 (subnormals: the fraction; normals: the significand
shifted by the exponent field less one). -/
def F64.units (a : F64) : Nat :=
  let e := a.mag / 0x10000000000000
  let f := a.mag % 0x10000000000000
  if e = 0 then f else (0x10000000000000 + f) * 2 ^ (e - 1)

/-- The exact value of a finite binary64 value in units of 2^-1074, with its sign. -/
def F64.toUnits (a : F64) : Int := if a.sign then -(a.units : Int) else a.units

/-- The magnitude bits of the binary64 value nearest to `num / den` units, ties to even; an infinity on overflow.
`sh` is the exponent of the last place kept; below 2^53 units the last place is one unit, so a subnormal result
needs no case of its own, and a carry out of the significand moves into the exponent field by itself. -/
def F64.roundMag (num den : Nat) : Nat :=
  let sh := (num / den).log2 - 52
  let d := den * 2 ^ sh
  let r := num / d
  let rem := num % d
  let r' := if d < 2 * rem ∨ (2 * rem = d ∧ r % 2 = 1) then r + 1 else r
  min (sh * 0x10000000000000 + r') F64.infMag

/-- The binary64 value nearest to `± num / den` units. -/
def F64.ofRatio (neg : Bool) (num den : Nat) : F64 := F64.pack neg (F64.roundMag num den)

/-- The NaN an operation produces: any NaN (60_exceptions.md R516), its sign and payload the free value
`Config.nanBits` of the operation and its operands. A free fraction of 0 would be an infinity and is read as the
NaN with fraction 2^51, so that every NaN and nothing else is a possible result. -/
def F64.nanResult (op : FloatOp) (a b : F64) : F64 :=
  let raw := Config.nanBits op a b
  let frac := raw.toNat % 0x10000000000000
  F64.pack (raw.getLsbD 63) (F64.infMag + if frac = 0 then 0x8000000000000 else frac)

/-- Unary minus: the sign bit flipped. -/
def F64.neg (a : F64) : F64 := ⟨a.bits ^^^ 0x8000000000000000#64⟩

/-- Absolute value: the sign bit cleared. -/
def F64.abs (a : F64) : F64 := ⟨a.bits &&& 0x7FFFFFFFFFFFFFFF#64⟩

/-- The sum of two values that are not NaN, `nan` standing for the result of infinities of opposite signs. An
exact zero sum is +0.0 unless both operands are -0.0. -/
def F64.addCore (nan a b : F64) : F64 :=
  if a.isInf then (if b.isInf && (a.sign != b.sign) then nan else a)
  else if b.isInf then b
  else if a.isZero && b.isZero then F64.pack (a.sign && b.sign) 0
  else
    let z := a.toUnits + b.toUnits
    if z = 0 then F64.zero else F64.ofRatio (z < 0) z.natAbs 1

/-- `a + b` (00_scope.md R12). -/
def F64.add (a b : F64) : F64 :=
  if a.isNaN || b.isNaN then F64.nanResult .add a b else F64.addCore (F64.nanResult .add a b) a b

/-- `a − b` (00_scope.md R12). -/
def F64.sub (a b : F64) : F64 :=
  if a.isNaN || b.isNaN then F64.nanResult .sub a b else F64.addCore (F64.nanResult .sub a b) a b.neg

/-- `a × b` (00_scope.md R12). -/
def F64.mul (a b : F64) : F64 :=
  let s := a.sign != b.sign
  if a.isNaN || b.isNaN then F64.nanResult .mul a b
  else if (a.isInf && b.isZero) || (a.isZero && b.isInf) then F64.nanResult .mul a b
  else if a.isInf || b.isInf then F64.pack s F64.infMag
  else if a.isZero || b.isZero then F64.pack s 0
  else F64.ofRatio s (a.units * b.units) F64.unitScale

/-- `a / b` (00_scope.md R12). -/
def F64.div (a b : F64) : F64 :=
  let s := a.sign != b.sign
  if a.isNaN || b.isNaN then F64.nanResult .div a b
  else if (a.isInf && b.isInf) || (a.isZero && b.isZero) then F64.nanResult .div a b
  else if a.isInf || b.isZero then F64.pack s F64.infMag
  else if b.isInf || a.isZero then F64.pack s 0
  else F64.ofRatio s (a.units * F64.unitScale) b.units

/-- A number that orders values that are not NaN as their values: both zeros at 0. -/
def F64.key (a : F64) : Int := if a.sign then -(a.mag : Int) else a.mag

/-- `a < b`; false when either is a NaN. -/
def F64.lt (a b : F64) : Bool := !a.isNaN && !b.isNaN && decide (a.key < b.key)

/-- `a ≤ b`; false when either is a NaN. -/
def F64.le (a b : F64) : Bool := !a.isNaN && !b.isNaN && decide (a.key ≤ b.key)

/-- `min(a, b)`: `b` when it is less, else `a`; a free value when one is a NaN (log 11). -/
def F64.min (a b : F64) : F64 :=
  if a.isNaN || b.isNaN then Config.nanMin a b else if b.lt a then b else a

/-- `max(a, b)`: `b` when it is greater, else `a`; a free value when one is a NaN (log 11). -/
def F64.max (a b : F64) : F64 :=
  if a.isNaN || b.isNaN then Config.nanMax a b else if a.lt b then b else a

/-- `float(k)` of an integer (00_scope.md R12): exact below 2^53, rounded to nearest even above. -/
def F64.ofInt (k : Int) : F64 := if k = 0 then F64.zero else F64.ofRatio (k < 0) (k.natAbs * F64.unitScale) 1

/-- `float(k)` of a natural number. -/
def F64.ofNat (k : Nat) : F64 := F64.ofInt k

/-- The binary64 value nearest to the decimal `num / den` written in a rule. -/
def F64.lit (num den : Nat) : F64 := F64.ofRatio false (num * F64.unitScale) den

/-- `floor(a)`, exact (00_scope.md R11). An infinity gives an integer beyond every finite value and a NaN a free
value (log 10). -/
def F64.floor (a : F64) : Int :=
  if a.isNaN then Config.nanFloor a
  else if a.isInf then (if a.sign then -(2 ^ 1024) else 2 ^ 1024)
  else a.toUnits.fdiv F64.unitScale

/-- `ceil(a)`, exact (00_scope.md R11), as minus the floor of minus the value. -/
def F64.ceil (a : F64) : Int := -(F64.floor a.neg)

end Sys2Proof
end

