-- ==== Sys2Proof/Machine/Ops.lean ====
section
/-! DEFINITION. The named operations over the memories, the shared buffers and the track being processed, and what
consuming any event record does. The block takes no exception and returns from none: there is no trap, no saved
state, no vector and no return (60_exceptions.md R501, R502); a condition sets its STATUS bit (Flags.lean) and
execution goes on. -/

namespace Sys2Proof.Machine

/-! ### Sparse memories and buffers in canonical form -/

/-- The value listed at an address. -/
def Cells.lookup {β : Type} : Cells β → Nat → Option β
  | [], _ => none
  | (k, v) :: m, a => if k = a then some v else Cells.lookup m a

/-- The list with address `a` holding `v`, kept in rising order. -/
def Cells.insert {β : Type} : Cells β → Nat → β → Cells β
  | [], a, v => [(a, v)]
  | (k, x) :: m, a, v =>
    if a < k then (a, v) :: (k, x) :: m else if a = k then (a, v) :: m else (k, x) :: Cells.insert m a v

/-- The list without address `a`. -/
def Cells.erase {β : Type} : Cells β → Nat → Cells β
  | [], _ => []
  | (k, x) :: m, a => if a = k then m else (k, x) :: Cells.erase m a

/-- Reading a buffer whose unlisted addresses hold `d`. -/
def Cells.get {β : Type} (d : β) (m : Cells β) (a : Nat) : β := (Cells.lookup m a).getD d

/-- Writing a buffer whose unlisted addresses hold `d`: writing `d` removes the entry. -/
def Cells.put {β : Type} [DecidableEq β] (d : β) (m : Cells β) (a : Nat) (v : β) : Cells β :=
  if v = d then Cells.erase m a else Cells.insert m a v

/-- Addresses strictly rising, from `lo` on, and below `hi`. -/
def Cells.rising {β : Type} (hi : Nat) : Nat → Cells β → Bool
  | _, [] => true
  | lo, (k, _) :: m => decide (lo ≤ k) && decide (k < hi) && Cells.rising hi (k + 1) m

/-- The canonical form of a buffer of `size` elements whose unlisted addresses hold `d`. -/
def Cells.wf {β : Type} [DecidableEq β] (d : β) (size : Nat) (m : Cells β) : Bool :=
  Cells.rising size 0 m && m.all (fun c => decide (c.2 ≠ d))

/-! ### The memories of the block

An unlisted byte of EVM or DPCM RAM has never been written (10_state.md R52); an unlisted byte of WAVE is 0; an
unlisted element of OUT, a pipe or a sync buffer is +0.0 or 0 (10_state.md R50, R51). -/

/-- A byte of EVM, none when nothing has written it. -/
def State.evmByte (s : State) (a : Nat) : Option Byte := Cells.lookup s.evm a

/-- A byte of DPCM RAM, none when nothing has written it. -/
def State.dpcmByte (s : State) (a : Nat) : Option Byte := Cells.lookup s.dpcm a

/-- The byte of EVM that the dispatcher reads, none at or beyond `EVM_SIZE` or when nothing has written it
(60_exceptions.md R506). -/
def State.evmRead (p : Params) (s : State) (a : Nat) : Option Byte := if a < p.evmSize then s.evmByte a else none

/-- The byte of DPCM RAM that a DPCM clock reads, none at or beyond `DPCM_SIZE` or when nothing has written it (R506). -/
def State.dpcmRead (p : Params) (s : State) (a : Nat) : Option Byte := if a < p.dpcmSize then s.dpcmByte a else none

/-- A byte of the wave RAM. -/
def State.waveByte (s : State) (a : Nat) : Byte := Cells.get 0#8 s.wave a

/-- `OUT[j]`. -/
def State.outAt (s : State) (j : Nat) : F64 := Cells.get F64.zero s.out j

/-- `PIPE[p][k]`. -/
def State.pipeAt (s : State) (p : Fin 3) (k : Nat) : F64 := Cells.get F64.zero (s.pipes.get p) k

/-- `SYNC[p][k]`. -/
def State.syncAt (s : State) (p : Fin 3) (k : Nat) : Bool := Cells.get false (s.syncs.get p) k

/-- Byte `a` of OUT: byte `a mod 8` of the binary64 value `OUT[a div 8]` (20_memory.md R104, R107). -/
def State.outByte (s : State) (a : Nat) : Byte := (s.outAt (a / 8)).bits.extractLsb' (8 * (a % 8)) 8

/-- The memories and buffers are in canonical form and within the sizes that the capacities `p` give them. -/
def Memory.wf (p : Params) (s : State) : Bool :=
  Cells.rising p.evmSize 0 s.evm && Cells.rising p.dpcmSize 0 s.dpcm &&
  Cells.wf 0#8 Config.waveSize s.wave && Cells.wf F64.zero (2 * p.blockMax) s.out &&
  s.pipes.all (Cells.wf F64.zero p.blockMax) && s.syncs.all (Cells.wf false p.blockMax)

/-! ### The track being processed (00_scope.md R13) -/

/-- A vector with the element at `i` replaced. -/
def vset {α : Type} {n : Nat} (v : Vector α n) (i : Fin n) (x : α) : Vector α n := v.set i.val x i.isLt

/-- `tr`: the dispatcher state and Channel of the track being processed. -/
def State.tr (s : State) : Track := s.tracks.get s.engine.track

/-- `ch`: its Channel. -/
def State.ch (s : State) : Channel := s.tr.ch

/-- The state with the track being processed replaced. -/
def State.setTr (s : State) (t : Track) : State := { s with tracks := vset s.tracks s.engine.track t }

/-- An event's effect on the Channel of its track (40_track_dispatch.md R212). -/
def State.mapCh (f : Channel → Channel) (s : State) : State := s.setTr { s.tr with ch := f s.ch }

/-! ### Consuming a record -/

/-- `dur = float(DELTA) × tr.spt` (40_track_dispatch.md R211). -/
def State.duration (s : State) (delta : Word) : F64 := (F64.ofNat delta.toNat).mul s.tr.spt

/-- `tr.needle <- tr.needle − dur; tr.cursor <- tr.cursor + 1` (R210, R213). -/
def State.retire (dur : F64) (s : State) : State :=
  s.setTr { s.tr with needle := s.tr.needle.sub dur, cursor := s.tr.cursor + 1#32 }

/-- What applying any record does (40_track_dispatch.md R210 to R213): its duration is taken with the samples per
tick of the moment, CLAMP is set if a field was clamped, the kind's own effect is performed, and the needle and the
cursor move on. Every meaning is this operation with its kind's effect. -/
def consume (delta : Word) (clamped : Bool) (effect : State → State) (s : State) : Host.Outcome State Fault Refusal :=
  .next ((effect (s.flagClamp clamped)).retire (s.duration delta))

end Sys2Proof.Machine
end

