-- ==== Sys2Proof/Machine/Commands.lean ====
section
/-! DEFINITION. The commands that a write to CTRL issues: RESET, STOP, START, RENDER (10_state.md R32, R35,
40_track_dispatch.md R200, R201, 70_reset_and_hazards.md R541), and the end of a RENDER. -/

namespace Sys2Proof.Machine

/-- PIPE and SYNC cleared (40_track_dispatch.md R200, R201). -/
def State.clearPipes (s : State) : State :=
  { s with pipes := Vector.replicate 3 [], syncs := Vector.replicate 3 [] }

/-- RESET (70_reset_and_hazards.md R541): every register, track, Channel and shared buffer at its reset value; EVM, DPCM
RAM and wave RAM kept. The host's own queues are not the block's and are kept (log 18). -/
def State.resetCommand (s : State) : State :=
  { State.reset with evm := s.evm, dpcm := s.dpcm, wave := s.wave, inbox := s.inbox, replies := s.replies }

/-- STOP (10_state.md R35): RUNNING cleared, nothing else. -/
def State.stopCommand (s : State) : State := { s with status := { s.status with running := false } }

/-- START (40_track_dispatch.md R200). -/
def State.startCommand (s : State) : State :=
  if s.status.running then s.flagCmderr
  else
    { s.clearPipes with
      tracks := Vector.replicate 64 Track.reset
      status := { s.status with ended := false, running := true } }

/-- RENDER up to its loop over the tracks (40_track_dispatch.md R201): refused while not RUNNING; else OUT, PIPE and
SYNC are cleared and the engine starts at track 0, sample 0, of `BLOCK_LEN` frames. -/
def State.renderCommand (s : State) : State :=
  if !s.status.running then s.flagCmderr
  else { s.clearPipes with out := [], engine := { busy := true, track := 0, pos := 0, frames := s.blockLen.toNat } }

/-- A write of `v` to CTRL (10_state.md R32): RESET alone, or STOP, START, RENDER in that order. -/
def State.ctrlWrite (v : Word) (s : State) : State :=
  if v.getLsbD 31 then s.resetCommand
  else
    let s := if v.getLsbD 2 then s.stopCommand else s
    let s := if v.getLsbD 0 then s.startCommand else s
    if v.getLsbD 1 then s.renderCommand else s

/-- The end of a RENDER (40_track_dispatch.md R201): DONE set, RUNNING cleared if END is set, the engine idle. -/
def State.finishRender (s : State) : State :=
  { s with
    status := { s.status with done := true, running := s.status.running && !s.status.ended }
    engine := Engine.idle }

/-- The track being processed is done for this block: the next slot below NTRACKS, or the end of the RENDER
(40_track_dispatch.md R201). -/
def State.nextTrack (s : State) : State :=
  if h : s.engine.track.val + 1 < 64 then
    if s.engine.track.val + 1 < s.ntracks.toNat then
      { s with engine := { s.engine with track := ⟨s.engine.track.val + 1, h⟩, pos := 0 } }
    else s.finishRender
  else s.finishRender

end Sys2Proof.Machine
end

