-- ==== Sys2Proof/Machine/Operands.lean ====
section
/-! DEFINITION. The operand forms of event records: assembly of a field into a value and clamping to its legal range
(30_encoding.md R144 to R146). Each clamp has beside it the test `v' ≠ v` that sets STATUS.CLAMP. -/

namespace Sys2Proof.Machine

/-- `clamp(v, lo, hi) = min(max(v, lo), hi)` on natural numbers (00_scope.md R11). -/
def clampNat (lo hi v : Nat) : Nat := min (max v lo) hi

/-- `clamp(v, lo, hi)` on integers (00_scope.md R11). -/
def clampInt (lo hi v : Int) : Int := min (max v lo) hi

/-- A u8 field clamped (30_encoding.md R146). -/
def clampByte (lo hi : Nat) (v : Byte) : Byte := BitVec.ofNat 8 (clampNat lo hi v.toNat)

/-- The u8 field was out of range: `v' ≠ v`. -/
def byteClamped (lo hi : Nat) (v : Byte) : Bool := clampByte lo hi v != v

/-- A u32 field clamped. -/
def clampWord (lo hi : Nat) (v : Word) : Word := BitVec.ofNat 32 (clampNat lo hi v.toNat)

/-- The u32 field was out of range. -/
def wordClamped (lo hi : Nat) (v : Word) : Bool := clampWord lo hi v != v

/-- A q16 field: `float(v) / 65536.0` (30_encoding.md R145). -/
def q16 (v : Word) : F64 := (F64.ofNat v.toNat).div (F64.ofNat 65536)

/-- `float(v)` of a u32 field. -/
def floatWord (v : Word) : F64 := F64.ofNat v.toNat

/-- The kind of a code (42_oscillator.md R320). The argument is a clamped FORM field, so codes above 12 do not
arise; they are read as 12. -/
def kindOfCode (c : Nat) : Kind :=
  match c with
  | 0 => .phase .sine
  | 1 => .phase .saw
  | 2 => .phase .triangle
  | 3 => .phase .pulse
  | 4 => .phase .noise
  | 5 => .phase .fcPulse
  | 6 => .phase .fcTri
  | 7 => .lfsr .fcNoise
  | 8 => .lfsr .fcSNoise
  | 9 => .dpcm
  | 10 => .phase .gbWave
  | 11 => .lfsr .gbNoise
  | _ => .lfsr .gbSNoise

/-- A FORM field (0..12). -/
def kindOfField (v : Byte) : Kind := kindOfCode (clampByte 0 12 v).toNat

/-- A SUB field (0..15). -/
def subOfField (v : Byte) : BitVec 4 := BitVec.ofNat 4 (clampByte 0 15 v).toNat

/-- A PIPE field (0..2). -/
def pipeOfField (v : Byte) : Fin 3 := ⟨min v.toNat 2, by omega⟩

/-- The MODE field of VOLMODE (0..1). -/
def volModeOfField (v : Byte) : VolMode := if clampByte 0 1 v = 0#8 then .linear else .nonLinear

/-- The MODE field of OUTPUT (0..2). -/
def outModeOfField (v : Byte) : OutMode :=
  match (clampByte 0 2 v).toNat with
  | 0 => .mix
  | 1 => .overwrite
  | _ => .add

/-- The MODE field of SYNC (0..2). -/
def syncModeOfField (v : Byte) : SyncMode :=
  match (clampByte 0 2 v).toNat with
  | 0 => .off
  | 1 => .out
  | _ => .inp

/-- The VOWEL field (0..5). -/
def vowelOfField (v : Byte) : Vowel :=
  match (clampByte 0 5 v).toNat with
  | 0 => .off
  | 1 => .a
  | 2 => .e
  | 3 => .i
  | 4 => .o
  | _ => .u

/-- The TYPE field of LPF, an i8 clamped to −2..2 (30_encoding.md R145, 44_filter.md R440). -/
def filterTypeOfField (v : Byte) : FilterType :=
  match clampInt (-2) 2 v.toInt with
  | -2 => .fastHpf
  | -1 => .qualityHpf
  | 0 => .off
  | 1 => .qualityLpf
  | _ => .fastLpf

/-- The TYPE field was out of range. -/
def typeClamped (v : Byte) : Bool := clampInt (-2) 2 v.toInt != v.toInt

end Sys2Proof.Machine
end

