-- ==== Sys2Proof/Machine/Bus.lean ====
section
/-! DEFINITION. The host's reads and writes: the address map, the widths, the register file, the memories
(20_memory.md R100 to R108, 10_state.md R31 to R38). -/

namespace Sys2Proof.Machine

/-- The bytes of an access. -/
def Width.bytes : Width → Nat
  | .w1 => 1
  | .w2 => 2
  | .w4 => 4
  | .w8 => 8

/-- The address spaces (20_memory.md R100). -/
inductive Space where
  | reg | wave | out | dpcm | evm
  deriving DecidableEq, Repr

/-- The space of a host address and the offset in it, none when the address is unmapped (20_memory.md R101): each range
has its base, and the size that the capacities give it. -/
def locate (p : Params) (a : Nat) : Option (Space × Nat) :=
  if a < 0x1000 then some (.reg, a)
  else if 0x1000 ≤ a ∧ a < 0x1000 + Config.waveSize then some (.wave, a - 0x1000)
  else if 0x10000 ≤ a ∧ a < 0x10000 + 16 * p.blockMax then some (.out, a - 0x10000)
  else if 0x100000 ≤ a ∧ a < 0x100000 + p.dpcmSize then some (.dpcm, a - 0x100000)
  else if 0x1000000 ≤ a ∧ a < 0x1000000 + p.evmSize then some (.evm, a - 0x1000000)
  else none

/-- The widths a space allows for reads (20_memory.md R105). -/
def Space.readable : Space → Width → Bool
  | .reg, w => w == .w4
  | .out, w => w == .w4 || w == .w8
  | .wave, w | .dpcm, w | .evm, w => w != .w8

/-- The widths a space allows for writes (R105): none for OUT. -/
def Space.writable : Space → Width → Bool
  | .reg, w => w == .w4
  | .out, _ => false
  | .wave, w | .dpcm, w | .evm, w => w != .w8

/-- The access is naturally aligned (R105). -/
def aligned (a : Nat) (w : Width) : Bool := a % w.bytes == 0

/-- Where a read is performed, none when it is not (R101, R105). -/
def readTarget (p : Params) (addr : Word) (w : Width) : Option (Space × Nat) :=
  match locate p addr.toNat with
  | some (sp, off) => if aligned addr.toNat w && sp.readable w then some (sp, off) else none
  | none => none

/-- Where a write is performed, none when it is not (R101, R105). -/
def writeTarget (p : Params) (addr : Word) (w : Width) : Option (Space × Nat) :=
  match locate p addr.toNat with
  | some (sp, off) => if aligned addr.toNat w && sp.writable w then some (sp, off) else none
  | none => none

/-! ### The register file (10_state.md R31) -/

/-- A register or a reserved offset of the register file. -/
inductive Reg where
  | id | ctrl | status | ntracks | blockLen | sampleRate
  | trkBase (t : Fin 64) | trkLen (t : Fin 64)
  | dpcmBase (i : Fin 16) | dpcmBits (i : Fin 16) | dpcmCfg (i : Fin 16)
  | trkCursor (t : Fin 64) | trkStat (t : Fin 64)
  | reserved
  deriving DecidableEq, Repr

/-- The registers below 0x018 (R31). -/
def fixedReg : Nat → Reg
  | 0x000 => .id
  | 0x004 => .ctrl
  | 0x008 => .status
  | 0x00C => .ntracks
  | 0x010 => .blockLen
  | 0x014 => .sampleRate
  | _ => .reserved

/-- The row at byte `b` of a table with two registers for each of the tracks below `NTRACK_MAX` (R31). The rows of the
other tracks are reserved (DESIGN CHOICE, log 8). -/
def trackReg (p : Params) (first second : Fin 64 → Reg) (b : Nat) : Reg :=
  let t : Fin 64 := ⟨b / 8 % 64, by omega⟩
  if p.ntrackMax ≤ t then .reserved else if b % 8 = 0 then first t else if b % 8 = 4 then second t else .reserved

/-- The row at byte `b` of the table of the DPCM slots below `NDPCM` (R31, R38). The rows of the other slots are reserved
(DESIGN CHOICE, log 8). -/
def slotReg (p : Params) (b : Nat) : Reg :=
  let i : Fin 16 := ⟨b / 16 % 16, by omega⟩
  if p.ndpcm ≤ i then .reserved
  else if b % 16 = 0 then .dpcmBase i else if b % 16 = 4 then .dpcmBits i
  else if b % 16 = 8 then .dpcmCfg i else .reserved

/-- The register at an offset, by the table of R31; the offset is a multiple of 4 for every access performed. -/
def regAt (p : Params) (off : Nat) : Reg :=
  if off < 0x018 then fixedReg off
  else if off < 0x100 then .reserved
  else if off < 0x300 then trackReg p .trkBase .trkLen (off - 0x100)
  else if off < 0x400 then slotReg p (off - 0x300)
  else if off < 0x600 then trackReg p .trkCursor .trkStat (off - 0x400)
  else .reserved

/-- DPCM_CFG as a word: VOL in bits 6..0, LOOP in bit 8 (R31). -/
def DpcmSlot.cfgWord (d : DpcmSlot) : Word := BitVec.setWidth 32 d.vol ||| bitAt d.loop 8

/-- What a register reads as (R31). -/
def readReg (s : State) : Reg → Word
  | .id => Config.idValue
  | .ctrl => 0#32
  | .status => s.status.toWord
  | .ntracks => s.ntracks
  | .blockLen => s.blockLen
  | .sampleRate => BitVec.ofNat 32 Config.sampleRate
  | .trkBase t => s.trkBase.get t
  | .trkLen t => s.trkLen.get t
  | .dpcmBase i => (s.dpcmSlots.get i).base
  | .dpcmBits i => (s.dpcmSlots.get i).bits
  | .dpcmCfg i => (s.dpcmSlots.get i).cfgWord
  | .trkCursor t => (s.tracks.get t).cursor
  | .trkStat t => bitAt (s.tracks.get t).ended 0
  | .reserved => 0#32

/-- A write refused while RUNNING (R34): ignored, CMDERR. -/
def State.guardRunning (s : State) (f : State → State) : State := if s.status.running then s.flagCmderr else f s

/-- The registers of DPCM slot `i` changed by `f`. -/
def State.mapSlot (s : State) (i : Fin 16) (f : DpcmSlot → DpcmSlot) : State :=
  { s with dpcmSlots := vset s.dpcmSlots i (f (s.dpcmSlots.get i)) }

/-- What writing `v` to a register does (R31 to R35). Writes to read-only registers and reserved offsets are ignored. -/
def writeReg (p : Params) (s : State) (r : Reg) (v : Word) : State :=
  match r with
  | .ctrl => s.ctrlWrite v
  | .status => { s with status := s.status.writeOneToClear v }
  | .ntracks => s.guardRunning fun s =>
    State.flagClamp { s with ntracks := clampWord 1 p.ntrackMax v } (wordClamped 1 p.ntrackMax v)
  | .blockLen =>
    State.flagClamp { s with blockLen := clampWord 1 p.blockMax v } (wordClamped 1 p.blockMax v)
  | .trkBase t => s.guardRunning fun s => { s with trkBase := vset s.trkBase t (v &&& 0xFFFFFFE0#32) }
  | .trkLen t => s.guardRunning fun s => { s with trkLen := vset s.trkLen t v }
  | .dpcmBase i => s.mapSlot i fun d => { d with base := v }
  | .dpcmBits i => s.mapSlot i fun d => { d with bits := v }
  | .dpcmCfg i => s.mapSlot i fun d => { d with vol := v.extractLsb' 0 7, loop := v.getLsbD 8 }
  | .id | .sampleRate | .trkCursor _ | .trkStat _ | .reserved => s

/-! ### The memories -/

/-- The byte a host read returns; a byte of EVM or DPCM RAM that nothing has written is a free value (log 7). -/
def hostByte (s : State) : Space → Nat → Byte
  | .reg, _ => 0#8
  | .wave, a => s.waveByte a
  | .out, a => s.outByte a
  | .dpcm, a => (s.dpcmByte a).getD (Config.unwrittenDpcmByte a)
  | .evm, a => (s.evmByte a).getD (Config.unwrittenEvmByte a)

/-- The bytes at `a, a+1, …` of a space, `n` of them. -/
def hostBytes (s : State) (sp : Space) : Nat → Nat → List Byte
  | 0, _ => []
  | n + 1, a => hostByte s sp a :: hostBytes s sp n (a + 1)

/-- One byte written to a memory; OUT and REG are not written by bytes (R105). -/
def putByte (s : State) (sp : Space) (a : Nat) (b : Byte) : State :=
  match sp with
  | .wave => { s with wave := Cells.put 0#8 s.wave a b }
  | .dpcm => { s with dpcm := Cells.insert s.dpcm a b }
  | .evm => { s with evm := Cells.insert s.evm a b }
  | .reg | .out => s

/-- Bytes written at `a, a+1, …`. -/
def putBytes (s : State) (sp : Space) : Nat → List Byte → State
  | _, [] => s
  | a, b :: bs => putBytes (putByte s sp a b) sp (a + 1) bs

/-- A host read: its data, zero-extended to 64 bits, and the state after it. A read that is not performed returns 0
and sets BUSERR; no read has another effect (R105, R108). -/
def hostRead (p : Params) (addr : Word) (w : Width) (s : State) : BitVec 64 × State :=
  match readTarget p addr w with
  | some (.reg, off) => ((readReg s (regAt p off)).setWidth 64, s)
  | some (sp, off) => (BitVec.ofNat 64 (leNat (hostBytes s sp w.bytes off)), s)
  | none => (0#64, s.flagBuserr)

/-- A host write. A write that is not performed sets BUSERR (R105). -/
def hostWrite (p : Params) (addr : Word) (w : Width) (data : BitVec 64) (s : State) : State :=
  match writeTarget p addr w with
  | some (.reg, off) => writeReg p s (regAt p off) (data.setWidth 32)
  | some (sp, off) => putBytes s sp off (leBytes w.bytes data.toNat)
  | none => s.flagBuserr

/-- One host access performed: a read appends its data to the replies. -/
def hostAccess (p : Params) (s : State) : Access → State
  | .read addr w =>
    let (v, s') := hostRead p addr w s
    { s' with replies := s'.replies ++ [v] }
  | .write addr w data => hostWrite p addr w data s

end Sys2Proof.Machine
end

