-- ==== Sys2Proof/Machine/Envelope.lean ====
section
/-! DEFINITION. The ADSR envelope generator and the two envelope events (43_envelope.md). -/

namespace Sys2Proof.Machine

/-- `StartDecay(env)` (43_envelope.md R411). -/
def Envelope.startDecay (e : Envelope) : Envelope :=
  let e := { e with state := .decay, count := 0#32, len := e.D, target := e.S }
  if e.D = 0#32 then { e with value := e.S, state := .sustain, step := F64.zero }
  else { e with step := (F64.one.sub e.S).div (floatWord e.D) }

/-- `StartAttack(env)` (R410). -/
def Envelope.startAttack (e : Envelope) : Envelope :=
  let e := { e with state := .attack, count := 0#32, len := e.A, target := F64.one }
  if e.A = 0#32 then Envelope.startDecay { e with value := F64.one }
  else { e with step := (F64.one.sub e.value).div (floatWord e.A) }

/-- `Trigger(env, zeroStart)` (R410). -/
def Envelope.trigger (zeroStart : Bool) (e : Envelope) : Envelope :=
  Envelope.startAttack { e with value := if zeroStart then F64.zero else e.value, playing := true }

/-- `Release(env)` (R412). -/
def Envelope.releaseRamp (e : Envelope) : Envelope :=
  if !e.playing then e
  else
    let e := { e with state := .release, count := 0#32, len := e.R, target := F64.zero }
    if e.R = 0#32 then { e with value := F64.zero, state := .idle, playing := false }
    else { e with step := e.value.div (floatWord e.R) }

/-- The envelope after `Step(env)` (R413). -/
def Envelope.advance (e : Envelope) : Envelope :=
  match e.state with
  | .idle => e
  | .sustain => e
  | .attack =>
    let e := { e with count := e.count + 1#32 }
    if e.len ≤ e.count then Envelope.startDecay { e with value := F64.one }
    else { e with value := (e.value.add e.step).min F64.one }
  | .decay =>
    let e := { e with count := e.count + 1#32 }
    if e.len ≤ e.count then { e with value := e.target, state := .sustain }
    else { e with value := (e.value.sub e.step).max e.target }
  | .release =>
    let e := { e with count := e.count + 1#32, value := e.value.sub e.step }
    if decide (e.len ≤ e.count) || e.value.le F64.zero then { e with value := F64.zero, state := .idle, playing := false }
    else e

/-- `Step(env)`: the value before the step, and the envelope after it (R413). -/
def Envelope.stepRead (e : Envelope) : F64 × Envelope := (e.value, e.advance)

/-- The parameters that VCO_ENV and VCF_ENV write (R400, R401), SUS clamped to 0..65536. -/
def Envelope.setParams (atk dec sus rel : Word) (e : Envelope) : Envelope :=
  { e with A := atk, D := dec, S := q16 (clampWord 0 65536 sus), R := rel }

/-- VCO_ENV (43_envelope.md R400). -/
def execVcoEnv (delta atk dec sus rel : Word) (s : State) : Host.Outcome State Fault Refusal :=
  consume delta (wordClamped 0 65536 sus)
    (State.mapCh fun ch => { ch with env1 := ch.env1.setParams atk dec sus rel }) s

/-- VCF_ENV (43_envelope.md R401). -/
def execVcfEnv (delta atk dec sus rel : Word) (s : State) : Host.Outcome State Fault Refusal :=
  consume delta (wordClamped 0 65536 sus)
    (State.mapCh fun ch => { ch with env2 := ch.env2.setParams atk dec sus rel }) s

end Sys2Proof.Machine
end

