-- ==== Sys2Proof/Machine/Oscillator.lean ====
section
/-! DEFINITION. The thirteen modulator kinds, the Oscillator that owns one of each, the LFO window and read, hard
sync's reset, and the events FORM, PWM, NOISE_FREQ and LFO (42_oscillator.md). -/

namespace Sys2Proof.Machine

/-! ### Frequency and increment -/

/-- `PW_BITS = TABLE_BITS + FRAC_BITS`, the phase width (00_scope.md R9). -/
def pwBits (p : Params) : Nat := p.tableBits + p.fracBits

/-- `2^PW_BITS`, the phase modulus: the 2^30 and 1073741824 of the rules. DEDUCED away from the defaults (log 8). -/
def phaseMod (p : Params) : Nat := 2 ^ pwBits p

/-- The phase modulus as a binary64 value. -/
def phaseScale (p : Params) : F64 := F64.ofNat (phaseMod p)

/-- The index of a phase in a phase table, `Pr >> FRAC_BITS` (42_oscillator.md R336). -/
def tableIndex (p : Params) (pr : Nat) : Nat := pr / 2 ^ p.fracBits

/-- The step of a phase in a 32-step wave, its five top bits: `Pr >> 25` at 30 bits (R341, R344; DEDUCED
elsewhere, log 8). -/
def waveStep (p : Params) (pr : Nat) : Nat := pr / 2 ^ (pwBits p - 5)

/-- `Freq(p)` (42_oscillator.md R326). -/
def freqOf (p : Params) (pitch : F64) : F64 := p.freqTab (clampInt 0 Config.pMax pitch.floor).toNat

/-- `min(v, 2^PW_BITS − 1)` as an increment. -/
def capInc (p : Params) (v : Int) : Nat := (min v (phaseMod p - 1)).toNat

/-- `Inc(f)` (R327). -/
def incOf (p : Params) (f : F64) : Nat := capInc p ((f.mul (phaseScale p)).div (F64.ofNat Config.sampleRate)).floor

/-! ### Modulator state by kind -/

/-- `m.P` of a phase kind. -/
def Phases.get (ps : Phases) : PhaseKind → Nat
  | .sine => ps.sine
  | .saw => ps.saw
  | .triangle => ps.triangle
  | .pulse => ps.pulse
  | .noise => ps.noise
  | .fcPulse => ps.fcPulse
  | .fcTri => ps.fcTri
  | .gbWave => ps.gbWave

/-- `m.P <- v` of a phase kind. -/
def Phases.put (ps : Phases) (k : PhaseKind) (v : Nat) : Phases :=
  match k with
  | .sine => { ps with sine := v }
  | .saw => { ps with saw := v }
  | .triangle => { ps with triangle := v }
  | .pulse => { ps with pulse := v }
  | .noise => { ps with noise := v }
  | .fcPulse => { ps with fcPulse := v }
  | .fcTri => { ps with fcTri := v }
  | .gbWave => { ps with gbWave := v }

/-! ### Shapes of the phase kinds -/

/-- `(float(level) − 7.5)/7.5` of a 4-bit level (R341, R344). -/
def levelOut (level : Nat) : F64 := ((F64.ofNat level).sub (F64.lit 75 10)).div (F64.lit 75 10)

/-- `+1.0 if Pr < TH else −1.0` (R338, R340). -/
def pulseOut (pr th : Nat) : F64 := if pr < th then F64.one else F64.negOne

/-- `TH` of the PULSE kind (R338). -/
def pulseThreshold (p : Params) (pw : Byte) : Nat := pw.toNat * phaseMod p / 100

/-- `TH` of FC_PULSE by sub-form: an eighth, a quarter, a half and three quarters of the phase circle (R340;
DEDUCED away from 30 bits, log 8). -/
def dutyThreshold (p : Params) (sub : BitVec 4) : Nat := [1, 2, 4, 6].getD (min sub.toNat 3) 0 * phaseMod p / 8

/-- `Shape(m, Pr)` of a phase kind (R337 to R344), with `pw` the Channel's width and `sub` the Oscillator's sub-form. -/
def shape (p : Params) (s : State) (pw : Byte) (sub : BitVec 4) (k : PhaseKind) (pr : Nat) : F64 :=
  match k with
  | .sine => p.sineTab (tableIndex p pr)
  | .saw => p.sawTab (tableIndex p pr)
  | .triangle => p.triTab (tableIndex p pr)
  | .pulse => pulseOut pr (pulseThreshold p pw)
  | .noise => p.noiseTab (tableIndex p pr)
  | .fcPulse => pulseOut pr (dutyThreshold p sub)
  | .fcTri => levelOut (p.tri32 (waveStep p pr))
  | .gbWave => levelOut ((s.waveByte (32 * sub.toNat + waveStep p pr)).toNat % 16)

/-! ### LFSR kinds -/

/-- `Shift(m)`: the feedback bit `lfsr[0] xor lfsr[tap]` enters at the top as the register shifts right (R351). -/
def lfsrShift {w : Nat} (tap : Nat) (r : BitVec w) : BitVec w :=
  (r >>> 1) ||| (BitVec.ofBool (r.getLsbD 0 != r.getLsbD tap)).setWidth w <<< (w - 1)

/-- `n` shifts. -/
def lfsrShifts {w : Nat} (tap : Nat) : Nat → BitVec w → BitVec w
  | 0, r => r
  | n + 1, r => lfsrShifts tap n (lfsrShift tap r)

/-- The timer of one output sample: `acc + REF_NUM` less `T` as often as it goes, and how often it went (R351, R360).
`T` is `period × REF_DEN × SR`. -/
def timerTick (p : Params) (period acc : Nat) : Nat × Nat :=
  let total := acc + p.refNum
  let t := period * p.refDen * Config.sampleRate
  (total / t, total % t)

/-- The output of an LFSR: +1.0 when bit 0 is 0 (R351). -/
def lfsrOut {w : Nat} (m : Lfsr w) : F64 := if m.lfsr.getLsbD 0 then F64.negOne else F64.one

/-- The timer of an LFSR modulator over one output sample (R351). -/
def Lfsr.tick {w : Nat} (p : Params) (tap : Nat) (m : Lfsr w) : Lfsr w :=
  let (n, acc) := timerTick p (p.noisePeriod m.pidx) m.acc
  { m with acc := acc, lfsr := lfsrShifts tap n m.lfsr }

/-! ### DPCM kind -/

/-- Bit `j` of DPCM slot `slot`, least significant bit first (10_state.md R38); a model fault outside DPCM RAM or
where nothing was written (60_exceptions.md R506). -/
def dpcmBit (p : Params) (s : State) (slot : DpcmSlot) (j : Nat) : Except Fault Bool :=
  match s.dpcmRead p (slot.base.toNat + j / 8) with
  | some b => .ok (b.getLsbD (j % 8))
  | none => .error .dpcmRead

/-- The amplitude after one bit: up or down by 2, a step that would leave 0..127 dropped (42_oscillator.md R361). -/
def dpcmDelta (bit : Bool) (amp : BitVec 7) : BitVec 7 :=
  if bit then (if amp.toNat ≤ 125 then amp + 2#7 else amp) else (if 2 ≤ amp.toNat then amp - 2#7 else amp)

/-- The bit position the next clock reads, none at the end of a slot that does not loop (R361). -/
def dpcmPosition (slot : DpcmSlot) (m : Dpcm) : Option Word :=
  if slot.bits ≤ m.bitpos then (if slot.loop ∧ slot.bits ≠ 0#32 then some 0#32 else none) else some m.bitpos

/-- `DmcClock(m)` of slot `slot` (R361). -/
def dmcClock (p : Params) (s : State) (slot : DpcmSlot) (m : Dpcm) : Except Fault Dpcm :=
  match dpcmPosition slot m with
  | none => .ok m
  | some pos =>
    match dpcmBit p s slot pos.toNat with
    | .error f => .error f
    | .ok b => .ok { m with amp := dpcmDelta b m.amp, bitpos := pos + 1#32 }

/-- `n` clocks. -/
def dmcClocks (p : Params) (s : State) (slot : DpcmSlot) : Nat → Dpcm → Except Fault Dpcm
  | 0, m => .ok m
  | n + 1, m =>
    match dmcClock p s slot m with
    | .error f => .error f
    | .ok m' => dmcClocks p s slot n m'

/-- `(float(m.amp) − 64.0)/64.0` (R360). -/
def dpcmOut (m : Dpcm) : F64 := ((F64.ofNat m.amp.toNat).sub (F64.ofNat 64)).div (F64.ofNat 64)

/-- The timer of the DPCM modulator over one output sample (R360). -/
def Dpcm.tick (p : Params) (s : State) (slot : DpcmSlot) (m : Dpcm) : Except Fault Dpcm :=
  let (n, acc) := timerTick p (p.dpcmRate m.pidx) m.acc
  dmcClocks p s slot n { m with acc := acc }

/-! ### The modulator interface (R330 to R335) -/

/-- The slot that the Oscillator's sub-form selects (R360). -/
def dpcmSlotOf (s : State) (o : Oscillator) : DpcmSlot := s.dpcmSlots.get ⟨o.sub.toNat, o.sub.isLt⟩

/-- The Oscillator after its selected LFSR modulator has run one output sample; taps as in R351. -/
def Oscillator.tickLfsr (p : Params) (o : Oscillator) : LfsrKind → Oscillator
  | .fcNoise => { o with fcNoise := o.fcNoise.tick p 1 }
  | .fcSNoise => { o with fcSNoise := o.fcSNoise.tick p 6 }
  | .gbNoise => { o with gbNoise := o.gbNoise.tick p 1 }
  | .gbSNoise => { o with gbSNoise := o.gbSNoise.tick p 1 }

/-- The output of an LFSR kind. -/
def Oscillator.lfsrSample (o : Oscillator) : LfsrKind → F64
  | .fcNoise => lfsrOut o.fcNoise
  | .fcSNoise => lfsrOut o.fcSNoise
  | .gbNoise => lfsrOut o.gbNoise
  | .gbSNoise => lfsrOut o.gbSNoise

/-- `NextSampleFrom(m, off)` of the selected modulator: the sample, the wrap flag and the Oscillator after it. Phase
kinds read at `P + off` and advance from `P` (R333); LFSR and DPCM kinds ignore the offset and never wrap (R354,
R364). Only the selected modulator changes (R331). -/
def Oscillator.nextFrom (p : Params) (s : State) (pw : Byte) (o : Oscillator) (off : Nat) :
    Except Fault (F64 × Bool × Oscillator) :=
  match o.form with
  | .phase k =>
    let ph := o.phases.get k
    .ok (shape p s pw o.sub k ((ph + off) % phaseMod p), decide (phaseMod p ≤ ph + o.inc),
      { o with phases := o.phases.put k ((ph + o.inc) % phaseMod p) })
  | .lfsr k => .ok (o.lfsrSample k, false, o.tickLfsr p k)
  | .dpcm =>
    match o.dpcm.tick p s (dpcmSlotOf s o) with
    | .error f => .error f
    | .ok m => .ok (dpcmOut o.dpcm, false, { o with dpcm := m })

/-- `NextSample(m)` is `NextSampleFrom(m, 0)` (R333, R354, R364). -/
def Oscillator.next (p : Params) (s : State) (pw : Byte) (o : Oscillator) : Except Fault (F64 × Bool × Oscillator) :=
  o.nextFrom p s pw 0

/-- `n` samples with the outputs discarded. -/
def Oscillator.skip (p : Params) (s : State) (pw : Byte) : Nat → Oscillator → Except Fault Oscillator
  | 0, o => .ok o
  | n + 1, o =>
    match o.next p s pw with
    | .error f => .error f
    | .ok (_, _, o') => Oscillator.skip p s pw n o'

/-- `AddPhase(m, n)` (R334). -/
def Oscillator.addPhase (p : Params) (s : State) (pw : Byte) (o : Oscillator) (n : Nat) : Except Fault Oscillator :=
  match o.form with
  | .phase k => .ok { o with phases := o.phases.put k ((o.phases.get k + n * o.inc) % phaseMod p) }
  | .lfsr _ => Oscillator.skip p s pw n o
  | .dpcm => Oscillator.skip p s pw n o

/-- `acc` plus the NOISE table at the phases `ph + j·inc` for `n` values of `j` from the given one on, in ascending order
(R335). -/
def noiseSum (p : Params) (ph inc : Nat) : Nat → Nat → F64 → F64
  | 0, _, acc => acc
  | n + 1, j, acc =>
    noiseSum p ph inc n (j + 1) (acc.add (p.noiseTab (tableIndex p ((ph + j * inc) % phaseMod p))))

/-- `LfoRead(m, n)`, `n ≥ 1` (R335): the LFO value of a sub-block and the Oscillator after it. -/
def Oscillator.lfoRead (p : Params) (s : State) (pw : Byte) (o : Oscillator) (n : Nat) : Except Fault (F64 × Oscillator) :=
  match o.form with
  | .phase .noise =>
    let v := (noiseSum p o.phases.noise o.inc n 0 F64.zero).div (F64.ofNat n)
    match o.addPhase p s pw n with
    | .error f => .error f
    | .ok o' => .ok (v, o')
  | .phase k =>
    let v := shape p s pw o.sub k (o.phases.get k)
    match o.addPhase p s pw n with
    | .error f => .error f
    | .ok o' => .ok (v, o')
  | .lfsr _ | .dpcm =>
    match o.next p s pw with
    | .error f => .error f
    | .ok (v, _, o') =>
      match o'.addPhase p s pw (n - 1) with
      | .error f => .error f
      | .ok o'' => .ok (v, o'')

/-! ### Reset of modulators (R332, R363) -/

/-- `ResetPhase` of an LFSR modulator: register 1, timer 0; `pidx` kept. -/
def Lfsr.resetPhase {w : Nat} (m : Lfsr w) : Lfsr w := { m with lfsr := 1#w, acc := 0 }

/-- `ResetPhase` of the DPCM modulator: the slot's VOL, position 0, timer 0; `pidx` kept (R363). -/
def Dpcm.resetPhase (slot : DpcmSlot) (m : Dpcm) : Dpcm := { m with amp := slot.vol, bitpos := 0#32, acc := 0 }

/-- `ResetPhase` of the selected modulator (R332, R370). -/
def Oscillator.resetSelected (s : State) (o : Oscillator) : Oscillator :=
  match o.form with
  | .phase k => { o with phases := o.phases.put k 0 }
  | .lfsr .fcNoise => { o with fcNoise := o.fcNoise.resetPhase }
  | .lfsr .fcSNoise => { o with fcSNoise := o.fcSNoise.resetPhase }
  | .lfsr .gbNoise => { o with gbNoise := o.gbNoise.resetPhase }
  | .lfsr .gbSNoise => { o with gbSNoise := o.gbSNoise.resetPhase }
  | .dpcm => { o with dpcm := o.dpcm.resetPhase (dpcmSlotOf s o) }

/-- `ResetPhase` of every modulator (41_channel.md R250). -/
def Oscillator.resetAll (s : State) (o : Oscillator) : Oscillator :=
  { o with
    phases := Phases.reset, fcNoise := o.fcNoise.resetPhase, fcSNoise := o.fcSNoise.resetPhase
    gbNoise := o.gbNoise.resetPhase, gbSNoise := o.gbSNoise.resetPhase
    dpcm := o.dpcm.resetPhase (dpcmSlotOf s o) }

/-- The period index of every LFSR and DPCM modulator (41_channel.md R250, 42_oscillator.md R353). -/
def Oscillator.setPidx (x : BitVec 4) (o : Oscillator) : Oscillator :=
  { o with
    fcNoise := { o.fcNoise with pidx := x }, fcSNoise := { o.fcSNoise with pidx := x }
    gbNoise := { o.gbNoise with pidx := x }, gbSNoise := { o.gbSNoise with pidx := x }
    dpcm := { o.dpcm with pidx := x } }

/-! ### LFO window and increment (R325) -/

/-- `LfoActive()`. -/
def lfoActive (ch : Channel) : Bool :=
  F64.zero.lt ch.lfoWidth && decide (ch.lfoDepth ≠ 0#32) && ch.lfoDelay.le (F64.ofNat ch.oncount.toNat) &&
  (ch.lfoLen.isZero || (F64.ofNat ch.oncount.toNat).lt (ch.lfoDelay.add ch.lfoLen))

/-- `LfoInc()`. -/
def lfoInc (p : Params) (ch : Channel) : Nat := capInc p ((phaseScale p).div ch.lfoWidth).floor

/-! ### Events -/

/-- FORM (42_oscillator.md R321). -/
def execForm (delta : Word) (form sub : Byte) (s : State) : Host.Outcome State Fault Refusal :=
  consume delta (byteClamped 0 12 form || byteClamped 0 15 sub)
    (State.mapCh fun ch => { ch with osc1 := { ch.osc1 with form := kindOfField form, sub := subOfField sub } }) s

/-- PWM (R322). -/
def execPwm (delta : Word) (pw : Byte) (s : State) : Host.Outcome State Fault Refusal :=
  consume delta (byteClamped 1 99 pw) (State.mapCh fun ch => { ch with pw := clampByte 1 99 pw }) s

/-- NOISE_FREQ (R323). -/
def execNoiseFreq (delta mhz : Word) (s : State) : Host.Outcome State Fault Refusal :=
  consume delta false (State.mapCh fun ch => { ch with noisefreq := mhz }) s

/-- LFO (R324): the tick-valued operands become samples with the samples per tick of the moment. -/
def execLfo (delta : Word) (form sub : Byte) (rev : BitVec 1) (depth width delay len : Word) (s : State) :
    Host.Outcome State Fault Refusal :=
  consume delta (byteClamped 0 12 form || byteClamped 0 15 sub)
    (fun s => s.mapCh fun ch =>
      { ch with
        osc2 := { ch.osc2 with form := kindOfField form, sub := subOfField sub }
        lfoRev := rev.getLsbD 0
        lfoDepth := depth
        lfoWidth := (floatWord width).mul s.tr.spt
        lfoDelay := (floatWord delay).mul s.tr.spt
        lfoLen := (floatWord len).mul s.tr.spt }) s

end Sys2Proof.Machine
end

