-- ==== Sys2Proof/Machine/Channel.lean ====
section
/-! DEFINITION. The events that act on a Channel as a whole: notes, levels, pan and routing (41_channel.md sections 1
to 3). -/

namespace Sys2Proof.Machine

/-- `EnableNote` with clamped operands (41_channel.md R250). -/
def enableNote (s : State) (note vel : Byte) (ch : Channel) : Channel :=
  { ch with
    note := note
    vel := vel
    env1 := ch.env1.trigger false
    env2 := ch.env2.trigger true
    osc1 := (ch.osc1.resetAll s).setPidx (BitVec.ofNat 4 note.toNat)
    osc2 := (ch.osc2.resetAll s).setPidx (BitVec.ofNat 4 note.toNat)
    fb := Vector.replicate 5 F64.zero
    fm := Vector.replicate 10 F64.zero
    oncount := 0#64 }

/-- `DisableNote`: both envelopes enter release (41_channel.md R251). -/
def disableNote (ch : Channel) : Channel :=
  { ch with env1 := ch.env1.releaseRamp, env2 := ch.env2.releaseRamp }

/-- NOTE_ON (R250). -/
def execNoteOn (delta : Word) (note vel : Byte) (s : State) : Host.Outcome State Fault Refusal :=
  consume delta (byteClamped 0 143 note || byteClamped 0 127 vel)
    (fun s => s.mapCh (enableNote s (clampByte 0 143 note) (clampByte 0 127 vel))) s

/-- NOTE_OFF (R251): its operands are not used and not clamped. -/
def execNoteOff (delta : Word) (_note _vel : Byte) (s : State) : Host.Outcome State Fault Refusal :=
  consume delta false (State.mapCh disableNote) s

/-- NOTE (R252): the pitch only. -/
def execNote (delta : Word) (note : Byte) (s : State) : Host.Outcome State Fault Refusal :=
  consume delta (byteClamped 0 143 note) (State.mapCh fun ch => { ch with note := clampByte 0 143 note }) s

/-- DETUNE (R255). -/
def execDetune (delta cents : Word) (s : State) : Host.Outcome State Fault Refusal :=
  consume delta false (State.mapCh fun ch => { ch with detune := cents }) s

/-- EXPRESSION (R256). -/
def execExpression (delta : Word) (expr : Byte) (s : State) : Host.Outcome State Fault Refusal :=
  consume delta (byteClamped 0 127 expr) (State.mapCh fun ch => { ch with expr := clampByte 0 127 expr }) s

/-- VOLMODE (R257). -/
def execVolmode (delta : Word) (mode : Byte) (s : State) : Host.Outcome State Fault Refusal :=
  consume delta (byteClamped 0 1 mode) (State.mapCh fun ch => { ch with volmode := volModeOfField mode }) s

/-- PAN (R258). -/
def execPan (delta : Word) (pan : Byte) (s : State) : Host.Outcome State Fault Refusal :=
  consume delta (byteClamped 1 127 pan) (State.mapCh fun ch => { ch with pan := clampByte 1 127 pan }) s

/-- INPUT (R259). -/
def execInput (delta : Word) (pipe : Byte) (sens : Word) (s : State) : Host.Outcome State Fault Refusal :=
  consume delta (byteClamped 0 2 pipe)
    (State.mapCh fun ch => { ch with inPipe := pipeOfField pipe, inSens := q16 sens }) s

/-- OUTPUT (R260). -/
def execOutput (delta : Word) (pipe mode : Byte) (s : State) : Host.Outcome State Fault Refusal :=
  consume delta (byteClamped 0 2 pipe || byteClamped 0 2 mode)
    (State.mapCh fun ch => { ch with outPipe := pipeOfField pipe, outMode := outModeOfField mode }) s

/-- RING (R261). -/
def execRing (delta : Word) (pipe : Byte) (sens : Word) (s : State) : Host.Outcome State Fault Refusal :=
  consume delta (byteClamped 0 2 pipe)
    (State.mapCh fun ch => { ch with ringPipe := pipeOfField pipe, ringSens := q16 sens }) s

/-- SYNC (R262). -/
def execSync (delta : Word) (pipe mode : Byte) (s : State) : Host.Outcome State Fault Refusal :=
  consume delta (byteClamped 0 2 pipe || byteClamped 0 2 mode)
    (State.mapCh fun ch => { ch with syncPipe := pipeOfField pipe, syncMode := syncModeOfField mode }) s

end Sys2Proof.Machine
end

