-- ==== Sys2Proof/Machine/Control.lean ====
section
/-! DEFINITION. The control events TEMPO, CLOSE and EOT and the reserved kinds (40_track_dispatch.md section 3). -/

namespace Sys2Proof.Machine

/-- The samples per tick of a tempo in milli-BPM: `44100.0 / (bpm × 96.0 / 60.0)` (40_track_dispatch.md R220). -/
def sptOfTempo (mbpm : Word) : F64 :=
  let bpm := (floatWord mbpm).div (F64.ofNat 1000)
  (F64.ofNat Config.sampleRate).div ((bpm.mul (F64.ofNat 96)).div (F64.ofNat 60))

/-- TEMPO (R220): MBPM clamped to at least 1. -/
def execTempo (delta mbpm : Word) (s : State) : Host.Outcome State Fault Refusal :=
  consume delta (wordClamped 1 0xFFFFFFFF mbpm)
    (fun s => s.setTr { s.tr with spt := sptOfTempo (clampWord 1 0xFFFFFFFF mbpm) }) s

/-- CLOSE (R221): `DisableNote`. -/
def execClose (delta : Word) (s : State) : Host.Outcome State Fault Refusal :=
  consume delta false (State.mapCh disableNote) s

/-- EOT (R222): the track ends; on the tempo track STATUS.END is set. -/
def execEot (delta : Word) (s : State) : Host.Outcome State Fault Refusal :=
  consume delta false
    (fun s =>
      let s' := s.setTr { s.tr with ended := true }
      if s.engine.track = 0 then s'.setEnd else s') s

/-- What applying any reserved record does: STATUS.UNK, its DELTA consumed, nothing clamped (R223, 60_exceptions.md
R504). -/
def consumeReserved (delta : Word) (s : State) : Host.Outcome State Fault Refusal := consume delta false State.flagUnk s

/-- Reserved KIND 0x00 (R223). -/
def execReserved00 (delta : Word) (s : State) : Host.Outcome State Fault Refusal := consumeReserved delta s

/-- Reserved KIND 0x17 (R223). -/
def execReserved17 (delta : Word) (s : State) : Host.Outcome State Fault Refusal := consumeReserved delta s

/-- Reserved KIND 0x18 .. 0x1F (R223). -/
def execReserved18 (delta : Word) (_kind : Byte) (s : State) : Host.Outcome State Fault Refusal :=
  consumeReserved delta s

/-- Reserved KIND 0x20 .. 0x3F (R223). -/
def execReserved20 (delta : Word) (_kind : Byte) (s : State) : Host.Outcome State Fault Refusal :=
  consumeReserved delta s

/-- Reserved KIND 0x40 .. 0x7F (R223). -/
def execReserved40 (delta : Word) (_kind : Byte) (s : State) : Host.Outcome State Fault Refusal :=
  consumeReserved delta s

/-- Reserved KIND 0x80 .. 0xFF (R223). -/
def execReserved80 (delta : Word) (_kind : Byte) (s : State) : Host.Outcome State Fault Refusal :=
  consumeReserved delta s

end Sys2Proof.Machine
end

