-- ==== Sys2Proof/Machine/Filter.lean ====
section
/-! DEFINITION. The resonant filter and the LPF event (44_filter.md). -/

namespace Sys2Proof.Machine

/-- `AMT_EPS`, 0.0001 (00_scope.md R9). -/
def amtEps : F64 := F64.lit 1 10000

/-- The coefficient of a filter mode, or none when the filter is off (44_filter.md R443, R444). -/
inductive Coef where
  | off
  | quality (c : QCoef)
  | fast (c : FCoef)
  deriving DecidableEq, Repr

/-- `Coef(type, fc)` (R443, R444). -/
def filterCoef (p : Params) (t : FilterType) (fres fc : F64) : Coef :=
  match t with
  | .off => .off
  | .qualityLpf | .qualityHpf => .quality (p.qcoef fres fc)
  | .fastLpf | .fastHpf => .fast (p.fcoef fres fc)

/-- The two stages of a quality filter for one sample: the new `b0` and `b1` (R443). -/
def qualityStages (c : QCoef) (b0 b1 x : F64) : F64 × F64 :=
  let b0' := b0.add (c.f.mul ((x.sub b0).add (c.fbk.mul (b0.sub b1))))
  let b1' := b1.add (c.f.mul (b0'.sub b1))
  (b0', b1')

/-- `Filt(±1, c, x)`: the output and the delay line after it (R443). `fb[2..4]` are not used. -/
def qualityFilt (hpf : Bool) (c : QCoef) (fb : Vector F64 5) (x : F64) : F64 × Vector F64 5 :=
  let (b0, b1) := qualityStages c fb[0] fb[1] x
  (if hpf then x.sub b1 else b1, #v[b0, b1, fb[2], fb[3], fb[4]])

/-- The input after resonance feedback, and the new stages `b1 .. b4` of a fast filter, `b4` saturated (R444). -/
def fastStages (c : FCoef) (fb : Vector F64 5) (x : F64) : F64 × F64 × F64 × F64 × F64 :=
  let xi := x.sub (c.k.mul fb[4])
  let b1 := ((xi.add fb[0]).mul c.p).sub (fb[1].mul c.fk)
  let b2 := ((b1.add fb[1]).mul c.p).sub (fb[2].mul c.fk)
  let b3 := ((b2.add fb[2]).mul c.p).sub (fb[3].mul c.fk)
  let b4 := ((b3.add fb[3]).mul c.p).sub (fb[4].mul c.fk)
  let b4 := b4.sub (((b4.mul b4).mul b4).mul (F64.lit 166667 1000000))
  (xi, b1, b2, b3, b4)

/-- `Filt(±2, c, x)`: the output and the delay line after it (R444). -/
def fastFilt (hpf : Bool) (c : FCoef) (fb : Vector F64 5) (x : F64) : F64 × Vector F64 5 :=
  let (xi, b1, b2, b3, b4) := fastStages c fb x
  (if hpf then xi.sub b4 else b4, #v[xi, b1, b2, b3, b4])

/-- `Filt(type, c, x)`; a filter that is off passes its input (R441). -/
def filt (hpf : Bool) (c : Coef) (fb : Vector F64 5) (x : F64) : F64 × Vector F64 5 :=
  match c with
  | .off => (x, fb)
  | .quality c => qualityFilt hpf c fb x
  | .fast c => fastFilt hpf c fb x

/-- The type is one of the high-pass modes (R440). -/
def FilterType.isHpf : FilterType → Bool
  | .fastHpf | .qualityHpf => true
  | .off | .qualityLpf | .fastLpf => false

/-- `abs(float(ch.famt)) ≥ AMT_EPS` (R441). -/
def filterModulated (ch : Channel) : Bool := amtEps.le (F64.ofInt ch.famt.toInt).abs

/-- The cutoff of a sample, in Hz: modulated by the VCF envelope value `e`, or from `ch.fcut` alone (R441, R442). -/
def cutoffHz (p : Params) (ch : Channel) (e : F64) : F64 :=
  if filterModulated ch then freqOf p ((F64.ofInt ch.fcut.toInt).add ((F64.ofInt ch.famt.toInt).mul e))
  else freqOf p (F64.ofInt ch.fcut.toInt)

/-- `FilterStage` on one sample: `env2` steps in every type, then the sample is filtered (R441). The coefficient of
an unmodulated filter is that of `ch.fcut`, the same for every sample of the chunk (R442). -/
def filterSample (p : Params) (ch : Channel) (x : F64) : F64 × Channel :=
  let (e, env2) := ch.env2.stepRead
  let (y, fb) := filt ch.ftype.isHpf (filterCoef p ch.ftype ch.fres (cutoffHz p ch e)) ch.fb x
  (y, { ch with env2 := env2, fb := fb })

/-- LPF (44_filter.md R440): a change of type clears the delay line. -/
def execLpf (delta : Word) (ftype : Byte) (amt cut res : Word) (s : State) : Host.Outcome State Fault Refusal :=
  consume delta (typeClamped ftype || wordClamped 0 65536 res)
    (State.mapCh fun ch =>
      { ch with
        fb := if filterTypeOfField ftype ≠ ch.ftype then Vector.replicate 5 F64.zero else ch.fb
        ftype := filterTypeOfField ftype
        famt := amt
        fcut := cut
        fres := q16 (clampWord 0 65536 res) }) s

end Sys2Proof.Machine
end

