-- ==== Sys2Proof/Machine/Formant.lean ====
section
/-! DEFINITION. The formant filter and the VOWEL event (45_formant.md). -/

namespace Sys2Proof.Machine

/-- The row of `FORMANT_COEF` of a vowel, `ch.vowel − 1`; none when no vowel is active (45_formant.md R471). -/
def Vowel.row : Vowel → Option Nat
  | .off => none
  | .a => some 0
  | .e => some 1
  | .i => some 2
  | .o => some 3
  | .u => some 4

/-- The sum of R471 in its order: `acc + c[1]·fm[0] + c[2]·fm[1] + …`. -/
def formantSum (c : Nat → F64) : Nat → List F64 → F64 → F64
  | _, [], acc => acc
  | j, h :: hs, acc => formantSum c (j + 1) hs (acc.add ((c j).mul h))

/-- `Formant(x)` with a row of coefficients: the output, and the history with it shifted in (R471). -/
def formantStep (c : Nat → F64) (fm : Vector F64 10) (x : F64) : F64 × Vector F64 10 :=
  let y := formantSum c 1 fm.toList ((c 0).mul x)
  (y, #v[y, fm[0], fm[1], fm[2], fm[3], fm[4], fm[5], fm[6], fm[7], fm[8]])

/-- `FormantStage` on one sample (41_channel.md R289): with no vowel the sample passes and the history is kept. -/
def formantSample (p : Params) (ch : Channel) (x : F64) : F64 × Channel :=
  match ch.vowel.row with
  | none => (x, ch)
  | some v =>
    let (y, fm) := formantStep (p.formantCoef v) ch.fm x
    (y, { ch with fm := fm })

/-- VOWEL (45_formant.md R470): a change of vowel clears the history. -/
def execVowel (delta : Word) (vowel : Byte) (s : State) : Host.Outcome State Fault Refusal :=
  consume delta (byteClamped 0 5 vowel)
    (State.mapCh fun ch =>
      { ch with
        fm := if vowelOfField vowel ≠ ch.vowel then Vector.replicate 10 F64.zero else ch.fm
        vowel := vowelOfField vowel }) s

end Sys2Proof.Machine
end

