-- ==== Sys2Proof/Machine/Dispatch.lean ====
section
/-! DEFINITION. One arm for each instruction: the call of its meaning. A meaning is the whole of what applying the
record does to the track being processed (40_track_dispatch.md R210 to R213). -/

namespace Sys2Proof.Machine

def exec (i : Instr) (s : State) : Host.Outcome State Fault Refusal :=
  match i with
  | .noteOn d n v => Sys2Proof.Machine.execNoteOn d n v s
  | .noteOff d n v => Sys2Proof.Machine.execNoteOff d n v s
  | .note d n => Sys2Proof.Machine.execNote d n s
  | .tempo d m => Sys2Proof.Machine.execTempo d m s
  | .form d f b => Sys2Proof.Machine.execForm d f b s
  | .vcoEnv d a e u r => Sys2Proof.Machine.execVcoEnv d a e u r s
  | .vcfEnv d a e u r => Sys2Proof.Machine.execVcfEnv d a e u r s
  | .noiseFreq d m => Sys2Proof.Machine.execNoiseFreq d m s
  | .pwm d p => Sys2Proof.Machine.execPwm d p s
  | .pan d p => Sys2Proof.Machine.execPan d p s
  | .vowel d v => Sys2Proof.Machine.execVowel d v s
  | .detune d c => Sys2Proof.Machine.execDetune d c s
  | .lfo d f b z dep w del len => Sys2Proof.Machine.execLfo d f b z dep w del len s
  | .lpf d t a c r => Sys2Proof.Machine.execLpf d t a c r s
  | .volmode d m => Sys2Proof.Machine.execVolmode d m s
  | .input d p x => Sys2Proof.Machine.execInput d p x s
  | .output d p m => Sys2Proof.Machine.execOutput d p m s
  | .expression d e => Sys2Proof.Machine.execExpression d e s
  | .ring d p x => Sys2Proof.Machine.execRing d p x s
  | .sync d p m => Sys2Proof.Machine.execSync d p m s
  | .close d => Sys2Proof.Machine.execClose d s
  | .eot d => Sys2Proof.Machine.execEot d s
  | .reserved00 d => Sys2Proof.Machine.execReserved00 d s
  | .reserved17 d => Sys2Proof.Machine.execReserved17 d s
  | .reserved18 d k => Sys2Proof.Machine.execReserved18 d k s
  | .reserved20 d k => Sys2Proof.Machine.execReserved20 d k s
  | .reserved40 d k => Sys2Proof.Machine.execReserved40 d k s
  | .reserved80 d k => Sys2Proof.Machine.execReserved80 d k s

end Sys2Proof.Machine
end

