-- ==== Sys2Proof/Machine/Render.lean ====
section
/-! DEFINITION. The Channel's render pipeline (41_channel.md section 4): carrier, amplitude, ring, formant, filter and
output, each stage over the whole chunk before the next begins. Every definition takes the OPEN parameters `p`. -/

namespace Sys2Proof.Machine

/-- The three sync buffers. -/
abbrev Syncs := Vector (Cells Bool) 3

/-! ### Writing the shared buffers -/

/-- `PIPE[i][k] <- v`. -/
def State.setPipe (s : State) (i : Fin 3) (k : Nat) (v : F64) : State :=
  { s with pipes := vset s.pipes i (Cells.put F64.zero (s.pipes.get i) k v) }

/-- `SYNC[i][k] <- w` on the three buffers. -/
def setSync (sy : Syncs) (i : Fin 3) (k : Nat) (w : Bool) : Syncs := vset sy i (Cells.put false (sy.get i) k w)

/-- `OUT[j] <- v`. -/
def State.setOut (s : State) (j : Nat) (v : F64) : State := { s with out := Cells.put F64.zero s.out j v }

/-! ### Pitch (R282) -/

/-- `pbase = float(100·ch.note + ch.detune)`. -/
def basePitch (ch : Channel) : F64 := F64.ofInt (100 * (ch.note.toNat : Int) + ch.detune.toInt)

/-- `CarrierInc(p)`. -/
def carrierInc (p : Params) (ch : Channel) (pitch : F64) : Nat :=
  if ch.osc1.form = .phase .noise ∧ ch.noisefreq ≠ 0#32 then incOf p ((floatWord ch.noisefreq).div (F64.ofNat 1000))
  else incOf p (freqOf p pitch)

/-- `osc1.inc <- v`. -/
def Channel.setInc1 (ch : Channel) (v : Nat) : Channel := { ch with osc1 := { ch.osc1 with inc := v } }

/-! ### Carrier (R283, R284) -/

/-- One carrier sample at index `k` read with phase offset `off`: sync in, the sample, sync out, `oncount` (R283,
R284, 42_oscillator.md R370, R371). -/
def carrierSample (p : Params) (s : State) (off k : Nat) (ch : Channel) (sy : Syncs) :
    Except Fault (F64 × Channel × Syncs) :=
  let osc := if ch.syncMode = .inp ∧ Cells.get false (sy.get ch.syncPipe) k then ch.osc1.resetSelected s else ch.osc1
  match osc.nextFrom p s ch.pw off with
  | .error f => .error f
  | .ok (y, w, osc') =>
    .ok (y, { ch with osc1 := osc', oncount := ch.oncount + 1#64 },
      if ch.syncMode = .out then setSync sy ch.syncPipe k w else sy)

/-- `n` carrier samples from index `k` on, the offset of each given by `off`. -/
def carrierRun (p : Params) (s : State) (off : Nat → Nat) :
    Nat → Nat → Channel → Syncs → Except Fault (List F64 × Channel × Syncs)
  | 0, _, ch, sy => .ok ([], ch, sy)
  | n + 1, k, ch, sy =>
    match carrierSample p s (off k) k ch sy with
    | .error f => .error f
    | .ok (y, ch', sy') =>
      match carrierRun p s off n (k + 1) ch' sy' with
      | .error f => .error f
      | .ok (ys, r) => .ok (y :: ys, r)

/-- `PhaseOffset(x)` (R283). -/
def phaseOffset (p : Params) (x : F64) : Nat :=
  if x.isFinite then ((x.mul (phaseScale p)).floor % phaseMod p).toNat else 0

/-- `CarrierFM(k0, L)` (R283). -/
def carrierFM (p : Params) (s : State) (k0 len : Nat) (ch : Channel) : Except Fault (List F64 × Channel × Syncs) :=
  carrierRun p s (fun k => phaseOffset p ((s.pipeAt ch.inPipe k).mul ch.inSens)) len k0
    (ch.setInc1 (carrierInc p ch (basePitch ch))) s.syncs

/-- The pitch of an LFO sub-block of `n` samples, and the Channel with `osc2` advanced (R284). -/
def lfoPitch (p : Params) (s : State) (n : Nat) (ch : Channel) : Except Fault (F64 × Channel) :=
  if lfoActive ch then
    match Oscillator.lfoRead p s ch.pw { ch.osc2 with inc := lfoInc p ch } n with
    | .error f => .error f
    | .ok (v, osc2) =>
      .ok ((basePitch ch).add ((F64.ofInt ch.lfoDepth.toInt).mul (if ch.lfoRev then v.neg else v)),
        { ch with osc2 := osc2 })
  else .ok (basePitch ch, ch)

/-- One LFO sub-block of `n` samples from index `k` on (R284). -/
def lfoSubBlock (p : Params) (s : State) (n k : Nat) (ch : Channel) (sy : Syncs) :
    Except Fault (List F64 × Channel × Syncs) :=
  match lfoPitch p s n ch with
  | .error f => .error f
  | .ok (pitch, ch') => carrierRun p s (fun _ => 0) n k (ch'.setInc1 (carrierInc p ch' pitch)) sy

/-- The sub-blocks of `CarrierLFO` for `rest` samples from index `k` on; `fuel` bounds their number (R284). -/
def lfoSubBlocks (p : Params) (s : State) : Nat → Nat → Nat → Channel → Syncs → Except Fault (List F64 × Channel × Syncs)
  | 0, _, _, ch, sy => .ok ([], ch, sy)
  | fuel + 1, rest, k, ch, sy =>
    if rest = 0 then .ok ([], ch, sy)
    else
      let n := min p.lfoBatch rest
      match lfoSubBlock p s n k ch sy with
      | .error f => .error f
      | .ok (ys, ch', sy') =>
        match lfoSubBlocks p s fuel (rest - n) (k + n) ch' sy' with
        | .error f => .error f
        | .ok (zs, r) => .ok (ys ++ zs, r)

/-- `CarrierLFO(k0, L)` (R284). -/
def carrierLFO (p : Params) (s : State) (k0 len : Nat) (ch : Channel) : Except Fault (List F64 × Channel × Syncs) :=
  lfoSubBlocks p s len len k0 ch s.syncs

/-- The carrier stage of `ChannelRender`: FM when `ch.in_sens ≠ 0`, else LFO (R280). -/
def carrier (p : Params) (s : State) (k0 len : Nat) (ch : Channel) : Except Fault (List F64 × Channel × Syncs) :=
  if ch.inSens.isZero then carrierLFO p s k0 len ch else carrierFM p s k0 len ch

/-! ### The stages after the carrier -/

/-- A stage that maps one sample and updates the Channel, over a whole chunk in order. -/
def mapStage (f : Channel → F64 → F64 × Channel) : List F64 → Channel → List F64 × Channel
  | [], ch => ([], ch)
  | x :: xs, ch =>
    let (y, ch') := f ch x
    let (ys, ch'') := mapStage f xs ch'
    (y :: ys, ch'')

/-- `DbIndex(e)` (R286). -/
def dbIndex (e : F64) : Nat := (clampInt 0 255 (e.mul (F64.ofNat 255)).floor).toNat

/-- The gain `(vel/127) × (expr/127)` (R285). -/
def voiceGain (ch : Channel) : F64 :=
  ((F64.ofNat ch.vel.toNat).div (F64.ofNat 127)).mul ((F64.ofNat ch.expr.toNat).div (F64.ofNat 127))

/-- `Amplitude(k)` (R285): `env1` steps once. -/
def amplitudeSample (p : Params) (ch : Channel) (x : F64) : F64 × Channel :=
  let (e, env1) := ch.env1.stepRead
  let a := match ch.volmode with
    | .linear => e
    | .nonLinear => p.dbTab (dbIndex e)
  ((x.mul a).mul (voiceGain ch), { ch with env1 := env1 })

/-- `Ring(k)` from index `k` on (R288). -/
def ringStage (s : State) (ch : Channel) : Nat → List F64 → List F64
  | _, [] => []
  | k, x :: xs =>
    (if ch.ringSens.isZero then x else (x.mul (s.pipeAt ch.ringPipe k)).mul ch.ringSens) :: ringStage s ch (k + 1) xs

/-- `GL(pan)` (R292). -/
def gainLeft (pan : Byte) : F64 := (F64.ofInt (127 - (pan.toNat : Int))).div (F64.ofNat 126)

/-- `GR(pan)` (R292). -/
def gainRight (pan : Byte) : F64 := (F64.ofInt ((pan.toNat : Int) - 1)).div (F64.ofNat 126)

/-- `Output(k)` of one sample (R291). -/
def outputSample (ch : Channel) (k : Nat) (y : F64) (s : State) : State :=
  match ch.outMode with
  | .mix =>
    let s := s.setOut (2 * k) ((s.outAt (2 * k)).add (y.mul (gainLeft ch.pan)))
    s.setOut (2 * k + 1) ((s.outAt (2 * k + 1)).add (y.mul (gainRight ch.pan)))
  | .overwrite => s.setPipe ch.outPipe k y
  | .add => s.setPipe ch.outPipe k ((s.pipeAt ch.outPipe k).add y)

/-- The output stage from index `k` on (R280, R291). -/
def outputStage (ch : Channel) : Nat → List F64 → State → State
  | _, [], s => s
  | k, y :: ys, s => outputStage ch (k + 1) ys (outputSample ch k y s)

/-! ### The chunk (R280, R281) -/

/-- `Silence(k0, L)` (R281). -/
def silence (ch : Channel) : Nat → Nat → State → State
  | 0, _, s => s
  | n + 1, k, s =>
    let s := if ch.outMode = .overwrite then s.setPipe ch.outPipe k F64.zero else s
    let s := if ch.syncMode = .out then { s with syncs := setSync s.syncs ch.syncPipe k false } else s
    silence ch n (k + 1) s

/-- The stages between the carrier and the output, on a chunk from index `k0` on (R280): amplitude, ring, formant,
filter. -/
def shapeChunk (p : Params) (s : State) (k0 : Nat) (buf : List F64) (ch : Channel) : List F64 × Channel :=
  let (buf, ch) := mapStage (amplitudeSample p) buf ch
  let buf := ringStage s ch k0 buf
  let (buf, ch) := mapStage (formantSample p) buf ch
  mapStage (filterSample p) buf ch

/-- `ChannelRender(t, k0, L)` for the track being processed (R280). -/
def channelRender (p : Params) (k0 len : Nat) (s : State) : Except Fault State :=
  if !s.ch.env1.playing then .ok (silence s.ch len k0 s)
  else
    match carrier p s k0 len s.ch with
    | .error f => .error f
    | .ok (buf, ch, sy) =>
      let (buf, ch) := shapeChunk p s k0 buf ch
      .ok (outputStage ch k0 buf ({ s with syncs := sy }.setTr { s.tr with ch := ch }))

end Sys2Proof.Machine
end

