-- ==== Sys2Proof/Machine/Tables.lean ====
section
/-! DEFINITION. The spec's default values of the OPEN parameters (00_scope.md R9, 10_state.md R54), and
`defaultParams`, the record of them that the step uses (log 4). The transcendental defaults (sine, powers of 2 and
10, the exponential) are computed in fixed point with 320 fraction bits and rounded once to binary64 (log 9). -/

namespace Sys2Proof.Machine

/-- 2^320: 1.0 in fixed point with 320 fraction bits. -/
def fixOne : Nat := 2 ^ 320

/-- floor(2^320 · ln 2). -/
def fixLn2 : Nat := 0xb17217f7d1cf79abc9e3b39803f2f6af40f343267298b62d8a0d175b8baafa2be7b876206debac98

/-- floor(2^320 · ln 10). -/
def fixLn10 : Nat := 0x24d763776aaa2b05ba95b58ae0b4c28a38a3fb3e76977e43a0f187a0807c0b5ca58bc0b5ec6a04173

/-- floor(2^320 · π). -/
def fixPi : Nat := 0x3243f6a8885a308d313198a2e03707344a4093822299f31d0082efa98ec4e6c89452821e638d01377

/-- The tail of the exponential series in nested form: 1 + (y/k)·(1 + (y/(k+1))·(…)), `n` levels. -/
def expSeries (y : Nat) : Nat → Nat → Nat
  | 0, _ => fixOne
  | n + 1, k => fixOne + y * expSeries y n (k + 1) / fixOne / k

/-- `n` squarings of a fixed-point number. -/
def squareTimes : Nat → Nat → Nat
  | 0, x => x
  | n + 1, x => squareTimes n (x * x / fixOne)

/-- e^x in fixed point, for `0 ≤ x < 750`: the series at x/2^12, squared twelve times. -/
def expFix (x : Nat) : Nat := squareTimes 12 (expSeries (x / 4096) 64 1)

/-- The tail of the sine series in nested form, as a factor of the angle. -/
def sinSeries (sq : Nat) : Nat → Nat → Nat
  | 0, _ => fixOne
  | n + 1, k => fixOne - sq * sinSeries sq n (k + 1) / fixOne / (2 * k * (2 * k + 1))

/-- sin(2π·r/size) in fixed point, for r = 0 .. size/4. -/
def sinFix (size r : Nat) : Nat :=
  let t := 2 * fixPi * r / size
  t * sinSeries (t * t / fixOne) 40 1 / fixOne

/-- e^a, correctly rounded (44_filter.md R443; log 9). -/
def expF64 (a : F64) : F64 :=
  if a.isNaN then F64.nanResult .exp a a
  else if a.isZero then F64.one
  else if a.isInf || 746 * F64.unitScale ≤ a.units then (if a.sign then F64.zero else F64.pack false F64.infMag)
  else
    let e := expFix (a.units * fixOne / F64.unitScale)
    if a.sign then F64.ofRatio false (fixOne * F64.unitScale) e else F64.ofRatio false (e * F64.unitScale) fixOne

/-- 10^t, correctly rounded, for a finite `t` of magnitude below 300 (41_channel.md R287; log 9). -/
def pow10F64 (t : F64) : F64 :=
  let e := expFix (t.units * fixLn10 / F64.unitScale)
  if t.sign then F64.ofRatio false (fixOne * F64.unitScale) e else F64.ofRatio false (e * F64.unitScale) fixOne

/-- `FREQ_TAB[i] = 440 × 2^((i − 8100)/1200)`, rounded to nearest (42_oscillator.md R326). The exponent is
`(i + 300) div 1200 − 7` whole octaves and `((i + 300) mod 1200)/1200` of one. -/
def defaultFreqTab (i : Nat) : F64 :=
  let e := expFix ((i + 300) % 1200 * fixLn2 / 1200)
  F64.ofRatio false (440 * 2 ^ ((i + 300) / 1200) * e * F64.unitScale) (128 * fixOne)

/-- `SINE_TAB[i] = sin(2π·i/2^TABLE_BITS)`, rounded to nearest; the zeros are +0.0 (R336, with `bits` for its 16:
DEDUCED for another `bits`, DESIGN CHOICE for 0 and 1, log 8). `4·i` over `2^bits` is the angle in quarter turns. -/
def defaultSineTab (bits i : Nat) : F64 :=
  let size := 2 ^ bits
  let r := 4 * i % size
  let quarter := 4 * i / size % 4
  let m := if quarter % 2 = 0 then sinFix (4 * size) r else sinFix (4 * size) (size - r)
  if m = 0 then F64.zero else F64.ofRatio (2 ≤ quarter) (m * F64.unitScale) fixOne

/-- `SAW_TAB[i] = float(i)/2^(TABLE_BITS − 1) − 1.0` (R336, with `bits` for its 16: DEDUCED for another,
DESIGN CHOICE for 0, log 8). -/
def defaultSawTab (bits i : Nat) : F64 := ((F64.ofNat (2 * i)).div (F64.ofNat (2 ^ bits))).sub F64.one

/-- `TRI_TAB[i]`, with `x = float(i)/2^(TABLE_BITS − 2)` rising over the first quarter, falling as 2.0 − x over the next
two and rising as x − 4.0 over the last (R336, with `bits` for its 16: DEDUCED for another, DESIGN CHOICE for 0 and 1,
log 8). -/
def defaultTriTab (bits i : Nat) : F64 :=
  let x := (F64.ofNat (4 * i)).div (F64.ofNat (2 ^ bits))
  if 4 * i < 2 ^ bits then x
  else if 4 * i < 3 * 2 ^ bits then (F64.ofNat 2).sub x
  else x.sub (F64.ofNat 4)

/-- One step of the 32-bit xorshift generator of R336. -/
def xorshift (x : Nat) : Nat :=
  let x := x ^^^ (x <<< 13 % 2 ^ 32)
  let x := x ^^^ (x >>> 17)
  x ^^^ (x <<< 5 % 2 ^ 32)

/-- `n` steps of the generator. The match on the state makes an evaluation compute it at every step. -/
def xorshiftTimes : Nat → Nat → Nat
  | 0, x => x
  | _ + 1, 0 => 0
  | n + 1, x + 1 => xorshiftTimes n (xorshift (x + 1))

/-- `NOISE_TAB[i]` (R336): the state after `i + 1` steps from the seed, over 2^31, less 1. -/
def defaultNoiseTab (i : Nat) : F64 :=
  ((F64.ofNat (xorshiftTimes (i + 1) 2463534242)).div (F64.ofNat 2147483648)).sub F64.one

/-- `TRI32[j]` (R342). -/
def defaultTri32 (j : Nat) : Nat := if j < 16 then 15 - j else j - 16

/-- `NOISE_PERIOD[0..15]` (R352). -/
def defaultNoisePeriod (i : BitVec 4) : Nat :=
  [4, 8, 16, 32, 64, 96, 128, 160, 202, 254, 380, 508, 762, 1016, 2034, 4068].getD i.toNat 0

/-- `DPCM_RATE[0..15]` (R362). -/
def defaultDpcmRate (i : BitVec 4) : Nat :=
  [428, 380, 340, 320, 286, 254, 226, 214, 190, 160, 142, 128, 106, 84, 72, 54].getD i.toNat 0

/-- `DB_TAB[i]` for the parameter `DB_RANGE` (41_channel.md R287). -/
def defaultDbTab (range : F64) (i : Nat) : F64 :=
  if i = 0 then F64.zero
  else pow10F64 (((range.mul (F64.ofInt ((i : Int) - 255))).div (F64.ofNat 255)).div (F64.ofNat 20))

/-- The binary64 value nearest to π (44_filter.md R443). -/
def piF64 : F64 := F64.ofRatio false (fixPi * F64.unitScale) fixOne

/-- `QCOEF`, the coefficients of the quality filters (44_filter.md R443). -/
def defaultQcoef (fres fc : F64) : QCoef :=
  let x := (((F64.ofInt (-2)).mul piF64).mul fc).div (F64.ofNat 44100)
  let f := (F64.one.sub (expF64 x)).min (F64.lit 9999 10000)
  { f := f, fbk := fres.add (fres.div (F64.one.sub f)) }

/-- `FCOEF`, the coefficients of the fast filters (44_filter.md R444). -/
def defaultFcoef (fres fc : F64) : FCoef :=
  let fn := (((F64.ofNat 2).mul fc).div (F64.ofNat 44100)).min F64.one
  let q0 := F64.one.sub fn
  let p := fn.add (((F64.lit 8 10).mul fn).mul q0)
  let inner := (F64.one.sub q0).add (((F64.lit 56 10).mul q0).mul q0)
  { p := p
    fk := (p.add p).sub F64.one
    k := ((F64.ofNat 4).mul fres).mul (F64.one.add (((F64.lit 5 10).mul q0).mul inner)) }

/-- The parameters with the spec's defaults for all but `TABLE_BITS`, `FRAC_BITS` and `DB_RANGE`, from which the default
tables of R336 and 41_channel.md R287 are built. `FORMANT_COEF`, which has no default, is the free value
`Config.formantCoef` (logs 4, 5 and 8). -/
def paramsFor (tableBits fracBits : Nat) (dbRange : F64) : Params where
  tableBits := tableBits
  fracBits := fracBits
  ntrackMax := 64
  ndpcm := 16
  blockMax := 8192
  evmSize := 0x100000
  dpcmSize := 0x10000
  freqTab := defaultFreqTab
  sineTab := defaultSineTab tableBits
  sawTab := defaultSawTab tableBits
  triTab := defaultTriTab tableBits
  noiseTab := defaultNoiseTab
  tri32 := defaultTri32
  noisePeriod := defaultNoisePeriod
  dpcmRate := defaultDpcmRate
  refNum := 3579545
  refDen := 2
  dbTab := defaultDbTab dbRange
  lfoBatch := 245
  qcoef := defaultQcoef
  fcoef := defaultFcoef
  formantCoef := Config.formantCoef

/-- The spec's default for every parameter of 00_scope.md R9: `TABLE_BITS = 16`, `FRAC_BITS = 14`, `DB_RANGE = 96`. -/
def defaultParams : Params := paramsFor 16 14 (F64.ofNat 96)

end Sys2Proof.Machine
end

