-- ==== Sys2Proof/Machine/Engine.lean ====
section
/-! DEFINITION. The render engine: fetching a record, the dispatcher's choice between applying it and rendering up
to it (40_track_dispatch.md R210 to R215), and the host's accesses while the engine is idle. One RENDER is many engine
steps; nothing else happens between them (log 1). -/

namespace Sys2Proof.Machine

/-- The `n` bytes of EVM at `a, a+1, …`; a model fault at a byte outside EVM or never written (60_exceptions.md R506). -/
def fetchBytes (p : Params) (s : State) : Nat → Nat → Except Fault (List Byte)
  | 0, _ => .ok []
  | n + 1, a =>
    match s.evmRead p a with
    | none => .error .eventFetch
    | some b =>
      match fetchBytes p s n (a + 1) with
      | .error f => .error f
      | .ok bs => .ok (b :: bs)

/-- The EVM address of the pending record, `TRK_BASE[t] + 32·cursor` (40_track_dispatch.md R211). -/
def State.recordAddr (s : State) : Nat := (s.trkBase.get s.engine.track).toNat + 32 * s.tr.cursor.toNat

/-- `Fetch(t, tr.cursor)` (R211): the pending record decoded. -/
def State.fetch (p : Params) (s : State) : Except Fault Instr :=
  match fetchBytes p s 32 s.recordAddr with
  | .error f => .error f
  | .ok bs => .ok (decodeRecord (recordOfBytes bs))

/-- `dur ≤ tr.needle`: the pending record is due (R210 step (a)). -/
def State.isDue (s : State) (i : Instr) : Bool := (s.duration i.delta).le s.tr.needle

/-- `di = min(ceil(dur − tr.needle), end − i)` (R214). -/
def State.chunkLength (s : State) (i : Instr) : Nat :=
  min ((s.duration i.delta).sub s.tr.needle).ceil.toNat (s.engine.frames - s.engine.pos)

/-- Step (b) of R210: the needle moves by `di`, the Channel of a musical track renders `di` samples (R216), and the
position moves by `di`. -/
def State.runChunk (p : Params) (s : State) (i : Instr) : Except Fault State :=
  let di := s.chunkLength i
  let s' := s.setTr { s.tr with needle := s.tr.needle.add (F64.ofNat di) }
  let s' := { s' with engine := { s'.engine with pos := s'.engine.pos + di } }
  if s.engine.track = 0 then .ok s' else channelRender p s.engine.pos di s'

/-- The log of the track being processed is exhausted: `tr.cursor ≥ TRK_LEN[t]`. -/
def State.logExhausted (s : State) : Bool := decide (s.trkLen.get s.engine.track ≤ s.tr.cursor)

/-- `tr.ended <- 1` (R215). -/
def State.endTrack (s : State) : State := s.setTr { s.tr with ended := true }

/-- One step of a RENDER in progress: the next pass of the loops of R201 and R210. -/
def renderStep (p : Params) (s : State) : Host.Outcome State Fault Refusal :=
  if s.tr.ended || decide (s.engine.frames ≤ s.engine.pos) then .next s.nextTrack
  else if s.logExhausted then .next s.endTrack.nextTrack
  else
    match s.fetch p with
    | .error f => .fault f
    | .ok i =>
      if s.isDue i then exec i s
      else
        match s.runChunk p i with
        | .error f => .fault f
        | .ok s' => .next s'

/-- One step of an idle engine: the host's next access, or nothing (70_reset_and_hazards.md R558, 60_exceptions.md
R515). -/
def idleStep (p : Params) (s : State) : State :=
  match s.inbox with
  | [] => s
  | a :: rest => hostAccess p { s with inbox := rest } a

/-- One step of the block with given OPEN parameters. -/
def stepWith (p : Params) (s : State) : Host.Outcome State Fault Refusal :=
  if s.engine.busy then renderStep p s else .next (idleStep p s)

/-- The bytes written from EVM address `a` on. -/
def evmWithBytes (m : List Host.Cell) : Nat → List Byte → List Host.Cell
  | _, [] => m
  | a, b :: bs => evmWithBytes (Cells.insert m a b) (a + 1) bs

/-- The state in which the next step applies the record `bs` as record 0 of the track being processed: the record at
EVM 0, the track's log that one record at that base, its dispatcher at record 0 with the needle at the record's
duration when it is not there already, and a RENDER of at least one frame in progress at its first sample. -/
def placeRecord (bs : List Byte) (s : State) : State :=
  let t := s.engine.track
  let dur := s.duration (recordOfBytes bs).delta
  let needle := if dur.le s.tr.needle then s.tr.needle else dur
  let s' := s.setTr { s.tr with cursor := 0#32, needle := needle, ended := false }
  { s' with
    evm := evmWithBytes s.evm 0 bs
    trkBase := vset s.trkBase t 0#32
    trkLen := vset s.trkLen t 1#32
    status := { s.status with running := true }
    engine := { busy := true, track := t, pos := 0, frames := max s.engine.frames 1 } }

end Sys2Proof.Machine
end

