-- ==== Sys2Proof/Machine/Step.lean ====
section
/-! DEFINITION. The step of the machine, and where the host of this package stores an instruction to be run next. -/

namespace Sys2Proof.Machine

/-- One step: a record applied, a chunk rendered, a move to the next track or the end of a RENDER, or one host access
of an idle engine. The OPEN parameters are the spec's defaults (log 4). -/
def step (s : State) : Host.Outcome State Fault Refusal := stepWith defaultParams s

/-- `s` with the instruction whose bits are `w` placed so that the next step applies it (log 3). -/
def State.withFetchWord (s : State) (nbits w : Nat) : State := placeRecord (bytesOfTableWord nbits w) s

end Sys2Proof.Machine
end

