-- ==== Sys2Proof/Safety.lean ====
section
/-! DEFINITION. The terms that claims are made in: what a step leaves unchanged (frames), what an event does to a
Channel, an oscillator or an envelope, stated from the spec's rules and not from the machine's functions, which host
accesses the spec performs, and the invariants of the machine. -/

namespace Sys2Proof.Machine

/-! ### Frames -/

/-- Every byte of EVM, DPCM RAM and wave RAM reads as before (20_memory.md R102, R103). -/
structure SameMemories (s t : State) : Prop where
  evm : ∀ a, t.evmByte a = s.evmByte a
  dpcm : ∀ a, t.dpcmByte a = s.dpcmByte a
  wave : ∀ a, t.waveByte a = s.waveByte a

/-- Every element of OUT, PIPE and SYNC reads as before. -/
structure SameBuffers (s t : State) : Prop where
  out : ∀ j, t.outAt j = s.outAt j
  pipe : ∀ i k, t.pipeAt i k = s.pipeAt i k
  sync : ∀ i k, t.syncAt i k = s.syncAt i k

/-- Every register of the register file other than STATUS and the views of the dispatchers is as before. -/
structure SameRegisters (s t : State) : Prop where
  ntracks : t.ntracks = s.ntracks
  blockLen : t.blockLen = s.blockLen
  trkBase : t.trkBase = s.trkBase
  trkLen : t.trkLen = s.trkLen
  dpcmSlots : t.dpcmSlots = s.dpcmSlots

/-- The host's queues are as before. -/
structure SameHostQueues (s t : State) : Prop where
  inbox : t.inbox = s.inbox
  replies : t.replies = s.replies

/-- Every track but the one being processed is as before. -/
def OtherTracksSame (s t : State) : Prop := ∀ u, u ≠ s.engine.track → t.tracks.get u = s.tracks.get u

/-- What applying any record leaves behind (40_track_dispatch.md R210 to R213): the cursor one further, the needle
less the record's duration, and nothing of another track, a register, a memory, a buffer, the engine or the host's
queues changed. STATUS, `tr.spt`, `tr.ended` and the Channel are each claim's own. -/
structure RecordConsumed (delta : Word) (s t : State) : Prop where
  cursor : t.tr.cursor = s.tr.cursor + 1#32
  needle : t.tr.needle = s.tr.needle.sub ((F64.ofNat delta.toNat).mul s.tr.spt)
  otherTracks : OtherTracksSame s t
  engine : t.engine = s.engine
  registers : SameRegisters s t
  memories : SameMemories s t
  buffers : SameBuffers s t
  hostQueues : SameHostQueues s t

/-- STATUS after a record with a field out of range exactly when `out`: CLAMP is set then, no other bit changes
(30_encoding.md R146). -/
structure ClampRecorded (out : Prop) (s t : State) : Prop where
  clamp : t.status.clamp = true ↔ s.status.clamp = true ∨ out
  others : t.status = { s.status with clamp := t.status.clamp }

/-- A record that writes only its Channel, which it leaves as `c`. -/
structure ChannelEvent (delta : Word) (out : Prop) (c : Channel) (s t : State) : Prop where
  consumed : RecordConsumed delta s t
  status : ClampRecorded out s t
  spt : t.tr.spt = s.tr.spt
  ended : t.tr.ended = s.tr.ended
  channel : t.tr.ch = c

/-- `w` is the field `v` clamped to `lo .. hi` (30_encoding.md R146). -/
def ClampedTo (lo hi v w : Nat) : Prop :=
  (lo ≤ v ∧ v ≤ hi → w = v) ∧ (v < lo → w = lo) ∧ (hi < v → w = hi)

/-! ### Numbered modes -/

/-- The code of a modulator kind (42_oscillator.md R320). -/
def Kind.code : Kind → Nat
  | .phase .sine => 0
  | .phase .saw => 1
  | .phase .triangle => 2
  | .phase .pulse => 3
  | .phase .noise => 4
  | .phase .fcPulse => 5
  | .phase .fcTri => 6
  | .lfsr .fcNoise => 7
  | .lfsr .fcSNoise => 8
  | .dpcm => 9
  | .phase .gbWave => 10
  | .lfsr .gbNoise => 11
  | .lfsr .gbSNoise => 12

/-- The number of a volume mode (10_state.md R42). -/
def VolMode.code : VolMode → Nat
  | .linear => 0
  | .nonLinear => 1

/-- The number of an output mode (10_state.md R49). -/
def OutMode.code : OutMode → Nat
  | .mix => 0
  | .overwrite => 1
  | .add => 2

/-- The number of a sync mode (10_state.md R49). -/
def SyncMode.code : SyncMode → Nat
  | .off => 0
  | .out => 1
  | .inp => 2

/-- The number of a vowel (45_formant.md R470). -/
def Vowel.code : Vowel → Nat
  | .off => 0
  | .a => 1
  | .e => 2
  | .i => 3
  | .o => 4
  | .u => 5

/-- The number of a filter type (44_filter.md R440). -/
def FilterType.code : FilterType → Int
  | .fastHpf => -2
  | .qualityHpf => -1
  | .off => 0
  | .qualityLpf => 1
  | .fastLpf => 2

/-! ### Envelopes (43_envelope.md) -/

/-- The parameters of an envelope are as before. -/
structure SameParams (e e' : Envelope) : Prop where
  A : e'.A = e.A
  D : e'.D = e.D
  S : e'.S = e.S
  R : e'.R = e.R

/-- What `Trigger` does to an envelope whose attack starts from `start` (43_envelope.md R410, R411). -/
structure Triggered (start : F64) (e e' : Envelope) : Prop where
  params : SameParams e e'
  playing : e'.playing = true
  count : e'.count = 0#32
  attack : e.A ≠ 0#32 → e'.state = .attack ∧ e'.len = e.A ∧ e'.target = F64.one ∧ e'.value = start ∧
    e'.step = (F64.one.sub start).div (F64.ofNat e.A.toNat)
  decay : e.A = 0#32 → e.D ≠ 0#32 → e'.state = .decay ∧ e'.len = e.D ∧ e'.target = e.S ∧ e'.value = F64.one ∧
    e'.step = (F64.one.sub e.S).div (F64.ofNat e.D.toNat)
  sustain : e.A = 0#32 → e.D = 0#32 → e'.state = .sustain ∧ e'.len = 0#32 ∧ e'.target = e.S ∧ e'.value = e.S ∧
    e'.step = F64.zero

/-- What `Release` does to an envelope (43_envelope.md R412). -/
structure Released (e e' : Envelope) : Prop where
  idle : e.playing = false → e' = e
  params : SameParams e e'
  count : e.playing = true → e'.count = 0#32
  len : e.playing = true → e'.len = e.R
  target : e.playing = true → e'.target = F64.zero
  ramp : e.playing = true → e.R ≠ 0#32 → e'.state = .release ∧ e'.value = e.value ∧ e'.playing = true ∧
    e'.step = e.value.div (F64.ofNat e.R.toNat)
  stop : e.playing = true → e.R = 0#32 → e'.state = .idle ∧ e'.value = F64.zero ∧ e'.playing = false ∧ e'.step = e.step

/-- The envelope with the parameters of VCO_ENV or VCF_ENV, nothing else of it changed (R400, R401). -/
def withParams (atk dec : Word) (sus : F64) (rel : Word) (e : Envelope) : Envelope :=
  { e with A := atk, D := dec, S := sus, R := rel }

/-! ### Oscillators -/

/-- What NOTE_ON does to an oscillator (41_channel.md R250, 42_oscillator.md R332, R353, R363): every modulator
restarted, the period index of the index-dependent kinds set, the form, sub-form and increment kept. -/
structure OscRestarted (slots : Vector DpcmSlot 16) (pidx : BitVec 4) (o o' : Oscillator) : Prop where
  form : o'.form = o.form
  sub : o'.sub = o.sub
  inc : o'.inc = o.inc
  phases : ∀ k, o'.phases.get k = 0
  fcNoise : o'.fcNoise = { lfsr := 1#15, acc := 0, pidx := pidx }
  fcSNoise : o'.fcSNoise = { lfsr := 1#15, acc := 0, pidx := pidx }
  gbNoise : o'.gbNoise = { lfsr := 1#15, acc := 0, pidx := pidx }
  gbSNoise : o'.gbSNoise = { lfsr := 1#7, acc := 0, pidx := pidx }
  dpcm : o'.dpcm = { amp := (slots.get ⟨o.sub.toNat, o.sub.isLt⟩).vol, bitpos := 0#32, acc := 0, pidx := pidx }

/-- Only the selected modulator differs (42_oscillator.md R331). -/
structure OnlySelectedMoved (o o' : Oscillator) : Prop where
  form : o'.form = o.form
  sub : o'.sub = o.sub
  inc : o'.inc = o.inc
  phases : ∀ k, o.form ≠ .phase k → o'.phases.get k = o.phases.get k
  fcNoise : o.form ≠ .lfsr .fcNoise → o'.fcNoise = o.fcNoise
  fcSNoise : o.form ≠ .lfsr .fcSNoise → o'.fcSNoise = o.fcSNoise
  gbNoise : o.form ≠ .lfsr .gbNoise → o'.gbNoise = o.gbNoise
  gbSNoise : o.form ≠ .lfsr .gbSNoise → o'.gbSNoise = o.gbSNoise
  dpcm : o.form ≠ .dpcm → o'.dpcm = o.dpcm

/-- `ResetPhase` of the selected modulator (42_oscillator.md R332, R363): a phase 0; an LFSR 1 and its timer 0, the
period index kept; the DPCM amplitude its slot's VOL, the position and the timer 0, the period index kept. -/
structure SelectedReset (slots : Vector DpcmSlot 16) (o o' : Oscillator) : Prop where
  moved : OnlySelectedMoved o o'
  phase : ∀ k, o.form = .phase k → o'.phases.get k = 0
  fcNoise : o.form = .lfsr .fcNoise → o'.fcNoise = { lfsr := 1#15, acc := 0, pidx := o.fcNoise.pidx }
  fcSNoise : o.form = .lfsr .fcSNoise → o'.fcSNoise = { lfsr := 1#15, acc := 0, pidx := o.fcSNoise.pidx }
  gbNoise : o.form = .lfsr .gbNoise → o'.gbNoise = { lfsr := 1#15, acc := 0, pidx := o.gbNoise.pidx }
  gbSNoise : o.form = .lfsr .gbSNoise → o'.gbSNoise = { lfsr := 1#7, acc := 0, pidx := o.gbSNoise.pidx }
  dpcm : o.form = .dpcm → o'.dpcm =
    { amp := (slots.get ⟨o.sub.toNat, o.sub.isLt⟩).vol, bitpos := 0#32, acc := 0, pidx := o.dpcm.pidx }

/-- Bit 0 of the register of an LFSR kind (42_oscillator.md R351). -/
def Oscillator.lfsrBit (o : Oscillator) : LfsrKind → Bool
  | .fcNoise => o.fcNoise.lfsr.getLsbD 0
  | .fcSNoise => o.fcSNoise.lfsr.getLsbD 0
  | .gbNoise => o.gbNoise.lfsr.getLsbD 0
  | .gbSNoise => o.gbSNoise.lfsr.getLsbD 0

/-- The Channel honours sync and its sync buffer is 1 at index `k` (42_oscillator.md R370). -/
def SyncInput (ch : Channel) (sy : Syncs) (k : Nat) : Bool :=
  decide (ch.syncMode = .inp) && Cells.get false (sy.get ch.syncPipe) k

/-- The sync buffers after the sample at index `k` with the wrap flag `w`: a producing Channel writes it there, and
nothing else changes (42_oscillator.md R371). -/
def SyncWritten (ch : Channel) (k : Nat) (w : Bool) (sy sy' : Syncs) : Prop :=
  ∀ i j, Cells.get false (sy'.get i) j =
    if ch.syncMode = .out ∧ i = ch.syncPipe ∧ j = k then w else Cells.get false (sy.get i) j

/-! ### Stages over a chunk (41_channel.md R280 to R284) -/

/-- `r` is what `n` pieces of work in order make from the state `st`: each piece starts from the state the one before
left, and the samples of all of them are joined; the first piece that faults is the result. -/
def RunInOrder {σ : Type} (piece : Nat → σ → Except Fault (List F64 × σ) → Prop) (n : Nat) (st : σ)
    (r : Except Fault (List F64 × σ)) : Prop :=
  ∃ (m : Nat) (sts : Nat → σ) (out : Nat → List F64), m ≤ n ∧ sts 0 = st ∧
    (∀ j, j < m → piece j (sts j) (.ok (out j, sts (j + 1)))) ∧
    ((m = n ∧ r = .ok (((List.range n).map out).flatten, sts n)) ∨
     (m < n ∧ ∃ f, piece m (sts m) (.error f) ∧ r = .error f))

/-- `r` is the result of the carrier sample at index `k` with read offset `off`. -/
def CarrierSampleAt (p : Params) (s : State) (off k : Nat) (st : Channel × Syncs)
    (r : Except Fault (List F64 × Channel × Syncs)) : Prop :=
  r = match carrierSample p s off k st.1 st.2 with
    | .error f => .error f
    | .ok (y, st') => .ok ([y], st')

/-- `r` is the result of the carrier samples at `k, k+1, … k+n−1` in order, the read offset at an index given by `off`. -/
def CarrierSamples (p : Params) (s : State) (off : Nat → Nat) (n k : Nat) (st : Channel × Syncs)
    (r : Except Fault (List F64 × Channel × Syncs)) : Prop :=
  RunInOrder (fun j => CarrierSampleAt p s (off (k + j)) (k + j)) n st r

/-- `r` is the result of the LFO sub-block of `n` samples from index `k` on (41_channel.md R284): the pitch is found once,
the carrier's increment is set from it, and every sample is read at offset 0. -/
def LfoSubBlock (p : Params) (s : State) (n k : Nat) (st : Channel × Syncs)
    (r : Except Fault (List F64 × Channel × Syncs)) : Prop :=
  match lfoPitch p s n st.1 with
  | .error f => r = .error f
  | .ok (pitch, ch) =>
    CarrierSamples p s (fun _ => 0) n k ({ ch with osc1 := { ch.osc1 with inc := carrierInc p ch pitch } }, st.2) r

/-- The samples `ys` are those of `xs` passed through the stage `f` in ascending order, the Channel going from `c` to `c'`
(41_channel.md R280). -/
def StageRun (f : Channel → F64 → F64 × Channel) (xs ys : List F64) (c c' : Channel) : Prop :=
  ys.length = xs.length ∧ ∃ cs : Nat → Channel, cs 0 = c ∧ cs xs.length = c' ∧
    ∀ j x, xs[j]? = some x → ys[j]? = some (f (cs j) x).1 ∧ (f (cs j) x).2 = cs (j + 1)

/-! ### The engine -/

/-- A record of the track being processed is pending: a RENDER is in progress, the track has not ended, samples of the
block are left and the log is not exhausted (40_track_dispatch.md R210). -/
structure RecordPending (s : State) : Prop where
  busy : s.engine.busy = true
  live : s.tr.ended = false
  samples : s.engine.pos < s.engine.frames
  log : s.tr.cursor.toNat < (s.trkLen.get s.engine.track).toNat

/-- The bytes of the pending record (40_track_dispatch.md R211), in a block with the parameters `p`. -/
def PendingBytes (p : Params) (s : State) (bs : List Byte) : Prop :=
  bs.length = 32 ∧
    ∀ k, k < 32 → s.evmRead p ((s.trkBase.get s.engine.track).toNat + 32 * s.tr.cursor.toNat + k) = bs[k]?

/-- The duration in samples of a record of the track being processed (40_track_dispatch.md R211). -/
def recordDuration (s : State) (i : Instr) : F64 := (F64.ofNat i.delta.toNat).mul s.tr.spt

/-- The pending record is the instruction `i` (40_track_dispatch.md R211), in a block with the spec's defaults. -/
structure RecordAt (s : State) (i : Instr) : Prop where
  pending : RecordPending s
  bytes : ∃ bs, PendingBytes defaultParams s bs ∧ decode bs = .ok i

/-- The pending record `i` is not due yet: `dur ≤ needle` does not hold (40_track_dispatch.md R210 step (b)). -/
structure RecordWaiting (s : State) (i : Instr) : Prop extends RecordAt s i where
  later : (recordDuration s i).le s.tr.needle = false

/-- `di = min(ceil(dur − needle), end − i)` (40_track_dispatch.md R214). -/
def samplesToRun (s : State) (i : Instr) : Nat :=
  min ((recordDuration s i).sub s.tr.needle).ceil.toNat (s.engine.frames - s.engine.pos)

/-- What a chunk of `n` samples does whatever it renders: the needle and the position move by `n`; STATUS, the registers,
the memories the host wrote, the other tracks and the host's queues are as before (40_track_dispatch.md R210 step (b),
20_memory.md R102, R103). The Channel and the buffers are each claim's own. -/
structure ChunkFrame (n : Nat) (s t : State) : Prop where
  engine : t.engine = { s.engine with pos := s.engine.pos + n }
  track : t.tr = { s.tr with needle := s.tr.needle.add (F64.ofNat n), ch := t.tr.ch }
  otherTracks : OtherTracksSame s t
  status : t.status = s.status
  registers : SameRegisters s t
  memories : SameMemories s t
  hostQueues : SameHostQueues s t

/-- The index `k` of the block lies in the next `n` samples. -/
abbrev InChunk (s : State) (n k : Nat) : Prop := s.engine.pos ≤ k ∧ k < s.engine.pos + n

/-- The track being processed is done for this block: the next slot below NTRACKS is processed from sample 0 on, and
after the last one the RENDER ends (40_track_dispatch.md R201, 20_memory.md R123). -/
structure TrackDone (s t : State) : Prop where
  next : s.engine.track.val + 1 < s.ntracks.toNat → t.status = s.status ∧ t.engine.busy = true ∧
    t.engine.track.val = s.engine.track.val + 1 ∧ t.engine.pos = 0 ∧ t.engine.frames = s.engine.frames
  last : s.ntracks.toNat ≤ s.engine.track.val + 1 → t.engine.busy = false ∧
    t.status = { s.status with done := true, running := s.status.running && !s.status.ended }
  registers : SameRegisters s t
  memories : SameMemories s t
  buffers : SameBuffers s t
  hostQueues : SameHostQueues s t

/-- The oscillator plays the DPCM kind from a slot with a bit in a byte of DPCM RAM that cannot be read: beyond its end or
never written (60_exceptions.md R506 item 2). -/
def DpcmUnreadable (p : Params) (s : State) (o : Oscillator) : Prop :=
  o.form = .dpcm ∧ ∃ j, j < (dpcmSlotOf s o).bits.toNat ∧ s.dpcmRead p ((dpcmSlotOf s o).base.toNat + j / 8) = none

/-! ### Timers (42_oscillator.md R351, R360) -/

/-- `while acc ≥ T: acc <- acc − T; clock`, with a bound on the number of passes; a bound of `acc` is enough when `T` is
not 0. -/
def timerLoop {α : Type} (T : Nat) (clock : α → Except Fault α) : Nat → Nat → α → Except Fault (Nat × α)
  | 0, acc, x => .ok (acc, x)
  | fuel + 1, acc, x =>
    if T ≤ acc then
      match clock x with
      | .error f => .error f
      | .ok y => timerLoop T clock fuel (acc - T) y
    else .ok (acc, x)

/-! ### Parameters -/

/-- The parameters a block may have: the ranges of the address map stay disjoint and inside 32-bit addresses
(20_memory.md R101), BLOCK_MAX admits the reset value of BLOCK_LEN (10_state.md R31), and the rest is what log 8 says:
memories of whole words, slots within the register table, a phase of at least the five bits that a 32-step wave reads. -/
structure LegalParams (p : Params) : Prop where
  blockLow : 1024 ≤ p.blockMax
  out : 0x10000 + 16 * p.blockMax ≤ 0x100000
  dpcm : 0x100000 + p.dpcmSize ≤ 0x1000000
  evm : 0x1000000 + p.evmSize ≤ 0x100000000
  words : p.dpcmSize % 4 = 0 ∧ p.evmSize % 4 = 0
  tracks : 1 ≤ p.ntrackMax ∧ p.ntrackMax ≤ 64
  slots : p.ndpcm ≤ 16
  phase : 5 ≤ pwBits p
  batch : 1 ≤ p.lfoBatch

/-! ### Host accesses -/

/-- The bytes of an access width. -/
def widthBytes : Width → Nat
  | .w1 => 1
  | .w2 => 2
  | .w4 => 4
  | .w8 => 8

/-- The host addresses of WAVE, DPCM and EVM (20_memory.md R101). -/
def InWritableMemory (p : Params) (a : Nat) : Prop :=
  (0x1000 ≤ a ∧ a < 0x1200) ∨ (0x100000 ≤ a ∧ a < 0x100000 + p.dpcmSize) ∨ (0x1000000 ≤ a ∧ a < 0x1000000 + p.evmSize)

/-- A read that the block performs: mapped, aligned and of a width its space allows (20_memory.md R101, R105). -/
def ReadPerformed (p : Params) (addr : Word) (w : Width) : Prop :=
  addr.toNat % widthBytes w = 0 ∧
    ((addr.toNat < 0x1000 ∧ w = .w4) ∨ (InWritableMemory p addr.toNat ∧ w ≠ .w8) ∨
      (0x10000 ≤ addr.toNat ∧ addr.toNat < 0x10000 + 16 * p.blockMax ∧ (w = .w4 ∨ w = .w8)))

/-- A write that the block performs (20_memory.md R101, R105): none to OUT. -/
def WritePerformed (p : Params) (addr : Word) (w : Width) : Prop :=
  addr.toNat % widthBytes w = 0 ∧ ((addr.toNat < 0x1000 ∧ w = .w4) ∨ (InWritableMemory p addr.toNat ∧ w ≠ .w8))

/-! ### Invariants -/

/-- The memories and buffers have their canonical form, and nothing can write them beyond their sizes. -/
structure MemoryCanonical (p : Params) (s : State) : Prop where
  form : Memory.wf p s = true
  blockLen : s.blockLen.toNat ≤ p.blockMax
  frames : s.engine.busy = true → s.engine.frames ≤ p.blockMax

/-- A value in the closed interval from 0 to 1, and so no NaN. -/
def UnitValue (v : F64) : Prop := F64.zero.le v = true ∧ v.le F64.one = true

/-- The increment and the phases of an oscillator are integers of PW_BITS bits (10_state.md R43, R44). -/
structure OscInRange (p : Params) (o : Oscillator) : Prop where
  inc : o.inc < phaseMod p
  phases : ∀ k, o.phases.get k < phaseMod p

/-- Every register of a Channel that has a legal range is in it, but for those of its envelopes, which EnvelopeCoherent
states: the levels of 10_state.md R42, the phases and increments of R43 and R44, `fres` in [0, 1] (R47), and the
sensitivities at least 0 (R49). -/
structure ChannelInRange (p : Params) (c : Channel) : Prop where
  note : c.note.toNat ≤ 143
  vel : c.vel.toNat ≤ 127
  expr : c.expr.toNat ≤ 127
  panLow : 1 ≤ c.pan.toNat
  panHigh : c.pan.toNat ≤ 127
  pwLow : 1 ≤ c.pw.toNat
  pwHigh : c.pw.toNat ≤ 99
  osc1 : OscInRange p c.osc1
  osc2 : OscInRange p c.osc2
  fres : UnitValue c.fres
  inSens : F64.zero.le c.inSens = true
  ringSens : F64.zero.le c.ringSens = true

/-- Every register with a legal range is in it (10_state.md R31, R34, R42 to R44, R47, R49), but for those of the
envelopes (EnvelopesCoherent). -/
structure RegistersInRange (p : Params) (s : State) : Prop where
  ntracksLow : 1 ≤ s.ntracks.toNat
  ntracksHigh : s.ntracks.toNat ≤ p.ntrackMax
  blockLenLow : 1 ≤ s.blockLen.toNat
  blockLenHigh : s.blockLen.toNat ≤ p.blockMax
  trkBase : ∀ t, (s.trkBase.get t).toNat % 32 = 0
  channels : ∀ t, ChannelInRange p (s.tracks.get t).ch

/-- The envelope is coherent (10_state.md R46, 60_exceptions.md R501): it plays exactly when it is not idle, its count
is within its ramp, and every level it holds lies between 0 and 1. -/
structure EnvelopeCoherent (e : Envelope) : Prop where
  playing : e.playing = true ↔ e.state ≠ .idle
  count : e.count.toNat ≤ e.len.toNat
  ramp : e.state = .attack ∨ e.state = .decay ∨ e.state = .release → e.count.toNat < e.len.toNat
  value : UnitValue e.value
  sustain : UnitValue e.S
  target : UnitValue e.target
  step : UnitValue e.step

/-- Every envelope of every Channel is coherent. -/
def EnvelopesCoherent (s : State) : Prop :=
  ∀ t, EnvelopeCoherent (s.tracks.get t).ch.env1 ∧ EnvelopeCoherent (s.tracks.get t).ch.env2

/-- No LFSR of an oscillator is 0, the value it could not leave (42_oscillator.md R351). -/
structure LfsrsLive (o : Oscillator) : Prop where
  fcNoise : o.fcNoise.lfsr ≠ 0#15
  fcSNoise : o.fcSNoise.lfsr ≠ 0#15
  gbNoise : o.gbNoise.lfsr ≠ 0#15
  gbSNoise : o.gbSNoise.lfsr ≠ 0#7

/-- No LFSR of the block is 0. -/
def NoiseLive (s : State) : Prop :=
  ∀ t, LfsrsLive (s.tracks.get t).ch.osc1 ∧ LfsrsLive (s.tracks.get t).ch.osc2

/-- Where a run stands is coherent (10_state.md R33, R34, 40_track_dispatch.md R201, R213): rendering only while
RUNNING and only a slot below NTRACKS; no cursor of a run beyond its log; a run that is not rendering has not
reached its END. -/
structure RunCoherent (s : State) : Prop where
  ntracks : 1 ≤ s.ntracks.toNat
  running : s.engine.busy = true → s.status.running = true
  slot : s.engine.busy = true → s.engine.track.val < s.ntracks.toNat
  cursor : s.status.running = true → ∀ t, (s.tracks.get t).cursor.toNat ≤ (s.trkLen.get t).toNat
  finished : s.engine.busy = false → s.status.ended = true → s.status.running = false

end Sys2Proof.Machine
end

