-- ==== Sys2Proof/Certificates/Slice0/Obligations.lean ====
section
/-! DEFINITION. The statements for the provers. Each formalises rules of spec/ that its docstring names, in the terms of
Sys2Proof/Safety.lean. A statement about a function that reads the OPEN parameters holds for all of them, or for all that
are legal (log 8); `step` is the step at the spec's defaults (log 4). -/

open Sys2Proof Sys2Proof.Machine

/-! ### Encoding (30_encoding.md) -/

/-- Decoding the encoding of any well-formed instruction gives it back, every operand at every value of its field (R140,
R142 to R144). -/
def Obligations.DecodeOfEncode : Prop := ∀ i : Instr, i.wellFormed = true → decode (encode i) = .ok i

/-- R171: a record and the same record with its reserved bits and words zero are one instruction, and the encoder writes
them as zero. -/
def Obligations.ReservedBitsIgnored : Prop :=
  ∀ r : Record, decodeRecord r.clearReserved = decodeRecord r ∧ encodeRecord (decodeRecord r) = r.clearReserved

/-- R142, R143, R180: every 32 bytes are exactly one well-formed instruction, whose kind is byte 3 and nothing else, and
whose DELTA is bytes 4 to 7; the reserved kinds are 0x00 and 0x17 to 0xFF; no other number of bytes is a record. -/
def Obligations.DecoderTotalByKind : Prop :=
  ∀ bs : List Byte,
    (bs.length ≠ 32 → decode bs = .error .notARecord) ∧
    (bs.length = 32 → ∃ i, decode bs = .ok i ∧ i.wellFormed = true ∧ bs[3]? = some i.kindCode ∧
      i.delta.toNat = leNat ((bs.drop 4).take 4) ∧
      (i.isReserved = true ↔ i.kindCode.toNat = 0 ∨ 0x17 ≤ i.kindCode.toNat))

/-- Records written out byte by byte from R140 and R144 decode to the instructions they stand for: the examples of R185,
an LFO, a reserved record. -/
def Obligations.WrittenRecordsDecode : Prop :=
  decode ([0x51, 0x7F, 0x00, 0x01] ++ List.replicate 28 0x00) = .ok (.noteOn 0#32 81#8 127#8) ∧
  decode ([0x00, 0x00, 0x00, 0x04, 0x00, 0x00, 0x00, 0x00, 0xC0, 0xD4, 0x01, 0x00] ++ List.replicate 20 0x00) =
    .ok (.tempo 0#32 120000#32) ∧
  decode ([0xFE, 0x00, 0x00, 0x0E, 0x60, 0x00, 0x00, 0x00, 0x60, 0x09, 0x00, 0x00, 0x70, 0x17, 0x00, 0x00,
      0x00, 0x80, 0x00, 0x00] ++ List.replicate 12 0x00) = .ok (.lpf 96#32 0xFE#8 2400#32 6000#32 32768#32) ∧
  decode ([0x01, 0x02, 0x01, 0x0D, 0x05, 0x00, 0x00, 0x00, 0x9C, 0xFF, 0xFF, 0xFF, 0x60, 0x00, 0x00, 0x00,
      0x30, 0x00, 0x00, 0x00, 0x10, 0x00, 0x00, 0x00] ++ List.replicate 8 0x00) =
    .ok (.lfo 5#32 1#8 2#8 1#1 0xFFFFFF9C#32 96#32 48#32 16#32) ∧
  decode ([0xFF, 0xFF, 0xFF, 0xFF] ++ List.replicate 28 0xFF) = .ok (.reserved80 0xFFFFFFFF#32 0xFF#8)

/-! ### Records and the step -/

/-- 40_track_dispatch.md R210 step (a), R211: when the bytes at the cursor decode to an instruction that is due, the
step is the execution of that instruction at that state, and nothing else: the meaning itself moves the cursor and the
needle. -/
def Obligations.StepRunsDueRecord : Prop :=
  ∀ (s : State) (bs : List Byte) (i : Instr), RecordPending s → PendingBytes defaultParams s bs →
    decode bs = .ok i → (recordDuration s i).le s.tr.needle = true → step s = exec i s

/-- 40_track_dispatch.md R212, R213, 60_exceptions.md R501, R502: every record completes, whatever its operands and the
state; it moves its own track's cursor by exactly one and its needle by its duration, and touches no other track,
register, memory, buffer or queue; only TEMPO changes `spt`; only EOT ends the track, and END is set only by EOT on
track 0; UNK is set exactly by reserved kinds; RUNNING, DONE, BUSERR and CMDERR do not change. -/
def Obligations.EveryRecordCompletes : Prop :=
  ∀ (i : Instr) (s : State), ∃ t, exec i s = .next t ∧ RecordConsumed i.delta s t ∧
    (t.tr.spt ≠ s.tr.spt → i.kindCode = 0x04#8) ∧
    (t.tr.ended = true ↔ s.tr.ended = true ∨ i = .eot i.delta) ∧
    (t.status.ended = true ↔ s.status.ended = true ∨ (i = .eot i.delta ∧ s.engine.track = 0)) ∧
    (t.status.unk = true ↔ s.status.unk = true ∨ i.isReserved = true) ∧
    (s.status.clamp = true → t.status.clamp = true) ∧
    t.status.running = s.status.running ∧ t.status.done = s.status.done ∧ t.status.buserr = s.status.buserr ∧
    t.status.cmderr = s.status.cmderr

/-! ### Events of the Channel as a whole (41_channel.md) -/

/-- R250, NOTE_ON: note and velocity clamped and stored; the amplitude envelope triggered from its value, the filter
envelope from zero; every modulator of both oscillators restarted with the period index `NOTE mod 16`; filter and
formant state cleared; `oncount` 0. -/
def Obligations.NoteOnEvent : Prop :=
  ∀ (delta : Word) (note vel : Byte) (s : State), ∃ t n v e1 e2 o1 o2,
    exec (.noteOn delta note vel) s = .next t ∧
    ClampedTo 0 143 note.toNat (BitVec.toNat (w := 8) n) ∧ ClampedTo 0 127 vel.toNat (BitVec.toNat (w := 8) v) ∧
    Triggered s.ch.env1.value s.ch.env1 e1 ∧ Triggered F64.zero s.ch.env2 e2 ∧
    OscRestarted s.dpcmSlots (BitVec.ofNat 4 (n.toNat % 16)) s.ch.osc1 o1 ∧
    OscRestarted s.dpcmSlots (BitVec.ofNat 4 (n.toNat % 16)) s.ch.osc2 o2 ∧
    ChannelEvent delta (143 < note.toNat ∨ 127 < vel.toNat)
      { s.ch with
        note := n, vel := v, env1 := e1, env2 := e2, osc1 := o1, osc2 := o2
        fb := Vector.replicate 5 F64.zero, fm := Vector.replicate 10 F64.zero, oncount := 0#64 } s t

/-- R251 and 40_track_dispatch.md R221, NOTE_OFF and CLOSE: both envelopes enter release, whatever operands a NOTE_OFF
carries; nothing is clamped and nothing else of the Channel changes. -/
def Obligations.NoteOffAndCloseEvents : Prop :=
  ∀ (delta : Word) (note vel : Byte) (s : State) (i : Instr), i = .noteOff delta note vel ∨ i = .close delta →
    ∃ t e1 e2, exec i s = .next t ∧ Released s.ch.env1 e1 ∧ Released s.ch.env2 e2 ∧
      ChannelEvent delta False { s.ch with env1 := e1, env2 := e2 } s t

/-- R252, NOTE: the pitch only; R256, EXPRESSION; R257, VOLMODE; R258, PAN: each stores its clamped operand and nothing
else. -/
def Obligations.NoteExpressionVolmodeAndPanEvents : Prop :=
  ∀ (delta : Word) (v : Byte) (s : State),
    (∃ t n, exec (.note delta v) s = .next t ∧ ClampedTo 0 143 v.toNat (BitVec.toNat (w := 8) n) ∧
      ChannelEvent delta (143 < v.toNat) { s.ch with note := n } s t) ∧
    (∃ t e, exec (.expression delta v) s = .next t ∧ ClampedTo 0 127 v.toNat (BitVec.toNat (w := 8) e) ∧
      ChannelEvent delta (127 < v.toNat) { s.ch with expr := e } s t) ∧
    (∃ t m, exec (.volmode delta v) s = .next t ∧ ClampedTo 0 1 v.toNat (VolMode.code m) ∧
      ChannelEvent delta (1 < v.toNat) { s.ch with volmode := m } s t) ∧
    (∃ t p, exec (.pan delta v) s = .next t ∧ ClampedTo 1 127 v.toNat (BitVec.toNat (w := 8) p) ∧
      ChannelEvent delta (v.toNat = 0 ∨ 127 < v.toNat) { s.ch with pan := p } s t)

/-- R255, DETUNE, and 42_oscillator.md R323, NOISE_FREQ: the operand is stored as it is, any value legal. -/
def Obligations.DetuneAndNoiseFreqEvents : Prop :=
  ∀ (delta v : Word) (s : State),
    (∃ t, exec (.detune delta v) s = .next t ∧ ChannelEvent delta False { s.ch with detune := v } s t) ∧
    (∃ t, exec (.noiseFreq delta v) s = .next t ∧ ChannelEvent delta False { s.ch with noisefreq := v } s t)

/-- R259, INPUT, and R261, RING: the pipe clamped, the sensitivity as `float(SENS) / 65536.0`; R260, OUTPUT, and R262,
SYNC: pipe and mode, each clamped. -/
def Obligations.RoutingEvents : Prop :=
  ∀ (delta : Word) (pipe mode : Byte) (sens : Word) (s : State), ∃ (p : Fin 3) (m : OutMode) (y : SyncMode),
    ClampedTo 0 2 pipe.toNat p.val ∧ ClampedTo 0 2 mode.toNat m.code ∧ ClampedTo 0 2 mode.toNat y.code ∧
    (∃ t, exec (.input delta pipe sens) s = .next t ∧ ChannelEvent delta (2 < pipe.toNat)
      { s.ch with inPipe := p, inSens := (F64.ofNat sens.toNat).div (F64.ofNat 65536) } s t) ∧
    (∃ t, exec (.ring delta pipe sens) s = .next t ∧ ChannelEvent delta (2 < pipe.toNat)
      { s.ch with ringPipe := p, ringSens := (F64.ofNat sens.toNat).div (F64.ofNat 65536) } s t) ∧
    (∃ t, exec (.output delta pipe mode) s = .next t ∧
      ChannelEvent delta (2 < pipe.toNat ∨ 2 < mode.toNat) { s.ch with outPipe := p, outMode := m } s t) ∧
    (∃ t, exec (.sync delta pipe mode) s = .next t ∧
      ChannelEvent delta (2 < pipe.toNat ∨ 2 < mode.toNat) { s.ch with syncPipe := p, syncMode := y } s t)

/-! ### Events of one unit -/

/-- 42_oscillator.md R321, FORM: the carrier's form and sub-form, no modulator touched; R322, PWM: the width. -/
def Obligations.FormAndPwmEvents : Prop :=
  ∀ (delta : Word) (form sub pw : Byte) (s : State),
    (∃ t f b, exec (.form delta form sub) s = .next t ∧
      ClampedTo 0 12 form.toNat (Kind.code f) ∧ ClampedTo 0 15 sub.toNat (BitVec.toNat (w := 4) b) ∧
      ChannelEvent delta (12 < form.toNat ∨ 15 < sub.toNat)
        { s.ch with osc1 := { s.ch.osc1 with form := f, sub := b } } s t) ∧
    (∃ t w, exec (.pwm delta pw) s = .next t ∧ ClampedTo 1 99 pw.toNat (BitVec.toNat (w := 8) w) ∧
      ChannelEvent delta (pw.toNat = 0 ∨ 99 < pw.toNat) { s.ch with pw := w } s t)

/-- 42_oscillator.md R324, LFO: form and sub-form of `osc2`, and the tick-valued operands as samples at the `spt` of the
moment. -/
def Obligations.LfoEvent : Prop :=
  ∀ (delta : Word) (form sub : Byte) (rev : BitVec 1) (depth width delay len : Word) (s : State), ∃ t f b,
    exec (.lfo delta form sub rev depth width delay len) s = .next t ∧
    ClampedTo 0 12 form.toNat (Kind.code f) ∧ ClampedTo 0 15 sub.toNat (BitVec.toNat (w := 4) b) ∧
    ChannelEvent delta (12 < form.toNat ∨ 15 < sub.toNat)
      { s.ch with
        osc2 := { s.ch.osc2 with form := f, sub := b }
        lfoRev := decide (rev = 1#1)
        lfoDepth := depth
        lfoWidth := (F64.ofNat width.toNat).mul s.tr.spt
        lfoDelay := (F64.ofNat delay.toNat).mul s.tr.spt
        lfoLen := (F64.ofNat len.toNat).mul s.tr.spt } s t

/-- 43_envelope.md R400 and R401, VCO_ENV and VCF_ENV: the four parameters and nothing else of the envelope, so that a
ramp in progress keeps its step, length and target. -/
def Obligations.EnvelopeEvents : Prop :=
  ∀ (delta atk dec sus rel : Word) (s : State), ∃ u, ClampedTo 0 65536 sus.toNat u ∧
    (∃ t, exec (.vcoEnv delta atk dec sus rel) s = .next t ∧ ChannelEvent delta (65536 < sus.toNat)
      { s.ch with env1 := withParams atk dec ((F64.ofNat u).div (F64.ofNat 65536)) rel s.ch.env1 } s t) ∧
    (∃ t, exec (.vcfEnv delta atk dec sus rel) s = .next t ∧ ChannelEvent delta (65536 < sus.toNat)
      { s.ch with env2 := withParams atk dec ((F64.ofNat u).div (F64.ofNat 65536)) rel s.ch.env2 } s t)

/-- 44_filter.md R440, LPF: type, amount, cutoff and resonance, and the delay line cleared exactly when the type
changes. -/
def Obligations.LpfEvent : Prop :=
  ∀ (delta : Word) (ftype : Byte) (amt cut res : Word) (s : State), ∃ t y r,
    exec (.lpf delta ftype amt cut res) s = .next t ∧
    FilterType.code y = min (max ftype.toInt (-2)) 2 ∧ ClampedTo 0 65536 res.toNat r ∧
    ChannelEvent delta (ftype.toInt < -2 ∨ 2 < ftype.toInt ∨ 65536 < res.toNat)
      { s.ch with
        fb := if y = s.ch.ftype then s.ch.fb else Vector.replicate 5 F64.zero
        ftype := y, famt := amt, fcut := cut, fres := (F64.ofNat r).div (F64.ofNat 65536) } s t

/-- 45_formant.md R470, VOWEL: the vowel, and the history cleared exactly when it changes. -/
def Obligations.VowelEvent : Prop :=
  ∀ (delta : Word) (vowel : Byte) (s : State), ∃ t v, exec (.vowel delta vowel) s = .next t ∧
    ClampedTo 0 5 vowel.toNat (Vowel.code v) ∧
    ChannelEvent delta (5 < vowel.toNat)
      { s.ch with fm := if v = s.ch.vowel then s.ch.fm else Vector.replicate 10 F64.zero, vowel := v } s t

/-! ### Control events and reserved kinds (40_track_dispatch.md) -/

/-- R220, TEMPO: `spt = 44100.0 / (bpm × 96.0 / 60.0)` with MBPM clamped to at least 1; the needle loses the record's own
duration, at the old tempo, and is not rescaled. -/
def Obligations.TempoEvent : Prop :=
  ∀ (delta mbpm : Word) (s : State), ∃ t m, exec (.tempo delta mbpm) s = .next t ∧
    ClampedTo 1 4294967295 mbpm.toNat m ∧ RecordConsumed delta s t ∧ ClampRecorded (mbpm.toNat = 0) s t ∧
    t.tr.ended = s.tr.ended ∧ t.tr.ch = s.tr.ch ∧
    t.tr.spt = (F64.ofNat 44100).div ((((F64.ofNat m).div (F64.ofNat 1000)).mul (F64.ofNat 96)).div (F64.ofNat 60))

/-- R222, EOT: the track ends; on the tempo track STATUS.END is set, on another nothing of STATUS changes. -/
def Obligations.EotEvent : Prop :=
  ∀ (delta : Word) (s : State), ∃ t, exec (.eot delta) s = .next t ∧ RecordConsumed delta s t ∧
    t.tr.ended = true ∧ t.tr.spt = s.tr.spt ∧ t.tr.ch = s.tr.ch ∧
    (s.engine.track.val = 0 → t.status = { s.status with ended := true }) ∧
    (s.engine.track.val ≠ 0 → t.status = s.status)

/-- R223, 30_encoding.md R170: a record of a reserved kind consumes its DELTA and sets UNK, and has no other effect. -/
def Obligations.ReservedEvents : Prop :=
  ∀ (delta : Word) (k : Byte) (s : State) (i : Instr),
    i = .reserved00 delta ∨ i = .reserved17 delta ∨ i = .reserved18 delta k ∨ i = .reserved20 delta k ∨
      i = .reserved40 delta k ∨ i = .reserved80 delta k →
    ∃ t, exec i s = .next t ∧ RecordConsumed delta s t ∧ t.status = { s.status with unk := true } ∧
      t.tr.spt = s.tr.spt ∧ t.tr.ended = s.tr.ended ∧ t.tr.ch = s.tr.ch

/-! ### Chunks (40_track_dispatch.md R210, R214 to R216) -/

/-- R216: the tempo track runs up to its pending record without rendering: only its needle and the position move. -/
def Obligations.TempoTrackChunk : Prop :=
  ∀ (s : State) (i : Instr), RecordWaiting s i → s.engine.track.val = 0 →
    ∃ t, step s = .next t ∧ ChunkFrame (samplesToRun s i) s t ∧ t.tr.ch = s.tr.ch ∧ SameBuffers s t

/-- 41_channel.md R281: a musical track whose amplitude envelope does not play changes nothing of its Channel or of OUT;
an overwriting output writes +0.0 to its pipe and a producing sync writes 0, for the samples of the chunk and no other. -/
def Obligations.SilentChunk : Prop :=
  ∀ (s : State) (i : Instr), RecordWaiting s i → s.engine.track.val ≠ 0 → s.ch.env1.playing = false →
    MemoryCanonical defaultParams s →
    ∃ t, step s = .next t ∧ ChunkFrame (samplesToRun s i) s t ∧ t.tr.ch = s.tr.ch ∧
      (∀ j, t.outAt j = s.outAt j) ∧
      (∀ p k, t.pipeAt p k =
        if s.ch.outMode = .overwrite ∧ p = s.ch.outPipe ∧ InChunk s (samplesToRun s i) k then F64.zero else s.pipeAt p k) ∧
      (∀ p k, t.syncAt p k =
        if s.ch.syncMode = .out ∧ p = s.ch.syncPipe ∧ InChunk s (samplesToRun s i) k then false else s.syncAt p k)

/-- 40_track_dispatch.md R214: step (b) advances by at least one sample, unless a NaN stands in the needle or the duration
(which no run from reset puts there), and never beyond the block: so does the position of the next state. -/
def Obligations.ChunkAdvances : Prop :=
  ∀ (s : State) (i : Instr), RecordWaiting s i → s.tr.needle.isNaN = false → (recordDuration s i).isNaN = false →
    1 ≤ samplesToRun s i ∧ s.engine.pos + samplesToRun s i ≤ s.engine.frames ∧
    ∀ t, step s = .next t →
      s.engine.pos + 1 ≤ t.engine.pos ∧ t.engine.pos ≤ s.engine.frames ∧ t.engine.frames = s.engine.frames

/-- 40_track_dispatch.md R214, R217: with a whole number `d` of samples to the pending record and `n` of them elapsed, a
chunk runs exactly to the record or to the end of the block, the needle counts it exactly, and the record is due after
it exactly when the block reached it. -/
def Obligations.IntegerTiming : Prop :=
  ∀ (s t : State) (i : Instr) (d n : Nat), RecordWaiting s i → d < 2 ^ 53 → n < 2 ^ 53 →
    recordDuration s i = F64.ofNat d → s.tr.needle = F64.ofNat n → step s = .next t →
    t.engine.pos = s.engine.pos + min (d - n) (s.engine.frames - s.engine.pos) ∧
    t.tr.needle = F64.ofNat (n + min (d - n) (s.engine.frames - s.engine.pos)) ∧
    ((recordDuration t i).le t.tr.needle = true ↔ d - n ≤ s.engine.frames - s.engine.pos)

/-- 41_channel.md R280, R291, R293, 20_memory.md R103: a chunk of a musical track moves the needle and the position and
touches no other track, register or host memory; of the buffers it writes only those its Channel is routed to, at the
samples of the chunk: OUT when it mixes, else its output pipe, and its sync buffer when it produces sync. -/
def Obligations.ChunkWritesOnlyItsSamples : Prop :=
  ∀ (s t : State) (i : Instr), RecordWaiting s i → s.engine.track.val ≠ 0 → step s = .next t →
    ChunkFrame (samplesToRun s i) s t ∧
    (∀ j, ¬(s.ch.outMode = .mix ∧ InChunk s (samplesToRun s i) (j / 2)) → t.outAt j = s.outAt j) ∧
    (∀ p k, ¬(s.ch.outMode ≠ .mix ∧ p = s.ch.outPipe ∧ InChunk s (samplesToRun s i) k) → t.pipeAt p k = s.pipeAt p k) ∧
    (∀ p k, ¬(s.ch.syncMode = .out ∧ p = s.ch.syncPipe ∧ InChunk s (samplesToRun s i) k) → t.syncAt p k = s.syncAt p k)

/-- 41_channel.md R280, R285, R288 to R291: what a playing chunk of `n` samples from index `k0` on makes. The carrier runs
over the whole chunk, then amplitude, ring, formant and filter, each over what the stage before made, the ring with the
pipe as it stood; the last buffer is then added to OUT with the pan gains, or written or added to the output pipe, sample
by sample, and the sync buffers are those the carrier left. The step faults exactly when the carrier does. -/
def Obligations.ChunkRunsItsStages : Prop :=
  ∀ (s : State) (i : Instr) (n k0 : Nat), RecordWaiting s i → s.engine.track.val ≠ 0 → s.ch.env1.playing = true →
    MemoryCanonical defaultParams s → n = samplesToRun s i → k0 = s.engine.pos →
    (∀ f, carrier defaultParams s k0 n s.ch = .error f → step s = .fault f) ∧
    ∀ xs c1 sy, carrier defaultParams s k0 n s.ch = .ok (xs, c1, sy) →
      ∃ (t : State) (as rs fs ys : List F64) (c2 c3 : Channel), step s = .next t ∧ xs.length = n ∧
        StageRun (amplitudeSample defaultParams) xs as c1 c2 ∧
        rs.length = n ∧
        (∀ (j : Nat) (a : F64), as[j]? = some a → rs[j]? = some (if s.ch.ringSens.isZero = true then a
          else (a.mul (s.pipeAt s.ch.ringPipe (k0 + j))).mul s.ch.ringSens)) ∧
        StageRun (formantSample defaultParams) rs fs c2 c3 ∧
        StageRun (filterSample defaultParams) fs ys c3 t.tr.ch ∧
        (∀ (j : Nat) (y : F64), ys[j]? = some y →
          (s.ch.outMode = .mix →
            t.outAt (2 * (k0 + j)) =
              (s.outAt (2 * (k0 + j))).add (y.mul ((F64.ofInt (127 - s.ch.pan.toNat)).div (F64.ofNat 126))) ∧
            t.outAt (2 * (k0 + j) + 1) =
              (s.outAt (2 * (k0 + j) + 1)).add (y.mul ((F64.ofInt (s.ch.pan.toNat - 1)).div (F64.ofNat 126)))) ∧
          (s.ch.outMode = .overwrite → t.pipeAt s.ch.outPipe (k0 + j) = y) ∧
          (s.ch.outMode = .add → t.pipeAt s.ch.outPipe (k0 + j) = (s.pipeAt s.ch.outPipe (k0 + j)).add y)) ∧
        ∀ q k, t.syncAt q k = Cells.get false (sy.get q) k

/-- 43_envelope.md R415, 41_channel.md R285, R295, 44_filter.md R441: on a playing chunk both envelopes step exactly once
for each sample, whatever the filter type, and `oncount` counts the samples; beside these only the increments and the
modulators of the oscillators, the delay line and the history change, so no register that an event writes does: the
form and the sub-form of both oscillators are as before. -/
def Obligations.ChunkStepsEnvelopes : Prop :=
  ∀ (s t : State) (i : Instr), RecordWaiting s i → s.engine.track.val ≠ 0 → s.ch.env1.playing = true →
    step s = .next t →
    t.tr.ch = { s.ch with
      env1 := Envelope.advance^[samplesToRun s i] s.ch.env1
      env2 := Envelope.advance^[samplesToRun s i] s.ch.env2
      oncount := s.ch.oncount + BitVec.ofNat 64 (samplesToRun s i)
      osc1 := { t.tr.ch.osc1 with form := s.ch.osc1.form, sub := s.ch.osc1.sub }
      osc2 := { t.tr.ch.osc2 with form := s.ch.osc2.form, sub := s.ch.osc2.sub }
      fb := t.tr.ch.fb, fm := t.tr.ch.fm }

/-- 42_oscillator.md R331, 41_channel.md R283: whatever a chunk does, only the selected modulator of an oscillator, and its
increment, move; with an input sensitivity other than 0 the LFO oscillator does not move at all. -/
def Obligations.UnselectedModulatorsKept : Prop :=
  ∀ (s t : State) (i : Instr), RecordWaiting s i → step s = .next t →
    OnlySelectedMoved { s.ch.osc1 with inc := t.tr.ch.osc1.inc } t.tr.ch.osc1 ∧
    OnlySelectedMoved { s.ch.osc2 with inc := t.tr.ch.osc2.inc } t.tr.ch.osc2 ∧
    (s.ch.inSens.isZero = false → t.tr.ch.osc2 = s.ch.osc2)

/-- 40_track_dispatch.md R201, R210, R215, 20_memory.md R123: a track that has ended or has no sample of the block left, and
a track whose log is exhausted, which ends, gives way to the next slot in ascending order, or the RENDER ends. -/
def Obligations.TrackGivesWay : Prop :=
  ∀ s : State, s.engine.busy = true → s.ntracks.toNat ≤ 64 →
    (s.tr.ended = true ∨ s.engine.frames ≤ s.engine.pos →
      ∃ t, step s = .next t ∧ TrackDone s t ∧ t.tracks = s.tracks) ∧
    (s.tr.ended = false → s.engine.pos < s.engine.frames →
      (s.trkLen.get s.engine.track).toNat ≤ s.tr.cursor.toNat →
      ∃ t, step s = .next t ∧ TrackDone s t ∧ OtherTracksSame s t ∧
        t.tracks.get s.engine.track = { s.tr with ended := true })

/-- 60_exceptions.md R506: a step refuses nothing; it faults only at a pending record with a byte outside EVM or never
written, where it always does, or, rendering a musical track that plays, at a byte of the DPCM slot that one of its
oscillators plays and that is outside DPCM RAM or was never written. -/
def Obligations.FaultsOnlyUnreadable : Prop :=
  ∀ s : State,
    (∀ r, step s ≠ .refused r) ∧
    (∀ f, step s = .fault f → RecordPending s ∧
      ((f = .eventFetch ∧ ∃ k, k < 32 ∧
          s.evmRead defaultParams ((s.trkBase.get s.engine.track).toNat + 32 * s.tr.cursor.toNat + k) = none) ∨
       (f = .dpcmRead ∧ s.engine.track.val ≠ 0 ∧ s.ch.env1.playing = true ∧
          (DpcmUnreadable defaultParams s s.ch.osc1 ∨ DpcmUnreadable defaultParams s s.ch.osc2)))) ∧
    (∀ k, RecordPending s → k < 32 →
      s.evmRead defaultParams ((s.trkBase.get s.engine.track).toNat + 32 * s.tr.cursor.toNat + k) = none →
      step s = .fault .eventFetch)

/-- 20_memory.md R102, R103, R123, 10_state.md R39: a step of a RENDER writes no byte of EVM, DPCM RAM or wave RAM, no
register but STATUS, no host queue, and no track but the one being processed; of STATUS it sets no BUSERR and no
CMDERR and clears no condition. -/
def Obligations.EngineLeavesHostState : Prop :=
  ∀ s t : State, s.engine.busy = true → step s = .next t →
    SameMemories s t ∧ SameRegisters s t ∧ SameHostQueues s t ∧ OtherTracksSame s t ∧
    t.status.buserr = s.status.buserr ∧ t.status.cmderr = s.status.cmderr ∧
    (s.status.unk = true → t.status.unk = true) ∧ (s.status.clamp = true → t.status.clamp = true) ∧
    (s.status.ended = true → t.status.ended = true) ∧ (s.status.done = true → t.status.done = true)

/-! ### Oscillators (42_oscillator.md) -/

/-- R333, R351, R354, R360, R364, R370, R371, 41_channel.md R283: one carrier sample at index `k` with read offset `off`.
A sync input of 1 first resets the selected modulator, and `r` is the oscillator then. A phase kind reads `Shape` at the
phase plus the offset and then advances by one increment only; an LFSR kind reads +1.0 when bit 0 of its register is 0,
else −1.0, a DPCM kind `(amp − 64)/64`, before their timers run, and both ignore the offset. `oncount` counts the
sample; a producing Channel writes the wrap flag at `k`, 0 for an LFSR or DPCM kind, and nothing else; no other
modulator moves. Away from the defaults the phase modulus is the model's reading (DEDUCED, log 8). -/
def Obligations.CarrierSample : Prop :=
  ∀ (p : Params) (s : State) (off k : Nat) (ch : Channel) (sy : Syncs),
    (∀ i, Cells.wf false p.blockMax (sy.get i) = true) →
    ∃ r : Oscillator,
      (SyncInput ch sy k = true → SelectedReset s.dpcmSlots ch.osc1 r) ∧ (SyncInput ch sy k = false → r = ch.osc1) ∧
      (∀ kind, ch.osc1.form = .phase kind → ∃ o sy',
        carrierSample p s off k ch sy =
          .ok (shape p s ch.pw ch.osc1.sub kind ((r.phases.get kind + off) % 2 ^ (p.tableBits + p.fracBits)),
            { ch with osc1 := o, oncount := ch.oncount + 1#64 }, sy') ∧
        OnlySelectedMoved r o ∧
        o.phases.get kind = (r.phases.get kind + r.inc) % 2 ^ (p.tableBits + p.fracBits) ∧
        SyncWritten ch k (decide (2 ^ (p.tableBits + p.fracBits) ≤ r.phases.get kind + r.inc)) sy sy') ∧
      (∀ kind, ch.osc1.form = .lfsr kind → ∃ sy',
        carrierSample p s off k ch sy =
          .ok (if r.lfsrBit kind = false then F64.one else F64.one.neg,
            { ch with osc1 := r.tickLfsr p kind, oncount := ch.oncount + 1#64 }, sy') ∧
        SyncWritten ch k false sy sy') ∧
      (ch.osc1.form = .dpcm →
        (∀ f, r.dpcm.tick p s (dpcmSlotOf s r) = .error f → carrierSample p s off k ch sy = .error f) ∧
        ∀ m, r.dpcm.tick p s (dpcmSlotOf s r) = .ok m → ∃ sy',
          carrierSample p s off k ch sy =
            .ok (((F64.ofNat r.dpcm.amp.toNat).sub (F64.ofNat 64)).div (F64.ofNat 64),
              { ch with osc1 := { r with dpcm := m }, oncount := ch.oncount + 1#64 }, sy') ∧
          SyncWritten ch k false sy sy')

/-- R337 to R344: what a phase kind reads at a read phase `pr`: the tables at the phase's index; +1.0 below the threshold
and −1.0 from it on for the pulses, with the width of the Channel or one of four duties, sub-forms above 3 being 3; the
levels 0..15 of the 32-step waves, at the step that the phase's five top bits give, mapped to −1.0 .. +1.0. Only FC_PULSE
and GB_WAVE read the sub-form. The default TRI32 falls from 15 to 0 and rises back. The rules give the thresholds and the
step for phases of 30 bits only: for another TABLE_BITS or FRAC_BITS, that they scale with 2^PW_BITS is the model's
reading (DEDUCED, log 8). -/
def Obligations.ShapeOfPhaseKinds : Prop :=
  (∀ (p : Params) (s : State) (pw : Byte) (sub : BitVec 4) (pr : Nat), 5 ≤ p.tableBits + p.fracBits →
    shape p s pw sub .sine pr = p.sineTab (pr / 2 ^ p.fracBits) ∧
    shape p s pw sub .saw pr = p.sawTab (pr / 2 ^ p.fracBits) ∧
    shape p s pw sub .triangle pr = p.triTab (pr / 2 ^ p.fracBits) ∧
    shape p s pw sub .noise pr = p.noiseTab (pr / 2 ^ p.fracBits) ∧
    shape p s pw sub .pulse pr =
      (if pr < pw.toNat * 2 ^ (p.tableBits + p.fracBits) / 100 then F64.one else F64.one.neg) ∧
    (∀ eighths, (sub.toNat = 0 ∧ eighths = 1) ∨ (sub.toNat = 1 ∧ eighths = 2) ∨ (sub.toNat = 2 ∧ eighths = 4) ∨
        (3 ≤ sub.toNat ∧ eighths = 6) →
      shape p s pw sub .fcPulse pr =
        if 8 * pr < eighths * 2 ^ (p.tableBits + p.fracBits) then F64.one else F64.one.neg) ∧
    (∀ step, step = 32 * pr / 2 ^ (p.tableBits + p.fracBits) →
      shape p s pw sub .fcTri pr = ((F64.ofNat (p.tri32 step)).sub (F64.lit 75 10)).div (F64.lit 75 10) ∧
      shape p s pw sub .gbWave pr =
        ((F64.ofNat ((s.waveByte (32 * sub.toNat + step)).toNat % 16)).sub (F64.lit 75 10)).div (F64.lit 75 10)) ∧
    (∀ k sub', k ≠ .fcPulse → k ≠ .gbWave → shape p s pw sub k pr = shape p s pw sub' k pr)) ∧
  (∀ j, j < 16 → defaultParams.tri32 j = 15 - j ∧ defaultParams.tri32 (16 + j) = j)

/-- 41_channel.md R282, R283, R326, R327: the pitch in cents indexes the frequency table, clamped to 0..14399; a NOISE
carrier with a frequency of its own uses that; the increment is the frequency as phase units for one sample, at most the
largest; the read offset of FM is the input as phase cycles, modulo one cycle, and 0 for an input that is not finite. A
carrier with an input sensitivity other than 0 takes the pitch of its note and detune once for a chunk of any length, and
then reads each sample of it in order at the offset of the input pipe's sample. That 2^PW_BITS stands for the 2^30 of the
rules is the model's reading away from the defaults (DEDUCED, log 8). -/
def Obligations.CarrierPitchAndOffset : Prop :=
  ∀ (p : Params),
    (∀ (ch : Channel) (pitch : F64), ∃ (i : Nat) (f : F64), (i : Int) = min (max pitch.floor 0) 14399 ∧
      f = (if ch.osc1.form = .phase .noise ∧ ch.noisefreq ≠ 0#32
        then (F64.ofNat ch.noisefreq.toNat).div (F64.ofNat 1000) else p.freqTab i) ∧
      ∀ n : Nat, ((f.mul (F64.ofNat (2 ^ (p.tableBits + p.fracBits)))).div (F64.ofNat 44100)).floor = n →
        carrierInc p ch pitch = min n (2 ^ (p.tableBits + p.fracBits) - 1)) ∧
    (∀ x : F64, (x.isFinite = false → phaseOffset p x = 0) ∧
      (x.isFinite = true → (phaseOffset p x : Int) =
        (x.mul (F64.ofNat (2 ^ (p.tableBits + p.fracBits)))).floor % 2 ^ (p.tableBits + p.fracBits))) ∧
    (∀ (s : State) (ch : Channel) (k n : Nat), ch.inSens.isZero = false →
      CarrierSamples p s (fun j => phaseOffset p ((s.pipeAt ch.inPipe j).mul ch.inSens)) n k
        ({ ch with osc1 := { ch.osc1 with
            inc := carrierInc p ch (F64.ofInt (100 * ch.note.toNat + ch.detune.toInt)) } }, s.syncs)
        (carrier p s k n ch))

/-- R325, R335, 41_channel.md R284: the LFO's window and increment; the LFO value of a sub-block of `n` samples, the
modulator's first sample, but for NOISE the mean of the `n` table values it passes over, the modulator advancing by `n`
samples; the pitch of a sub-block, the note's alone outside the window, else moved by the depth times that value,
reversed when REV is set; and the carrier with an input sensitivity of 0, which runs a chunk of `n` samples as sub-blocks
of LFO_BATCH samples, the last of the rest, in order, each with an increment from its own pitch and every sample read at
offset 0. That 2^PW_BITS stands for the 2^30 of the rules is the model's reading away from the defaults (DEDUCED, log
8). -/
def Obligations.LfoWindowReadAndPitch : Prop :=
  ∀ (p : Params) (s : State) (pw : Byte),
    (∀ ch : Channel, (lfoActive ch = true ↔ F64.zero.lt ch.lfoWidth = true ∧ ch.lfoDepth ≠ 0#32 ∧
      ch.lfoDelay.le (F64.ofNat ch.oncount.toNat) = true ∧
      (ch.lfoLen.isZero = true ∨ (F64.ofNat ch.oncount.toNat).lt (ch.lfoDelay.add ch.lfoLen) = true)) ∧
      ∀ n : Nat, ((F64.ofNat (2 ^ (p.tableBits + p.fracBits))).div ch.lfoWidth).floor = n →
        lfoInc p ch = min n (2 ^ (p.tableBits + p.fracBits) - 1)) ∧
    (∀ (o : Oscillator) (n : Nat), 1 ≤ n → ∃ v : F64,
      o.lfoRead p s pw n = (match o.skip p s pw n with | .error f => .error f | .ok o' => .ok (v, o')) ∧
      (o.form = .phase .noise → v =
        ((List.range n).foldl (fun acc j => acc.add (p.noiseTab
          ((o.phases.noise + j * o.inc) % 2 ^ (p.tableBits + p.fracBits) / 2 ^ p.fracBits))) F64.zero).div (F64.ofNat n)) ∧
      (∀ k, o.form = .phase k → k ≠ .noise → v = shape p s pw o.sub k (o.phases.get k)) ∧
      (∀ k, o.form = .lfsr k → v = if o.lfsrBit k = false then F64.one else F64.one.neg) ∧
      (o.form = .dpcm → v = ((F64.ofNat o.dpcm.amp.toNat).sub (F64.ofNat 64)).div (F64.ofNat 64))) ∧
    (∀ (ch : Channel) (n : Nat) (base : F64), base = F64.ofInt (100 * ch.note.toNat + ch.detune.toInt) →
      (lfoActive ch = false → lfoPitch p s n ch = .ok (base, ch)) ∧
      (lfoActive ch = true →
        (∀ f, Oscillator.lfoRead p s ch.pw { ch.osc2 with inc := lfoInc p ch } n = .error f →
          lfoPitch p s n ch = .error f) ∧
        ∀ v o, Oscillator.lfoRead p s ch.pw { ch.osc2 with inc := lfoInc p ch } n = .ok (v, o) →
          lfoPitch p s n ch =
            .ok (base.add ((F64.ofInt ch.lfoDepth.toInt).mul (if ch.lfoRev = true then v.neg else v)),
              { ch with osc2 := o }))) ∧
    (∀ (ch : Channel) (k n : Nat), ch.inSens.isZero = true → 1 ≤ p.lfoBatch →
      RunInOrder (fun b => LfoSubBlock p s (min p.lfoBatch (n - b * p.lfoBatch)) (k + b * p.lfoBatch))
        ((n + p.lfoBatch - 1) / p.lfoBatch) (ch, s.syncs) (carrier p s k n ch))

/-- R334: a bulk advance by `n` samples adds `n` increments to the phase of a phase kind, modulo `2^PW_BITS`, and changes
nothing else; for every kind it is `n` samples with the outputs discarded. The oscillator's phases are phases: below the
modulus (10_state.md R44). The rule writes 2^30: that `2^PW_BITS` stands for it with another TABLE_BITS or FRAC_BITS is the
model's reading (DEDUCED, log 8). -/
def Obligations.AddPhaseIsSamples : Prop :=
  ∀ (p : Params) (s : State) (pw : Byte) (o : Oscillator) (n : Nat), OscInRange p o →
    (∀ k, o.form = .phase k → ∃ o', o.addPhase p s pw n = .ok o' ∧ o' = { o with phases := o'.phases } ∧
      o'.phases.get k = (o.phases.get k + n * o.inc) % 2 ^ (p.tableBits + p.fracBits) ∧
      ∀ j, j ≠ k → o'.phases.get j = o.phases.get j) ∧
    o.addPhase p s pw n = o.skip p s pw n

/-- R351, R360: the timers of the LFSR and DPCM modulators run the loop of the rules: add `REF_NUM`, then subtract `T` and
clock as long as `T` is reached. -/
def Obligations.TimersRunTheirLoops : Prop :=
  ∀ p : Params,
    (∀ (w tap : Nat) (m : Lfsr w), 0 < p.noisePeriod m.pidx * p.refDen * 44100 →
      timerLoop (p.noisePeriod m.pidx * p.refDen * 44100) (fun r => .ok (lfsrShift tap r)) (m.acc + p.refNum)
        (m.acc + p.refNum) m.lfsr = .ok ((m.tick p tap).acc, (m.tick p tap).lfsr) ∧ (m.tick p tap).pidx = m.pidx) ∧
    (∀ (s : State) (slot : DpcmSlot) (m : Dpcm), 0 < p.dpcmRate m.pidx * p.refDen * 44100 →
      m.tick p s slot =
        match timerLoop (p.dpcmRate m.pidx * p.refDen * 44100) (dmcClock p s slot) (m.acc + p.refNum) (m.acc + p.refNum) m
        with
        | .error f => .error f
        | .ok (acc, m') => .ok { m' with acc := acc })

/-- R351: each shift moves every bit down one place and puts the exclusive or of bit 0 and the tap at the top; over one
output sample FC_NOISE, GB_NOISE and GB_S_NOISE shift with tap 1 and FC_S_NOISE with tap 6, as often as the timer of the
rule clocks, each its own register alone; from seed 1 the short register of FC_S_NOISE has period 93 and the 7-bit
register 127, and the first shifts of FC_NOISE are 0x4000, 0x2000, 0x1000. -/
def Obligations.LfsrShifts : Prop :=
  (∀ (r : BitVec 15) (tap i : Nat), tap < 15 → i < 15 →
    (lfsrShift tap r).getLsbD i = if i = 14 then r.getLsbD 0 != r.getLsbD tap else r.getLsbD (i + 1)) ∧
  (∀ (r : BitVec 7) (tap i : Nat), tap < 7 → i < 7 →
    (lfsrShift tap r).getLsbD i = if i = 6 then r.getLsbD 0 != r.getLsbD tap else r.getLsbD (i + 1)) ∧
  (∀ (p : Params) (o : Oscillator) (total : Nat → Nat) (period : BitVec 4 → Nat), (∀ acc, total acc = acc + p.refNum) →
    (∀ x, period x = p.noisePeriod x * p.refDen * 44100) →
    o.tickLfsr p .fcNoise = { o with fcNoise := { o.fcNoise with
      lfsr := lfsrShifts 1 (total o.fcNoise.acc / period o.fcNoise.pidx) o.fcNoise.lfsr
      acc := total o.fcNoise.acc % period o.fcNoise.pidx } } ∧
    o.tickLfsr p .fcSNoise = { o with fcSNoise := { o.fcSNoise with
      lfsr := lfsrShifts 6 (total o.fcSNoise.acc / period o.fcSNoise.pidx) o.fcSNoise.lfsr
      acc := total o.fcSNoise.acc % period o.fcSNoise.pidx } } ∧
    o.tickLfsr p .gbNoise = { o with gbNoise := { o.gbNoise with
      lfsr := lfsrShifts 1 (total o.gbNoise.acc / period o.gbNoise.pidx) o.gbNoise.lfsr
      acc := total o.gbNoise.acc % period o.gbNoise.pidx } } ∧
    o.tickLfsr p .gbSNoise = { o with gbSNoise := { o.gbSNoise with
      lfsr := lfsrShifts 1 (total o.gbSNoise.acc / period o.gbSNoise.pidx) o.gbSNoise.lfsr
      acc := total o.gbSNoise.acc % period o.gbSNoise.pidx } }) ∧
  lfsrShifts 6 93 1#15 = 1#15 ∧ (∀ n, 0 < n → n < 93 → lfsrShifts 6 n 1#15 ≠ 1#15) ∧
  lfsrShifts 1 127 1#7 = 1#7 ∧ (∀ n, 0 < n → n < 127 → lfsrShifts 1 n 1#7 ≠ 1#7) ∧
  lfsrShifts 1 1 1#15 = 0x4000#15 ∧ lfsrShifts 1 2 1#15 = 0x2000#15 ∧ lfsrShifts 1 3 1#15 = 0x1000#15

/-- R361, 10_state.md R38, 60_exceptions.md R506: one DPCM clock. At the end of a slot that does not loop nothing changes;
else one bit is read, least significant first, from the start again at the end of a slot that loops; the amplitude moves
by 2 towards the bit unless it would leave 0..127, and the position by 1; a byte that cannot be read is a model fault. -/
def Obligations.DpcmClock : Prop :=
  ∀ (p : Params) (s : State) (slot : DpcmSlot) (m : Dpcm),
    (slot.bits.toNat ≤ m.bitpos.toNat → slot.loop = false ∨ slot.bits = 0#32 → dmcClock p s slot m = .ok m) ∧
    (m.bitpos.toNat < slot.bits.toNat ∨ (slot.loop = true ∧ slot.bits ≠ 0#32) →
      ∃ pos : Word, pos = (if slot.bits.toNat ≤ m.bitpos.toNat then 0#32 else m.bitpos) ∧
        (s.dpcmRead p (slot.base.toNat + pos.toNat / 8) = none → dmcClock p s slot m = .error .dpcmRead) ∧
        ∀ b, s.dpcmRead p (slot.base.toNat + pos.toNat / 8) = some b → ∃ a : BitVec 7,
          dmcClock p s slot m = .ok { m with amp := a, bitpos := pos + 1#32 } ∧
          (b.getLsbD (pos.toNat % 8) = true → a.toNat = if m.amp.toNat ≤ 125 then m.amp.toNat + 2 else m.amp.toNat) ∧
          (b.getLsbD (pos.toNat % 8) = false → a.toNat = if 2 ≤ m.amp.toNat then m.amp.toNat - 2 else m.amp.toNat))

/-! ### Envelopes (43_envelope.md) -/

/-- R411, R413: ramps end exactly. An attack of `n` samples is an attack for `n` steps less one and then leaves exactly
1.0, or the sustain level when the decay is empty; a decay ends at exactly its target, sustaining; a release is idle at
exactly +0.0, not playing, at the latest after its `n` steps; sustain and idle stay. -/
def Obligations.EnvelopeRampsExact : Prop :=
  ∀ e : Envelope,
    (e.state = .sustain ∨ e.state = .idle → e.advance = e) ∧
    (e.count = 0#32 → 0 < e.len.toNat →
      (e.state = .attack →
        (∀ k, k < e.len.toNat → (Envelope.advance^[k] e).state = .attack) ∧
        (e.D ≠ 0#32 → (Envelope.advance^[e.len.toNat] e).state = .decay ∧
          (Envelope.advance^[e.len.toNat] e).value = F64.one) ∧
        (e.D = 0#32 → (Envelope.advance^[e.len.toNat] e).state = .sustain ∧
          (Envelope.advance^[e.len.toNat] e).value = e.S)) ∧
      (e.state = .decay →
        (∀ k, k < e.len.toNat → (Envelope.advance^[k] e).state = .decay) ∧
        (Envelope.advance^[e.len.toNat] e).state = .sustain ∧ (Envelope.advance^[e.len.toNat] e).value = e.target) ∧
      (e.state = .release →
        (Envelope.advance^[e.len.toNat] e).state = .idle ∧ (Envelope.advance^[e.len.toNat] e).value = F64.zero ∧
        (Envelope.advance^[e.len.toNat] e).playing = false))

/-- R416: in attack the value does not decrease, its end included unless the decay is empty; in release it does not
increase; and a release from any value of an envelope that plays reaches exactly +0.0, idle, within `R` steps. -/
def Obligations.EnvelopeMonotone : Prop :=
  ∀ e : Envelope, EnvelopeCoherent e →
    (e.state = .attack → e.advance.state ≠ .sustain → e.value.le e.advance.value = true) ∧
    (e.state = .release → e.advance.value.le e.value = true) ∧
    (e.state = .release → e.value = F64.zero → e.advance.state = .idle) ∧
    (e.playing = true → (Envelope.advance^[e.R.toNat] e.releaseRamp).state = .idle ∧
      (Envelope.advance^[e.R.toNat] e.releaseRamp).value = F64.zero)

/-! ### Output, filter and formant -/

/-- 41_channel.md R291, R292: one output sample in each mode: added to both sides of its frame of OUT with the pan gains, or
written or added to its element of the output pipe; every other element is as before. -/
def Obligations.OutputSample : Prop :=
  ∀ (p : Params) (ch : Channel) (k : Nat) (y : F64) (s : State), Memory.wf p s = true → k < p.blockMax →
    ∃ t, outputSample ch k y s = t ∧ t = { s with out := t.out, pipes := t.pipes } ∧
      (∀ j, t.outAt j =
        if ch.outMode = .mix ∧ j = 2 * k then
          (s.outAt j).add (y.mul ((F64.ofInt (127 - ch.pan.toNat)).div (F64.ofNat 126)))
        else if ch.outMode = .mix ∧ j = 2 * k + 1 then
          (s.outAt j).add (y.mul ((F64.ofInt (ch.pan.toNat - 1)).div (F64.ofNat 126)))
        else s.outAt j) ∧
      (∀ i j, t.pipeAt i j =
        if ch.outMode = .overwrite ∧ i = ch.outPipe ∧ j = k then y
        else if ch.outMode = .add ∧ i = ch.outPipe ∧ j = k then (s.pipeAt i j).add y
        else s.pipeAt i j)

/-- 41_channel.md R285, R286, R288: the amplitude stage steps `env1` once and multiplies by its value before the step,
or by that of the decibel table, and then by velocity and expression; the ring stage multiplies by the ring pipe and the
sensitivity, and does nothing when that is 0. -/
def Obligations.AmplitudeAndRingStages : Prop :=
  ∀ (p : Params) (ch : Channel) (x : F64),
    (∀ g, g = ((F64.ofNat ch.vel.toNat).div (F64.ofNat 127)).mul ((F64.ofNat ch.expr.toNat).div (F64.ofNat 127)) →
      (ch.volmode = .linear →
        amplitudeSample p ch x = ((x.mul ch.env1.value).mul g, { ch with env1 := ch.env1.advance })) ∧
      (ch.volmode = .nonLinear → ∃ i : Nat, (i : Int) = min (max (ch.env1.value.mul (F64.ofNat 255)).floor 0) 255 ∧
        amplitudeSample p ch x = ((x.mul (p.dbTab i)).mul g, { ch with env1 := ch.env1.advance }))) ∧
    (∀ (s : State) (k : Nat) (xs : List F64), (ringStage s ch k xs).length = xs.length ∧
      (ch.ringSens.isZero = true → ringStage s ch k xs = xs) ∧
      (ch.ringSens.isZero = false → ∀ (j : Nat) (y : F64), xs[j]? = some y →
        (ringStage s ch k xs)[j]? = some ((y.mul (s.pipeAt ch.ringPipe (k + j))).mul ch.ringSens)))

/-- 44_filter.md R441, R443, R444, 45_formant.md R471: the filter stage steps `env2` once in every type; with type 0 it
passes its input and keeps its delay line; else the sample goes through the two one-pole stages of a quality filter or
the four of a fast one, with the coefficients of its cutoff, which the envelope's value before the step moves when the
amount is not 0. With no vowel the formant stage passes its input and keeps its history; with one it runs the recurrence
over the ten last outputs, and its output becomes the newest entry of the history as the others move one place. -/
def Obligations.FilterAndFormantStages : Prop :=
  ∀ (p : Params) (ch : Channel) (x fc : F64),
    fc = (if ch.famt = 0#32 then freqOf p (F64.ofInt ch.fcut.toInt)
      else freqOf p ((F64.ofInt ch.fcut.toInt).add ((F64.ofInt ch.famt.toInt).mul ch.env2.value))) →
    (filterSample p ch x).2 = { ch with env2 := ch.env2.advance, fb := (filterSample p ch x).2.fb } ∧
    (ch.ftype = .off → filterSample p ch x = (x, { ch with env2 := ch.env2.advance })) ∧
    (∀ f fbk b0 b1, (p.qcoef ch.fres fc).f = f → (p.qcoef ch.fres fc).fbk = fbk →
      b0 = (ch.fb.get 0).add (f.mul ((x.sub (ch.fb.get 0)).add (fbk.mul ((ch.fb.get 0).sub (ch.fb.get 1))))) →
      b1 = (ch.fb.get 1).add (f.mul (b0.sub (ch.fb.get 1))) →
      (ch.ftype = .qualityLpf → (filterSample p ch x).1 = b1) ∧
      (ch.ftype = .qualityHpf → (filterSample p ch x).1 = x.sub b1) ∧
      (ch.ftype = .qualityLpf ∨ ch.ftype = .qualityHpf →
        (filterSample p ch x).2.fb = #v[b0, b1, ch.fb.get 2, ch.fb.get 3, ch.fb.get 4])) ∧
    (∀ g fk k xi b1 b2 b3 b4 b5, (p.fcoef ch.fres fc).p = g → (p.fcoef ch.fres fc).fk = fk → (p.fcoef ch.fres fc).k = k →
      xi = x.sub (k.mul (ch.fb.get 4)) →
      b1 = ((xi.add (ch.fb.get 0)).mul g).sub ((ch.fb.get 1).mul fk) →
      b2 = ((b1.add (ch.fb.get 1)).mul g).sub ((ch.fb.get 2).mul fk) →
      b3 = ((b2.add (ch.fb.get 2)).mul g).sub ((ch.fb.get 3).mul fk) →
      b4 = ((b3.add (ch.fb.get 3)).mul g).sub ((ch.fb.get 4).mul fk) →
      b5 = b4.sub (((b4.mul b4).mul b4).mul (F64.lit 166667 1000000)) →
      (ch.ftype = .fastLpf → (filterSample p ch x).1 = b5) ∧
      (ch.ftype = .fastHpf → (filterSample p ch x).1 = xi.sub b5) ∧
      (ch.ftype = .fastLpf ∨ ch.ftype = .fastHpf → (filterSample p ch x).2.fb = #v[xi, b1, b2, b3, b5])) ∧
    (ch.vowel = .off → formantSample p ch x = (x, ch)) ∧
    (ch.vowel ≠ .off → (formantSample p ch x).2 = { ch with fm := (formantSample p ch x).2.fm } ∧
      (formantSample p ch x).1 = (List.finRange 10).foldl
        (fun y j => y.add ((p.formantCoef (ch.vowel.code - 1) (j + 1)).mul (ch.fm.get j)))
        ((p.formantCoef (ch.vowel.code - 1) 0).mul x) ∧
      (formantSample p ch x).2.fm.get 0 = (formantSample p ch x).1 ∧
      ∀ j : Fin 9, (formantSample p ch x).2.fm.get j.succ = ch.fm.get j.castSucc)

/-! ### Host accesses (20_memory.md, 10_state.md) -/

/-- 20_memory.md R101, R105, R108: a read that the block performs has no side effect in any space; any other read returns 0
and sets BUSERR, and does nothing else. -/
def Obligations.HostReads : Prop :=
  ∀ (p : Params) (addr : Word) (w : Width) (s : State), LegalParams p →
    (ReadPerformed p addr w → (hostRead p addr w s).2 = s) ∧
    (¬ReadPerformed p addr w → hostRead p addr w s = (0#64, { s with status := { s.status with buserr := true } }))

/-- 20_memory.md R101, R105: a write that the block does not perform (unmapped, misaligned, of a width its space does not
allow, or to OUT) sets BUSERR and does nothing else; a write that it performs never sets BUSERR. -/
def Obligations.UnperformedWrites : Prop :=
  ∀ (p : Params) (addr : Word) (w : Width) (data : BitVec 64) (s : State), LegalParams p →
    (¬WritePerformed p addr w → hostWrite p addr w data s = { s with status := { s.status with buserr := true } }) ∧
    (WritePerformed p addr w → (hostWrite p addr w data s).status.buserr = true → s.status.buserr = true)

/-- 10_state.md R31, R36: what each register of the table reads as; a reserved offset reads 0. -/
def Obligations.RegisterReads : Prop :=
  ∀ (p : Params) (s : State),
    (hostRead p 0x000#32 .w4 s).1 = 0x534C4D4C#64 ∧ (hostRead p 0x004#32 .w4 s).1 = 0#64 ∧
    (hostRead p 0x008#32 .w4 s).1.toNat = s.status.running.toNat + 2 * s.status.ended.toNat + 4 * s.status.done.toNat +
      8 * s.status.unk.toNat + 16 * s.status.clamp.toNat + 32 * s.status.buserr.toNat + 64 * s.status.cmderr.toNat ∧
    (hostRead p 0x00C#32 .w4 s).1.toNat = s.ntracks.toNat ∧ (hostRead p 0x010#32 .w4 s).1.toNat = s.blockLen.toNat ∧
    (hostRead p 0x014#32 .w4 s).1 = 44100#64 ∧
    (∀ t : Fin 64, t.val < p.ntrackMax →
      (hostRead p (BitVec.ofNat 32 (0x100 + 8 * t)) .w4 s).1.toNat = (s.trkBase.get t).toNat ∧
      (hostRead p (BitVec.ofNat 32 (0x104 + 8 * t)) .w4 s).1.toNat = (s.trkLen.get t).toNat ∧
      (hostRead p (BitVec.ofNat 32 (0x400 + 8 * t)) .w4 s).1.toNat = (s.tracks.get t).cursor.toNat ∧
      (hostRead p (BitVec.ofNat 32 (0x404 + 8 * t)) .w4 s).1.toNat = (s.tracks.get t).ended.toNat) ∧
    (∀ i : Fin 16, i.val < p.ndpcm →
      (hostRead p (BitVec.ofNat 32 (0x300 + 16 * i)) .w4 s).1.toNat = (s.dpcmSlots.get i).base.toNat ∧
      (hostRead p (BitVec.ofNat 32 (0x304 + 16 * i)) .w4 s).1.toNat = (s.dpcmSlots.get i).bits.toNat ∧
      (hostRead p (BitVec.ofNat 32 (0x308 + 16 * i)) .w4 s).1.toNat =
        (s.dpcmSlots.get i).vol.toNat + 256 * (s.dpcmSlots.get i).loop.toNat ∧
      (hostRead p (BitVec.ofNat 32 (0x30C + 16 * i)) .w4 s).1 = 0#64) ∧
    (∀ n, (n < 58 → (hostRead p (BitVec.ofNat 32 (0x018 + 4 * n)) .w4 s).1 = 0#64) ∧
      (n < 640 → (hostRead p (BitVec.ofNat 32 (0x600 + 4 * n)) .w4 s).1 = 0#64))

/-- 10_state.md R31, R34, R37, R38: NTRACKS and BLOCK_LEN clamp and record it; while RUNNING a write to NTRACKS, TRK_BASE
or TRK_LEN is ignored and sets CMDERR; BLOCK_LEN and the registers of the DPCM slots are written at any time; TRK_BASE
keeps bits 31..5 only, DPCM_CFG bits 6..0 as VOL and bit 8 as LOOP; a write to ID, SAMPLE_RATE, TRK_CURSOR, TRK_STAT or a
reserved offset is ignored. -/
def Obligations.RegisterWrites : Prop :=
  ∀ (p : Params) (s : State) (data : BitVec 64) (v : Word), LegalParams p → v = data.setWidth 32 →
    (∃ b, ClampedTo 1 p.blockMax v.toNat (BitVec.toNat (w := 32) b) ∧
      hostWrite p 0x010#32 .w4 data s = { s with
        blockLen := b, status := { s.status with clamp := s.status.clamp || decide (b ≠ v) } }) ∧
    (s.status.running = false →
      (∃ n, ClampedTo 1 p.ntrackMax v.toNat (BitVec.toNat (w := 32) n) ∧
        hostWrite p 0x00C#32 .w4 data s = { s with
          ntracks := n, status := { s.status with clamp := s.status.clamp || decide (n ≠ v) } }) ∧
      ∀ t : Fin 64, t.val < p.ntrackMax →
        (∃ b, (BitVec.toNat (w := 32) b) = v.toNat / 32 * 32 ∧
          hostWrite p (BitVec.ofNat 32 (0x100 + 8 * t)) .w4 data s = { s with trkBase := s.trkBase.set t b }) ∧
        hostWrite p (BitVec.ofNat 32 (0x104 + 8 * t)) .w4 data s = { s with trkLen := s.trkLen.set t v }) ∧
    (s.status.running = true →
      hostWrite p 0x00C#32 .w4 data s = { s with status := { s.status with cmderr := true } } ∧
      ∀ t : Fin 64, t.val < p.ntrackMax →
        hostWrite p (BitVec.ofNat 32 (0x100 + 8 * t)) .w4 data s = { s with status := { s.status with cmderr := true } } ∧
        hostWrite p (BitVec.ofNat 32 (0x104 + 8 * t)) .w4 data s = { s with status := { s.status with cmderr := true } }) ∧
    (∀ i : Fin 16, i.val < p.ndpcm → ∀ d, d = s.dpcmSlots.get i →
      hostWrite p (BitVec.ofNat 32 (0x300 + 16 * i)) .w4 data s =
        { s with dpcmSlots := s.dpcmSlots.set i { d with base := v } } ∧
      hostWrite p (BitVec.ofNat 32 (0x304 + 16 * i)) .w4 data s =
        { s with dpcmSlots := s.dpcmSlots.set i { d with bits := v } } ∧
      (∃ vol : BitVec 7, vol.toNat = v.toNat % 128 ∧
        hostWrite p (BitVec.ofNat 32 (0x308 + 16 * i)) .w4 data s =
          { s with dpcmSlots := s.dpcmSlots.set i { d with vol := vol, loop := decide (v.toNat / 256 % 2 = 1) } }) ∧
      hostWrite p (BitVec.ofNat 32 (0x30C + 16 * i)) .w4 data s = s) ∧
    (∀ t : Fin 64, t.val < p.ntrackMax → hostWrite p (BitVec.ofNat 32 (0x400 + 8 * t)) .w4 data s = s ∧
      hostWrite p (BitVec.ofNat 32 (0x404 + 8 * t)) .w4 data s = s) ∧
    hostWrite p 0x000#32 .w4 data s = s ∧ hostWrite p 0x014#32 .w4 data s = s ∧
    (∀ n, (n < 58 → hostWrite p (BitVec.ofNat 32 (0x018 + 4 * n)) .w4 data s = s) ∧
      (n < 640 → hostWrite p (BitVec.ofNat 32 (0x600 + 4 * n)) .w4 data s = s))

/-- 10_state.md R33: writing 1 to a W1C bit of STATUS clears it; writing 0 to one, or anything to RUNNING or END, has no
effect. -/
def Obligations.StatusWriteOneToClear : Prop :=
  ∀ (p : Params) (s : State) (data : BitVec 64), hostWrite p 0x008#32 .w4 data s = { s with
    status := {
      running := s.status.running, ended := s.status.ended
      done := s.status.done && !data.getLsbD 2, unk := s.status.unk && !data.getLsbD 3
      clamp := s.status.clamp && !data.getLsbD 4, buserr := s.status.buserr && !data.getLsbD 5
      cmderr := s.status.cmderr && !data.getLsbD 6 } }

/-- 20_memory.md R104, R105, R108: a performed write to WAVE, DPCM or EVM stores its bytes little-endian: reading the same
width back gives the data written, reading byte `k` gives its byte `k`, every other byte of the three memories reads as
before, and nothing but the three memories changes. For a byte of EVM or DPCM RAM that nothing has written, that it reads
as before is the model's choice (DESIGN CHOICE, log 7): what such a read returns is a free value of its address alone. -/
def Obligations.MemoryWriteRead : Prop :=
  ∀ (p : Params) (s : State) (addr : Word) (w : Width) (data : BitVec 64), LegalParams p → Memory.wf p s = true →
    InWritableMemory p addr.toNat → addr.toNat % widthBytes w = 0 → w ≠ .w8 →
    ∃ t, hostWrite p addr w data s = t ∧ t = { s with evm := t.evm, dpcm := t.dpcm, wave := t.wave } ∧
      (hostRead p addr w t).1.toNat = data.toNat % 256 ^ widthBytes w ∧
      (∀ k, k < widthBytes w →
        (hostRead p (addr + BitVec.ofNat 32 k) .w1 t).1.toNat = data.toNat / 256 ^ k % 256) ∧
      (∀ a : Word, InWritableMemory p a.toNat → ¬(addr.toNat ≤ a.toNat ∧ a.toNat < addr.toNat + widthBytes w) →
        (hostRead p a .w1 t).1 = (hostRead p a .w1 s).1)

/-- 20_memory.md R104, R107: `OUT[j]` stands at OUT bytes `8j` to `8j+7`, little-endian: a 64-bit read gives its bits, a
32-bit read at `8j` its low half and at `8j + 4` its high half. -/
def Obligations.OutputReads : Prop :=
  ∀ (p : Params) (s : State) (j : Nat), LegalParams p → j < 2 * p.blockMax →
    (hostRead p (BitVec.ofNat 32 (0x10000 + 8 * j)) .w8 s).1 = (s.outAt j).bits ∧
    (hostRead p (BitVec.ofNat 32 (0x10000 + 8 * j)) .w4 s).1.toNat = (s.outAt j).bits.toNat % 2 ^ 32 ∧
    (hostRead p (BitVec.ofNat 32 (0x10000 + 8 * j + 4)) .w4 s).1.toNat = (s.outAt j).bits.toNat / 2 ^ 32

/-! ### Commands (10_state.md R32, R35, 40_track_dispatch.md R200, R201, 70_reset_and_hazards.md R541) -/

/-- 70_reset_and_hazards.md R541: RESET, whatever other command bits are written with it, puts every register, track,
Channel and shared buffer at its reset value and keeps EVM, DPCM RAM and wave RAM. That the host's queues are kept is
the model's choice (log 18). -/
def Obligations.ResetCommand : Prop :=
  ∀ (p : Params) (s : State) (data : BitVec 64), data.getLsbD 31 = true →
    hostWrite p 0x004#32 .w4 data s = { State.reset with
      evm := s.evm, dpcm := s.dpcm, wave := s.wave, inbox := s.inbox, replies := s.replies }

/-- 40_track_dispatch.md R200, 10_state.md R32, R35: START, refused with CMDERR while RUNNING, else every track and Channel
reset, pipes and syncs cleared, END cleared and RUNNING set; STOP clears RUNNING and changes nothing else; STOP and START
in one write run STOP first, so that the START is never refused. -/
def Obligations.StartAndStopCommands : Prop :=
  ∀ (p : Params) (s : State) (data : BitVec 64), data.getLsbD 31 = false → data.getLsbD 1 = false →
    (data.getLsbD 2 = false → data.getLsbD 0 = true → s.status.running = true →
      hostWrite p 0x004#32 .w4 data s = { s with status := { s.status with cmderr := true } }) ∧
    (data.getLsbD 2 = true ∨ s.status.running = false → data.getLsbD 0 = true →
      ∃ t, hostWrite p 0x004#32 .w4 data s = t ∧
        t = { s with
          tracks := t.tracks, pipes := t.pipes, syncs := t.syncs
          status := { s.status with ended := false, running := true } } ∧
        (∀ u, t.tracks.get u = Track.reset) ∧ (∀ i k, t.pipeAt i k = F64.zero) ∧ (∀ i k, t.syncAt i k = false)) ∧
    (data.getLsbD 2 = true → data.getLsbD 0 = false →
      hostWrite p 0x004#32 .w4 data s = { s with status := { s.status with running := false } })

/-- 40_track_dispatch.md R201, 20_memory.md R124, 10_state.md R32, 60_exceptions.md R504: RENDER, refused with CMDERR when
not RUNNING; else OUT, every pipe and every sync buffer are cleared before track 0, and track 0 begins at sample 0 of
BLOCK_LEN frames. The commands of one write run in the order STOP, START, RENDER: with STOP and no START the RENDER is
refused; a START that is not refused runs before it; a START refused while RUNNING sets CMDERR and does not prevent the
RENDER. That the CTRL write leaves the engine busy at track 0 and sample 0, its block rendered by the steps that follow,
is the model's choice (log 1): R32 has the command complete before the write returns. -/
def Obligations.RenderCommand : Prop :=
  ∀ (p : Params) (s : State) (data : BitVec 64), data.getLsbD 31 = false → data.getLsbD 1 = true →
    (data.getLsbD 0 = false → data.getLsbD 2 = true ∨ s.status.running = false →
      hostWrite p 0x004#32 .w4 data s =
        { s with status := { s.status with cmderr := true, running := false } }) ∧
    (data.getLsbD 0 = true ∨ (data.getLsbD 2 = false ∧ s.status.running = true) →
      ∃ t, hostWrite p 0x004#32 .w4 data s = t ∧
        (∀ j, t.outAt j = F64.zero) ∧ (∀ i k, t.pipeAt i k = F64.zero) ∧ (∀ i k, t.syncAt i k = false) ∧
        t.engine.busy = true ∧ t.engine.track.val = 0 ∧ t.engine.pos = 0 ∧ t.engine.frames = s.blockLen.toNat ∧
        (data.getLsbD 2 = false → s.status.running = true →
          t = { s with
            out := t.out, pipes := t.pipes, syncs := t.syncs, engine := t.engine
            status := { s.status with cmderr := s.status.cmderr || data.getLsbD 0 } }) ∧
        (data.getLsbD 2 = true ∨ s.status.running = false →
          t = { s with
            out := t.out, pipes := t.pipes, syncs := t.syncs, engine := t.engine, tracks := t.tracks
            status := { s.status with ended := false, running := true } } ∧
          ∀ u, t.tracks.get u = Track.reset))

/-- 20_memory.md R120: an idle engine performs the host's accesses one at a time in program order, the data of a read to
the replies; with none to perform, nothing changes, the model's choice (log 2). -/
def Obligations.IdleStep : Prop :=
  ∀ s : State, s.engine.busy = false →
    (s.inbox = [] → step s = .next s) ∧
    (∀ addr w rest, s.inbox = .read addr w :: rest → ∃ t, step s = .next t ∧
      t.replies = s.replies ++ [(hostRead defaultParams addr w { s with inbox := rest }).1] ∧
      { t with replies := s.replies } = (hostRead defaultParams addr w { s with inbox := rest }).2) ∧
    (∀ addr w data rest, s.inbox = .write addr w data :: rest →
      step s = .next (hostWrite defaultParams addr w data { s with inbox := rest }))

/-! ### Reset -/

/-- 70_reset_and_hazards.md R540, R542: the state after power-on, field by field, and it meets every invariant. -/
def Obligations.ResetState : Prop :=
  State.reset.status = ⟨false, false, false, false, false, false, false⟩ ∧
  State.reset.ntracks = 1#32 ∧ State.reset.blockLen = 1024#32 ∧
  (∀ t, State.reset.trkBase.get t = 0#32 ∧ State.reset.trkLen.get t = 0#32) ∧
  (∀ i, State.reset.dpcmSlots.get i = ⟨0#32, 0#32, 0#7, false⟩) ∧
  (∀ t, (State.reset.tracks.get t).cursor = 0#32 ∧ (State.reset.tracks.get t).needle = F64.zero ∧
    (State.reset.tracks.get t).spt = (F64.ofNat 2296875).div (F64.ofNat 10000) ∧
    (State.reset.tracks.get t).ended = false ∧
    ∃ c, (State.reset.tracks.get t).ch = c ∧
      c.note = 0#8 ∧ c.vel = 0#8 ∧ c.expr = 127#8 ∧ c.detune = 0#32 ∧ c.volmode = .linear ∧ c.pan = 64#8 ∧ c.pw = 50#8 ∧
      c.noisefreq = 0#32 ∧ c.oncount = 0#64 ∧
      c.lfoDepth = 0#32 ∧ c.lfoWidth = F64.zero ∧ c.lfoDelay = F64.zero ∧ c.lfoLen = F64.zero ∧ c.lfoRev = false ∧
      c.ftype = .off ∧ c.famt = 0#32 ∧ c.fcut = 0#32 ∧ c.fres = F64.zero ∧ (∀ j, c.fb.get j = F64.zero) ∧
      c.vowel = .off ∧ (∀ j, c.fm.get j = F64.zero) ∧
      c.inSens = F64.zero ∧ c.inPipe = 0 ∧ c.outMode = .mix ∧ c.outPipe = 0 ∧ c.ringSens = F64.zero ∧ c.ringPipe = 0 ∧
      c.syncMode = .off ∧ c.syncPipe = 0 ∧
      (∀ o, o = c.osc1 ∨ o = c.osc2 → o.form = .phase .sine ∧ o.sub = 0#4 ∧ o.inc = 0 ∧
        (∀ k, o.phases.get k = 0) ∧ o.fcNoise = ⟨1#15, 0, 0#4⟩ ∧ o.fcSNoise = ⟨1#15, 0, 0#4⟩ ∧
        o.gbNoise = ⟨1#15, 0, 0#4⟩ ∧ o.gbSNoise = ⟨1#7, 0, 0#4⟩ ∧ o.dpcm = ⟨0#7, 0#32, 0, 0#4⟩) ∧
      (∀ e, e = c.env1 ∨ e = c.env2 → e.A = 0#32 ∧ e.D = 0#32 ∧ e.S = F64.one ∧ e.R = 0#32 ∧ e.state = .idle ∧
        e.value = F64.zero ∧ e.step = F64.zero ∧ e.len = 0#32 ∧ e.target = F64.zero ∧ e.count = 0#32 ∧
        e.playing = false)) ∧
  (∀ p k, State.reset.pipeAt p k = F64.zero ∧ State.reset.syncAt p k = false) ∧ (∀ j, State.reset.outAt j = F64.zero) ∧
  (∀ a, State.reset.evmByte a = none ∧ State.reset.dpcmByte a = none ∧ State.reset.waveByte a = 0#8) ∧
  MemoryCanonical defaultParams State.reset ∧ RegistersInRange defaultParams State.reset ∧
  EnvelopesCoherent State.reset ∧ NoiseLive State.reset ∧ RunCoherent State.reset

/-! ### Invariants that every step keeps -/

/-- The memories and buffers keep their canonical form and their sizes (10_state.md R34, R50 to R52). -/
def Obligations.StepKeepsMemoryCanonical : Prop :=
  ∀ s t : State, MemoryCanonical defaultParams s → step s = .next t → MemoryCanonical defaultParams t

/-- Every register with a legal range stays in it, but for those of the envelopes, which StepKeepsEnvelopesCoherent states:
NTRACKS, BLOCK_LEN and TRK_BASE (10_state.md R31, R34), the levels of R42, the phases and increments of R43 and R44, the
resonance of R47, the sensitivities of R49, all clamped on the way in (30_encoding.md R146). -/
def Obligations.StepKeepsRegistersInRange : Prop :=
  ∀ s t : State, RegistersInRange defaultParams s → step s = .next t → RegistersInRange defaultParams t

/-- Every envelope stays coherent: it plays exactly when it is not idle, its count stays within its ramp, and its levels
stay in [0, 1] (10_state.md R46, 43_envelope.md R410 to R413, 60_exceptions.md R501). -/
def Obligations.StepKeepsEnvelopesCoherent : Prop :=
  ∀ s t : State, EnvelopesCoherent s → step s = .next t → EnvelopesCoherent t

/-- No LFSR ever becomes 0, the state in which its noise would stop (42_oscillator.md R332, R351). -/
def Obligations.StepKeepsNoiseLive : Prop :=
  ∀ s t : State, NoiseLive s → step s = .next t → NoiseLive t

/-- Where a run stands stays coherent: a RENDER is in progress only while RUNNING and at a slot below NTRACKS, no cursor of
a run passes the end of its log, and a run whose END is set is not RUNNING between RENDERs (10_state.md R33, R34,
40_track_dispatch.md R200, R201, R213, 60_exceptions.md R501). -/
def Obligations.StepKeepsRunCoherent : Prop :=
  ∀ s t : State, RunCoherent s → step s = .next t → RunCoherent t
end

