-- ==== Sys2Proof/Laws/Float.lean ====
section
/-! SUPPORT. The binary64 arithmetic: fields of a packed value, the rounding of a ratio (its bounds, that it is
monotone, that it is the identity on representable values), and what follows for sums, differences and quotients. -/

namespace Sys2Proof

/-! ### Packed values -/

theorem F64.infMag_lt : F64.infMag < 0x8000000000000000 := by decide

theorem F64.pack_mag (neg : Bool) {m : Nat} (h : m < 0x8000000000000000) : (F64.pack neg m).mag = m := by
  simp only [F64.pack, F64.mag, BitVec.toNat_ofNat]
  cases neg <;> simp <;> omega

theorem F64.pack_sign (neg : Bool) {m : Nat} (h : m < 0x8000000000000000) : (F64.pack neg m).sign = neg := by
  simp only [F64.pack, F64.sign, BitVec.getLsbD_ofNat]
  cases neg
  · simp only [Bool.false_eq_true, if_false]
    have : m.testBit 63 = false := Nat.testBit_lt_two_pow (by omega)
    simp [this]
  · simp only [if_true]
    have : (0x8000000000000000 + m) = 2 ^ 63 + m := by norm_num
    rw [this, Nat.testBit_two_pow_add_eq, Nat.testBit_lt_two_pow (by omega)]
    decide

theorem F64.mag_lt (a : F64) : a.mag < 0x8000000000000000 := Nat.mod_lt _ (by norm_num)

theorem F64.sign_eq (a : F64) : a.sign = decide (0x8000000000000000 ≤ a.bits.toNat) := by
  simp only [F64.sign, BitVec.getLsbD, Nat.testBit_eq_decide_div_mod_eq]
  have := a.bits.isLt
  congr 1
  apply propext
  constructor <;> intro h <;> omega

/-- Two values with the same sign and magnitude are the same value. -/
theorem F64.ext_sign_mag {a b : F64} (hs : a.sign = b.sign) (hm : a.mag = b.mag) : a = b := by
  rw [F64.sign_eq, F64.sign_eq, decide_eq_decide] at hs
  simp only [F64.mag] at hm
  have ha := a.bits.isLt
  have hb := b.bits.isLt
  have : a.bits.toNat = b.bits.toNat := by omega
  cases a
  cases b
  simp only [F64.mk.injEq]
  exact BitVec.eq_of_toNat_eq this

/-! ### Rounding -/

theorem F64.roundMag_le_inf (num den : Nat) : F64.roundMag num den ≤ F64.infMag := by
  simp only [F64.roundMag]
  exact Nat.min_le_right _ _

theorem F64.roundMag_lt (num den : Nat) : F64.roundMag num den < 0x8000000000000000 :=
  Nat.lt_of_le_of_lt (F64.roundMag_le_inf num den) F64.infMag_lt

@[simp] theorem F64.ofRatio_mag (neg : Bool) (num den : Nat) : (F64.ofRatio neg num den).mag = F64.roundMag num den :=
  F64.pack_mag neg (F64.roundMag_lt num den)

@[simp] theorem F64.ofRatio_sign (neg : Bool) (num den : Nat) : (F64.ofRatio neg num den).sign = neg :=
  F64.pack_sign neg (F64.roundMag_lt num den)

@[simp] theorem F64.ofRatio_isNaN (neg : Bool) (num den : Nat) : (F64.ofRatio neg num den).isNaN = false := by
  simp [F64.isNaN, F64.roundMag_le_inf]

/-- The significand kept before rounding, and the exponent of its last place. -/
theorem F64.significand_bounds (num den : Nat) :
    num / (den * 2 ^ ((num / den).log2 - 52)) < 2 ^ 53 ∧
      (52 ≤ (num / den).log2 → 2 ^ 52 ≤ num / (den * 2 ^ ((num / den).log2 - 52))) := by
  rw [← Nat.div_div_eq_div_mul]
  generalize hq : num / den = q
  constructor
  · rw [Nat.div_lt_iff_lt_mul (by positivity), ← pow_add]
    by_cases h0 : q = 0
    · subst h0; positivity
    · calc q < 2 ^ (q.log2 + 1) := Nat.lt_log2_self
        _ ≤ 2 ^ (53 + (q.log2 - 52)) := Nat.pow_le_pow_right (by norm_num) (by omega)
  · intro h
    rw [Nat.le_div_iff_mul_le (by positivity), ← pow_add]
    have h0 : q ≠ 0 := by
      intro h0; subst h0; simp at h
    calc 2 ^ (52 + (q.log2 - 52)) = 2 ^ q.log2 := by congr 1; omega
      _ ≤ q := Nat.log2_self_le h0

theorem F64.roundUp_bounds (p : Prop) [Decidable p] (r : Nat) : r ≤ (if p then r + 1 else r) ∧ (if p then r + 1 else r) ≤ r + 1 := by
  split <;> omega

/-- A ratio of at least one unit does not round to zero. -/
theorem F64.roundMag_pos {num den : Nat} (hd : 0 < den) (h : den ≤ num) : 1 ≤ F64.roundMag num den := by
  have hq : 1 ≤ num / den := (Nat.le_div_iff_mul_le hd).mpr (by omega)
  have hr : 1 ≤ num / (den * 2 ^ ((num / den).log2 - 52)) := by
    by_cases h52 : 52 ≤ (num / den).log2
    · exact le_trans (by norm_num) ((F64.significand_bounds num den).2 h52)
    · have : (num / den).log2 - 52 = 0 := by omega
      rw [this, pow_zero, mul_one]
      exact hq
  simp only [F64.roundMag, F64.infMag]
  apply Nat.le_min.mpr
  refine ⟨?_, by norm_num⟩
  split <;> omega

/-- A ratio of at most 2^(52+j) units rounds to at most that. -/
theorem F64.roundMag_le_pow {num den j : Nat} (hd : 0 < den) (h : num ≤ den * 2 ^ (52 + j)) :
    F64.roundMag num den ≤ (j + 1) * 0x10000000000000 := by
  have hb := F64.significand_bounds num den
  simp only [F64.roundMag]
  refine le_trans (Nat.min_le_left _ _) ?_
  generalize hsh : (num / den).log2 - 52 = sh at hb ⊢
  by_cases hlt : num / den < 2 ^ (52 + j)
  · have hl : sh + 1 ≤ j ∨ sh = 0 := by
      by_cases hq : num / den = 0
      · right; rw [← hsh, hq]; simp
      · have := (Nat.log2_lt hq).mpr hlt
        omega
    rcases hl with hl | hl
    · have h1 : sh * 0x10000000000000 ≤ (j - 1) * 0x10000000000000 := Nat.mul_le_mul_right _ (by omega)
      have h2 : (j + 1) * 0x10000000000000 = (j - 1) * 0x10000000000000 + 2 * 0x10000000000000 := by
        rw [← Nat.add_mul]; congr 1; omega
      have h3 := hb.1
      have hup := (F64.roundUp_bounds (den * 2 ^ sh < 2 * (num % (den * 2 ^ sh)) ∨
        2 * (num % (den * 2 ^ sh)) = den * 2 ^ sh ∧ num / (den * 2 ^ sh) % 2 = 1) (num / (den * 2 ^ sh))).2
      refine le_trans (Nat.add_le_add_left hup _) ?_
      generalize num / (den * 2 ^ sh) = r at h3
      have hr : r + 1 ≤ 2 * 0x10000000000000 := h3
      rw [h2]
      exact Nat.add_le_add h1 hr
    · subst hl
      have hr : num / (den * 2 ^ 0) < 2 ^ (52 + j) := by rwa [pow_zero, mul_one]
      have hr53 := hb.1
      have hup := (F64.roundUp_bounds (den * 2 ^ 0 < 2 * (num % (den * 2 ^ 0)) ∨
        2 * (num % (den * 2 ^ 0)) = den * 2 ^ 0 ∧ num / (den * 2 ^ 0) % 2 = 1) (num / (den * 2 ^ 0))).2
      refine le_trans (Nat.add_le_add_left hup _) ?_
      generalize num / (den * 2 ^ 0) = r at hr hr53
      clear hup hb h hlt hsh
      by_cases hj : j = 0
      · subst hj
        have : r < 4503599627370496 := hr
        omega
      · have h2 : 2 * 0x10000000000000 ≤ (j + 1) * 0x10000000000000 := Nat.mul_le_mul_right _ (by omega)
        have : r < 9007199254740992 := hr53
        omega
  · have heq : num = den * 2 ^ (52 + j) := by
      have : den * 2 ^ (52 + j) ≤ num := by
        have := (Nat.le_div_iff_mul_le hd).mp (Nat.not_lt.mp hlt)
        rw [Nat.mul_comm] at this
        exact this
      omega
    have hq : num / den = 2 ^ (52 + j) := by rw [heq, Nat.mul_div_cancel_left _ hd]
    have hs : sh = j := by rw [← hsh, hq, Nat.log2_two_pow]; omega
    subst hs
    have hmul : num = den * 2 ^ sh * 2 ^ 52 := by rw [heq, pow_add]; ring
    have hr : num / (den * 2 ^ sh) = 2 ^ 52 := by
      rw [hmul]; exact Nat.mul_div_cancel_left _ (by positivity)
    have hm : num % (den * 2 ^ sh) = 0 := by rw [hmul]; exact Nat.mul_mod_right _ _
    have hpos : 0 < den * 2 ^ sh := by positivity
    rw [hr, hm, if_neg (by omega)]
    omega

/-- Rounding is monotone in the numerator. -/
theorem F64.roundMag_mono {a b den : Nat} (hd : 0 < den) (h : a ≤ b) : F64.roundMag a den ≤ F64.roundMag b den := by
  have ha := F64.significand_bounds a den
  have hb := F64.significand_bounds b den
  have hq : a / den ≤ b / den := Nat.div_le_div_right h
  have hlog : (a / den).log2 ≤ (b / den).log2 := by
    by_cases h0 : a / den = 0
    · rw [h0]; simp
    · have hb0 : b / den ≠ 0 := fun hz => h0 (Nat.le_zero.mp (hz ▸ hq))
      exact (Nat.le_log2 hb0).mpr (le_trans (Nat.log2_self_le h0) hq)
  simp only [F64.roundMag]
  apply min_le_min _ le_rfl
  generalize hsa : (a / den).log2 - 52 = sa at ha ⊢
  generalize hsb : (b / den).log2 - 52 = sb at hb ⊢
  have hs : sa ≤ sb := by omega
  rcases Nat.lt_or_eq_of_le hs with hlt | heq
  · have h1 := ha.1
    have h2 := hb.2 (by omega)
    have h3 : (sa + 1) * 0x10000000000000 ≤ sb * 0x10000000000000 := Nat.mul_le_mul_right _ hlt
    rw [Nat.add_mul] at h3
    split <;> split <;> omega
  · subst heq
    generalize hD : den * 2 ^ sa = D at ha hb ⊢
    have hDpos : 0 < D := by rw [← hD]; positivity
    have hr : a / D ≤ b / D := Nat.div_le_div_right h
    have ea := Nat.div_add_mod a D
    have eb := Nat.div_add_mod b D
    have la := Nat.mod_lt a hDpos
    have lb := Nat.mod_lt b hDpos
    rcases Nat.lt_or_eq_of_le hr with hlt | heq
    · split <;> split <;> omega
    · rw [heq] at ea ⊢
      have hrem : a % D ≤ b % D := by omega
      split <;> split <;> omega

/-! ### Units -/

theorem F64.unitScale_eq : ∃ e, e = 1074 ∧ F64.unitScale = 2 ^ e := ⟨1074, rfl, rfl⟩

theorem F64.unitScale_pos : 0 < F64.unitScale := by
  obtain ⟨e, _, h⟩ := F64.unitScale_eq
  rw [h]
  exact Nat.two_pow_pos e

theorem F64.units_normal {a : F64} (h : 0x10000000000000 ≤ a.mag) :
    a.units = (0x10000000000000 + a.mag % 0x10000000000000) * 2 ^ (a.mag / 0x10000000000000 - 1) := by
  have : a.mag / 0x10000000000000 ≠ 0 := by omega
  simp only [F64.units, this, if_false]

theorem F64.units_subnormal {a : F64} (h : a.mag < 0x10000000000000) : a.units = a.mag := by
  have h0 : a.mag / 0x10000000000000 = 0 := by omega
  simp only [F64.units, h0, if_true]
  omega

/-- Rounding a representable value gives the value. -/
theorem F64.roundMag_units {a : F64} (h : a.isFinite = true) : F64.roundMag a.units 1 = a.mag := by
  simp only [F64.isFinite, decide_eq_true_eq] at h
  by_cases hn : 0x10000000000000 ≤ a.mag
  · have he : a.units / 1 = a.units := Nat.div_one _
    have hu := F64.units_normal hn
    generalize hE : a.mag / 0x10000000000000 - 1 = e at hu
    generalize hF : a.mag % 0x10000000000000 = f at hu
    have hf : f < 0x10000000000000 := by rw [← hF]; exact Nat.mod_lt _ (by norm_num)
    have hne : a.units ≠ 0 := by rw [hu]; positivity
    have hlog : a.units.log2 = 52 + e := by
      apply le_antisymm
      · apply Nat.lt_succ_iff.mp
        rw [Nat.log2_lt hne, hu]
        calc (0x10000000000000 + f) * 2 ^ e < 2 ^ 53 * 2 ^ e := by
              apply Nat.mul_lt_mul_of_pos_right _ (by positivity)
              norm_num; omega
          _ = 2 ^ (52 + e).succ := by rw [← pow_add]; congr 1; omega
      · rw [Nat.le_log2 hne, hu, pow_add]
        exact Nat.mul_le_mul_right _ (by norm_num)
    have hsh : a.units.log2 - 52 = e := by omega
    have hr : a.units / (1 * 2 ^ e) = 0x10000000000000 + f := by
      rw [hu, one_mul, Nat.mul_div_cancel _ (by positivity)]
    have hm : a.units % (1 * 2 ^ e) = 0 := by
      rw [hu, one_mul, Nat.mul_mod_left]
    have hpos : 0 < 1 * 2 ^ e := by positivity
    simp only [F64.roundMag, he, hsh, hr, hm]
    rw [if_neg (by omega)]
    have hmag := Nat.div_add_mod a.mag 0x10000000000000
    rw [hF] at hmag
    have hdiv : a.mag / 0x10000000000000 = e + 1 := by
      have : 1 ≤ a.mag / 0x10000000000000 := (Nat.le_div_iff_mul_le (by norm_num)).mpr (by omega)
      omega
    rw [hdiv] at hmag
    have hval : e * 0x10000000000000 + (0x10000000000000 + f) = a.mag := by rw [← hmag]; ring
    rw [hval, min_eq_left (le_of_lt h)]
  · have hn' : a.mag < 0x10000000000000 := by omega
    have hu := F64.units_subnormal hn'
    have hsh : a.units.log2 - 52 = 0 := by
      rw [hu]
      by_cases h0 : a.mag = 0
      · rw [h0]; rfl
      · have := (Nat.log2_lt h0).mpr (show a.mag < 2 ^ 52 by norm_num; omega)
        omega
    rw [hu] at hsh
    simp [F64.roundMag, hu, hsh, Nat.mod_one, le_of_lt h]

/-- Units grow with the magnitude. -/
theorem F64.units_mono {a b : F64} (ha : a.isFinite = true) (hb : b.isFinite = true) :
    a.units ≤ b.units ↔ a.mag ≤ b.mag := by
  constructor
  · intro h
    rw [← F64.roundMag_units ha, ← F64.roundMag_units hb]
    exact F64.roundMag_mono one_pos h
  · intro h
    by_contra hc
    have hle : b.units ≤ a.units := by omega
    have h2 := F64.roundMag_mono one_pos hle
    rw [F64.roundMag_units ha, F64.roundMag_units hb] at h2
    have hm : a.mag = b.mag := by omega
    have : a.units = b.units := by simp only [F64.units, hm]
    omega

theorem F64.units_eq_zero {a : F64} : a.units = 0 ↔ a.mag = 0 := by
  by_cases hn : 0x10000000000000 ≤ a.mag
  · rw [F64.units_normal hn]
    constructor
    · intro h
      have : 0 < (0x10000000000000 + a.mag % 0x10000000000000) * 2 ^ (a.mag / 0x10000000000000 - 1) := by positivity
      omega
    · intro h; omega
  · rw [F64.units_subnormal (by omega)]

theorem F64.isFinite_not_nan {a : F64} (h : a.isFinite = true) : a.isNaN = false := by
  simp only [F64.isFinite, decide_eq_true_eq] at h
  simp only [F64.isNaN, decide_eq_false_iff_not]
  omega

theorem F64.isFinite_not_inf {a : F64} (h : a.isFinite = true) : a.isInf = false := by
  simp only [F64.isFinite, decide_eq_true_eq] at h
  simp only [F64.isInf, beq_eq_false_iff_ne]
  omega

/-- Finite values compare as their units. -/
theorem F64.le_iff_units {a b : F64} (ha : a.isFinite = true) (hb : b.isFinite = true) :
    a.le b = true ↔ a.toUnits ≤ b.toUnits := by
  have h1 := F64.units_mono ha hb
  have h2 := F64.units_mono hb ha
  have za : a.units = 0 ↔ a.mag = 0 := F64.units_eq_zero
  have zb : b.units = 0 ↔ b.mag = 0 := F64.units_eq_zero
  rw [F64.le, F64.isFinite_not_nan ha, F64.isFinite_not_nan hb, Bool.not_false, Bool.true_and, Bool.true_and,
    decide_eq_true_iff, F64.key, F64.key, F64.toUnits, F64.toUnits]
  generalize a.mag = ma at *
  generalize b.mag = mb at *
  generalize a.units = ua at *
  generalize b.units = ub at *
  split <;> split <;> omega

theorem F64.lt_iff_units {a b : F64} (ha : a.isFinite = true) (hb : b.isFinite = true) :
    a.lt b = true ↔ a.toUnits < b.toUnits := by
  have h1 := F64.units_mono ha hb
  have h2 := F64.units_mono hb ha
  have za : a.units = 0 ↔ a.mag = 0 := F64.units_eq_zero
  have zb : b.units = 0 ↔ b.mag = 0 := F64.units_eq_zero
  rw [F64.lt, F64.isFinite_not_nan ha, F64.isFinite_not_nan hb, Bool.not_false, Bool.true_and, Bool.true_and,
    decide_eq_true_iff, F64.key, F64.key, F64.toUnits, F64.toUnits]
  generalize a.mag = ma at *
  generalize b.mag = mb at *
  generalize a.units = ua at *
  generalize b.units = ub at *
  split <;> split <;> omega

/-! ### Signed rounding

`roundKey z` is the order key of the value nearest to `z` units: sums and differences are `roundKey` of the exact result. -/

/-- The key of the binary64 value nearest to `z` units. -/
def F64.roundKey (z : Int) : Int := if z < 0 then -(F64.roundMag z.natAbs 1 : Int) else F64.roundMag z.natAbs 1

theorem F64.roundMag_zero : F64.roundMag 0 1 = 0 := by decide

theorem F64.roundKey_mono {x y : Int} (h : x ≤ y) : F64.roundKey x ≤ F64.roundKey y := by
  have hm {m n : Nat} (hmn : m ≤ n) := F64.roundMag_mono (den := 1) one_pos hmn
  simp only [F64.roundKey]
  split
  · split
    · have := hm (m := y.natAbs) (n := x.natAbs) (by omega)
      omega
    · omega
  · split
    · omega
    · have := hm (m := x.natAbs) (n := y.natAbs) (by omega)
      omega

/-- A finite value is the value nearest to its own units. -/
theorem F64.roundKey_toUnits {a : F64} (h : a.isFinite = true) : F64.roundKey a.toUnits = a.key := by
  have hr := F64.roundMag_units h
  have hz : a.units = 0 ↔ a.mag = 0 := F64.units_eq_zero
  rw [F64.roundKey, F64.toUnits, F64.key]
  cases a.sign
  · simp [hr]
  · simp only [if_true, Int.natAbs_neg, Int.natAbs_natCast, hr]
    split
    · rfl
    · have : a.mag = 0 := hz.mp (by omega)
      rw [this]
      rfl

theorem F64.key_ofRatio (z : Int) : (F64.ofRatio (z < 0) z.natAbs 1).key = F64.roundKey z := by
  rw [F64.key, F64.roundKey, F64.ofRatio_mag, F64.ofRatio_sign]
  by_cases h : z < 0 <;> simp [h]

theorem F64.key_pack_zero (neg : Bool) : (F64.pack neg 0).key = 0 := by
  cases neg <;> decide

theorem F64.isNaN_pack_zero (neg : Bool) : (F64.pack neg 0).isNaN = false := by
  cases neg <;> decide

theorem F64.roundKey_zero : F64.roundKey 0 = 0 := by decide

theorem F64.toUnits_of_isZero {a : F64} (h : a.isZero = true) : a.toUnits = 0 := by
  have : a.mag = 0 := by simpa [F64.isZero] using h
  have hu := F64.units_eq_zero.mpr this
  simp [F64.toUnits, hu]

/-- The core of addition on finite values: its key is the rounding of the exact sum, and it is no NaN. -/
theorem F64.addCore_finite (nan : F64) {a b : F64} (ha : a.isFinite = true) (hb : b.isFinite = true) :
    (F64.addCore nan a b).key = F64.roundKey (a.toUnits + b.toUnits) ∧ (F64.addCore nan a b).isNaN = false := by
  rw [F64.addCore, F64.isFinite_not_inf ha, F64.isFinite_not_inf hb, if_neg (by simp), if_neg (by simp)]
  split
  · next hz =>
    simp only [Bool.and_eq_true] at hz
    rw [F64.toUnits_of_isZero hz.1, F64.toUnits_of_isZero hz.2]
    exact ⟨by rw [F64.key_pack_zero]; exact F64.roundKey_zero.symm, F64.isNaN_pack_zero _⟩
  · simp only
    split
    · next hz => rw [hz]; exact ⟨by decide, by decide⟩
    · exact ⟨F64.key_ofRatio _, F64.ofRatio_isNaN _ _ _⟩

theorem F64.add_finite {a b : F64} (ha : a.isFinite = true) (hb : b.isFinite = true) :
    (a.add b).key = F64.roundKey (a.toUnits + b.toUnits) ∧ (a.add b).isNaN = false := by
  rw [F64.add, F64.isFinite_not_nan ha, F64.isFinite_not_nan hb]
  exact F64.addCore_finite _ ha hb

theorem F64.neg_mag (a : F64) : a.neg.mag = a.mag := by
  simp only [F64.neg, F64.mag]
  have h (x : Nat) : x % 0x8000000000000000 = x % 2 ^ 63 := by norm_num
  rw [BitVec.toNat_xor, h, h]
  apply Nat.eq_of_testBit_eq
  intro i
  rw [Nat.testBit_mod_two_pow, Nat.testBit_mod_two_pow, Nat.testBit_xor]
  by_cases hi : i < 63
  · have : (0x8000000000000000#64).toNat = 2 ^ 63 := by decide
    rw [this, Nat.testBit_two_pow_of_ne (by omega)]
    simp
  · simp [hi]

theorem F64.neg_sign (a : F64) : a.neg.sign = !a.sign := by
  simp [F64.neg, F64.sign]

theorem F64.neg_finite {a : F64} (h : a.isFinite = true) : a.neg.isFinite = true := by
  simpa [F64.isFinite, F64.neg_mag] using h

theorem F64.neg_toUnits (a : F64) : a.neg.toUnits = -a.toUnits := by
  have : a.neg.units = a.units := by simp only [F64.units, F64.neg_mag]
  rw [F64.toUnits, F64.toUnits, this, F64.neg_sign]
  cases a.sign <;> simp

theorem F64.sub_finite {a b : F64} (ha : a.isFinite = true) (hb : b.isFinite = true) :
    (a.sub b).key = F64.roundKey (a.toUnits - b.toUnits) ∧ (a.sub b).isNaN = false := by
  rw [F64.sub, F64.isFinite_not_nan ha, F64.isFinite_not_nan hb]
  have := F64.addCore_finite (F64.nanResult .sub a b) ha (F64.neg_finite hb)
  rw [F64.neg_toUnits, ← sub_eq_add_neg] at this
  exact this

/-! ### Order -/

theorem F64.le_iff {a b : F64} : a.le b = true ↔ a.isNaN = false ∧ b.isNaN = false ∧ a.key ≤ b.key := by
  simp [F64.le, and_assoc]

theorem F64.lt_iff {a b : F64} : a.lt b = true ↔ a.isNaN = false ∧ b.isNaN = false ∧ a.key < b.key := by
  simp [F64.lt, and_assoc]

theorem F64.le_refl {a : F64} (h : a.isNaN = false) : a.le a = true := F64.le_iff.mpr ⟨h, h, Int.le_refl _⟩

theorem F64.le_trans {a b c : F64} (h1 : a.le b = true) (h2 : b.le c = true) : a.le c = true := by
  rw [F64.le_iff] at *
  exact ⟨h1.1, h2.2.1, Int.le_trans h1.2.2 h2.2.2⟩

/-- Of two values that are not NaN, one is at most the other. -/
theorem F64.not_le {a b : F64} (ha : a.isNaN = false) (hb : b.isNaN = false) : a.le b = false ↔ b.lt a = true := by
  rw [Bool.eq_false_iff, ne_eq, F64.le_iff, F64.lt_iff]
  constructor
  · intro h
    exact ⟨hb, ha, by by_contra hc; exact h ⟨ha, hb, by omega⟩⟩
  · rintro ⟨_, _, h⟩ ⟨_, _, h'⟩
    omega

theorem F64.min_le_right {a b : F64} (ha : a.isNaN = false) (hb : b.isNaN = false) : (F64.min a b).le b = true := by
  rw [F64.min, ha, hb, Bool.or_self, if_neg (by decide)]
  split
  · exact F64.le_refl hb
  · next h =>
    rw [F64.le_iff]
    refine ⟨ha, hb, ?_⟩
    by_contra hc
    exact h (F64.lt_iff.mpr ⟨hb, ha, by omega⟩)

theorem F64.le_min {a b c : F64} (ha : c.le a = true) (hb : c.le b = true) : c.le (F64.min a b) = true := by
  rw [F64.min, (F64.le_iff.mp ha).2.1, (F64.le_iff.mp hb).2.1, Bool.or_self, if_neg (by decide)]
  split
  · exact hb
  · exact ha

theorem F64.le_max_right {a b : F64} (ha : a.isNaN = false) (hb : b.isNaN = false) : b.le (F64.max a b) = true := by
  rw [F64.max, ha, hb, Bool.or_self, if_neg (by decide)]
  split
  · exact F64.le_refl hb
  · next h =>
    rw [F64.le_iff]
    refine ⟨hb, ha, ?_⟩
    by_contra hc
    exact h (F64.lt_iff.mpr ⟨ha, hb, by omega⟩)

theorem F64.max_le {a b c : F64} (ha : a.le c = true) (hb : b.le c = true) : (F64.max a b).le c = true := by
  rw [F64.max, (F64.le_iff.mp ha).1, (F64.le_iff.mp hb).1, Bool.or_self, if_neg (by decide)]
  split
  · exact hb
  · exact ha

/-- Adding a value that is not negative does not decrease a finite value. -/
theorem F64.le_add {a b : F64} (ha : a.isFinite = true) (hb : b.isFinite = true) (h : F64.zero.le b = true) :
    a.le (a.add b) = true := by
  obtain ⟨hk, hn⟩ := F64.add_finite ha hb
  rw [F64.le_iff, hk, ← F64.roundKey_toUnits ha]
  refine ⟨F64.isFinite_not_nan ha, hn, F64.roundKey_mono ?_⟩
  have := (F64.le_iff_units (by decide) hb).mp h
  have h0 : F64.zero.toUnits = 0 := by decide
  omega

/-- Subtracting a value that is not negative does not increase a finite value. -/
theorem F64.sub_le {a b : F64} (ha : a.isFinite = true) (hb : b.isFinite = true) (h : F64.zero.le b = true) :
    (a.sub b).le a = true := by
  obtain ⟨hk, hn⟩ := F64.sub_finite ha hb
  rw [F64.le_iff, hk, ← F64.roundKey_toUnits ha]
  refine ⟨hn, F64.isFinite_not_nan ha, F64.roundKey_mono ?_⟩
  have := (F64.le_iff_units (by decide) hb).mp h
  have h0 : F64.zero.toUnits = 0 := by decide
  omega

/-- A difference is not negative when the subtrahend is at most the minuend. -/
theorem F64.zero_le_sub {a b : F64} (ha : a.isFinite = true) (hb : b.isFinite = true) (h : b.le a = true) :
    F64.zero.le (a.sub b) = true := by
  obtain ⟨hk, hn⟩ := F64.sub_finite ha hb
  have hle := (F64.le_iff_units hb ha).mp h
  rw [F64.le_iff, hk]
  refine ⟨by decide, hn, ?_⟩
  have h0 : F64.zero.key = F64.roundKey 0 := by decide
  rw [h0]
  exact F64.roundKey_mono (by omega)

theorem F64.roundKey_pos {z : Int} (h : 0 < z) : 1 ≤ F64.roundKey z := by
  have := F64.roundMag_pos (num := z.natAbs) (den := 1) one_pos (by omega)
  rw [F64.roundKey, if_neg (by omega)]
  omega

/-- A difference of finite values is positive when the minuend is greater: it does not round to zero. -/
theorem F64.zero_lt_sub {a b : F64} (ha : a.isFinite = true) (hb : b.isFinite = true) (h : b.lt a = true) :
    F64.zero.lt (a.sub b) = true := by
  obtain ⟨hk, hn⟩ := F64.sub_finite ha hb
  have hlt := (F64.lt_iff_units hb ha).mp h
  rw [F64.lt_iff, hk]
  refine ⟨by decide, hn, ?_⟩
  have h0 : F64.zero.key = 0 := by decide
  have := F64.roundKey_pos (z := a.toUnits - b.toUnits) (by omega)
  omega

theorem F64.finite_or_inf {a : F64} (h : a.isNaN = false) : a.isFinite = true ∨ a.mag = F64.infMag := by
  simp only [F64.isNaN, decide_eq_false_iff_not] at h
  simp only [F64.isFinite, decide_eq_true_eq]
  omega

/-- The difference of two values that are not NaN, the first the greater, is positive. -/
theorem F64.zero_lt_sub_of_lt {a b : F64} (h : b.lt a = true) : F64.zero.lt (a.sub b) = true := by
  obtain ⟨hb, ha, hk⟩ := F64.lt_iff.mp h
  have hinf : (F64.infMag : Int) = 9218868437227405312 := rfl
  have hpos {c : F64} (hm : c.mag = F64.infMag) (hs : c.sign = false) : F64.zero.lt c = true := by
    refine F64.lt_iff.mpr ⟨by decide, ?_, ?_⟩
    · simp only [F64.isNaN, decide_eq_false_iff_not]; omega
    · simp only [F64.key, hs, hm]
      decide
  have hsub : a.sub b = F64.addCore (F64.nanResult .sub a b) a b.neg := by
    rw [F64.sub, ha, hb]
    rfl
  have hle (c : F64) : c.key ≤ c.mag := by
    rw [F64.key]
    split <;> omega
  have hge (c : F64) : -(c.mag : Int) ≤ c.key := by
    rw [F64.key]
    split <;> omega
  have hii {c : F64} (hm : c.mag = F64.infMag) : c.isInf = true := by simp [F64.isInf, hm]
  rcases F64.finite_or_inf ha with fa | ia
  · rcases F64.finite_or_inf hb with fb | ib
    · exact F64.zero_lt_sub fa fb h
    · have hs : b.sign = true := by
        cases hs : b.sign
        · simp only [F64.isFinite, decide_eq_true_eq] at fa
          have kb : b.key = b.mag := by simp [F64.key, hs]
          have ka := hle a
          omega
        · rfl
      have hi : b.neg.isInf = true := hii ((F64.neg_mag b).trans ib)
      rw [hsub, F64.addCore, F64.isFinite_not_inf fa, hi]
      simp only [Bool.false_eq_true, if_false, if_true]
      exact hpos ((F64.neg_mag b).trans ib) (by rw [F64.neg_sign, hs]; rfl)
  · have hs : a.sign = false := by
      cases hs : a.sign
      · rfl
      · have hbm : b.mag ≤ F64.infMag := by simpa [F64.isNaN] using hb
        have ka : a.key = -(a.mag : Int) := by simp [F64.key, hs]
        have kb := hge b
        omega
    have hne : (b.neg.isInf && (a.sign != b.neg.sign)) = false := by
      rw [F64.neg_sign, hs]
      cases hbs : b.sign
      · cases hbi : b.neg.isInf
        · rfl
        · exfalso
          have hm : b.mag = F64.infMag := by
            rw [← F64.neg_mag b]
            simpa [F64.isInf] using hbi
          have ka : a.key = a.mag := by simp [F64.key, hs]
          have kb : b.key = b.mag := by simp [F64.key, hbs]
          omega
      · simp
    rw [hsub, F64.addCore, hii ia, if_pos rfl, hne]
    simp only [Bool.false_eq_true, if_false]
    exact hpos ia hs

/-- The ceiling of a positive value is at least 1. -/
theorem F64.one_le_ceil {a : F64} (h : F64.zero.lt a = true) : 1 ≤ a.ceil := by
  rw [F64.lt_iff] at h
  obtain ⟨_, hn, hk⟩ := h
  have h0 : F64.zero.key = 0 := by decide
  rw [h0, F64.key] at hk
  have hs : a.sign = false := by
    cases hs : a.sign
    · rfl
    · rw [hs] at hk; simp only [if_true] at hk; omega
  rw [hs] at hk
  simp only [Bool.false_eq_true, if_false] at hk
  have hnn : a.neg.isNaN = false := by
    simp only [F64.isNaN, F64.neg_mag] at hn ⊢; exact hn
  rw [F64.ceil, F64.floor, hnn]
  simp only [Bool.false_eq_true, if_false]
  split
  · rw [F64.neg_sign, hs, Bool.not_false, if_pos rfl, Int.neg_neg]
    exact one_le_pow₀ (by norm_num)
  · rw [F64.neg_toUnits, F64.toUnits, hs]
    have hu : 0 < a.units := by
      rcases Nat.eq_zero_or_pos a.units with h | h
      · have := F64.units_eq_zero.mp h; omega
      · exact h
    simp only [Bool.false_eq_true, if_false]
    have hpos : (0 : Int) < F64.unitScale := by exact_mod_cast F64.unitScale_pos
    generalize (F64.unitScale : Int) = u at hpos
    rw [Int.fdiv_eq_ediv_of_nonneg _ (le_of_lt hpos)]
    have : (-(a.units : Int)) / u < 0 := Int.ediv_neg_of_neg_of_pos (by omega) hpos
    omega

/-! ### Integers -/

theorem F64.log2_mul_two_pow {n : Nat} (h0 : n ≠ 0) (e : Nat) : (n * 2 ^ e).log2 = n.log2 + e := by
  have hne : n * 2 ^ e ≠ 0 := Nat.mul_ne_zero h0 (Nat.two_pow_pos e).ne'
  apply Nat.le_antisymm
  · apply Nat.lt_succ_iff.mp
    rw [Nat.log2_lt hne, Nat.succ_eq_add_one, Nat.add_right_comm, pow_add]
    exact Nat.mul_lt_mul_of_pos_right Nat.lt_log2_self (Nat.two_pow_pos e)
  · rw [Nat.le_log2 hne, pow_add]
    exact Nat.mul_le_mul_right _ (Nat.log2_self_le h0)

theorem F64.significand_nat {n : Nat} (h0 : n ≠ 0) (h : n < 2 ^ 53) :
    0x10000000000000 ≤ n * 2 ^ (52 - n.log2) ∧ n * 2 ^ (52 - n.log2) < 0x20000000000000 := by
  have hl : n.log2 < 53 := (Nat.log2_lt h0).mpr h
  constructor
  · calc 0x10000000000000 = 2 ^ n.log2 * 2 ^ (52 - n.log2) := by
          rw [← pow_add, show n.log2 + (52 - n.log2) = 52 by omega]; rfl
      _ ≤ n * 2 ^ (52 - n.log2) := Nat.mul_le_mul_right _ (Nat.log2_self_le h0)
  · calc n * 2 ^ (52 - n.log2) < 2 ^ (n.log2 + 1) * 2 ^ (52 - n.log2) :=
          Nat.mul_lt_mul_of_pos_right Nat.lt_log2_self (Nat.two_pow_pos _)
      _ = 0x20000000000000 := by rw [← pow_add, show n.log2 + 1 + (52 - n.log2) = 53 by omega]; rfl

/-- The magnitude bits of `n · 2^e` units, for `n` below 2^53. -/
theorem F64.roundMag_mul_pow {n e : Nat} (h0 : n ≠ 0) (h : n < 2 ^ 53) (he : 52 ≤ e) (he' : e ≤ 1074) :
    F64.roundMag (n * 2 ^ e) 1 = (n.log2 + (e - 52)) * 0x10000000000000 + n * 2 ^ (52 - n.log2) := by
  have hl : n.log2 < 53 := (Nat.log2_lt h0).mpr h
  have hle : n.log2 + (e - 52) ≤ 1074 := by omega
  have hsum : n.log2 + (e - 52) + (52 - n.log2) = e := by omega
  have hsh : (n * 2 ^ e / 1).log2 - 52 = n.log2 + (e - 52) := by
    rw [Nat.div_one, F64.log2_mul_two_pow h0]
    clear h
    omega
  obtain ⟨_, hs2⟩ := F64.significand_nat h0 h
  have hmul : n * 2 ^ e = 1 * 2 ^ (n.log2 + (e - 52)) * (n * 2 ^ (52 - n.log2)) := by
    rw [one_mul, Nat.mul_left_comm, ← pow_add, hsum]
  generalize hsv : n.log2 + (e - 52) = sh at *
  generalize n * 2 ^ (52 - n.log2) = w at *
  have hpos : 0 < 1 * 2 ^ sh := by rw [one_mul]; exact Nat.two_pow_pos sh
  have hr : n * 2 ^ e / (1 * 2 ^ sh) = w := by rw [hmul, Nat.mul_div_cancel_left _ hpos]
  have hm : n * 2 ^ e % (1 * 2 ^ sh) = 0 := by rw [hmul, Nat.mul_mod_right]
  have hsmall : sh * 0x10000000000000 ≤ 1074 * 0x10000000000000 := Nat.mul_le_mul_right _ hle
  have hbound : sh * 0x10000000000000 + w ≤ F64.infMag := by
    refine Nat.le_trans (Nat.add_le_add hsmall (Nat.le_of_lt hs2)) ?_
    decide
  simp only [F64.roundMag, hsh, hr, hm]
  generalize 1 * 2 ^ sh = D at hpos
  rw [if_neg (by clear h hmul hr hm; omega)]
  exact Nat.min_eq_left hbound

theorem F64.ofNat_pos {n : Nat} (h0 : n ≠ 0) : F64.ofNat n = F64.ofRatio false (n * F64.unitScale) 1 := by
  have hi : (n : Int) ≠ 0 := by exact_mod_cast h0
  have hd : decide ((n : Int) < 0) = false := decide_eq_false (by omega)
  rw [F64.ofNat, F64.ofInt, if_neg hi, Int.natAbs_natCast, hd]

/-- A natural number below 2^53 is converted exactly, to a finite value that is not negative (00_scope.md R12). -/
theorem F64.ofNat_exact {n : Nat} (h : n < 2 ^ 53) :
    (F64.ofNat n).units = n * F64.unitScale ∧ (F64.ofNat n).isFinite = true ∧ (F64.ofNat n).sign = false := by
  by_cases h0 : n = 0
  · subst h0
    refine ⟨?_, by decide, by decide⟩
    rw [show F64.ofNat 0 = F64.zero from rfl, show F64.zero.units = 0 by decide, Nat.zero_mul]
  · obtain ⟨e, he, hu⟩ := F64.unitScale_eq
    have hl : n.log2 < 53 := (Nat.log2_lt h0).mpr h
    obtain ⟨hs1, hs2⟩ := F64.significand_nat h0 h
    have hle : n.log2 + (e - 52) ≤ 1074 := by omega
    have hsum : 52 - n.log2 + (n.log2 + (e - 52)) = e := by omega
    have hmag : (F64.ofNat n).mag = (n.log2 + (e - 52)) * 0x10000000000000 + n * 2 ^ (52 - n.log2) := by
      rw [F64.ofNat_pos h0, F64.ofRatio_mag, hu, F64.roundMag_mul_pow h0 h (by omega) (by omega)]
    have hsign : (F64.ofNat n).sign = false := by rw [F64.ofNat_pos h0, F64.ofRatio_sign]
    generalize n.log2 + (e - 52) = sh at *
    have hsmall : sh * 0x10000000000000 ≤ 1074 * 0x10000000000000 := Nat.mul_le_mul_right _ hle
    have hfin : (F64.ofNat n).isFinite = true := by
      simp only [F64.isFinite, decide_eq_true_eq, hmag]
      refine Nat.lt_of_le_of_lt (Nat.add_le_add hsmall (Nat.le_of_lt hs2)) ?_
      decide
    refine ⟨?_, hfin, hsign⟩
    have hw : (F64.ofNat n).mag = 0x10000000000000 * (sh + 1) + (n * 2 ^ (52 - n.log2) - 0x10000000000000) := by
      rw [hmag, Nat.mul_add, Nat.mul_comm, Nat.mul_one, Nat.add_assoc, Nat.add_sub_of_le hs1]
    have hlt : n * 2 ^ (52 - n.log2) - 0x10000000000000 < 0x10000000000000 :=
      Nat.sub_lt_left_of_lt_add hs1 hs2
    have hdiv : (F64.ofNat n).mag / 0x10000000000000 = sh + 1 := by
      rw [hw, Nat.mul_add_div (by norm_num), Nat.div_eq_of_lt hlt, Nat.add_zero]
    have hmod : (F64.ofNat n).mag % 0x10000000000000 = n * 2 ^ (52 - n.log2) - 0x10000000000000 := by
      rw [hw, Nat.mul_add_mod, Nat.mod_eq_of_lt hlt]
    have hge : 0x10000000000000 ≤ (F64.ofNat n).mag := by
      rw [hmag]
      exact Nat.le_add_left_of_le hs1
    rw [F64.units_normal hge, hdiv, hmod, Nat.add_sub_of_le hs1, Nat.add_sub_cancel, Nat.mul_assoc, ← pow_add, hsum, hu]

theorem F64.ofNat_toUnits {n : Nat} (h : n < 2 ^ 53) : (F64.ofNat n).toUnits = ((n * F64.unitScale : Nat) : Int) := by
  obtain ⟨hu, _, hs⟩ := F64.ofNat_exact h
  rw [F64.toUnits, hs, hu]
  rfl

/-- Two finite values of the same sign and units are the same value. -/
theorem F64.ext_units {a b : F64} (ha : a.isFinite = true) (hb : b.isFinite = true) (hs : a.sign = b.sign)
    (hu : a.units = b.units) : a = b :=
  F64.ext_sign_mag hs (by rw [← F64.roundMag_units ha, ← F64.roundMag_units hb, hu])

theorem F64.ofNat_isZero {k : Nat} (hk : k < 2 ^ 53) : (F64.ofNat k).isZero = decide (k = 0) := by
  have hu := (F64.ofNat_exact hk).1
  have hz : (F64.ofNat k).units = 0 ↔ (F64.ofNat k).mag = 0 := F64.units_eq_zero
  rw [hu, Nat.mul_eq_zero] at hz
  have hp := F64.unitScale_pos.ne'
  simp only [hp, or_false] at hz
  simp only [F64.isZero]
  rw [Bool.eq_iff_iff, beq_iff_eq, decide_eq_true_iff]
  exact hz.symm

/-- Sums of integers are exact as long as the operands' conversions are. -/
theorem F64.add_ofNat {m n : Nat} (hm : m < 2 ^ 53) (hn : n < 2 ^ 53) :
    (F64.ofNat m).add (F64.ofNat n) = F64.ofNat (m + n) := by
  obtain ⟨_, fm, sm⟩ := F64.ofNat_exact hm
  obtain ⟨_, fn, sn⟩ := F64.ofNat_exact hn
  have hp := F64.unitScale_pos
  rw [F64.add, F64.isFinite_not_nan fm, F64.isFinite_not_nan fn, F64.addCore, F64.isFinite_not_inf fm,
    F64.isFinite_not_inf fn, sm, sn, F64.ofNat_toUnits hm, F64.ofNat_toUnits hn, F64.ofNat_isZero hm, F64.ofNat_isZero hn,
    ← Int.natCast_add, ← Nat.add_mul]
  simp only [Bool.or_self, Bool.false_eq_true, if_false, Bool.false_and, Bool.and_self, Bool.and_eq_true,
    decide_eq_true_eq]
  split
  · next h => rw [h.1, h.2]; rfl
  · next h =>
    have hmn : m + n ≠ 0 := by omega
    have hne : (m + n) * F64.unitScale ≠ 0 := Nat.mul_ne_zero hmn hp.ne'
    have hd : decide ((((m + n) * F64.unitScale : Nat) : Int) < 0) = false := decide_eq_false (by omega)
    rw [if_neg (by exact_mod_cast hne), Int.natAbs_natCast, hd, ← F64.ofNat_pos hmn]

/-- Subtracting whole numbers below 2^53 is exact (00_scope.md R12). -/
theorem F64.sub_ofNat {m n : Nat} (hm : m < 2 ^ 53) (h : n < m) :
    (F64.ofNat m).sub (F64.ofNat n) = F64.ofNat (m - n) := by
  have hn : n < 2 ^ 53 := Nat.lt_trans h hm
  obtain ⟨_, fm, sm⟩ := F64.ofNat_exact hm
  obtain ⟨_, fn, sn⟩ := F64.ofNat_exact hn
  have hp := F64.unitScale_pos
  have hz : (F64.ofNat n).neg.isZero = decide (n = 0) := by
    rw [← F64.ofNat_isZero hn, F64.isZero, F64.isZero, F64.neg_mag]
  rw [F64.sub, F64.isFinite_not_nan fm, F64.isFinite_not_nan fn, F64.addCore, F64.isFinite_not_inf fm,
    F64.isFinite_not_inf (F64.neg_finite fn), F64.neg_toUnits, F64.ofNat_toUnits hm, F64.ofNat_toUnits hn,
    F64.ofNat_isZero hm, hz]
  simp only [Bool.or_self, Bool.false_eq_true, if_false, Bool.false_and, Bool.and_eq_true, decide_eq_true_eq]
  rw [if_neg (by omega)]
  have hmn : m - n ≠ 0 := by omega
  have hsum : ((m * F64.unitScale : Nat) : Int) + -((n * F64.unitScale : Nat) : Int) =
      (((m - n) * F64.unitScale : Nat) : Int) := by
    have hle : n * F64.unitScale ≤ m * F64.unitScale := Nat.mul_le_mul_right _ (Nat.le_of_lt h)
    rw [Nat.sub_mul, Int.natCast_sub hle]
    rfl
  rw [hsum]
  have hne : (m - n) * F64.unitScale ≠ 0 := Nat.mul_ne_zero hmn hp.ne'
  have hd : decide ((((m - n) * F64.unitScale : Nat) : Int) < 0) = false := decide_eq_false (by omega)
  rw [if_neg (by exact_mod_cast hne), Int.natAbs_natCast, hd, ← F64.ofNat_pos hmn]

/-- The ceiling of a whole number is that number. -/
theorem F64.ceil_ofNat {n : Nat} (h : n < 2 ^ 53) : (F64.ofNat n).ceil = n := by
  obtain ⟨_, f, _⟩ := F64.ofNat_exact h
  have hp : (0 : Int) < F64.unitScale := by exact_mod_cast F64.unitScale_pos
  have fn := F64.neg_finite f
  rw [F64.ceil, F64.floor, F64.isFinite_not_nan fn, F64.isFinite_not_inf fn, F64.neg_toUnits, F64.ofNat_toUnits h]
  simp only [Bool.false_eq_true, if_false]
  rw [Int.fdiv_eq_ediv_of_nonneg _ (le_of_lt hp), Nat.cast_mul, ← Int.neg_mul,
    Int.mul_ediv_cancel _ (ne_of_gt hp), Int.neg_neg]

/-- Whole numbers below 2^53 compare as numbers. -/
theorem F64.ofNat_le {m n : Nat} (hm : m < 2 ^ 53) (hn : n < 2 ^ 53) :
    (F64.ofNat m).le (F64.ofNat n) = true ↔ m ≤ n := by
  obtain ⟨_, fm, _⟩ := F64.ofNat_exact hm
  obtain ⟨_, fn, _⟩ := F64.ofNat_exact hn
  rw [F64.le_iff_units fm fn, F64.ofNat_toUnits hm, F64.ofNat_toUnits hn]
  have hp := F64.unitScale_pos
  constructor
  · intro h
    exact Nat.le_of_mul_le_mul_right (by exact_mod_cast h) hp
  · intro h
    exact_mod_cast Nat.mul_le_mul_right _ h

/-! ### Absolute values -/

theorem F64.abs_mag (a : F64) : a.abs.mag = a.mag := by
  rw [F64.abs, F64.mag, F64.mag, BitVec.toNat_and, show (0x7FFFFFFFFFFFFFFF#64).toNat = 2 ^ 63 - 1 from rfl,
    Nat.and_two_pow_sub_one_eq_mod, show (0x8000000000000000 : Nat) = 2 ^ 63 from rfl, Nat.mod_mod]

theorem F64.abs_sign (a : F64) : a.abs.sign = false := by
  rw [F64.abs, F64.sign, BitVec.getLsbD_and, show (0x7FFFFFFFFFFFFFFF#64).getLsbD 63 = false by decide, Bool.and_false]

/-- The absolute value of a converted integer is its absolute value converted. -/
theorem F64.abs_ofInt (z : Int) : (F64.ofInt z).abs = F64.ofNat z.natAbs := by
  by_cases h : z = 0
  · subst h
    rw [F64.ofInt, if_pos rfl, Int.natAbs_zero]
    decide
  · rw [F64.ofNat_pos (by omega), F64.ofInt, if_neg h]
    exact F64.ext_sign_mag (by rw [F64.abs_sign, F64.ofRatio_sign]) (by rw [F64.abs_mag, F64.ofRatio_mag, F64.ofRatio_mag])

/-! ### Quotients of values that are not negative -/

/-- A finite value that is not negative: its sign is clear or it is a zero. -/
theorem F64.sign_of_zero_le {a : F64} (h : F64.zero.le a = true) : a.sign = false ∨ a.mag = 0 := by
  rw [F64.le_iff] at h
  have hk := h.2.2
  have h0 : F64.zero.key = 0 := by decide
  rw [h0, F64.key] at hk
  cases hs : a.sign
  · exact Or.inl rfl
  · rw [hs] at hk
    simp only [if_true] at hk
    exact Or.inr (by omega)

theorem F64.key_of_zero_le {a : F64} (h : F64.zero.le a = true) : a.key = a.mag := by
  rcases F64.sign_of_zero_le h with hs | hm
  · rw [F64.key, hs]; rfl
  · rw [F64.key, hm]; cases a.sign <;> rfl

theorem F64.roundMag_zero_left (den : Nat) : F64.roundMag 0 den = 0 := by
  have h : F64.roundMag 0 den ≤ 0 := by
    simp only [F64.roundMag, Nat.zero_div, Nat.zero_mod, Nat.log2_zero, Nat.zero_sub, Nat.zero_mul, pow_zero, Nat.mul_one,
      Nat.mul_zero, Nat.not_lt_zero, Nat.zero_mod, zero_ne_one, and_false, or_self, if_false, Nat.zero_add]
    exact Nat.min_le_left _ _
  omega

/-- A quotient of a value that is not negative by a positive one is no NaN and is the rounding of the exact quotient. -/
theorem F64.div_finite {a b : F64} (ha : a.isFinite = true) (h0 : F64.zero.le a = true) (hb : b.isFinite = true)
    (hs : b.sign = false) (hb0 : b.isZero = false) :
    (a.div b).isNaN = false ∧ (a.div b).key = F64.roundMag (a.units * F64.unitScale) b.units := by
  rw [F64.div]
  simp only [F64.isFinite_not_nan ha, F64.isFinite_not_nan hb, F64.isFinite_not_inf ha, F64.isFinite_not_inf hb, hb0, hs,
    Bool.or_self, Bool.false_eq_true, if_false, Bool.and_self, Bool.and_false, Bool.false_or, Bool.bne_false]
  split
  · next hz =>
    have hm : a.mag = 0 := by simpa [F64.isZero] using hz
    have hu := F64.units_eq_zero.mpr hm
    rw [hu, Nat.zero_mul, F64.roundMag_zero_left]
    exact ⟨F64.isNaN_pack_zero _, F64.key_pack_zero _⟩
  · next hz =>
    have hsa : a.sign = false := by
      rcases F64.sign_of_zero_le h0 with h | h
      · exact h
      · exact absurd (by simpa [F64.isZero] using h) hz
    rw [hsa]
    refine ⟨F64.ofRatio_isNaN _ _ _, ?_⟩
    rw [F64.key, F64.ofRatio_sign, F64.ofRatio_mag]
    rfl

theorem F64.one_mag : F64.one.mag = 1023 * 0x10000000000000 := by decide

theorem F64.one_units : F64.one.units = F64.unitScale := by
  obtain ⟨e, he, hu⟩ := F64.unitScale_eq
  have h := F64.units_normal (a := F64.one) (by decide)
  have hd : F64.one.mag / 0x10000000000000 - 1 = e - 52 := by rw [he]; decide
  have hm : F64.one.mag % 0x10000000000000 = 0 := by decide
  rw [h, hd, hm, hu, Nat.add_zero, show 0x10000000000000 = 2 ^ 52 from rfl, ← pow_add, Nat.add_sub_of_le (by omega)]

/-- A quotient of two values that are not negative, the dividend at most the divisor, lies between 0 and 1. -/
theorem F64.div_unit {a b : F64} (ha : a.isFinite = true) (h0 : F64.zero.le a = true) (hb : b.isFinite = true)
    (hs : b.sign = false) (hb0 : b.isZero = false) (hab : a.units ≤ b.units) :
    F64.zero.le (a.div b) = true ∧ (a.div b).le F64.one = true := by
  obtain ⟨hn, hk⟩ := F64.div_finite ha h0 hb hs hb0
  have hbu : 0 < b.units := by
    rcases Nat.eq_zero_or_pos b.units with h | h
    · have hm := F64.units_eq_zero.mp h
      simp [F64.isZero, hm] at hb0
    · exact h
  have hle : a.units * F64.unitScale ≤ b.units * F64.unitScale := Nat.mul_le_mul_right _ hab
  obtain ⟨e, he, hu⟩ := F64.unitScale_eq
  have hr : F64.roundMag (a.units * F64.unitScale) b.units ≤ (1022 + 1) * 0x10000000000000 := by
    refine F64.roundMag_le_pow (j := 1022) hbu ?_
    have : b.units * 2 ^ (52 + 1022) = b.units * F64.unitScale := by rw [hu, he]
    exact Nat.le_trans hle (Nat.le_of_eq this.symm)
  constructor
  · rw [F64.le_iff, hk]
    exact ⟨by decide, hn, by rw [show F64.zero.key = 0 by decide]; omega⟩
  · rw [F64.le_iff, hk]
    refine ⟨hn, by decide, ?_⟩
    rw [show F64.one.key = ((1023 * 0x10000000000000 : Nat) : Int) by decide]
    exact_mod_cast hr

/-- A value between two finite values is finite. -/
theorem F64.isFinite_of_le {a : F64} (h0 : F64.zero.le a = true) (h1 : a.le F64.one = true) : a.isFinite = true := by
  have hk := F64.key_of_zero_le h0
  rw [F64.le_iff, hk, show F64.one.key = ((1023 * 0x10000000000000 : Nat) : Int) by decide] at h1
  have : a.mag ≤ 1023 * 0x10000000000000 := by exact_mod_cast h1.2.2
  have hlt : 1023 * 0x10000000000000 < F64.infMag := by decide
  exact decide_eq_true (Nat.lt_of_le_of_lt this hlt)

theorem F64.units_le_of_le {a b : F64} (ha : a.isFinite = true) (hb : b.isFinite = true) (h0 : F64.zero.le a = true)
    (h : a.le b = true) : a.units ≤ b.units := by
  have h' := (F64.le_iff_units ha hb).mp h
  have hz := (F64.le_iff_units (by decide) ha).mp h0
  rw [show F64.zero.toUnits = 0 by decide] at hz
  rw [F64.toUnits, F64.toUnits] at h'
  rw [F64.toUnits] at hz
  split at h' <;> split at h' <;> split at hz <;> omega

end Sys2Proof
end

