-- ==== Sys2Proof/Laws/Operands.lean ====
section
/-! SUPPORT. Clamped fields: the value a clamp gives, when it changes the field, and the q16 fields. -/

namespace Sys2Proof.Machine

theorem clampNat_eq {lo hi v : Nat} (h : lo ≤ hi) : clampNat lo hi v = if v < lo then lo else if hi < v then hi else v := by
  simp only [clampNat]
  split
  · omega
  · split <;> omega

theorem clampByte_toNat {lo hi : Nat} (v : Byte) (h : lo ≤ hi) (h256 : hi < 256) :
    (clampByte lo hi v).toNat = clampNat lo hi v.toNat := by
  have hle : clampNat lo hi v.toNat < 2 ^ 8 := by
    rw [clampNat_eq h]
    have := v.isLt
    split
    · omega
    · split <;> omega
  rw [clampByte, BitVec.toNat_ofNat, Nat.mod_eq_of_lt hle]

theorem clampWord_toNat {lo hi : Nat} (v : Word) (h : lo ≤ hi) (h32 : hi < 4294967296) :
    (clampWord lo hi v).toNat = clampNat lo hi v.toNat := by
  have hle : clampNat lo hi v.toNat < 2 ^ 32 := by
    rw [clampNat_eq h]
    have := v.isLt
    split
    · omega
    · split <;> omega
  rw [clampWord, BitVec.toNat_ofNat, Nat.mod_eq_of_lt hle]

theorem clampByte_le {lo hi : Nat} (v : Byte) (h : lo ≤ hi) (h256 : hi < 256) :
    lo ≤ (clampByte lo hi v).toNat ∧ (clampByte lo hi v).toNat ≤ hi := by
  rw [clampByte_toNat v h h256, clampNat_eq h]
  split
  · omega
  · split <;> omega

theorem clampWord_le {lo hi : Nat} (v : Word) (h : lo ≤ hi) (h32 : hi < 4294967296) :
    lo ≤ (clampWord lo hi v).toNat ∧ (clampWord lo hi v).toNat ≤ hi := by
  rw [clampWord_toNat v h h32, clampNat_eq h]
  split
  · omega
  · split <;> omega

/-- CLAMP is due exactly when the field is outside its range. -/
theorem byteClamped_iff {lo hi : Nat} (v : Byte) (h : lo ≤ hi) (h256 : hi < 256) :
    byteClamped lo hi v = true ↔ v.toNat < lo ∨ hi < v.toNat := by
  rw [byteClamped, bne_iff_ne, ne_eq, ← BitVec.toNat_inj, clampByte_toNat v h h256, clampNat_eq h]
  split
  · omega
  · split <;> omega

theorem wordClamped_iff {lo hi : Nat} (v : Word) (h : lo ≤ hi) (h32 : hi < 4294967296) :
    wordClamped lo hi v = true ↔ v.toNat < lo ∨ hi < v.toNat := by
  rw [wordClamped, bne_iff_ne, ne_eq, ← BitVec.toNat_inj, clampWord_toNat v h h32, clampNat_eq h]
  split
  · omega
  · split <;> omega

theorem typeClamped_iff (v : Byte) : typeClamped v = true ↔ v.toInt < -2 ∨ 2 < v.toInt := by
  rw [typeClamped, bne_iff_ne, ne_eq, clampInt]
  omega

/-- A q16 field of at most 65536 stands for a value between 0 and 1. -/
theorem q16_unit {v : Word} (h : v.toNat ≤ 65536) : F64.zero.le (q16 v) = true ∧ (q16 v).le F64.one = true := by
  have hv : v.toNat < 2 ^ 53 := by omega
  obtain ⟨ha, fa, sa⟩ := F64.ofNat_exact hv
  obtain ⟨hb, fb, sb⟩ := F64.ofNat_exact (n := 65536) (by norm_num)
  have h0 : F64.zero.le (F64.ofNat v.toNat) = true := by
    rw [F64.le_iff_units (by decide) fa, F64.ofNat_toUnits hv, show F64.zero.toUnits = 0 by decide]
    omega
  apply F64.div_unit fa h0 fb sb
  · rw [F64.ofNat_isZero (by norm_num)]
    decide
  · rw [ha, hb]
    exact Nat.mul_le_mul_right _ h

/-- A q16 field of any size stands for a value that is not negative, and no NaN. -/
theorem q16_nonneg (v : Word) : F64.zero.le (q16 v) = true := by
  have hv : v.toNat < 2 ^ 53 := by have := v.isLt; omega
  obtain ⟨_, fa, _⟩ := F64.ofNat_exact hv
  obtain ⟨_, fb, sb⟩ := F64.ofNat_exact (n := 65536) (by norm_num)
  have h0 : F64.zero.le (F64.ofNat v.toNat) = true := by
    rw [F64.le_iff_units (by decide) fa, F64.ofNat_toUnits hv, show F64.zero.toUnits = 0 by decide]
    omega
  have hb : (F64.ofNat 65536).isZero = false := by
    rw [F64.ofNat_isZero (by norm_num)]
    decide
  obtain ⟨hn, hk⟩ := F64.div_finite fa h0 fb sb hb
  rw [F64.le_iff, q16, hk]
  exact ⟨by decide, hn, by rw [show F64.zero.key = 0 by decide]; omega⟩

end Sys2Proof.Machine
end

