-- ==== Sys2Proof/Laws/Cells.lean ====
section
/-! SUPPORT. The sparse memories and buffers: a read after a write gives the value written, a write leaves every other
address alone, and writes keep the canonical form. -/

namespace Sys2Proof.Machine

variable {β : Type}

/-! ### Reads after writes -/

theorem Cells.lookup_insert (m : Cells β) (a b : Nat) (v : β) :
    Cells.lookup (Cells.insert m a v) b = if a = b then some v else Cells.lookup m b := by
  induction m with
  | nil => simp [Cells.insert, Cells.lookup]
  | cons c m ih =>
    obtain ⟨k, x⟩ := c
    simp only [Cells.insert]
    split
    · simp [Cells.lookup]
    · split
      · next h1 h2 => subst h2; simp only [Cells.lookup]; split <;> rfl
      · next h1 h2 =>
        simp only [Cells.lookup, ih]
        split
        · next h3 => subst h3; simp [h2]
        · rfl

/-- The addresses of a rising list are at least its lower bound. -/
theorem Cells.lookup_below {hi lo : Nat} {m : Cells β} (h : Cells.rising hi lo m = true) {a : Nat} (ha : a < lo) :
    Cells.lookup m a = none := by
  induction m generalizing lo with
  | nil => rfl
  | cons c m ih =>
    obtain ⟨k, x⟩ := c
    simp only [Cells.rising, Bool.and_eq_true, decide_eq_true_eq] at h
    obtain ⟨⟨h1, _⟩, h3⟩ := h
    simp only [Cells.lookup]
    rw [if_neg (by omega)]
    exact ih h3 (by omega)

/-- Every address of a rising list is below its upper bound. -/
theorem Cells.lookup_above {hi lo : Nat} {m : Cells β} (h : Cells.rising hi lo m = true) {a : Nat} (ha : hi ≤ a) :
    Cells.lookup m a = none := by
  induction m generalizing lo with
  | nil => rfl
  | cons c m ih =>
    obtain ⟨k, x⟩ := c
    simp only [Cells.rising, Bool.and_eq_true, decide_eq_true_eq] at h
    obtain ⟨⟨_, h2⟩, h3⟩ := h
    simp only [Cells.lookup]
    rw [if_neg (by omega)]
    exact ih h3

theorem Cells.lookup_erase {hi lo : Nat} {m : Cells β} (h : Cells.rising hi lo m = true) (a b : Nat) :
    Cells.lookup (Cells.erase m a) b = if a = b then none else Cells.lookup m b := by
  induction m generalizing lo with
  | nil => simp [Cells.erase, Cells.lookup]
  | cons c m ih =>
    obtain ⟨k, x⟩ := c
    simp only [Cells.rising, Bool.and_eq_true, decide_eq_true_eq] at h
    obtain ⟨⟨_, _⟩, h3⟩ := h
    simp only [Cells.erase]
    split
    · next e =>
      subst e
      split
      · next e' => subst e'; exact Cells.lookup_below h3 (by omega)
      · next e' => simp [Cells.lookup, e']
    · next e =>
      simp only [Cells.lookup, ih h3]
      split
      · next e' => subst e'; simp [e]
      · rfl

/-- Reading a canonical buffer after a write. -/
theorem Cells.get_put [DecidableEq β] {hi lo : Nat} {d : β} {m : Cells β} (h : Cells.rising hi lo m = true) (a b : Nat)
    (v : β) : Cells.get d (Cells.put d m a v) b = if b = a then v else Cells.get d m b := by
  simp only [Cells.get, Cells.put]
  split
  · next e =>
    subst e
    rw [Cells.lookup_erase h]
    by_cases hab : a = b
    · simp [hab]
    · rw [if_neg hab, if_neg (Ne.symm hab)]
  · rw [Cells.lookup_insert]
    by_cases hab : a = b
    · simp [hab]
    · rw [if_neg hab, if_neg (Ne.symm hab)]

/-- Reading at another address after a write, whatever the form of the list. -/
theorem Cells.lookup_erase_other (m : Cells β) {a b : Nat} (h : b ≠ a) :
    Cells.lookup (Cells.erase m a) b = Cells.lookup m b := by
  induction m with
  | nil => rfl
  | cons c m ih =>
    obtain ⟨k, x⟩ := c
    simp only [Cells.erase]
    split
    · next e => subst e; simp [Cells.lookup, Ne.symm h]
    · simp only [Cells.lookup, ih]

theorem Cells.get_put_other [DecidableEq β] (d : β) (m : Cells β) {a b : Nat} (v : β) (h : b ≠ a) :
    Cells.get d (Cells.put d m a v) b = Cells.get d m b := by
  simp only [Cells.get, Cells.put]
  split
  · rw [Cells.lookup_erase_other m h]
  · rw [Cells.lookup_insert, if_neg (Ne.symm h)]

@[simp] theorem Cells.get_nil (d : β) (a : Nat) : Cells.get d ([] : Cells β) a = d := rfl

/-! ### The canonical form is kept -/

theorem Cells.rising_mono {hi lo lo' : Nat} {m : Cells β} (h : Cells.rising hi lo m = true) (hl : lo' ≤ lo) :
    Cells.rising hi lo' m = true := by
  cases m with
  | nil => rfl
  | cons c m =>
    obtain ⟨k, x⟩ := c
    simp only [Cells.rising, Bool.and_eq_true, decide_eq_true_eq] at h ⊢
    exact ⟨⟨by omega, h.1.2⟩, h.2⟩

theorem Cells.rising_insert {hi lo : Nat} {m : Cells β} (h : Cells.rising hi lo m = true) {a : Nat} (v : β) (hl : lo ≤ a)
    (hh : a < hi) : Cells.rising hi lo (Cells.insert m a v) = true := by
  induction m generalizing lo with
  | nil => simp [Cells.insert, Cells.rising, hl, hh]
  | cons c m ih =>
    obtain ⟨k, x⟩ := c
    simp only [Cells.rising, Bool.and_eq_true, decide_eq_true_eq] at h
    obtain ⟨⟨h1, h2⟩, h3⟩ := h
    simp only [Cells.insert]
    split
    · next e =>
      simp only [Cells.rising, Bool.and_eq_true, decide_eq_true_eq]
      exact ⟨⟨hl, hh⟩, ⟨by omega, h2⟩, h3⟩
    · split
      · next e =>
        subst e
        simp only [Cells.rising, Bool.and_eq_true, decide_eq_true_eq]
        exact ⟨⟨hl, hh⟩, h3⟩
      · simp only [Cells.rising, Bool.and_eq_true, decide_eq_true_eq]
        exact ⟨⟨h1, h2⟩, ih h3 (by omega)⟩

theorem Cells.rising_erase {hi lo : Nat} {m : Cells β} (h : Cells.rising hi lo m = true) (a : Nat) :
    Cells.rising hi lo (Cells.erase m a) = true := by
  induction m generalizing lo with
  | nil => rfl
  | cons c m ih =>
    obtain ⟨k, x⟩ := c
    simp only [Cells.rising, Bool.and_eq_true, decide_eq_true_eq] at h
    obtain ⟨⟨h1, h2⟩, h3⟩ := h
    simp only [Cells.erase]
    split
    · exact Cells.rising_mono h3 (by omega)
    · simp only [Cells.rising, Bool.and_eq_true, decide_eq_true_eq]
      exact ⟨⟨h1, h2⟩, ih h3⟩

theorem Cells.all_insert {m : Cells β} {p : Nat × β → Bool} (h : m.all p = true) {a : Nat} {v : β} (hv : p (a, v) = true) :
    (Cells.insert m a v).all p = true := by
  induction m with
  | nil => simp [Cells.insert, hv]
  | cons c m ih =>
    obtain ⟨k, x⟩ := c
    simp only [List.all_cons, Bool.and_eq_true] at h
    simp only [Cells.insert]
    split
    · simp [hv, h.1, h.2]
    · split
      · simp [hv, h.2]
      · simp [h.1, ih h.2]

theorem Cells.all_erase {m : Cells β} {p : Nat × β → Bool} (h : m.all p = true) (a : Nat) :
    (Cells.erase m a).all p = true := by
  induction m with
  | nil => rfl
  | cons c m ih =>
    obtain ⟨k, x⟩ := c
    simp only [List.all_cons, Bool.and_eq_true] at h
    simp only [Cells.erase]
    split
    · exact h.2
    · simp [h.1, ih h.2]

/-- A write inside the size keeps the canonical form of a buffer. -/
theorem Cells.wf_put [DecidableEq β] {d : β} {size : Nat} {m : Cells β} (h : Cells.wf d size m = true) {a : Nat} (v : β)
    (ha : a < size) : Cells.wf d size (Cells.put d m a v) = true := by
  simp only [Cells.wf, Bool.and_eq_true] at h ⊢
  simp only [Cells.put]
  split
  · exact ⟨Cells.rising_erase h.1 a, Cells.all_erase h.2 a⟩
  · next e => exact ⟨Cells.rising_insert h.1 v (Nat.zero_le a) ha, Cells.all_insert h.2 (by simp [e])⟩

@[simp] theorem Cells.wf_nil [DecidableEq β] (d : β) (size : Nat) : Cells.wf d size ([] : Cells β) = true := rfl

theorem Cells.rising_of_wf [DecidableEq β] {d : β} {size : Nat} {m : Cells β} (h : Cells.wf d size m = true) :
    Cells.rising size 0 m = true := by
  simp only [Cells.wf, Bool.and_eq_true] at h
  exact h.1

/-- Two canonical buffers that read the same are the same list. -/
theorem Cells.ext_of_wf [DecidableEq β] {d : β} {size lo : Nat} {m n : Cells β} (hm : Cells.rising size lo m = true)
    (hn : Cells.rising size lo n = true) (am : m.all (fun c => decide (c.2 ≠ d)) = true)
    (an : n.all (fun c => decide (c.2 ≠ d)) = true) (h : ∀ a, Cells.get d m a = Cells.get d n a) : m = n := by
  induction m generalizing n lo with
  | nil =>
    cases n with
    | nil => rfl
    | cons c n =>
      have := h c.1
      simp only [List.all_cons, Bool.and_eq_true, decide_eq_true_eq] at an
      exact absurd this.symm (by simpa [Cells.get, Cells.lookup] using an.1)
  | cons b m ih =>
    cases n with
    | nil =>
      have := h b.1
      simp only [List.all_cons, Bool.and_eq_true, decide_eq_true_eq] at am
      exact absurd this (by simpa [Cells.get, Cells.lookup] using am.1)
    | cons c n =>
      obtain ⟨j, x⟩ := b
      obtain ⟨k, y⟩ := c
      simp only [Cells.rising, Bool.and_eq_true, decide_eq_true_eq, List.all_cons] at hm hn am an
      have hjk : j = k := by
        by_contra hne
        rcases Nat.lt_or_gt_of_ne hne with hlt | hgt
        · have h1 := h j
          simp only [Cells.get, Cells.lookup, if_true, if_neg (Ne.symm hne), Cells.lookup_below hn.2 (a := j) (by omega)] at h1
          exact am.1 h1
        · have h1 := h k
          simp only [Cells.get, Cells.lookup, if_true, if_neg hne, Cells.lookup_below hm.2 (a := k) (by omega)] at h1
          exact an.1 h1.symm
      subst hjk
      have hxy : x = y := by simpa [Cells.get, Cells.lookup] using h j
      subst hxy
      rw [ih hm.2 hn.2 am.2 an.2]
      intro a
      by_cases ha : j = a
      · subst ha
        simp only [Cells.get, Cells.lookup_below hm.2 (a := j) (by omega), Cells.lookup_below hn.2 (a := j) (by omega)]
      · have := h a
        simpa only [Cells.get, Cells.lookup, if_neg ha] using this

end Sys2Proof.Machine
end

