-- ==== Sys2Proof/Laws/Vectors.lean ====
section
/-! SUPPORT. Reading a vector by `get` after `vset` and `Vector.replicate`. -/

namespace Sys2Proof.Machine

@[simp] theorem vset_get_same {α : Type} {n : Nat} (v : Vector α n) (i : Fin n) (x : α) : (vset v i x).get i = x := by
  simp [vset, Vector.get_eq_getElem]

theorem vset_get_other {α : Type} {n : Nat} (v : Vector α n) {i j : Fin n} (x : α) (h : j ≠ i) :
    (vset v i x).get j = v.get j := by
  have hne : i.val ≠ j.val := fun e => h (Fin.ext e.symm)
  simp [vset, Vector.get_eq_getElem, hne]

theorem vset_get {α : Type} {n : Nat} (v : Vector α n) (i j : Fin n) (x : α) :
    (vset v i x).get j = if j = i then x else v.get j := by
  split
  · next h => rw [h, vset_get_same]
  · next h => exact vset_get_other v x h

@[simp] theorem vset_vset {α : Type} {n : Nat} (v : Vector α n) (i : Fin n) (x y : α) :
    vset (vset v i x) i y = vset v i y := by
  simp [vset]

@[simp] theorem vset_get_self {α : Type} {n : Nat} (v : Vector α n) (i : Fin n) : vset v i (v.get i) = v := by
  simp [vset, Vector.get_eq_getElem]

@[simp] theorem replicate_get {α : Type} {n : Nat} (i : Fin n) (x : α) : (Vector.replicate n x).get i = x := by
  simp [Vector.get_eq_getElem]

theorem vector_ext_get {α : Type} {n : Nat} {v w : Vector α n} (h : ∀ i, v.get i = w.get i) : v = w := by
  apply Vector.ext
  intro i hi
  simpa [Vector.get_eq_getElem] using h ⟨i, hi⟩

theorem vector_all_iff {α : Type} {n : Nat} (v : Vector α n) (p : α → Bool) :
    v.all p = true ↔ ∀ i : Fin n, p (v.get i) = true := by
  simp only [Vector.all_eq_true, Vector.get_eq_getElem]
  exact ⟨fun h i => h i.1 i.2, fun h i hi => h ⟨i, hi⟩⟩

/-- A property of every element is kept when one element is replaced by one that has it. -/
theorem vset_forall {α : Type} {n : Nat} {P : α → Prop} {v : Vector α n} {i : Fin n} {x : α} (hx : P x)
    (hv : ∀ j, P (v.get j)) (j : Fin n) : P ((vset v i x).get j) := by
  rw [vset_get]
  split
  · exact hx
  · exact hv j

end Sys2Proof.Machine
end

