-- ==== Sys2Proof/Laws/State.lean ====
section
/-! SUPPORT. What each named update of the state does to each field: one lemma per field per update, and the same for
the track being processed. -/

namespace Sys2Proof.Machine

/-! ### `State.flagUnk` -/

@[simp] theorem flagUnk_status (s : State) : s.flagUnk.status = { s.status with unk := true } := rfl
@[simp] theorem flagUnk_ntracks (s : State) : s.flagUnk.ntracks = s.ntracks := rfl
@[simp] theorem flagUnk_blockLen (s : State) : s.flagUnk.blockLen = s.blockLen := rfl
@[simp] theorem flagUnk_trkBase (s : State) : s.flagUnk.trkBase = s.trkBase := rfl
@[simp] theorem flagUnk_trkLen (s : State) : s.flagUnk.trkLen = s.trkLen := rfl
@[simp] theorem flagUnk_dpcmSlots (s : State) : s.flagUnk.dpcmSlots = s.dpcmSlots := rfl
@[simp] theorem flagUnk_tracks (s : State) : s.flagUnk.tracks = s.tracks := rfl
@[simp] theorem flagUnk_pipes (s : State) : s.flagUnk.pipes = s.pipes := rfl
@[simp] theorem flagUnk_syncs (s : State) : s.flagUnk.syncs = s.syncs := rfl
@[simp] theorem flagUnk_out (s : State) : s.flagUnk.out = s.out := rfl
@[simp] theorem flagUnk_evm (s : State) : s.flagUnk.evm = s.evm := rfl
@[simp] theorem flagUnk_dpcm (s : State) : s.flagUnk.dpcm = s.dpcm := rfl
@[simp] theorem flagUnk_wave (s : State) : s.flagUnk.wave = s.wave := rfl
@[simp] theorem flagUnk_engine (s : State) : s.flagUnk.engine = s.engine := rfl
@[simp] theorem flagUnk_inbox (s : State) : s.flagUnk.inbox = s.inbox := rfl
@[simp] theorem flagUnk_replies (s : State) : s.flagUnk.replies = s.replies := rfl

/-! ### `State.flagClamp` -/

@[simp] theorem flagClamp_status (s : State) (b : Bool) :
    (s.flagClamp b).status = { s.status with clamp := s.status.clamp || b } := rfl
@[simp] theorem flagClamp_ntracks (s : State) (b : Bool) : (s.flagClamp b).ntracks = s.ntracks := rfl
@[simp] theorem flagClamp_blockLen (s : State) (b : Bool) : (s.flagClamp b).blockLen = s.blockLen := rfl
@[simp] theorem flagClamp_trkBase (s : State) (b : Bool) : (s.flagClamp b).trkBase = s.trkBase := rfl
@[simp] theorem flagClamp_trkLen (s : State) (b : Bool) : (s.flagClamp b).trkLen = s.trkLen := rfl
@[simp] theorem flagClamp_dpcmSlots (s : State) (b : Bool) : (s.flagClamp b).dpcmSlots = s.dpcmSlots := rfl
@[simp] theorem flagClamp_tracks (s : State) (b : Bool) : (s.flagClamp b).tracks = s.tracks := rfl
@[simp] theorem flagClamp_pipes (s : State) (b : Bool) : (s.flagClamp b).pipes = s.pipes := rfl
@[simp] theorem flagClamp_syncs (s : State) (b : Bool) : (s.flagClamp b).syncs = s.syncs := rfl
@[simp] theorem flagClamp_out (s : State) (b : Bool) : (s.flagClamp b).out = s.out := rfl
@[simp] theorem flagClamp_evm (s : State) (b : Bool) : (s.flagClamp b).evm = s.evm := rfl
@[simp] theorem flagClamp_dpcm (s : State) (b : Bool) : (s.flagClamp b).dpcm = s.dpcm := rfl
@[simp] theorem flagClamp_wave (s : State) (b : Bool) : (s.flagClamp b).wave = s.wave := rfl
@[simp] theorem flagClamp_engine (s : State) (b : Bool) : (s.flagClamp b).engine = s.engine := rfl
@[simp] theorem flagClamp_inbox (s : State) (b : Bool) : (s.flagClamp b).inbox = s.inbox := rfl
@[simp] theorem flagClamp_replies (s : State) (b : Bool) : (s.flagClamp b).replies = s.replies := rfl

/-! ### `State.flagBuserr` -/

@[simp] theorem flagBuserr_status (s : State) : s.flagBuserr.status = { s.status with buserr := true } := rfl
@[simp] theorem flagBuserr_ntracks (s : State) : s.flagBuserr.ntracks = s.ntracks := rfl
@[simp] theorem flagBuserr_blockLen (s : State) : s.flagBuserr.blockLen = s.blockLen := rfl
@[simp] theorem flagBuserr_trkBase (s : State) : s.flagBuserr.trkBase = s.trkBase := rfl
@[simp] theorem flagBuserr_trkLen (s : State) : s.flagBuserr.trkLen = s.trkLen := rfl
@[simp] theorem flagBuserr_dpcmSlots (s : State) : s.flagBuserr.dpcmSlots = s.dpcmSlots := rfl
@[simp] theorem flagBuserr_tracks (s : State) : s.flagBuserr.tracks = s.tracks := rfl
@[simp] theorem flagBuserr_pipes (s : State) : s.flagBuserr.pipes = s.pipes := rfl
@[simp] theorem flagBuserr_syncs (s : State) : s.flagBuserr.syncs = s.syncs := rfl
@[simp] theorem flagBuserr_out (s : State) : s.flagBuserr.out = s.out := rfl
@[simp] theorem flagBuserr_evm (s : State) : s.flagBuserr.evm = s.evm := rfl
@[simp] theorem flagBuserr_dpcm (s : State) : s.flagBuserr.dpcm = s.dpcm := rfl
@[simp] theorem flagBuserr_wave (s : State) : s.flagBuserr.wave = s.wave := rfl
@[simp] theorem flagBuserr_engine (s : State) : s.flagBuserr.engine = s.engine := rfl
@[simp] theorem flagBuserr_inbox (s : State) : s.flagBuserr.inbox = s.inbox := rfl
@[simp] theorem flagBuserr_replies (s : State) : s.flagBuserr.replies = s.replies := rfl

/-! ### `State.flagCmderr` -/

@[simp] theorem flagCmderr_status (s : State) : s.flagCmderr.status = { s.status with cmderr := true } := rfl
@[simp] theorem flagCmderr_ntracks (s : State) : s.flagCmderr.ntracks = s.ntracks := rfl
@[simp] theorem flagCmderr_blockLen (s : State) : s.flagCmderr.blockLen = s.blockLen := rfl
@[simp] theorem flagCmderr_trkBase (s : State) : s.flagCmderr.trkBase = s.trkBase := rfl
@[simp] theorem flagCmderr_trkLen (s : State) : s.flagCmderr.trkLen = s.trkLen := rfl
@[simp] theorem flagCmderr_dpcmSlots (s : State) : s.flagCmderr.dpcmSlots = s.dpcmSlots := rfl
@[simp] theorem flagCmderr_tracks (s : State) : s.flagCmderr.tracks = s.tracks := rfl
@[simp] theorem flagCmderr_pipes (s : State) : s.flagCmderr.pipes = s.pipes := rfl
@[simp] theorem flagCmderr_syncs (s : State) : s.flagCmderr.syncs = s.syncs := rfl
@[simp] theorem flagCmderr_out (s : State) : s.flagCmderr.out = s.out := rfl
@[simp] theorem flagCmderr_evm (s : State) : s.flagCmderr.evm = s.evm := rfl
@[simp] theorem flagCmderr_dpcm (s : State) : s.flagCmderr.dpcm = s.dpcm := rfl
@[simp] theorem flagCmderr_wave (s : State) : s.flagCmderr.wave = s.wave := rfl
@[simp] theorem flagCmderr_engine (s : State) : s.flagCmderr.engine = s.engine := rfl
@[simp] theorem flagCmderr_inbox (s : State) : s.flagCmderr.inbox = s.inbox := rfl
@[simp] theorem flagCmderr_replies (s : State) : s.flagCmderr.replies = s.replies := rfl

/-! ### `State.setEnd` -/

@[simp] theorem setEnd_status (s : State) : s.setEnd.status = { s.status with ended := true } := rfl
@[simp] theorem setEnd_ntracks (s : State) : s.setEnd.ntracks = s.ntracks := rfl
@[simp] theorem setEnd_blockLen (s : State) : s.setEnd.blockLen = s.blockLen := rfl
@[simp] theorem setEnd_trkBase (s : State) : s.setEnd.trkBase = s.trkBase := rfl
@[simp] theorem setEnd_trkLen (s : State) : s.setEnd.trkLen = s.trkLen := rfl
@[simp] theorem setEnd_dpcmSlots (s : State) : s.setEnd.dpcmSlots = s.dpcmSlots := rfl
@[simp] theorem setEnd_tracks (s : State) : s.setEnd.tracks = s.tracks := rfl
@[simp] theorem setEnd_pipes (s : State) : s.setEnd.pipes = s.pipes := rfl
@[simp] theorem setEnd_syncs (s : State) : s.setEnd.syncs = s.syncs := rfl
@[simp] theorem setEnd_out (s : State) : s.setEnd.out = s.out := rfl
@[simp] theorem setEnd_evm (s : State) : s.setEnd.evm = s.evm := rfl
@[simp] theorem setEnd_dpcm (s : State) : s.setEnd.dpcm = s.dpcm := rfl
@[simp] theorem setEnd_wave (s : State) : s.setEnd.wave = s.wave := rfl
@[simp] theorem setEnd_engine (s : State) : s.setEnd.engine = s.engine := rfl
@[simp] theorem setEnd_inbox (s : State) : s.setEnd.inbox = s.inbox := rfl
@[simp] theorem setEnd_replies (s : State) : s.setEnd.replies = s.replies := rfl

/-! ### `State.setTr` -/

@[simp] theorem setTr_status (s : State) (x : Track) : (s.setTr x).status = s.status := rfl
@[simp] theorem setTr_ntracks (s : State) (x : Track) : (s.setTr x).ntracks = s.ntracks := rfl
@[simp] theorem setTr_blockLen (s : State) (x : Track) : (s.setTr x).blockLen = s.blockLen := rfl
@[simp] theorem setTr_trkBase (s : State) (x : Track) : (s.setTr x).trkBase = s.trkBase := rfl
@[simp] theorem setTr_trkLen (s : State) (x : Track) : (s.setTr x).trkLen = s.trkLen := rfl
@[simp] theorem setTr_dpcmSlots (s : State) (x : Track) : (s.setTr x).dpcmSlots = s.dpcmSlots := rfl
@[simp] theorem setTr_tracks (s : State) (x : Track) : (s.setTr x).tracks = vset s.tracks s.engine.track x := rfl
@[simp] theorem setTr_pipes (s : State) (x : Track) : (s.setTr x).pipes = s.pipes := rfl
@[simp] theorem setTr_syncs (s : State) (x : Track) : (s.setTr x).syncs = s.syncs := rfl
@[simp] theorem setTr_out (s : State) (x : Track) : (s.setTr x).out = s.out := rfl
@[simp] theorem setTr_evm (s : State) (x : Track) : (s.setTr x).evm = s.evm := rfl
@[simp] theorem setTr_dpcm (s : State) (x : Track) : (s.setTr x).dpcm = s.dpcm := rfl
@[simp] theorem setTr_wave (s : State) (x : Track) : (s.setTr x).wave = s.wave := rfl
@[simp] theorem setTr_engine (s : State) (x : Track) : (s.setTr x).engine = s.engine := rfl
@[simp] theorem setTr_inbox (s : State) (x : Track) : (s.setTr x).inbox = s.inbox := rfl
@[simp] theorem setTr_replies (s : State) (x : Track) : (s.setTr x).replies = s.replies := rfl

/-! ### `State.mapCh` -/

@[simp] theorem mapCh_status (f : Channel → Channel) (s : State) : (s.mapCh f).status = s.status := rfl
@[simp] theorem mapCh_ntracks (f : Channel → Channel) (s : State) : (s.mapCh f).ntracks = s.ntracks := rfl
@[simp] theorem mapCh_blockLen (f : Channel → Channel) (s : State) : (s.mapCh f).blockLen = s.blockLen := rfl
@[simp] theorem mapCh_trkBase (f : Channel → Channel) (s : State) : (s.mapCh f).trkBase = s.trkBase := rfl
@[simp] theorem mapCh_trkLen (f : Channel → Channel) (s : State) : (s.mapCh f).trkLen = s.trkLen := rfl
@[simp] theorem mapCh_dpcmSlots (f : Channel → Channel) (s : State) : (s.mapCh f).dpcmSlots = s.dpcmSlots := rfl
@[simp] theorem mapCh_tracks (f : Channel → Channel) (s : State) :
    (s.mapCh f).tracks = vset s.tracks s.engine.track { s.tr with ch := f s.ch } := rfl
@[simp] theorem mapCh_pipes (f : Channel → Channel) (s : State) : (s.mapCh f).pipes = s.pipes := rfl
@[simp] theorem mapCh_syncs (f : Channel → Channel) (s : State) : (s.mapCh f).syncs = s.syncs := rfl
@[simp] theorem mapCh_out (f : Channel → Channel) (s : State) : (s.mapCh f).out = s.out := rfl
@[simp] theorem mapCh_evm (f : Channel → Channel) (s : State) : (s.mapCh f).evm = s.evm := rfl
@[simp] theorem mapCh_dpcm (f : Channel → Channel) (s : State) : (s.mapCh f).dpcm = s.dpcm := rfl
@[simp] theorem mapCh_wave (f : Channel → Channel) (s : State) : (s.mapCh f).wave = s.wave := rfl
@[simp] theorem mapCh_engine (f : Channel → Channel) (s : State) : (s.mapCh f).engine = s.engine := rfl
@[simp] theorem mapCh_inbox (f : Channel → Channel) (s : State) : (s.mapCh f).inbox = s.inbox := rfl
@[simp] theorem mapCh_replies (f : Channel → Channel) (s : State) : (s.mapCh f).replies = s.replies := rfl

/-! ### `State.retire` -/

@[simp] theorem retire_status (d : F64) (s : State) : (s.retire d).status = s.status := rfl
@[simp] theorem retire_ntracks (d : F64) (s : State) : (s.retire d).ntracks = s.ntracks := rfl
@[simp] theorem retire_blockLen (d : F64) (s : State) : (s.retire d).blockLen = s.blockLen := rfl
@[simp] theorem retire_trkBase (d : F64) (s : State) : (s.retire d).trkBase = s.trkBase := rfl
@[simp] theorem retire_trkLen (d : F64) (s : State) : (s.retire d).trkLen = s.trkLen := rfl
@[simp] theorem retire_dpcmSlots (d : F64) (s : State) : (s.retire d).dpcmSlots = s.dpcmSlots := rfl
@[simp] theorem retire_tracks (d : F64) (s : State) :
    (s.retire d).tracks = vset s.tracks s.engine.track { s.tr with needle := s.tr.needle.sub d, cursor := s.tr.cursor + 1#32 } := rfl
@[simp] theorem retire_pipes (d : F64) (s : State) : (s.retire d).pipes = s.pipes := rfl
@[simp] theorem retire_syncs (d : F64) (s : State) : (s.retire d).syncs = s.syncs := rfl
@[simp] theorem retire_out (d : F64) (s : State) : (s.retire d).out = s.out := rfl
@[simp] theorem retire_evm (d : F64) (s : State) : (s.retire d).evm = s.evm := rfl
@[simp] theorem retire_dpcm (d : F64) (s : State) : (s.retire d).dpcm = s.dpcm := rfl
@[simp] theorem retire_wave (d : F64) (s : State) : (s.retire d).wave = s.wave := rfl
@[simp] theorem retire_engine (d : F64) (s : State) : (s.retire d).engine = s.engine := rfl
@[simp] theorem retire_inbox (d : F64) (s : State) : (s.retire d).inbox = s.inbox := rfl
@[simp] theorem retire_replies (d : F64) (s : State) : (s.retire d).replies = s.replies := rfl

/-! ### `State.endTrack` -/

@[simp] theorem endTrack_status (s : State) : s.endTrack.status = s.status := rfl
@[simp] theorem endTrack_ntracks (s : State) : s.endTrack.ntracks = s.ntracks := rfl
@[simp] theorem endTrack_blockLen (s : State) : s.endTrack.blockLen = s.blockLen := rfl
@[simp] theorem endTrack_trkBase (s : State) : s.endTrack.trkBase = s.trkBase := rfl
@[simp] theorem endTrack_trkLen (s : State) : s.endTrack.trkLen = s.trkLen := rfl
@[simp] theorem endTrack_dpcmSlots (s : State) : s.endTrack.dpcmSlots = s.dpcmSlots := rfl
@[simp] theorem endTrack_tracks (s : State) :
    s.endTrack.tracks = vset s.tracks s.engine.track { s.tr with ended := true } := rfl
@[simp] theorem endTrack_pipes (s : State) : s.endTrack.pipes = s.pipes := rfl
@[simp] theorem endTrack_syncs (s : State) : s.endTrack.syncs = s.syncs := rfl
@[simp] theorem endTrack_out (s : State) : s.endTrack.out = s.out := rfl
@[simp] theorem endTrack_evm (s : State) : s.endTrack.evm = s.evm := rfl
@[simp] theorem endTrack_dpcm (s : State) : s.endTrack.dpcm = s.dpcm := rfl
@[simp] theorem endTrack_wave (s : State) : s.endTrack.wave = s.wave := rfl
@[simp] theorem endTrack_engine (s : State) : s.endTrack.engine = s.engine := rfl
@[simp] theorem endTrack_inbox (s : State) : s.endTrack.inbox = s.inbox := rfl
@[simp] theorem endTrack_replies (s : State) : s.endTrack.replies = s.replies := rfl

/-! ### `State.setPipe` -/

@[simp] theorem setPipe_status (s : State) (i : Fin 3) (k : Nat) (v : F64) :
    (s.setPipe i k v).status = s.status := rfl
@[simp] theorem setPipe_ntracks (s : State) (i : Fin 3) (k : Nat) (v : F64) :
    (s.setPipe i k v).ntracks = s.ntracks := rfl
@[simp] theorem setPipe_blockLen (s : State) (i : Fin 3) (k : Nat) (v : F64) :
    (s.setPipe i k v).blockLen = s.blockLen := rfl
@[simp] theorem setPipe_trkBase (s : State) (i : Fin 3) (k : Nat) (v : F64) :
    (s.setPipe i k v).trkBase = s.trkBase := rfl
@[simp] theorem setPipe_trkLen (s : State) (i : Fin 3) (k : Nat) (v : F64) :
    (s.setPipe i k v).trkLen = s.trkLen := rfl
@[simp] theorem setPipe_dpcmSlots (s : State) (i : Fin 3) (k : Nat) (v : F64) :
    (s.setPipe i k v).dpcmSlots = s.dpcmSlots := rfl
@[simp] theorem setPipe_tracks (s : State) (i : Fin 3) (k : Nat) (v : F64) :
    (s.setPipe i k v).tracks = s.tracks := rfl
@[simp] theorem setPipe_pipes (s : State) (i : Fin 3) (k : Nat) (v : F64) :
    (s.setPipe i k v).pipes = vset s.pipes i (Cells.put F64.zero (s.pipes.get i) k v) := rfl
@[simp] theorem setPipe_syncs (s : State) (i : Fin 3) (k : Nat) (v : F64) : (s.setPipe i k v).syncs = s.syncs := rfl
@[simp] theorem setPipe_out (s : State) (i : Fin 3) (k : Nat) (v : F64) : (s.setPipe i k v).out = s.out := rfl
@[simp] theorem setPipe_evm (s : State) (i : Fin 3) (k : Nat) (v : F64) : (s.setPipe i k v).evm = s.evm := rfl
@[simp] theorem setPipe_dpcm (s : State) (i : Fin 3) (k : Nat) (v : F64) : (s.setPipe i k v).dpcm = s.dpcm := rfl
@[simp] theorem setPipe_wave (s : State) (i : Fin 3) (k : Nat) (v : F64) : (s.setPipe i k v).wave = s.wave := rfl
@[simp] theorem setPipe_engine (s : State) (i : Fin 3) (k : Nat) (v : F64) :
    (s.setPipe i k v).engine = s.engine := rfl
@[simp] theorem setPipe_inbox (s : State) (i : Fin 3) (k : Nat) (v : F64) : (s.setPipe i k v).inbox = s.inbox := rfl
@[simp] theorem setPipe_replies (s : State) (i : Fin 3) (k : Nat) (v : F64) :
    (s.setPipe i k v).replies = s.replies := rfl

/-! ### `State.setOut` -/

@[simp] theorem setOut_status (s : State) (j : Nat) (v : F64) : (s.setOut j v).status = s.status := rfl
@[simp] theorem setOut_ntracks (s : State) (j : Nat) (v : F64) : (s.setOut j v).ntracks = s.ntracks := rfl
@[simp] theorem setOut_blockLen (s : State) (j : Nat) (v : F64) : (s.setOut j v).blockLen = s.blockLen := rfl
@[simp] theorem setOut_trkBase (s : State) (j : Nat) (v : F64) : (s.setOut j v).trkBase = s.trkBase := rfl
@[simp] theorem setOut_trkLen (s : State) (j : Nat) (v : F64) : (s.setOut j v).trkLen = s.trkLen := rfl
@[simp] theorem setOut_dpcmSlots (s : State) (j : Nat) (v : F64) : (s.setOut j v).dpcmSlots = s.dpcmSlots := rfl
@[simp] theorem setOut_tracks (s : State) (j : Nat) (v : F64) : (s.setOut j v).tracks = s.tracks := rfl
@[simp] theorem setOut_pipes (s : State) (j : Nat) (v : F64) : (s.setOut j v).pipes = s.pipes := rfl
@[simp] theorem setOut_syncs (s : State) (j : Nat) (v : F64) : (s.setOut j v).syncs = s.syncs := rfl
@[simp] theorem setOut_out (s : State) (j : Nat) (v : F64) : (s.setOut j v).out = Cells.put F64.zero s.out j v := rfl
@[simp] theorem setOut_evm (s : State) (j : Nat) (v : F64) : (s.setOut j v).evm = s.evm := rfl
@[simp] theorem setOut_dpcm (s : State) (j : Nat) (v : F64) : (s.setOut j v).dpcm = s.dpcm := rfl
@[simp] theorem setOut_wave (s : State) (j : Nat) (v : F64) : (s.setOut j v).wave = s.wave := rfl
@[simp] theorem setOut_engine (s : State) (j : Nat) (v : F64) : (s.setOut j v).engine = s.engine := rfl
@[simp] theorem setOut_inbox (s : State) (j : Nat) (v : F64) : (s.setOut j v).inbox = s.inbox := rfl
@[simp] theorem setOut_replies (s : State) (j : Nat) (v : F64) : (s.setOut j v).replies = s.replies := rfl

/-! ### `State.clearPipes` -/

@[simp] theorem clearPipes_status (s : State) : s.clearPipes.status = s.status := rfl
@[simp] theorem clearPipes_ntracks (s : State) : s.clearPipes.ntracks = s.ntracks := rfl
@[simp] theorem clearPipes_blockLen (s : State) : s.clearPipes.blockLen = s.blockLen := rfl
@[simp] theorem clearPipes_trkBase (s : State) : s.clearPipes.trkBase = s.trkBase := rfl
@[simp] theorem clearPipes_trkLen (s : State) : s.clearPipes.trkLen = s.trkLen := rfl
@[simp] theorem clearPipes_dpcmSlots (s : State) : s.clearPipes.dpcmSlots = s.dpcmSlots := rfl
@[simp] theorem clearPipes_tracks (s : State) : s.clearPipes.tracks = s.tracks := rfl
@[simp] theorem clearPipes_pipes (s : State) : s.clearPipes.pipes = Vector.replicate 3 [] := rfl
@[simp] theorem clearPipes_syncs (s : State) : s.clearPipes.syncs = Vector.replicate 3 [] := rfl
@[simp] theorem clearPipes_out (s : State) : s.clearPipes.out = s.out := rfl
@[simp] theorem clearPipes_evm (s : State) : s.clearPipes.evm = s.evm := rfl
@[simp] theorem clearPipes_dpcm (s : State) : s.clearPipes.dpcm = s.dpcm := rfl
@[simp] theorem clearPipes_wave (s : State) : s.clearPipes.wave = s.wave := rfl
@[simp] theorem clearPipes_engine (s : State) : s.clearPipes.engine = s.engine := rfl
@[simp] theorem clearPipes_inbox (s : State) : s.clearPipes.inbox = s.inbox := rfl
@[simp] theorem clearPipes_replies (s : State) : s.clearPipes.replies = s.replies := rfl

/-! ### `State.stopCommand` -/

@[simp] theorem stopCommand_status (s : State) : s.stopCommand.status = { s.status with running := false } := rfl
@[simp] theorem stopCommand_ntracks (s : State) : s.stopCommand.ntracks = s.ntracks := rfl
@[simp] theorem stopCommand_blockLen (s : State) : s.stopCommand.blockLen = s.blockLen := rfl
@[simp] theorem stopCommand_trkBase (s : State) : s.stopCommand.trkBase = s.trkBase := rfl
@[simp] theorem stopCommand_trkLen (s : State) : s.stopCommand.trkLen = s.trkLen := rfl
@[simp] theorem stopCommand_dpcmSlots (s : State) : s.stopCommand.dpcmSlots = s.dpcmSlots := rfl
@[simp] theorem stopCommand_tracks (s : State) : s.stopCommand.tracks = s.tracks := rfl
@[simp] theorem stopCommand_pipes (s : State) : s.stopCommand.pipes = s.pipes := rfl
@[simp] theorem stopCommand_syncs (s : State) : s.stopCommand.syncs = s.syncs := rfl
@[simp] theorem stopCommand_out (s : State) : s.stopCommand.out = s.out := rfl
@[simp] theorem stopCommand_evm (s : State) : s.stopCommand.evm = s.evm := rfl
@[simp] theorem stopCommand_dpcm (s : State) : s.stopCommand.dpcm = s.dpcm := rfl
@[simp] theorem stopCommand_wave (s : State) : s.stopCommand.wave = s.wave := rfl
@[simp] theorem stopCommand_engine (s : State) : s.stopCommand.engine = s.engine := rfl
@[simp] theorem stopCommand_inbox (s : State) : s.stopCommand.inbox = s.inbox := rfl
@[simp] theorem stopCommand_replies (s : State) : s.stopCommand.replies = s.replies := rfl

/-! ### `State.finishRender` -/

@[simp] theorem finishRender_status (s : State) :
    s.finishRender.status = { s.status with done := true, running := s.status.running && !s.status.ended } := rfl
@[simp] theorem finishRender_ntracks (s : State) : s.finishRender.ntracks = s.ntracks := rfl
@[simp] theorem finishRender_blockLen (s : State) : s.finishRender.blockLen = s.blockLen := rfl
@[simp] theorem finishRender_trkBase (s : State) : s.finishRender.trkBase = s.trkBase := rfl
@[simp] theorem finishRender_trkLen (s : State) : s.finishRender.trkLen = s.trkLen := rfl
@[simp] theorem finishRender_dpcmSlots (s : State) : s.finishRender.dpcmSlots = s.dpcmSlots := rfl
@[simp] theorem finishRender_tracks (s : State) : s.finishRender.tracks = s.tracks := rfl
@[simp] theorem finishRender_pipes (s : State) : s.finishRender.pipes = s.pipes := rfl
@[simp] theorem finishRender_syncs (s : State) : s.finishRender.syncs = s.syncs := rfl
@[simp] theorem finishRender_out (s : State) : s.finishRender.out = s.out := rfl
@[simp] theorem finishRender_evm (s : State) : s.finishRender.evm = s.evm := rfl
@[simp] theorem finishRender_dpcm (s : State) : s.finishRender.dpcm = s.dpcm := rfl
@[simp] theorem finishRender_wave (s : State) : s.finishRender.wave = s.wave := rfl
@[simp] theorem finishRender_engine (s : State) : s.finishRender.engine = Engine.idle := rfl
@[simp] theorem finishRender_inbox (s : State) : s.finishRender.inbox = s.inbox := rfl
@[simp] theorem finishRender_replies (s : State) : s.finishRender.replies = s.replies := rfl

/-! ### `State.mapSlot` -/

@[simp] theorem mapSlot_status (s : State) (i : Fin 16) (f : DpcmSlot → DpcmSlot) :
    (s.mapSlot i f).status = s.status := rfl
@[simp] theorem mapSlot_ntracks (s : State) (i : Fin 16) (f : DpcmSlot → DpcmSlot) :
    (s.mapSlot i f).ntracks = s.ntracks := rfl
@[simp] theorem mapSlot_blockLen (s : State) (i : Fin 16) (f : DpcmSlot → DpcmSlot) :
    (s.mapSlot i f).blockLen = s.blockLen := rfl
@[simp] theorem mapSlot_trkBase (s : State) (i : Fin 16) (f : DpcmSlot → DpcmSlot) :
    (s.mapSlot i f).trkBase = s.trkBase := rfl
@[simp] theorem mapSlot_trkLen (s : State) (i : Fin 16) (f : DpcmSlot → DpcmSlot) :
    (s.mapSlot i f).trkLen = s.trkLen := rfl
@[simp] theorem mapSlot_dpcmSlots (s : State) (i : Fin 16) (f : DpcmSlot → DpcmSlot) :
    (s.mapSlot i f).dpcmSlots = vset s.dpcmSlots i (f (s.dpcmSlots.get i)) := rfl
@[simp] theorem mapSlot_tracks (s : State) (i : Fin 16) (f : DpcmSlot → DpcmSlot) :
    (s.mapSlot i f).tracks = s.tracks := rfl
@[simp] theorem mapSlot_pipes (s : State) (i : Fin 16) (f : DpcmSlot → DpcmSlot) :
    (s.mapSlot i f).pipes = s.pipes := rfl
@[simp] theorem mapSlot_syncs (s : State) (i : Fin 16) (f : DpcmSlot → DpcmSlot) :
    (s.mapSlot i f).syncs = s.syncs := rfl
@[simp] theorem mapSlot_out (s : State) (i : Fin 16) (f : DpcmSlot → DpcmSlot) : (s.mapSlot i f).out = s.out := rfl
@[simp] theorem mapSlot_evm (s : State) (i : Fin 16) (f : DpcmSlot → DpcmSlot) : (s.mapSlot i f).evm = s.evm := rfl
@[simp] theorem mapSlot_dpcm (s : State) (i : Fin 16) (f : DpcmSlot → DpcmSlot) : (s.mapSlot i f).dpcm = s.dpcm := rfl
@[simp] theorem mapSlot_wave (s : State) (i : Fin 16) (f : DpcmSlot → DpcmSlot) : (s.mapSlot i f).wave = s.wave := rfl
@[simp] theorem mapSlot_engine (s : State) (i : Fin 16) (f : DpcmSlot → DpcmSlot) :
    (s.mapSlot i f).engine = s.engine := rfl
@[simp] theorem mapSlot_inbox (s : State) (i : Fin 16) (f : DpcmSlot → DpcmSlot) :
    (s.mapSlot i f).inbox = s.inbox := rfl
@[simp] theorem mapSlot_replies (s : State) (i : Fin 16) (f : DpcmSlot → DpcmSlot) :
    (s.mapSlot i f).replies = s.replies := rfl

/-! ### The track being processed -/

@[simp] theorem setTr_tr (s : State) (x : Track) : (s.setTr x).tr = x := vset_get_same _ _ _
@[simp] theorem setTr_ch (s : State) (x : Track) : (s.setTr x).ch = x.ch := by simp [State.ch]
@[simp] theorem setTr_setTr (s : State) (x y : Track) : (s.setTr x).setTr y = s.setTr y := by
  simp [State.setTr]
@[simp] theorem setTr_self (s : State) : s.setTr s.tr = s := by simp [State.setTr, State.tr]
theorem setTr_other (s : State) (x : Track) {u : Fin 64} (h : u ≠ s.engine.track) :
    (s.setTr x).tracks.get u = s.tracks.get u := vset_get_other _ _ h

@[simp] theorem flagUnk_tr (s : State) : s.flagUnk.tr = s.tr := rfl
@[simp] theorem flagClamp_tr (s : State) (b : Bool) : (s.flagClamp b).tr = s.tr := rfl
@[simp] theorem flagBuserr_tr (s : State) : s.flagBuserr.tr = s.tr := rfl
@[simp] theorem flagCmderr_tr (s : State) : s.flagCmderr.tr = s.tr := rfl
@[simp] theorem setEnd_tr (s : State) : s.setEnd.tr = s.tr := rfl
@[simp] theorem setPipe_tr (s : State) (i : Fin 3) (k : Nat) (v : F64) : (s.setPipe i k v).tr = s.tr := rfl
@[simp] theorem setOut_tr (s : State) (j : Nat) (v : F64) : (s.setOut j v).tr = s.tr := rfl
@[simp] theorem flagUnk_ch (s : State) : s.flagUnk.ch = s.ch := rfl
@[simp] theorem flagClamp_ch (s : State) (b : Bool) : (s.flagClamp b).ch = s.ch := rfl
@[simp] theorem setEnd_ch (s : State) : s.setEnd.ch = s.ch := rfl
@[simp] theorem setPipe_ch (s : State) (i : Fin 3) (k : Nat) (v : F64) : (s.setPipe i k v).ch = s.ch := rfl
@[simp] theorem setOut_ch (s : State) (j : Nat) (v : F64) : (s.setOut j v).ch = s.ch := rfl
@[simp] theorem mapCh_tr (f : Channel → Channel) (s : State) : (s.mapCh f).tr = { s.tr with ch := f s.ch } :=
  setTr_tr _ _
@[simp] theorem mapCh_ch (f : Channel → Channel) (s : State) : (s.mapCh f).ch = f s.ch := setTr_ch _ _
@[simp] theorem retire_tr (d : F64) (s : State) :
    (s.retire d).tr = { s.tr with needle := s.tr.needle.sub d, cursor := s.tr.cursor + 1#32 } := setTr_tr _ _
@[simp] theorem retire_ch (d : F64) (s : State) : (s.retire d).ch = s.ch := setTr_ch _ _
@[simp] theorem endTrack_tr (s : State) : s.endTrack.tr = { s.tr with ended := true } := setTr_tr _ _

end Sys2Proof.Machine
end

