-- ==== Sys2Proof/Laws/Ops.lean ====
section
/-! SUPPORT. What consuming a record does, once for all kinds, and the reads of the memories and buffers after the named
updates. -/

namespace Sys2Proof.Machine

/-! ### Frames -/

theorem SameMemories.of_eq {s t : State} (h1 : t.evm = s.evm) (h2 : t.dpcm = s.dpcm) (h3 : t.wave = s.wave) :
    SameMemories s t where
  evm a := by simp only [State.evmByte, h1]
  dpcm a := by simp only [State.dpcmByte, h2]
  wave a := by simp only [State.waveByte, h3]

theorem SameBuffers.of_eq {s t : State} (h1 : t.out = s.out) (h2 : t.pipes = s.pipes) (h3 : t.syncs = s.syncs) :
    SameBuffers s t where
  out j := by simp only [State.outAt, h1]
  pipe i k := by simp only [State.pipeAt, h2]
  sync i k := by simp only [State.syncAt, h3]

/-- Consuming a record answers a next state, and it is this one. -/
theorem consume_next (delta : Word) (clamped : Bool) (effect : State → State) (s : State) :
    consume delta clamped effect s = .next ((effect (s.flagClamp clamped)).retire (s.duration delta)) := rfl

/-- The effect of a record on a track touches nothing but the track being processed and STATUS. -/
structure TrackEffect (s t : State) : Prop where
  others : OtherTracksSame s t
  engine : t.engine = s.engine
  registers : SameRegisters s t
  evm : t.evm = s.evm
  dpcm : t.dpcm = s.dpcm
  wave : t.wave = s.wave
  out : t.out = s.out
  pipes : t.pipes = s.pipes
  syncs : t.syncs = s.syncs
  hostQueues : SameHostQueues s t

theorem TrackEffect.refl (s : State) : TrackEffect s s :=
  ⟨fun _ _ => rfl, rfl, ⟨rfl, rfl, rfl, rfl, rfl⟩, rfl, rfl, rfl, rfl, rfl, rfl, ⟨rfl, rfl⟩⟩

theorem TrackEffect.flagUnk (s : State) : TrackEffect s s.flagUnk :=
  ⟨fun _ _ => rfl, rfl, ⟨rfl, rfl, rfl, rfl, rfl⟩, rfl, rfl, rfl, rfl, rfl, rfl, ⟨rfl, rfl⟩⟩

theorem TrackEffect.setEnd (s : State) : TrackEffect s s.setEnd :=
  ⟨fun _ _ => rfl, rfl, ⟨rfl, rfl, rfl, rfl, rfl⟩, rfl, rfl, rfl, rfl, rfl, rfl, ⟨rfl, rfl⟩⟩

theorem TrackEffect.flagClamp (s : State) (b : Bool) : TrackEffect s (s.flagClamp b) :=
  ⟨fun _ _ => rfl, rfl, ⟨rfl, rfl, rfl, rfl, rfl⟩, rfl, rfl, rfl, rfl, rfl, rfl, ⟨rfl, rfl⟩⟩

theorem TrackEffect.setTr (s : State) (x : Track) : TrackEffect s (s.setTr x) :=
  ⟨fun _ h => setTr_other s x h, rfl, ⟨rfl, rfl, rfl, rfl, rfl⟩, rfl, rfl, rfl, rfl, rfl, rfl, ⟨rfl, rfl⟩⟩

theorem TrackEffect.mapCh (f : Channel → Channel) (s : State) : TrackEffect s (s.mapCh f) := TrackEffect.setTr _ _

theorem TrackEffect.retire (d : F64) (s : State) : TrackEffect s (s.retire d) := TrackEffect.setTr _ _

theorem TrackEffect.trans {s t u : State} (h1 : TrackEffect s t) (h2 : TrackEffect t u) : TrackEffect s u where
  others v hv := by
    rw [h2.others v (by rw [h1.engine]; exact hv), h1.others v hv]
  engine := h2.engine.trans h1.engine
  registers := ⟨h2.registers.ntracks.trans h1.registers.ntracks, h2.registers.blockLen.trans h1.registers.blockLen,
    h2.registers.trkBase.trans h1.registers.trkBase, h2.registers.trkLen.trans h1.registers.trkLen,
    h2.registers.dpcmSlots.trans h1.registers.dpcmSlots⟩
  evm := h2.evm.trans h1.evm
  dpcm := h2.dpcm.trans h1.dpcm
  wave := h2.wave.trans h1.wave
  out := h2.out.trans h1.out
  pipes := h2.pipes.trans h1.pipes
  syncs := h2.syncs.trans h1.syncs
  hostQueues := ⟨h2.hostQueues.inbox.trans h1.hostQueues.inbox, h2.hostQueues.replies.trans h1.hostQueues.replies⟩

/-- What consuming a record leaves behind, given what its kind's effect does to the track's dispatcher. -/
theorem consume_consumed {delta : Word} {clamped : Bool} {effect : State → State} {s : State}
    (he : TrackEffect (s.flagClamp clamped) (effect (s.flagClamp clamped)))
    (hc : (effect (s.flagClamp clamped)).tr.cursor = s.tr.cursor)
    (hn : (effect (s.flagClamp clamped)).tr.needle = s.tr.needle) :
    RecordConsumed delta s ((effect (s.flagClamp clamped)).retire (s.duration delta)) := by
  have h := ((TrackEffect.flagClamp s clamped).trans he).trans (TrackEffect.retire (s.duration delta) _)
  exact ⟨by simp [hc], by simp [hn, State.duration], h.others, h.engine, h.registers,
    SameMemories.of_eq h.evm h.dpcm h.wave, SameBuffers.of_eq h.out h.pipes h.syncs, h.hostQueues⟩

theorem clampRecorded_flagClamp {out : Prop} {b : Bool} (h : b = true ↔ out) {s t : State}
    (ht : t.status = (s.flagClamp b).status) : ClampRecorded out s t where
  clamp := by simp [ht, h]
  others := by simp [ht]

/-- A record whose effect is a function on its Channel: its next state, and all it leaves behind. -/
theorem consume_mapCh {delta : Word} {clamped : Bool} {out : Prop} (h : clamped = true ↔ out) (f : Channel → Channel)
    (s : State) : ∃ t, consume delta clamped (State.mapCh f) s = .next t ∧ ChannelEvent delta out (f s.ch) s t :=
  ⟨_, rfl, consume_consumed (TrackEffect.mapCh f _) (by simp) (by simp), clampRecorded_flagClamp h (by simp), by simp,
    by simp, by simp⟩

/-- The same for an effect that reads the state the record is applied in. -/
theorem consume_mapCh_of {delta : Word} {clamped : Bool} {out : Prop} (h : clamped = true ↔ out)
    (f : State → Channel → Channel) (s : State) :
    ∃ t, consume delta clamped (fun s => s.mapCh (f s)) s = .next t ∧
      ChannelEvent delta out (f (s.flagClamp clamped) s.ch) s t :=
  ⟨_, rfl, consume_consumed (TrackEffect.mapCh _ _) (by simp) (by simp), clampRecorded_flagClamp h (by simp), by simp,
    by simp, by simp⟩

/-! ### Reads of the buffers after writes -/

theorem outAt_setOut {s : State} {hi : Nat} (h : Cells.rising hi 0 s.out = true) (j i : Nat) (v : F64) :
    (s.setOut j v).outAt i = if i = j then v else s.outAt i := Cells.get_put h j i v

theorem pipeAt_setPipe {s : State} {p : Fin 3} {hi : Nat} (h : Cells.rising hi 0 (s.pipes.get p) = true) (k : Nat)
    (v : F64) (q : Fin 3) (i : Nat) :
    (s.setPipe p k v).pipeAt q i = if q = p ∧ i = k then v else s.pipeAt q i := by
  simp only [State.pipeAt, setPipe_pipes, vset_get]
  split
  · next e =>
    subst e
    rw [Cells.get_put h]
    simp
  · next e => rw [if_neg (fun h => e h.1)]

@[simp] theorem setOut_pipeAt (s : State) (j : Nat) (v : F64) (i : Fin 3) (k : Nat) :
    (s.setOut j v).pipeAt i k = s.pipeAt i k := rfl
@[simp] theorem setOut_syncAt (s : State) (j : Nat) (v : F64) (i : Fin 3) (k : Nat) :
    (s.setOut j v).syncAt i k = s.syncAt i k := rfl
@[simp] theorem setPipe_outAt (s : State) (i : Fin 3) (k : Nat) (v : F64) (j : Nat) :
    (s.setPipe i k v).outAt j = s.outAt j := rfl
@[simp] theorem setPipe_syncAt (s : State) (p : Fin 3) (k : Nat) (v : F64) (i : Fin 3) (j : Nat) :
    (s.setPipe p k v).syncAt i j = s.syncAt i j := rfl

theorem outAt_setOut_other (s : State) {i j : Nat} (v : F64) (h : i ≠ j) : (s.setOut j v).outAt i = s.outAt i :=
  Cells.get_put_other _ _ _ h

theorem pipeAt_setPipe_other (s : State) (p : Fin 3) (k : Nat) (v : F64) {q : Fin 3} {i : Nat} (h : ¬(q = p ∧ i = k)) :
    (s.setPipe p k v).pipeAt q i = s.pipeAt q i := by
  simp only [State.pipeAt, setPipe_pipes, vset_get]
  split
  · next e =>
    subst e
    exact Cells.get_put_other _ _ _ (fun hk => h ⟨rfl, hk⟩)
  · rfl

end Sys2Proof.Machine
end

