-- ==== Sys2Proof/Laws/Oscillator.lean ====
section
/-! SUPPORT. The modulators: what a sample, a bulk advance and a restart do to an oscillator, and that its LFSRs stay
live. -/

namespace Sys2Proof.Machine

/-! ### Phase accumulators -/

@[simp] theorem phases_get_put_same (ps : Phases) (k : PhaseKind) (v : Nat) : (ps.put k v).get k = v := by
  cases k <;> rfl

theorem phases_get_put_other (ps : Phases) {k j : PhaseKind} (v : Nat) (h : j ≠ k) :
    (ps.put k v).get j = ps.get j := by
  cases k <;> cases j <;> first | rfl | exact absurd rfl h

@[simp] theorem phases_put_put (ps : Phases) (k : PhaseKind) (v w : Nat) : (ps.put k v).put k w = ps.put k w := by
  cases k <;> rfl

@[simp] theorem phases_put_get (ps : Phases) (k : PhaseKind) : ps.put k (ps.get k) = ps := by
  cases k <;> rfl

@[simp] theorem phases_reset_get (k : PhaseKind) : Phases.reset.get k = 0 := by
  cases k <;> rfl

theorem phaseMod_pos (p : Params) : 0 < phaseMod p := Nat.two_pow_pos _

/-- An increment the rules compute is below the phase modulus (42_oscillator.md R327). -/
theorem capInc_lt (p : Params) (v : Int) : capInc p v < phaseMod p := by
  have := phaseMod_pos p
  unfold capInc
  omega

/-- A phase below the modulus put into an oscillator in range. -/
theorem OscInRange.put {p : Params} {o : Oscillator} (h : OscInRange p o) (k : PhaseKind) {v : Nat} (hv : v < phaseMod p) :
    OscInRange p { o with phases := o.phases.put k v } := by
  refine ⟨h.inc, fun j => ?_⟩
  by_cases e : j = k
  · subst e
    rw [phases_get_put_same]
    exact hv
  · rw [phases_get_put_other _ _ e]
    exact h.phases j

/-- Nothing but the increment and the phases matters for the range. -/
theorem OscInRange.of_same {p : Params} {o o' : Oscillator} (h : OscInRange p o) (hi : o'.inc = o.inc)
    (hp : o'.phases = o.phases) : OscInRange p o' :=
  ⟨hi ▸ h.inc, hp ▸ h.phases⟩

theorem OscInRange.reset (p : Params) : OscInRange p Oscillator.reset :=
  ⟨phaseMod_pos p, fun k => by rw [show Oscillator.reset.phases = Phases.reset from rfl, phases_reset_get]; exact phaseMod_pos p⟩

/-! ### LFSRs -/

/-- A shift of a register of at least two bits, tapped below its top, does not reach 0 from elsewhere. -/
theorem lfsrShift_ne_zero {w : Nat} {tap : Nat} (hw : 1 < w) (ht : 1 ≤ tap) {r : BitVec w} (h : r ≠ 0#w) : lfsrShift tap r ≠ 0#w := by
  intro h0
  have hbit (i : Nat) : (lfsrShift tap r).getLsbD i = false := by rw [h0]; simp
  have hhigh (i : Nat) (hi : 1 ≤ i) : r.getLsbD i = false := by
    by_cases hiw : i < w
    · have := hbit (i - 1)
      simp only [lfsrShift, BitVec.getLsbD_or, BitVec.getLsbD_ushiftRight, BitVec.getLsbD_shiftLeft, Bool.or_eq_false_iff] at this
      have h1 := this.1
      rwa [show 1 + (i - 1) = i by omega] at h1
    · exact BitVec.getLsbD_of_ge r i (by omega)
  have htop := hbit (w - 1)
  simp only [lfsrShift, BitVec.getLsbD_or, BitVec.getLsbD_ushiftRight, BitVec.getLsbD_shiftLeft, Bool.or_eq_false_iff,
    Nat.lt_irrefl, decide_false, Bool.not_false, Nat.sub_self, BitVec.getLsbD_setWidth] at htop
  have hfb := htop.2
  have hpos : decide (0 < w) = true := decide_eq_true (by omega)
  have hlt : decide (w - 1 < w) = true := decide_eq_true (by omega)
  simp only [hpos, hlt, Bool.true_and] at hfb
  have hx : (r.getLsbD 0 != r.getLsbD tap) = false := by
    simpa using hfb
  apply h
  apply BitVec.eq_of_getLsbD_eq
  intro i _
  rcases Nat.eq_zero_or_pos i with h0 | hi
  · subst h0
    rw [hhigh tap ht] at hx
    simpa using hx
  · rw [hhigh i hi]
    simp

theorem lfsrShifts_ne_zero {w tap : Nat} (hw : 1 < w) (ht : 1 ≤ tap) (n : Nat) {r : BitVec w} (h : r ≠ 0#w) :
    lfsrShifts tap n r ≠ 0#w := by
  induction n generalizing r with
  | zero => exact h
  | succ n ih => exact ih (lfsrShift_ne_zero hw ht h)

theorem lfsrTick_ne_zero {w tap : Nat} (hw : 1 < w) (ht : 1 ≤ tap) (p : Params) {m : Lfsr w} (h : m.lfsr ≠ 0#w) :
    (m.tick p tap).lfsr ≠ 0#w := lfsrShifts_ne_zero hw ht _ h

/-! ### DPCM -/

/-- What one DPCM clock that does not fault does (42_oscillator.md R361): nothing at the end of a slot, else one bit
of the slot moves the amplitude by 2 or leaves it, and the position goes on. -/
theorem dmcClock_ok {p : Params} {s : State} {slot : DpcmSlot} {m m' : Dpcm} (h : dmcClock p s slot m = .ok m') :
    (dpcmPosition slot m = none ∧ m' = m) ∨
      ∃ pos b, dpcmPosition slot m = some pos ∧ dpcmBit p s slot pos.toNat = .ok b ∧
        m' = { m with amp := dpcmDelta b m.amp, bitpos := pos + 1#32 } := by
  unfold dmcClock at h
  split at h
  · next hp => exact Or.inl ⟨hp, (Except.ok.inj h).symm⟩
  · next pos hp =>
    split at h
    · cases h
    · next b hb => exact Or.inr ⟨pos, b, hp, hb, (Except.ok.inj h).symm⟩

/-- The position the next clock reads lies inside the slot. -/
theorem dpcmPosition_lt {slot : DpcmSlot} {m : Dpcm} {pos : Word} (h : dpcmPosition slot m = some pos) :
    pos.toNat < slot.bits.toNat := by
  unfold dpcmPosition at h
  split at h
  · split at h
    · next hl =>
      cases h
      exact Nat.pos_of_ne_zero (fun e => hl.2 (BitVec.eq_of_toNat_eq e))
    · cases h
  · next hl =>
    cases h
    rw [BitVec.le_def] at hl
    omega

/-- A DPCM clock faults only where it reads an unreadable byte of its slot (60_exceptions.md R506). -/
theorem dmcClock_error {p : Params} {s : State} {slot : DpcmSlot} {m : Dpcm} {f : Fault} (h : dmcClock p s slot m = .error f) :
    f = .dpcmRead ∧ ∃ j, j < slot.bits.toNat ∧ s.dpcmRead p (slot.base.toNat + j / 8) = none := by
  unfold dmcClock at h
  split at h
  · cases h
  · next pos hp =>
    split at h
    · next g hb =>
      unfold dpcmBit at hb
      split at hb
      · cases hb
      · next hn =>
        cases hb
        cases h
        exact ⟨rfl, pos.toNat, dpcmPosition_lt hp, hn⟩
    · cases h

theorem dmcClocks_error {p : Params} {s : State} {slot : DpcmSlot} {n : Nat} {m : Dpcm} {f : Fault}
    (h : dmcClocks p s slot n m = .error f) :
    f = .dpcmRead ∧ ∃ j, j < slot.bits.toNat ∧ s.dpcmRead p (slot.base.toNat + j / 8) = none := by
  induction n generalizing m with
  | zero => cases h
  | succ n ih =>
    unfold dmcClocks at h
    split at h
    · next g hg => cases h; exact dmcClock_error hg
    · exact ih h

/-! ### One sample -/

theorem OnlySelectedMoved.refl (o : Oscillator) : OnlySelectedMoved o o :=
  ⟨rfl, rfl, rfl, fun _ _ => rfl, fun _ => rfl, fun _ => rfl, fun _ => rfl, fun _ => rfl, fun _ => rfl⟩

theorem OnlySelectedMoved.trans {a b c : Oscillator} (h1 : OnlySelectedMoved a b) (h2 : OnlySelectedMoved b c) :
    OnlySelectedMoved a c where
  form := h2.form.trans h1.form
  sub := h2.sub.trans h1.sub
  inc := h2.inc.trans h1.inc
  phases k h := (h2.phases k (h1.form ▸ h)).trans (h1.phases k h)
  fcNoise h := (h2.fcNoise (h1.form ▸ h)).trans (h1.fcNoise h)
  fcSNoise h := (h2.fcSNoise (h1.form ▸ h)).trans (h1.fcSNoise h)
  gbNoise h := (h2.gbNoise (h1.form ▸ h)).trans (h1.gbNoise h)
  gbSNoise h := (h2.gbSNoise (h1.form ▸ h)).trans (h1.gbSNoise h)
  dpcm h := (h2.dpcm (h1.form ▸ h)).trans (h1.dpcm h)

/-- The phase of the selected kind changed, nothing else. -/
theorem OnlySelectedMoved.phase {o : Oscillator} {k : PhaseKind} (h : o.form = .phase k) (v : Nat) :
    OnlySelectedMoved o { o with phases := o.phases.put k v } :=
  ⟨rfl, rfl, rfl, fun j hj => phases_get_put_other _ _ (fun e => hj (by rw [h, e])), fun _ => rfl, fun _ => rfl,
    fun _ => rfl, fun _ => rfl, fun _ => rfl⟩

theorem OnlySelectedMoved.dpcm_only {o : Oscillator} (h : o.form = .dpcm) (m : Dpcm) :
    OnlySelectedMoved o { o with dpcm := m } :=
  ⟨rfl, rfl, rfl, fun _ _ => rfl, fun _ => rfl, fun _ => rfl, fun _ => rfl, fun _ => rfl, fun hn => absurd h hn⟩

theorem OnlySelectedMoved.tickLfsr {o : Oscillator} (p : Params) {k : LfsrKind} (h : o.form = .lfsr k) :
    OnlySelectedMoved o (o.tickLfsr p k) := by
  cases k <;>
    exact ⟨rfl, rfl, rfl, fun _ _ => rfl, fun hn => by first | rfl | exact absurd h hn,
      fun hn => by first | rfl | exact absurd h hn, fun hn => by first | rfl | exact absurd h hn,
      fun hn => by first | rfl | exact absurd h hn, fun _ => rfl⟩

/-- One sample that does not fault, by the group of the selected kind (42_oscillator.md R333, R354, R364). -/
theorem nextFrom_ok {p : Params} {s : State} {pw : Byte} {o o' : Oscillator} {off : Nat} {y : F64} {w : Bool}
    (h : o.nextFrom p s pw off = .ok (y, w, o')) :
    (∃ k, o.form = .phase k ∧ y = shape p s pw o.sub k ((o.phases.get k + off) % phaseMod p) ∧
      w = decide (phaseMod p ≤ o.phases.get k + o.inc) ∧
      o' = { o with phases := o.phases.put k ((o.phases.get k + o.inc) % phaseMod p) }) ∨
    (∃ k, o.form = .lfsr k ∧ y = o.lfsrSample k ∧ w = false ∧ o' = o.tickLfsr p k) ∨
    (∃ m, o.form = .dpcm ∧ y = dpcmOut o.dpcm ∧ w = false ∧ o.dpcm.tick p s (dpcmSlotOf s o) = .ok m ∧
      o' = { o with dpcm := m }) := by
  unfold Oscillator.nextFrom at h
  split at h
  · next k hk => cases h; exact Or.inl ⟨k, hk, rfl, rfl, rfl⟩
  · next k hk => cases h; exact Or.inr (Or.inl ⟨k, hk, rfl, rfl, rfl⟩)
  · next hk =>
    split at h
    · cases h
    · next m hm => cases h; exact Or.inr (Or.inr ⟨m, hk, rfl, rfl, hm, rfl⟩)

/-- What samples, bulk advances and restarts do to an oscillator: only its selected modulator moves, its LFSRs stay live,
its phases stay in range. -/
structure Advanced (p : Params) (o o' : Oscillator) : Prop where
  moved : OnlySelectedMoved o o'
  live : LfsrsLive o → LfsrsLive o'
  range : OscInRange p o → OscInRange p o'

theorem Advanced.refl (p : Params) (o : Oscillator) : Advanced p o o := ⟨.refl o, id, id⟩

theorem Advanced.trans {p : Params} {a b c : Oscillator} (h1 : Advanced p a b) (h2 : Advanced p b c) : Advanced p a c :=
  ⟨h1.moved.trans h2.moved, fun h => h2.live (h1.live h), fun h => h2.range (h1.range h)⟩

/-- A phase below the modulus put into the selected modulator. -/
theorem Advanced.phase {p : Params} {o : Oscillator} {k : PhaseKind} (h : o.form = .phase k) {v : Nat} (hv : v < phaseMod p) :
    Advanced p o { o with phases := o.phases.put k v } :=
  ⟨.phase h v, fun hl => ⟨hl.fcNoise, hl.fcSNoise, hl.gbNoise, hl.gbSNoise⟩, fun hr => hr.put k hv⟩

theorem nextFrom_moved {p : Params} {s : State} {pw : Byte} {o o' : Oscillator} {off : Nat} {y : F64} {w : Bool}
    (h : o.nextFrom p s pw off = .ok (y, w, o')) : OnlySelectedMoved o o' := by
  rcases nextFrom_ok h with ⟨k, hk, _, _, rfl⟩ | ⟨k, hk, _, _, rfl⟩ | ⟨m, hk, _, _, _, rfl⟩
  · exact .phase hk _
  · exact .tickLfsr p hk
  · exact .dpcm_only hk m

theorem LfsrsLive.tickLfsr {o : Oscillator} (h : LfsrsLive o) (p : Params) (k : LfsrKind) : LfsrsLive (o.tickLfsr p k) := by
  have h15 : 1 < 15 := by omega
  have h7 : 1 < 7 := by omega
  cases k
  · exact ⟨lfsrTick_ne_zero h15 (by omega) p h.fcNoise, h.fcSNoise, h.gbNoise, h.gbSNoise⟩
  · exact ⟨h.fcNoise, lfsrTick_ne_zero h15 (by omega) p h.fcSNoise, h.gbNoise, h.gbSNoise⟩
  · exact ⟨h.fcNoise, h.fcSNoise, lfsrTick_ne_zero h15 (by omega) p h.gbNoise, h.gbSNoise⟩
  · exact ⟨h.fcNoise, h.fcSNoise, h.gbNoise, lfsrTick_ne_zero h7 (by omega) p h.gbSNoise⟩

theorem LfsrsLive.nextFrom {p : Params} {s : State} {pw : Byte} {o o' : Oscillator} {off : Nat} {y : F64} {w : Bool}
    (hl : LfsrsLive o) (h : o.nextFrom p s pw off = .ok (y, w, o')) : LfsrsLive o' := by
  rcases nextFrom_ok h with ⟨k, _, _, _, rfl⟩ | ⟨k, _, _, _, rfl⟩ | ⟨m, _, _, _, _, rfl⟩
  · exact ⟨hl.fcNoise, hl.fcSNoise, hl.gbNoise, hl.gbSNoise⟩
  · exact hl.tickLfsr p k
  · exact ⟨hl.fcNoise, hl.fcSNoise, hl.gbNoise, hl.gbSNoise⟩

theorem nextFrom_advanced {p : Params} {s : State} {pw : Byte} {o o' : Oscillator} {off : Nat} {y : F64} {w : Bool}
    (h : o.nextFrom p s pw off = .ok (y, w, o')) : Advanced p o o' := by
  refine ⟨nextFrom_moved h, fun hl => hl.nextFrom h, fun hr => ?_⟩
  rcases nextFrom_ok h with ⟨k, _, _, _, rfl⟩ | ⟨k, _, _, _, rfl⟩ | ⟨m, _, _, _, _, rfl⟩
  · exact hr.put k (Nat.mod_lt _ (phaseMod_pos p))
  · cases k <;> exact hr.of_same rfl rfl
  · exact hr.of_same rfl rfl

/-- A sample faults only on an unreadable byte of the slot that FC_DPCM plays (60_exceptions.md R506). -/
theorem nextFrom_error {p : Params} {s : State} {pw : Byte} {o : Oscillator} {off : Nat} {f : Fault}
    (h : o.nextFrom p s pw off = .error f) : f = .dpcmRead ∧ DpcmUnreadable p s o := by
  unfold Oscillator.nextFrom at h
  split at h
  · cases h
  · cases h
  · next hk =>
    split at h
    · next g hg =>
      cases h
      obtain ⟨h1, h2⟩ := dmcClocks_error hg
      exact ⟨h1, hk, h2⟩
    · cases h

theorem DpcmUnreadable.of_moved {p : Params} {s : State} {o o' : Oscillator} (h : OnlySelectedMoved o o') (hu : DpcmUnreadable p s o') :
    DpcmUnreadable p s o := by
  obtain ⟨hf, j, hj, hb⟩ := hu
  have hs : dpcmSlotOf s o' = dpcmSlotOf s o := by simp only [dpcmSlotOf, h.sub]
  rw [hs] at hj hb
  exact ⟨by rw [← h.form]; exact hf, j, hj, hb⟩

/-! ### Bulk advances -/

theorem skip_ok {p : Params} {s : State} {pw : Byte} {n : Nat} {o o' : Oscillator} (h : Oscillator.skip p s pw n o = .ok o') :
    Advanced p o o' := by
  induction n generalizing o with
  | zero => cases h; exact .refl _ _
  | succ n ih =>
    unfold Oscillator.skip at h
    split at h
    · cases h
    · next y w o1 h1 => exact (nextFrom_advanced h1).trans (ih h)

theorem skip_error {p : Params} {s : State} {pw : Byte} {n : Nat} {o : Oscillator} {f : Fault}
    (h : Oscillator.skip p s pw n o = .error f) : f = .dpcmRead ∧ DpcmUnreadable p s o := by
  induction n generalizing o with
  | zero => cases h
  | succ n ih =>
    unfold Oscillator.skip at h
    split at h
    · next g hg => cases h; exact nextFrom_error hg
    · next y w o1 h1 =>
      obtain ⟨a, b⟩ := ih h
      exact ⟨a, b.of_moved (nextFrom_moved h1)⟩

theorem addPhase_ok {p : Params} {s : State} {pw : Byte} {n : Nat} {o o' : Oscillator}
    (h : o.addPhase p s pw n = .ok o') : Advanced p o o' := by
  unfold Oscillator.addPhase at h
  split at h
  · next k hk =>
    cases h
    exact .phase hk (Nat.mod_lt _ (phaseMod_pos p))
  · exact skip_ok h
  · exact skip_ok h

theorem addPhase_error {p : Params} {s : State} {pw : Byte} {n : Nat} {o : Oscillator} {f : Fault}
    (h : o.addPhase p s pw n = .error f) : f = .dpcmRead ∧ DpcmUnreadable p s o := by
  unfold Oscillator.addPhase at h
  split at h
  · cases h
  · exact skip_error h
  · exact skip_error h

theorem lfoRead_ok {p : Params} {s : State} {pw : Byte} {n : Nat} {o o' : Oscillator} {v : F64}
    (h : o.lfoRead p s pw n = .ok (v, o')) : Advanced p o o' := by
  unfold Oscillator.lfoRead at h
  split at h
  · simp only at h
    split at h
    · cases h
    · next o1 h1 => cases h; exact addPhase_ok h1
  · simp only at h
    split at h
    · cases h
    · next o1 h1 => cases h; exact addPhase_ok h1
  all_goals
    split at h
    · cases h
    · next y w o1 h1 =>
      split at h
      · cases h
      · next o2 h2 =>
        cases h
        exact (nextFrom_advanced h1).trans (addPhase_ok h2)

theorem lfoRead_error {p : Params} {s : State} {pw : Byte} {n : Nat} {o : Oscillator} {f : Fault}
    (h : o.lfoRead p s pw n = .error f) : f = .dpcmRead ∧ DpcmUnreadable p s o := by
  unfold Oscillator.lfoRead at h
  split at h
  · simp only at h
    split at h
    · next h1 => cases h; exact addPhase_error h1
    · cases h
  · simp only at h
    split at h
    · next h1 => cases h; exact addPhase_error h1
    · cases h
  all_goals
    split at h
    · next h1 => cases h; exact nextFrom_error h1
    · next y w o1 h1 =>
      split at h
      · next h2 =>
        cases h
        obtain ⟨a, b⟩ := addPhase_error h2
        exact ⟨a, b.of_moved (nextFrom_moved h1)⟩
      · cases h

/-! ### Restarts -/

theorem resetSelected_moved (s : State) (o : Oscillator) : OnlySelectedMoved o (o.resetSelected s) := by
  unfold Oscillator.resetSelected
  split
  · next k h => exact .phase h _
  · next h =>
    exact ⟨rfl, rfl, rfl, fun _ _ => rfl, fun hn => absurd h hn, fun _ => rfl, fun _ => rfl, fun _ => rfl, fun _ => rfl⟩
  · next h =>
    exact ⟨rfl, rfl, rfl, fun _ _ => rfl, fun _ => rfl, fun hn => absurd h hn, fun _ => rfl, fun _ => rfl, fun _ => rfl⟩
  · next h =>
    exact ⟨rfl, rfl, rfl, fun _ _ => rfl, fun _ => rfl, fun _ => rfl, fun hn => absurd h hn, fun _ => rfl, fun _ => rfl⟩
  · next h =>
    exact ⟨rfl, rfl, rfl, fun _ _ => rfl, fun _ => rfl, fun _ => rfl, fun _ => rfl, fun hn => absurd h hn, fun _ => rfl⟩
  · next h => exact .dpcm_only h _

theorem LfsrsLive.resetSelected {o : Oscillator} (h : LfsrsLive o) (s : State) : LfsrsLive (o.resetSelected s) := by
  unfold Oscillator.resetSelected
  split
  · exact ⟨h.fcNoise, h.fcSNoise, h.gbNoise, h.gbSNoise⟩
  · exact ⟨by simp [Lfsr.resetPhase], h.fcSNoise, h.gbNoise, h.gbSNoise⟩
  · exact ⟨h.fcNoise, by simp [Lfsr.resetPhase], h.gbNoise, h.gbSNoise⟩
  · exact ⟨h.fcNoise, h.fcSNoise, by simp [Lfsr.resetPhase], h.gbSNoise⟩
  · exact ⟨h.fcNoise, h.fcSNoise, h.gbNoise, by simp [Lfsr.resetPhase]⟩
  · exact ⟨h.fcNoise, h.fcSNoise, h.gbNoise, h.gbSNoise⟩

theorem resetSelected_advanced (p : Params) (s : State) (o : Oscillator) : Advanced p o (o.resetSelected s) := by
  refine ⟨resetSelected_moved s o, fun h => h.resetSelected s, fun h => ?_⟩
  unfold Oscillator.resetSelected
  split
  · exact h.put _ (phaseMod_pos p)
  all_goals exact h.of_same rfl rfl

theorem OscInRange.resetAll {p : Params} {o : Oscillator} (h : OscInRange p o) (s : State) (x : BitVec 4) :
    OscInRange p ((o.resetAll s).setPidx x) :=
  ⟨h.inc, (OscInRange.reset p).phases⟩

/-- NOTE_ON restarts an oscillator as 41_channel.md R250 says. -/
theorem resetAll_restarted (s : State) (x : BitVec 4) (o : Oscillator) :
    OscRestarted s.dpcmSlots x o ((o.resetAll s).setPidx x) :=
  ⟨rfl, rfl, rfl, phases_reset_get, rfl, rfl, rfl, rfl, rfl⟩

theorem LfsrsLive.resetAll (s : State) (x : BitVec 4) (o : Oscillator) : LfsrsLive ((o.resetAll s).setPidx x) :=
  ⟨by simp [Oscillator.setPidx, Oscillator.resetAll, Lfsr.resetPhase],
    by simp [Oscillator.setPidx, Oscillator.resetAll, Lfsr.resetPhase],
    by simp [Oscillator.setPidx, Oscillator.resetAll, Lfsr.resetPhase],
    by simp [Oscillator.setPidx, Oscillator.resetAll, Lfsr.resetPhase]⟩

theorem LfsrsLive.reset : LfsrsLive Oscillator.reset :=
  ⟨by decide, by decide, by decide, by decide⟩

end Sys2Proof.Machine
end

