-- ==== Sys2Proof/Laws/Render.lean ====
section
/-! SUPPORT. The render pipeline: what each stage does to the Channel and the buffers over a whole chunk, and what a chunk
leaves unchanged. -/

namespace Sys2Proof.Machine

/-! ### The carrier -/

/-- An oscillator moved by the carrier stage: only its selected modulator and its increment differ, and both stay in
range. -/
structure OscMoved (p : Params) (o o' : Oscillator) : Prop where
  moved : OnlySelectedMoved { o with inc := o'.inc } o'
  live : LfsrsLive o → LfsrsLive o'
  range : OscInRange p o → OscInRange p o'

theorem OscMoved.refl (p : Params) (o : Oscillator) : OscMoved p o o := ⟨.refl o, id, id⟩

theorem OscMoved.of_advanced {p : Params} {o o' : Oscillator} (h : Advanced p o o') : OscMoved p o o' := by
  refine ⟨?_, h.live, h.range⟩
  rw [h.moved.inc]
  exact h.moved

theorem OscMoved.setInc {p : Params} (o : Oscillator) {v : Nat} (hv : v < phaseMod p) : OscMoved p o { o with inc := v } :=
  ⟨.refl _, fun h => ⟨h.fcNoise, h.fcSNoise, h.gbNoise, h.gbSNoise⟩, fun h => ⟨hv, h.phases⟩⟩

theorem OscMoved.trans {p : Params} {a b c : Oscillator} (h1 : OscMoved p a b) (h2 : OscMoved p b c) : OscMoved p a c := by
  refine ⟨?_, fun h => h2.live (h1.live h), fun h => h2.range (h1.range h)⟩
  have h3 : OnlySelectedMoved { a with inc := c.inc } { b with inc := c.inc } :=
    ⟨h1.moved.form, h1.moved.sub, rfl, h1.moved.phases, h1.moved.fcNoise, h1.moved.fcSNoise, h1.moved.gbNoise,
      h1.moved.gbSNoise, h1.moved.dpcm⟩
  exact h3.trans h2.moved

theorem DpcmUnreadable.of_oscMoved {p : Params} {s : State} {o o' : Oscillator} (h : OscMoved p o o') (hu : DpcmUnreadable p s o') :
    DpcmUnreadable p s o := by
  have h' : DpcmUnreadable p s { o with inc := o'.inc } := hu.of_moved h.moved
  exact h'

/-- What the carrier stage does to the Channel over `n` samples: oscillators moved, `oncount` advanced. -/
structure CarrierMoved (p : Params) (n : Nat) (c c' : Channel) : Prop where
  osc1 : OscMoved p c.osc1 c'.osc1
  osc2 : OscMoved p c.osc2 c'.osc2
  rest : c' = { c with osc1 := c'.osc1, osc2 := c'.osc2, oncount := c.oncount + BitVec.ofNat 64 n }

theorem CarrierMoved.refl (p : Params) (c : Channel) : CarrierMoved p 0 c c := ⟨.refl _ _, .refl _ _, by simp⟩

theorem CarrierMoved.trans {p : Params} {m n : Nat} {a b c : Channel} (h1 : CarrierMoved p m a b)
    (h2 : CarrierMoved p n b c) : CarrierMoved p (m + n) a c := by
  refine ⟨h1.osc1.trans h2.osc1, h1.osc2.trans h2.osc2, ?_⟩
  have hb := h1.rest
  have hc := h2.rest
  rw [hb] at hc
  rw [hc]
  simp [BitVec.ofNat_add, BitVec.add_assoc]

theorem CarrierMoved.setInc1 {p : Params} (c : Channel) {v : Nat} (hv : v < phaseMod p) :
    CarrierMoved p 0 c (c.setInc1 v) :=
  ⟨.setInc _ hv, .refl _ _, by simp [Channel.setInc1]⟩

theorem carrierInc_lt (p : Params) (c : Channel) (pitch : F64) : carrierInc p c pitch < phaseMod p := by
  unfold carrierInc
  split <;> exact capInc_lt p _

/-- One carrier sample. -/
theorem carrierSample_ok {p : Params} {s : State} {off : Nat} {k : Nat} {c c' : Channel} {sy sy' : Syncs} {y : F64}
    (h : carrierSample p s off k c sy = .ok (y, c', sy')) :
    CarrierMoved p 1 c c' ∧ c'.osc2 = c.osc2 ∧
      ∃ w, sy' = if c.syncMode = .out then setSync sy c.syncPipe k w else sy := by
  unfold carrierSample at h
  simp only at h
  split at h
  · cases h
  · next y1 w o1 h1 =>
    cases h
    refine ⟨⟨?_, .refl _ _, rfl⟩, rfl, w, rfl⟩
    refine OscMoved.trans ?_ (.of_advanced (nextFrom_advanced h1))
    split
    · exact .of_advanced (resetSelected_advanced p s _)
    · exact .refl _ _

theorem carrierSample_error {p : Params} {s : State} {off : Nat} {k : Nat} {c : Channel} {sy : Syncs} {f : Fault}
    (h : carrierSample p s off k c sy = .error f) : f = .dpcmRead ∧ DpcmUnreadable p s c.osc1 := by
  unfold carrierSample at h
  simp only at h
  split at h
  · next h1 =>
    cases h
    obtain ⟨a, b⟩ := nextFrom_error h1
    refine ⟨a, ?_⟩
    split at b
    · exact b.of_moved (resetSelected_moved s _)
    · exact b
  · cases h

/-- The sync buffers after `n` carrier samples from index `k`: only the elements of the chunk of the buffer that a
Channel in sync mode out owns can differ, and they keep their form. -/
structure SyncsMoved (p : Params) (c : Channel) (k n : Nat) (sy sy' : Syncs) : Prop where
  frame : ∀ i j, ¬(c.syncMode = .out ∧ i = c.syncPipe ∧ k ≤ j ∧ j < k + n) →
    Cells.get false (sy'.get i) j = Cells.get false (sy.get i) j
  form : (∀ i, Cells.wf false p.blockMax (sy.get i) = true) → k + n ≤ p.blockMax →
    ∀ i, Cells.wf false p.blockMax (sy'.get i) = true

theorem SyncsMoved.refl (p : Params) (c : Channel) (k : Nat) (sy : Syncs) : SyncsMoved p c k 0 sy sy :=
  ⟨fun _ _ _ => rfl, fun h _ => h⟩

theorem SyncsMoved.trans {p : Params} {c : Channel} {k m n : Nat} {a b d : Syncs} (h1 : SyncsMoved p c k m a b)
    (h2 : SyncsMoved p c (k + m) n b d) : SyncsMoved p c k (m + n) a d where
  frame i j h := by
    rw [h2.frame i j (fun hh => h ⟨hh.1, hh.2.1, by omega, by omega⟩),
      h1.frame i j (fun hh => h ⟨hh.1, hh.2.1, by omega, by omega⟩)]
  form hw hk := h2.form (h1.form hw (by omega)) (by omega)

theorem setSync_moved (p : Params) (c : Channel) (k : Nat) (sy : Syncs) (w : Bool) :
    SyncsMoved p c k 1 sy (if c.syncMode = .out then setSync sy c.syncPipe k w else sy) := by
  split
  · next hm =>
    constructor
    · intro i j h
      simp only [setSync, vset_get]
      split
      · next e =>
        subst e
        exact Cells.get_put_other _ _ _ (fun e => h ⟨hm, rfl, by omega, by omega⟩)
      · rfl
    · intro hw hk i
      exact vset_forall (P := fun m => Cells.wf false p.blockMax m = true)
        (Cells.wf_put (hw c.syncPipe) w (by omega)) hw i
  · exact ⟨fun _ _ _ => rfl, fun h _ => h⟩

theorem CarrierMoved.syncMode {p : Params} {n : Nat} {c c' : Channel} (h : CarrierMoved p n c c') :
    c'.syncMode = c.syncMode ∧ c'.syncPipe = c.syncPipe := by
  have := h.rest
  rw [this]
  exact ⟨rfl, rfl⟩

theorem SyncsMoved.of_channel {p : Params} {c c' : Channel} {k n : Nat} {a b : Syncs} (h : SyncsMoved p c' k n a b)
    (hm : c'.syncMode = c.syncMode ∧ c'.syncPipe = c.syncPipe) : SyncsMoved p c k n a b where
  frame i j hh := h.frame i j (by rw [hm.1, hm.2]; exact hh)
  form := h.form

/-- What a stretch of carrier samples does. -/
structure CarrierDone (p : Params) (n k : Nat) (c : Channel) (sy : Syncs) (ys : List F64) (c' : Channel) (sy' : Syncs) : Prop where
  length : ys.length = n
  channel : CarrierMoved p n c c'
  syncs : SyncsMoved p c k n sy sy'

theorem carrierRun_ok {p : Params} {s : State} {off : Nat → Nat} {n k : Nat} {c c' : Channel} {sy sy' : Syncs}
    {ys : List F64} (h : carrierRun p s off n k c sy = .ok (ys, c', sy')) :
    CarrierDone p n k c sy ys c' sy' ∧ c'.osc2 = c.osc2 := by
  induction n generalizing k c sy ys with
  | zero => cases h; exact ⟨⟨rfl, .refl _ _, .refl _ _ _ _⟩, rfl⟩
  | succ n ih =>
    unfold carrierRun at h
    split at h
    · cases h
    · next y c1 sy1 h1 =>
      split at h
      · cases h
      · next ys1 r h2 =>
        cases h
        obtain ⟨hc, ho, w, hw⟩ := carrierSample_ok h1
        obtain ⟨hd, ho2⟩ := ih h2
        refine ⟨⟨by simp [hd.length], ?_, ?_⟩, ho2.trans ho⟩
        · have := hc.trans hd.channel
          rwa [Nat.add_comm] at this
        · subst hw
          have := (setSync_moved p c k sy w).trans (hd.syncs.of_channel hc.syncMode)
          rwa [Nat.add_comm] at this

theorem carrierRun_error {p : Params} {s : State} {off : Nat → Nat} {n k : Nat} {c : Channel} {sy : Syncs} {f : Fault}
    (h : carrierRun p s off n k c sy = .error f) : f = .dpcmRead ∧ DpcmUnreadable p s c.osc1 := by
  induction n generalizing k c sy with
  | zero => cases h
  | succ n ih =>
    unfold carrierRun at h
    split at h
    · next h1 => cases h; exact carrierSample_error h1
    · next y c1 sy1 h1 =>
      split at h
      · next h2 =>
        cases h
        obtain ⟨a, b⟩ := ih h2
        exact ⟨a, b.of_oscMoved (carrierSample_ok h1).1.osc1⟩
      · cases h

theorem lfoPitch_ok {p : Params} {s : State} {n : Nat} {c c' : Channel} {v : F64} (h : lfoPitch p s n c = .ok (v, c')) :
    CarrierMoved p 0 c c' := by
  unfold lfoPitch at h
  split at h
  · split at h
    · cases h
    · next w o2 h2 =>
      cases h
      have h3 : OscMoved p c.osc2 o2 := (OscMoved.setInc c.osc2 (capInc_lt p _)).trans (.of_advanced (lfoRead_ok h2))
      exact ⟨.refl _ _, h3, by rw [BitVec.add_zero]⟩
  · cases h; exact .refl _ _

theorem lfoPitch_error {p : Params} {s : State} {n : Nat} {c : Channel} {f : Fault} (h : lfoPitch p s n c = .error f) :
    f = .dpcmRead ∧ DpcmUnreadable p s c.osc2 := by
  unfold lfoPitch at h
  split at h
  · split at h
    · next h2 =>
      cases h
      obtain ⟨h3, h4⟩ := lfoRead_error h2
      exact ⟨h3, h4.of_oscMoved (OscMoved.setInc c.osc2 (capInc_lt p _))⟩
    · cases h
  · cases h

theorem lfoSubBlock_ok {p : Params} {s : State} {n k : Nat} {c c' : Channel} {sy sy' : Syncs} {ys : List F64}
    (h : lfoSubBlock p s n k c sy = .ok (ys, c', sy')) : CarrierDone p n k c sy ys c' sy' := by
  unfold lfoSubBlock at h
  split at h
  · cases h
  · next v c1 h1 =>
    obtain ⟨hd, _⟩ := carrierRun_ok h
    have hc := (lfoPitch_ok h1).trans (CarrierMoved.setInc1 c1 (carrierInc_lt p c1 v))
    refine ⟨hd.length, ?_, hd.syncs.of_channel hc.syncMode⟩
    have := hc.trans hd.channel
    rwa [Nat.zero_add] at this

theorem lfoSubBlock_error {p : Params} {s : State} {n k : Nat} {c : Channel} {sy : Syncs} {f : Fault}
    (h : lfoSubBlock p s n k c sy = .error f) :
    f = .dpcmRead ∧ (DpcmUnreadable p s c.osc1 ∨ DpcmUnreadable p s c.osc2) := by
  unfold lfoSubBlock at h
  split at h
  · next h1 => cases h; obtain ⟨a, b⟩ := lfoPitch_error h1; exact ⟨a, Or.inr b⟩
  · next v c1 h1 =>
    obtain ⟨a, b⟩ := carrierRun_error h
    have hc := (lfoPitch_ok h1).trans (CarrierMoved.setInc1 c1 (carrierInc_lt p c1 v))
    exact ⟨a, Or.inl (b.of_oscMoved hc.osc1)⟩

/-- The sub-blocks of a chunk cover it: one sample each or more, `fuel` of them at most. -/
theorem lfoSubBlocks_ok {p : Params} (hp : 0 < p.lfoBatch) {s : State} {fuel rest k : Nat} (hf : rest ≤ fuel)
    {c c' : Channel} {sy sy' : Syncs} {ys : List F64} (h : lfoSubBlocks p s fuel rest k c sy = .ok (ys, c', sy')) :
    CarrierDone p rest k c sy ys c' sy' := by
  induction fuel generalizing rest k c sy ys with
  | zero =>
    cases h
    obtain rfl : rest = 0 := by omega
    exact ⟨rfl, .refl _ _, .refl _ _ _ _⟩
  | succ fuel ih =>
    unfold lfoSubBlocks at h
    split at h
    · next h0 => cases h; subst h0; exact ⟨rfl, .refl _ _, .refl _ _ _ _⟩
    · next h0 =>
      simp only at h
      split at h
      · cases h
      · next ys1 c1 sy1 h1 =>
        split at h
        · cases h
        · next zs r h2 =>
          cases h
          have hmin : min p.lfoBatch rest + (rest - min p.lfoBatch rest) = rest := by omega
          have d1 := lfoSubBlock_ok h1
          have d2 := ih (by omega) h2
          refine ⟨by rw [List.length_append, d1.length, d2.length, hmin], ?_, ?_⟩
          · have := d1.channel.trans d2.channel
            rwa [hmin] at this
          · have := d1.syncs.trans (d2.syncs.of_channel d1.channel.syncMode)
            rwa [hmin] at this

theorem lfoSubBlocks_error {p : Params} {s : State} {fuel rest k : Nat} {c : Channel} {sy : Syncs} {f : Fault}
    (h : lfoSubBlocks p s fuel rest k c sy = .error f) :
    f = .dpcmRead ∧ (DpcmUnreadable p s c.osc1 ∨ DpcmUnreadable p s c.osc2) := by
  induction fuel generalizing rest k c sy with
  | zero => cases h
  | succ fuel ih =>
    unfold lfoSubBlocks at h
    split at h
    · cases h
    · simp only at h
      split at h
      · next h1 => cases h; exact lfoSubBlock_error h1
      · next ys1 c1 sy1 h1 =>
        split at h
        · next h2 =>
          cases h
          obtain ⟨a, b⟩ := ih h2
          have d1 := (lfoSubBlock_ok h1).channel
          exact ⟨a, b.imp (·.of_oscMoved d1.osc1) (·.of_oscMoved d1.osc2)⟩
        · cases h

/-- The carrier stage over a chunk (41_channel.md R283, R284). -/
theorem carrier_ok {p : Params} (hp : 0 < p.lfoBatch) {s : State} {k0 len : Nat} {c c' : Channel} {sy' : Syncs}
    {ys : List F64} (h : carrier p s k0 len c = .ok (ys, c', sy')) : CarrierDone p len k0 c s.syncs ys c' sy' := by
  unfold carrier at h
  split at h
  · exact lfoSubBlocks_ok hp (Nat.le_refl _) h
  · obtain ⟨hd, _⟩ := carrierRun_ok h
    have hc := CarrierMoved.setInc1 c (carrierInc_lt p c (basePitch c))
    refine ⟨hd.length, ?_, hd.syncs.of_channel hc.syncMode⟩
    have := hc.trans hd.channel
    rwa [Nat.zero_add] at this

/-- In the FM path the LFO's oscillator is neither read nor advanced (41_channel.md R283). -/
theorem carrier_fm_osc2 {p : Params} {s : State} {k0 len : Nat} {c c' : Channel} {sy' : Syncs} {ys : List F64}
    (hfm : c.inSens.isZero = false) (h : carrier p s k0 len c = .ok (ys, c', sy')) : c'.osc2 = c.osc2 := by
  unfold carrier at h
  rw [hfm] at h
  exact (carrierRun_ok h).2

theorem carrier_error {p : Params} {s : State} {k0 len : Nat} {c : Channel} {f : Fault}
    (h : carrier p s k0 len c = .error f) :
    f = .dpcmRead ∧ (DpcmUnreadable p s c.osc1 ∨ DpcmUnreadable p s c.osc2) := by
  unfold carrier at h
  split at h
  · exact lfoSubBlocks_error h
  · obtain ⟨a, b⟩ := carrierRun_error h
    exact ⟨a, Or.inl (b.of_oscMoved (CarrierMoved.setInc1 c (carrierInc_lt p c (basePitch c))).osc1)⟩

/-! ### The carrier stage as pieces in order (41_channel.md R283, R284) -/

/-- No piece of work. -/
theorem RunInOrder.zero {σ : Type} {piece : Nat → σ → Except Fault (List F64 × σ) → Prop} (st : σ) :
    RunInOrder piece 0 st (.ok ([], st)) :=
  ⟨0, fun _ => st, fun _ => [], Nat.le_refl _, rfl, fun j h => absurd h (by omega), .inl ⟨rfl, by simp⟩⟩

/-- The first piece faults. -/
theorem RunInOrder.fault {σ : Type} {piece : Nat → σ → Except Fault (List F64 × σ) → Prop} {n : Nat} {st : σ} {f : Fault}
    (h : piece 0 st (.error f)) : RunInOrder piece (n + 1) st (.error f) :=
  ⟨0, fun _ => st, fun _ => [], Nat.zero_le _, rfl, fun j h => absurd h (by omega), .inr ⟨by omega, f, h, rfl⟩⟩

/-- The first piece completes and a later one faults. -/
theorem RunInOrder.cons_error {σ : Type} {piece : Nat → σ → Except Fault (List F64 × σ) → Prop} {n : Nat} {st st' : σ}
    {xs : List F64} {f : Fault} (h : piece 0 st (.ok (xs, st')))
    (ht : RunInOrder (fun j => piece (j + 1)) n st' (.error f)) : RunInOrder piece (n + 1) st (.error f) := by
  obtain ⟨m, sts, out, hm, h0, hr, hend⟩ := ht
  refine ⟨m + 1, fun j => j.casesOn st sts, fun j => j.casesOn xs out, by omega, rfl, ?_, ?_⟩
  · rintro (_ | j) hj
    · simpa [h0] using h
    · exact hr j (by omega)
  · rcases hend with ⟨_, he⟩ | ⟨hlt, g, hp, hg⟩
    · cases he
    · exact .inr ⟨by omega, g, hp, hg⟩

/-- Every piece completes. -/
theorem RunInOrder.cons_ok {σ : Type} {piece : Nat → σ → Except Fault (List F64 × σ) → Prop} {n : Nat} {st st' st'' : σ}
    {xs ys : List F64} (h : piece 0 st (.ok (xs, st')))
    (ht : RunInOrder (fun j => piece (j + 1)) n st' (.ok (ys, st''))) : RunInOrder piece (n + 1) st (.ok (xs ++ ys, st'')) := by
  obtain ⟨m, sts, out, hm, h0, hr, hend⟩ := ht
  rcases hend with ⟨rfl, he⟩ | ⟨hlt, g, hp, hg⟩
  · refine ⟨m + 1, fun j => j.casesOn st sts, fun j => j.casesOn xs out, by omega, rfl, ?_, .inl ⟨rfl, ?_⟩⟩
    · rintro (_ | j) hj
      · simpa [h0] using h
      · exact hr j (by omega)
    · cases he
      simp [List.range_succ_eq_map, Function.comp_def]
  · cases hg

theorem carrierRun_inOrder (p : Params) (s : State) (off : Nat → Nat) (n k : Nat) (ch : Channel) (sy : Syncs) :
    CarrierSamples p s off n k (ch, sy) (carrierRun p s off n k ch sy) := by
  induction n generalizing k ch sy with
  | zero => exact .zero _
  | succ n ih =>
    unfold carrierRun CarrierSamples
    cases h : carrierSample p s (off k) k ch sy with
    | error f => exact .fault (by simp [CarrierSampleAt, h])
    | ok v =>
      obtain ⟨y, ch', sy'⟩ := v
      have ih := ih (k + 1) ch' sy'
      simp only [CarrierSamples, Nat.add_assoc k 1, Nat.add_comm 1] at ih
      simp only
      cases h2 : carrierRun p s off n (k + 1) ch' sy' with
      | error f => rw [h2] at ih; exact .cons_error (xs := [y]) (by simp [CarrierSampleAt, h]) ih
      | ok r => rw [h2] at ih; exact .cons_ok (xs := [y]) (by simp [CarrierSampleAt, h]) ih

theorem lfoSubBlock_inOrder (p : Params) (s : State) (n k : Nat) (ch : Channel) (sy : Syncs) :
    LfoSubBlock p s n k (ch, sy) (lfoSubBlock p s n k ch sy) := by
  unfold LfoSubBlock lfoSubBlock
  cases h : lfoPitch p s n ch with
  | error f => rfl
  | ok v => exact carrierRun_inOrder _ _ _ _ _ _ _

/-- A rest that is not empty is one sub-block more than what is left of it. -/
theorem pieces_succ {b rest : Nat} (hb : 1 ≤ b) (hr : rest ≠ 0) :
    (rest + b - 1) / b = (rest - min b rest + b - 1) / b + 1 := by
  by_cases h : b ≤ rest
  · rw [Nat.min_eq_left h, ← Nat.add_div_right _ (by omega : 0 < b)]; congr 1; omega
  · rw [Nat.min_eq_right (by omega), Nat.sub_self, Nat.div_eq_of_lt (by omega : 0 + b - 1 < b)]
    rw [show rest + b - 1 = rest - 1 + b by omega, Nat.add_div_right _ (by omega), Nat.div_eq_of_lt (by omega)]

theorem lfoSubBlocks_inOrder (p : Params) (hb : 1 ≤ p.lfoBatch) (s : State) (fuel rest k : Nat) (ch : Channel) (sy : Syncs) (hf : rest ≤ fuel) :
    RunInOrder (fun b => LfoSubBlock p s (min p.lfoBatch (rest - b * p.lfoBatch)) (k + b * p.lfoBatch))
        ((rest + p.lfoBatch - 1) / p.lfoBatch) (ch, sy) (lfoSubBlocks p s fuel rest k ch sy) := by
  induction fuel generalizing rest k ch sy with
  | zero =>
    obtain rfl : rest = 0 := by omega
    rw [Nat.div_eq_of_lt (by omega)]; exact .zero _
  | succ fuel ih =>
    unfold lfoSubBlocks
    by_cases hr : rest = 0
    · subst hr
      rw [Nat.div_eq_of_lt (by omega), if_pos rfl]; exact .zero _
    rw [if_neg hr, pieces_succ hb hr]
    simp only
    have h1 := lfoSubBlock_inOrder p s (min p.lfoBatch rest) k ch sy
    cases h : lfoSubBlock p s (min p.lfoBatch rest) k ch sy with
    | error f => rw [h] at h1; exact .fault (by simpa using h1)
    | ok v =>
      obtain ⟨ys, ch', sy'⟩ := v
      rw [h] at h1
      have ih := ih (rest - min p.lfoBatch rest) (k + min p.lfoBatch rest) ch' sy' (by omega)
      have ih : RunInOrder (fun b => LfoSubBlock p s (min p.lfoBatch (rest - (b + 1) * p.lfoBatch)) (k + (b + 1) * p.lfoBatch))
          ((rest - min p.lfoBatch rest + p.lfoBatch - 1) / p.lfoBatch) (ch', sy')
          (lfoSubBlocks p s fuel (rest - min p.lfoBatch rest) (k + min p.lfoBatch rest) ch' sy') := by
        by_cases hl : p.lfoBatch ≤ rest
        · rw [Nat.min_eq_left hl] at ih ⊢
          have hp : (fun b => LfoSubBlock p s (min p.lfoBatch (rest - (b + 1) * p.lfoBatch)) (k + (b + 1) * p.lfoBatch)) =
              fun b => LfoSubBlock p s (min p.lfoBatch (rest - p.lfoBatch - b * p.lfoBatch)) (k + p.lfoBatch + b * p.lfoBatch) := by
            funext b
            rw [Nat.succ_mul]
            congr 1
            · congr 1; omega
            · omega
          rw [hp]; exact ih
        · have h0 : rest - min p.lfoBatch rest = 0 := by omega
          rw [h0, Nat.div_eq_of_lt (by omega)]
          have e : lfoSubBlocks p s fuel 0 (k + min p.lfoBatch rest) ch' sy' = .ok ([], ch', sy') := by
            cases fuel <;> simp [lfoSubBlocks]
          rw [e]; exact .zero _
      simp only
      cases h2 : lfoSubBlocks p s fuel (rest - min p.lfoBatch rest) (k + min p.lfoBatch rest) ch' sy' with
      | error f => rw [h2] at ih; exact .cons_error (by simpa using h1) ih
      | ok r => rw [h2] at ih; exact .cons_ok (by simpa using h1) ih

/-! ### The carrier stage reads neither the tracks nor the engine -/

/-- Where a RENDER stands: the tracks and the engine, which the carrier stage does not read. -/
def State.moveTo (s : State) (tracks : Vector Track 64) (e : Engine) : State := { s with tracks := tracks, engine := e }

theorem dmcClocks_moveTo (p : Params) (s : State) (tr : Vector Track 64) (e : Engine) (slot : DpcmSlot) (n : Nat) (m : Dpcm) :
    dmcClocks p (s.moveTo tr e) slot n m = dmcClocks p s slot n m := by
  induction n generalizing m with
  | zero => rfl
  | succ n ih =>
    have h : dmcClock p (s.moveTo tr e) slot m = dmcClock p s slot m := rfl
    simp only [dmcClocks, h, ih]

theorem nextFrom_moveTo (p : Params) (s : State) (tr : Vector Track 64) (e : Engine) (pw : Byte) (o : Oscillator) (off : Nat) :
    o.nextFrom p (s.moveTo tr e) pw off = o.nextFrom p s pw off := by
  unfold Oscillator.nextFrom Dpcm.tick
  simp only [dmcClocks_moveTo]
  rfl

theorem skip_moveTo (p : Params) (s : State) (tr : Vector Track 64) (e : Engine) (pw : Byte) (o : Oscillator) (n : Nat) :
    o.skip p (s.moveTo tr e) pw n = o.skip p s pw n := by
  induction n generalizing o with
  | zero => rfl
  | succ n ih => simp only [Oscillator.skip, Oscillator.next, nextFrom_moveTo, ih]

theorem lfoRead_moveTo (p : Params) (s : State) (tr : Vector Track 64) (e : Engine) (pw : Byte) (o : Oscillator) (n : Nat) :
    o.lfoRead p (s.moveTo tr e) pw n = o.lfoRead p s pw n := by
  unfold Oscillator.lfoRead Oscillator.addPhase
  simp only [skip_moveTo, Oscillator.next, nextFrom_moveTo]
  rfl

theorem carrierRun_moveTo (p : Params) (s : State) (tr : Vector Track 64) (e : Engine) (off : Nat → Nat) (n k : Nat) (ch : Channel) (sy : Syncs) :
    carrierRun p (s.moveTo tr e) off n k ch sy = carrierRun p s off n k ch sy := by
  induction n generalizing k ch sy with
  | zero => rfl
  | succ n ih =>
    have h : carrierSample p (s.moveTo tr e) (off k) k ch sy = carrierSample p s (off k) k ch sy := by
      unfold carrierSample
      simp only [nextFrom_moveTo]
      rfl
    simp only [carrierRun, h, ih]

theorem lfoSubBlocks_moveTo (p : Params) (s : State) (tr : Vector Track 64) (e : Engine) (fuel rest k : Nat) (ch : Channel) (sy : Syncs) :
    lfoSubBlocks p (s.moveTo tr e) fuel rest k ch sy = lfoSubBlocks p s fuel rest k ch sy := by
  induction fuel generalizing rest k ch sy with
  | zero => rfl
  | succ fuel ih => simp only [lfoSubBlocks, lfoSubBlock, lfoPitch, lfoRead_moveTo, carrierRun_moveTo, ih]

theorem carrier_moveTo (p : Params) (s : State) (tr : Vector Track 64) (e : Engine) (k n : Nat) (ch : Channel) : carrier p (s.moveTo tr e) k n ch = carrier p s k n ch := by
  simp only [carrier, carrierLFO, carrierFM, lfoSubBlocks_moveTo, carrierRun_moveTo]
  rfl
/-! ### Amplitude, ring, formant, filter -/

theorem mapStage_length (f : Channel → F64 → F64 × Channel) (xs : List F64) (c : Channel) :
    (mapStage f xs c).1.length = xs.length := by
  induction xs generalizing c with
  | nil => rfl
  | cons x xs ih => simp [mapStage, ih]

/-- A relation on Channels that one sample keeps is kept over a chunk. -/
theorem mapStage_rel {f : Channel → F64 → F64 × Channel} {R : Nat → Channel → Channel → Prop} (h0 : ∀ c, R 0 c c)
    (h1 : ∀ c x n d, R n (f c x).2 d → R (n + 1) c d) (xs : List F64) (c : Channel) :
    R xs.length c (mapStage f xs c).2 := by
  induction xs generalizing c with
  | nil => exact h0 c
  | cons x xs ih => exact h1 c x xs.length _ (ih _)

theorem StageRun.cons {f : Channel → F64 → F64 × Channel} {x : F64} {xs ys : List F64} {c c' : Channel}
    (h : StageRun f xs ys (f c x).2 c') : StageRun f (x :: xs) ((f c x).1 :: ys) c c' := by
  obtain ⟨hl, cs, h0, hn, hs⟩ := h
  refine ⟨by simp [hl], fun j => j.casesOn c cs, rfl, hn, ?_⟩
  rintro (_ | j) y hy
  · cases hy; exact ⟨rfl, h0.symm⟩
  · exact hs j y hy
/-- A stage over a chunk passes its samples through in order. -/
theorem mapStage_run (f : Channel → F64 → F64 × Channel) (xs : List F64) (c : Channel) :
    StageRun f xs (mapStage f xs c).1 c (mapStage f xs c).2 := by
  induction xs generalizing c with
  | nil => exact ⟨rfl, fun _ => c, rfl, rfl, fun j x h => by cases h⟩
  | cons x xs ih => exact StageRun.cons (ih _)

theorem ringStage_length (s : State) (c : Channel) (k : Nat) (xs : List F64) : (ringStage s c k xs).length = xs.length := by
  induction xs generalizing k with
  | nil => rfl
  | cons x xs ih => simp [ringStage, ih]

/-- What the ring stage makes of each sample (41_channel.md R288). -/
theorem ringStage_get (s : State) (c : Channel) (k : Nat) {xs : List F64} {j : Nat} {y : F64} (h : xs[j]? = some y) :
    (ringStage s c k xs)[j]? =
      some (if c.ringSens.isZero = true then y else (y.mul (s.pipeAt c.ringPipe (k + j))).mul c.ringSens) := by
  induction xs generalizing k j with
  | nil => cases h
  | cons x xs ih =>
    cases j with
    | zero => cases h; rfl
    | succ j => simp only [ringStage, List.getElem?_cons_succ, ih (k + 1) h, Nat.add_assoc, Nat.add_comm 1]

theorem amplitude_channel (p : Params) (xs : List F64) (c : Channel) :
    (mapStage (amplitudeSample p) xs c).2 = { c with env1 := Envelope.advance^[xs.length] c.env1 } := by
  induction xs generalizing c with
  | nil => rfl
  | cons x xs ih => simp [mapStage, ih, amplitudeSample, Envelope.stepRead]

theorem formant_channel (p : Params) (xs : List F64) (c : Channel) :
    ∃ fm, (mapStage (formantSample p) xs c).2 = { c with fm := fm } := by
  induction xs generalizing c with
  | nil => exact ⟨c.fm, rfl⟩
  | cons x xs ih =>
    obtain ⟨fm1, h1⟩ : ∃ fm, (formantSample p c x).2 = { c with fm := fm } := by
      unfold formantSample
      split
      · exact ⟨c.fm, rfl⟩
      · exact ⟨_, rfl⟩
    obtain ⟨fm, h⟩ := ih (formantSample p c x).2
    refine ⟨fm, ?_⟩
    simp only [mapStage]
    rw [h, h1]

theorem filter_channel (p : Params) (xs : List F64) (c : Channel) :
    ∃ fb, (mapStage (filterSample p) xs c).2 = { c with env2 := Envelope.advance^[xs.length] c.env2, fb := fb } := by
  induction xs generalizing c with
  | nil => exact ⟨c.fb, rfl⟩
  | cons x xs ih =>
    obtain ⟨fb, h⟩ := ih (filterSample p c x).2
    refine ⟨fb, ?_⟩
    simp only [mapStage]
    rw [h]
    rfl

/-- The stages after the carrier: both envelopes one step per sample, the filter's and the formant's own state, nothing
else (41_channel.md R285 to R290, 43_envelope.md R415). -/
theorem shapeChunk_channel (p : Params) (s : State) (k0 : Nat) (xs : List F64) (c : Channel) :
    (shapeChunk p s k0 xs c).1.length = xs.length ∧
      ∃ fb fm, (shapeChunk p s k0 xs c).2 = { c with
        env1 := Envelope.advance^[xs.length] c.env1, env2 := Envelope.advance^[xs.length] c.env2, fb := fb, fm := fm } := by
  simp only [shapeChunk]
  obtain ⟨fm, hfm⟩ := formant_channel p (ringStage s (mapStage (amplitudeSample p) xs c).2 k0
    (mapStage (amplitudeSample p) xs c).1) (mapStage (amplitudeSample p) xs c).2
  obtain ⟨fb, hfb⟩ := filter_channel p (mapStage (formantSample p) (ringStage s (mapStage (amplitudeSample p) xs c).2 k0
    (mapStage (amplitudeSample p) xs c).1) (mapStage (amplitudeSample p) xs c).2).1
    (mapStage (formantSample p) (ringStage s (mapStage (amplitudeSample p) xs c).2 k0
      (mapStage (amplitudeSample p) xs c).1) (mapStage (amplitudeSample p) xs c).2).2
  constructor
  · simp [mapStage_length, ringStage_length]
  · refine ⟨fb, fm, ?_⟩
    rw [hfb, hfm, amplitude_channel]
    simp [mapStage_length, ringStage_length]

/-! ### Output -/

/-- The buffers after a stretch of `n` output or silent samples from index `k`: what may differ, and that the form of the
buffers is kept. -/
structure BuffersWritten (p : Params) (c : Channel) (k n : Nat) (s t : State) : Prop where
  rest : t = { s with out := t.out, pipes := t.pipes, syncs := t.syncs }
  out : ∀ j, ¬(c.outMode = .mix ∧ k ≤ j / 2 ∧ j / 2 < k + n) → t.outAt j = s.outAt j
  pipe : ∀ i j, ¬(c.outMode ≠ .mix ∧ i = c.outPipe ∧ k ≤ j ∧ j < k + n) → t.pipeAt i j = s.pipeAt i j
  sync : ∀ i j, ¬(c.syncMode = .out ∧ i = c.syncPipe ∧ k ≤ j ∧ j < k + n) → t.syncAt i j = s.syncAt i j
  form : Memory.wf p s = true → k + n ≤ p.blockMax → Memory.wf p t = true

theorem BuffersWritten.refl (p : Params) (c : Channel) (k : Nat) (s : State) : BuffersWritten p c k 0 s s :=
  ⟨rfl, fun _ _ => rfl, fun _ _ _ => rfl, fun _ _ _ => rfl, fun h _ => h⟩

theorem BuffersWritten.trans {p : Params} {c : Channel} {k m n : Nat} {a b d : State} (h1 : BuffersWritten p c k m a b)
    (h2 : BuffersWritten p c (k + m) n b d) : BuffersWritten p c k (m + n) a d where
  rest := by
    have e1 := h1.rest
    have e2 := h2.rest
    rw [e1] at e2
    rw [e2]
  out j h := by
    rw [h2.out j (fun hh => h ⟨hh.1, by omega, by omega⟩), h1.out j (fun hh => h ⟨hh.1, by omega, by omega⟩)]
  pipe i j h := by
    rw [h2.pipe i j (fun hh => h ⟨hh.1, hh.2.1, by omega, by omega⟩),
      h1.pipe i j (fun hh => h ⟨hh.1, hh.2.1, by omega, by omega⟩)]
  sync i j h := by
    rw [h2.sync i j (fun hh => h ⟨hh.1, hh.2.1, by omega, by omega⟩),
      h1.sync i j (fun hh => h ⟨hh.1, hh.2.1, by omega, by omega⟩)]
  form hw hk := h2.form (h1.form hw (by omega)) (by omega)

/-- The canonical form of a state, field by field. -/
theorem memory_wf_iff (p : Params) (s : State) : Memory.wf p s = true ↔
    Cells.rising p.evmSize 0 s.evm = true ∧ Cells.rising p.dpcmSize 0 s.dpcm = true ∧
    Cells.wf 0#8 Config.waveSize s.wave = true ∧ Cells.wf F64.zero (2 * p.blockMax) s.out = true ∧
    (∀ i, Cells.wf F64.zero p.blockMax (s.pipes.get i) = true) ∧
    (∀ i, Cells.wf false p.blockMax (s.syncs.get i) = true) := by
  simp only [Memory.wf, Bool.and_eq_true, vector_all_iff, and_assoc]

theorem wf_setOut {p : Params} {s : State} (h : Memory.wf p s = true) {j : Nat} (hj : j < 2 * p.blockMax) (v : F64) :
    Memory.wf p (s.setOut j v) = true := by
  rw [memory_wf_iff] at h ⊢
  exact ⟨h.1, h.2.1, h.2.2.1, Cells.wf_put h.2.2.2.1 v hj, h.2.2.2.2.1, h.2.2.2.2.2⟩

theorem wf_setPipe {p : Params} {s : State} (h : Memory.wf p s = true) (i : Fin 3) {k : Nat} (hk : k < p.blockMax) (v : F64) :
    Memory.wf p (s.setPipe i k v) = true := by
  rw [memory_wf_iff] at h ⊢
  exact ⟨h.1, h.2.1, h.2.2.1, h.2.2.2.1,
    vset_forall (P := fun m => Cells.wf F64.zero p.blockMax m = true) (Cells.wf_put (h.2.2.2.2.1 i) v hk) h.2.2.2.2.1,
    h.2.2.2.2.2⟩

/-- Two changes inside the same stretch. -/
theorem BuffersWritten.both {p : Params} {c : Channel} {k n : Nat} {a b d : State} (h1 : BuffersWritten p c k n a b)
    (h2 : BuffersWritten p c k n b d) : BuffersWritten p c k n a d where
  rest := by
    have e1 := h1.rest
    have e2 := h2.rest
    rw [e1] at e2
    rw [e2]
  out j hj := by rw [h2.out j hj, h1.out j hj]
  pipe i j hj := by rw [h2.pipe i j hj, h1.pipe i j hj]
  sync i j hj := by rw [h2.sync i j hj, h1.sync i j hj]
  form hw hk := h2.form (h1.form hw hk) hk

theorem BuffersWritten.same (p : Params) (c : Channel) (k n : Nat) (s : State) : BuffersWritten p c k n s s :=
  ⟨rfl, fun _ _ => rfl, fun _ _ _ => rfl, fun _ _ _ => rfl, fun h _ => h⟩

theorem setOut_written {p : Params} {c : Channel} (hm : c.outMode = .mix) {k j : Nat} (hj : j / 2 = k) (v : F64) (s : State) :
    BuffersWritten p c k 1 s (s.setOut j v) where
  rest := rfl
  out i hi := outAt_setOut_other s v (fun e => hi ⟨hm, by omega, by omega⟩)
  pipe _ _ _ := rfl
  sync _ _ _ := rfl
  form hw hk := wf_setOut hw (by omega) v

theorem setPipe_written {p : Params} {c : Channel} (hm : c.outMode ≠ .mix) (k : Nat) (v : F64) (s : State) :
    BuffersWritten p c k 1 s (s.setPipe c.outPipe k v) where
  rest := rfl
  out _ _ := rfl
  pipe _ _ hj := pipeAt_setPipe_other _ _ _ _ (fun e => hj ⟨hm, e.1, by omega, by omega⟩)
  sync _ _ _ := rfl
  form hw hk := wf_setPipe hw _ (by omega) v

/-- One output sample (41_channel.md R291). -/
theorem outputSample_written (p : Params) (c : Channel) (k : Nat) (y : F64) (s : State) :
    BuffersWritten p c k 1 s (outputSample c k y s) := by
  unfold outputSample
  split
  · next hm => exact (setOut_written hm (by omega) _ _).both (setOut_written hm (by omega) _ _)
  · next hm => exact setPipe_written (by simp [hm]) _ _ _
  · next hm => exact setPipe_written (by simp [hm]) _ _ _

theorem outputStage_written (p : Params) (c : Channel) (k : Nat) (ys : List F64) (s : State) :
    BuffersWritten p c k ys.length s (outputStage c k ys s) := by
  induction ys generalizing k s with
  | nil => exact .refl p c k s
  | cons y ys ih =>
    have := (outputSample_written p c k y s).trans (ih (k + 1) (outputSample c k y s))
    rw [Nat.add_comm 1] at this
    exact this

/-- The output stage leaves the sync buffers alone. -/
theorem outputStage_syncs (c : Channel) (k : Nat) (ys : List F64) (s : State) : (outputStage c k ys s).syncs = s.syncs := by
  induction ys generalizing k s with
  | nil => rfl
  | cons y ys ih =>
    rw [outputStage, ih]
    unfold outputSample
    split <;> rfl

/-- The sync buffers of a state changed as a carrier or a silent chunk changes them. -/
theorem syncs_written {p : Params} {c : Channel} {k n : Nat} {s : State} {sy : Syncs} (h : SyncsMoved p c k n s.syncs sy) :
    BuffersWritten p c k n s { s with syncs := sy } where
  rest := rfl
  out _ _ := rfl
  pipe _ _ _ := rfl
  sync i j hh := h.frame i j hh
  form hw hk := by
    rw [memory_wf_iff] at hw ⊢
    exact ⟨hw.1, hw.2.1, hw.2.2.1, hw.2.2.2.1, hw.2.2.2.2.1, h.form hw.2.2.2.2.2 hk⟩

theorem silence_written (p : Params) (c : Channel) (n k : Nat) (s : State) : BuffersWritten p c k n s (silence c n k s) := by
  induction n generalizing k s with
  | zero => exact .refl p c k s
  | succ n ih =>
    unfold silence
    have hp : BuffersWritten p c k 1 s (if c.outMode = .overwrite then s.setPipe c.outPipe k F64.zero else s) := by
      split
      · next hm => exact setPipe_written (by simp [hm]) _ _ _
      · exact .same p c k 1 s
    simp only
    generalize (if c.outMode = .overwrite then s.setPipe c.outPipe k F64.zero else s) = s1 at hp ⊢
    have hs : BuffersWritten p c k 1 s1
        (if c.syncMode = .out then { s1 with syncs := setSync s1.syncs c.syncPipe k false } else s1) := by
      have h := syncs_written (s := s1) (setSync_moved p c k s1.syncs false)
      split
      · next hm => rw [if_pos hm] at h; exact h
      · exact .same p c k 1 s1
    generalize (if c.syncMode = .out then { s1 with syncs := setSync s1.syncs c.syncPipe k false } else s1) = s2 at hs ⊢
    have h2 := hp.both hs
    have := h2.trans (ih (k + 1) s2)
    rwa [Nat.add_comm 1] at this

/-- What a silent chunk leaves in every element of the pipes and sync buffers (41_channel.md R281). -/
theorem silence_buffers (p : Params) (c : Channel) (n k : Nat) (s : State) (hw : Memory.wf p s = true) (hk : k + n ≤ p.blockMax) :
   (∀ i j, (silence c n k s).pipeAt i j =
        if c.outMode = .overwrite ∧ i = c.outPipe ∧ k ≤ j ∧ j < k + n then F64.zero else s.pipeAt i j) ∧
      (∀ i j, (silence c n k s).syncAt i j =
        if c.syncMode = .out ∧ i = c.syncPipe ∧ k ≤ j ∧ j < k + n then false else s.syncAt i j) := by
  induction n generalizing k s with
  | zero =>
    refine ⟨fun i j => ?_, fun i j => ?_⟩
    · rw [if_neg (by omega)]; rfl
    · rw [if_neg (by omega)]; rfl
  | succ n ih =>
    unfold silence
    simp only
    have h1 : Memory.wf p (if c.outMode = .overwrite then s.setPipe c.outPipe k F64.zero else s) = true := by
      split
      · exact wf_setPipe hw _ (by omega) _
      · exact hw
    have e1 : ∀ i j, (if c.outMode = .overwrite then s.setPipe c.outPipe k F64.zero else s).pipeAt i j =
        if c.outMode = .overwrite ∧ i = c.outPipe ∧ j = k then F64.zero else s.pipeAt i j := by
      intro i j
      by_cases hm : c.outMode = .overwrite
      · rw [if_pos hm]
        have hrs := Cells.rising_of_wf (((memory_wf_iff p s).mp hw).2.2.2.2.1 c.outPipe)
        by_cases hj : i = c.outPipe ∧ j = k
        · obtain ⟨rfl, rfl⟩ := hj
          rw [if_pos ⟨hm, rfl, rfl⟩, pipeAt_setPipe hrs]; simp
        · rw [if_neg (fun hh => hj hh.2), pipeAt_setPipe_other _ _ _ _ hj]
      · rw [if_neg hm, if_neg (fun hh => hm hh.1)]
    have e2 : ∀ i j, (if c.outMode = .overwrite then s.setPipe c.outPipe k F64.zero else s).syncAt i j = s.syncAt i j := by
      intro i j; split <;> simp
    generalize (if c.outMode = .overwrite then s.setPipe c.outPipe k F64.zero else s) = s1 at *
    have hm := (setSync_moved p c k s1.syncs false)
    have h2 : Memory.wf p (if c.syncMode = .out then { s1 with syncs := setSync s1.syncs c.syncPipe k false } else s1) = true := by
      have h := syncs_written (s := s1) hm
      split
      · next hm => rw [if_pos hm] at h; exact h.form h1 (by omega)
      · exact h1
    have e3 : ∀ i j, (if c.syncMode = .out then { s1 with syncs := setSync s1.syncs c.syncPipe k false } else s1).syncAt i j =
        if c.syncMode = .out ∧ i = c.syncPipe ∧ j = k then false else s1.syncAt i j := by
      intro i j
      by_cases hm : c.syncMode = .out
      · rw [if_pos hm]
        have hrs := Cells.rising_of_wf (((memory_wf_iff p s1).mp h1).2.2.2.2.2 c.syncPipe)
        simp only [State.syncAt, setSync, vset_get]
        by_cases hp : i = c.syncPipe
        · subst hp
          simp only [if_true, Cells.get_put hrs, hm, true_and]
        · simp [hp]
      · rw [if_neg hm, if_neg (fun hh => hm hh.1)]
    have e4 : ∀ i j, (if c.syncMode = .out then { s1 with syncs := setSync s1.syncs c.syncPipe k false } else s1).pipeAt i j =
        s1.pipeAt i j := by
      intro i j; split <;> rfl
    generalize (if c.syncMode = .out then { s1 with syncs := setSync s1.syncs c.syncPipe k false } else s1) = s2 at *
    obtain ⟨i1, i2⟩ := ih (k+1) s2 h2 (by omega)
    refine ⟨fun i j => ?_, fun i j => ?_⟩
    · rw [i1, e4, e1]
      by_cases a : c.outMode = .overwrite ∧ i = c.outPipe
      · simp only [a.1, a.2, true_and]
        split
        · next h => rw [if_pos (by omega)]
        · split
          · rw [if_pos (by omega)]
          · rw [if_neg (by omega)]
      · rw [if_neg (fun h => a ⟨h.1, h.2.1⟩), if_neg (fun h => a ⟨h.1, h.2.1⟩), if_neg (fun h => a ⟨h.1, h.2.1⟩)]
    · rw [i2, e3, e2]
      by_cases a : c.syncMode = .out ∧ i = c.syncPipe
      · simp only [a.1, a.2, true_and]
        split
        · next h => rw [if_pos (by omega)]
        · split
          · rw [if_pos (by omega)]
          · rw [if_neg (by omega)]
      · rw [if_neg (fun h => a ⟨h.1, h.2.1⟩), if_neg (fun h => a ⟨h.1, h.2.1⟩), if_neg (fun h => a ⟨h.1, h.2.1⟩)]

/-! ### The filter's cutoff -/

/-- The filter is modulated exactly when its amount is not 0 (44_filter.md R441: the field is integer). -/
theorem filterModulated_iff (ch : Channel) : filterModulated ch = true ↔ ch.famt ≠ 0#32 := by
  rw [filterModulated, F64.abs_ofInt]
  by_cases h : ch.famt = 0#32
  · rw [h]
    exact iff_of_false (by decide +kernel) (fun hh => hh rfl)
  · refine iff_of_true ?_ h
    have h0 : ch.famt.toInt ≠ 0 := fun e => h (BitVec.eq_of_toInt_eq e)
    have hb : ch.famt.toInt.natAbs < 2 ^ 53 := by
      have := BitVec.toInt_lt (x := ch.famt)
      have := BitVec.le_toInt (x := ch.famt)
      omega
    exact F64.le_trans (b := F64.ofNat 1) (by decide +kernel) ((F64.ofNat_le (by norm_num) hb).mpr (by omega))

/-! ### The chunk -/

/-- What the Channel is after a chunk of `n` samples that it played. -/
structure ChannelPlayed (p : Params) (n : Nat) (c c' : Channel) : Prop where
  osc1 : OscMoved p c.osc1 c'.osc1
  osc2 : OscMoved p c.osc2 c'.osc2
  rest : c' = { c with
    osc1 := c'.osc1, osc2 := c'.osc2, oncount := c.oncount + BitVec.ofNat 64 n
    env1 := Envelope.advance^[n] c.env1, env2 := Envelope.advance^[n] c.env2, fb := c'.fb, fm := c'.fm }
  lfoIdle : c.inSens.isZero = false → c'.osc2 = c.osc2

/-- What a chunk does (41_channel.md R280, R281): the Channel untouched when its amplitude envelope does not play, else
moved by `len` samples; and only the buffers the Channel is routed to written, only inside the chunk. -/
structure ChunkDone (p : Params) (k0 len : Nat) (s t : State) : Prop where
  silent : s.ch.env1.playing = false → t.tracks = s.tracks
  played : s.ch.env1.playing = true → t.tracks = vset s.tracks s.engine.track t.tr ∧ t.tr = { s.tr with ch := t.tr.ch } ∧
    ChannelPlayed p len s.ch t.tr.ch
  rest : t = { s with out := t.out, pipes := t.pipes, syncs := t.syncs, tracks := t.tracks }
  out : ∀ j, ¬(s.ch.outMode = .mix ∧ k0 ≤ j / 2 ∧ j / 2 < k0 + len) → t.outAt j = s.outAt j
  pipe : ∀ i j, ¬(s.ch.outMode ≠ .mix ∧ i = s.ch.outPipe ∧ k0 ≤ j ∧ j < k0 + len) → t.pipeAt i j = s.pipeAt i j
  sync : ∀ i j, ¬(s.ch.syncMode = .out ∧ i = s.ch.syncPipe ∧ k0 ≤ j ∧ j < k0 + len) → t.syncAt i j = s.syncAt i j
  form : Memory.wf p s = true → k0 + len ≤ p.blockMax → Memory.wf p t = true

/-- A playing chunk, with its stages named (41_channel.md R280). -/
theorem channelRender_played (p : Params) (k0 len : Nat) {s : State} (h : s.ch.env1.playing = true) :
    channelRender p k0 len s =
      match carrier p s k0 len s.ch with
      | .error f => .error f
      | .ok r => .ok (outputStage (shapeChunk p s k0 r.1 r.2.1).2 k0 (shapeChunk p s k0 r.1 r.2.1).1
          (({ s with syncs := r.2.2 } : State).setTr { s.tr with ch := (shapeChunk p s k0 r.1 r.2.1).2 })) := by
  rw [channelRender, h, if_neg (by decide)]
  cases carrier p s k0 len s.ch <;> rfl

/-- A silent chunk (41_channel.md R281). -/
theorem channelRender_silent (p : Params) (k0 len : Nat) {s : State} (h : s.ch.env1.playing = false) :
    channelRender p k0 len s = .ok (silence s.ch len k0 s) := by
  rw [channelRender, h]
  rfl

theorem channelRender_ok {p : Params} (hp : 0 < p.lfoBatch) {k0 len : Nat} {s t : State}
    (h : channelRender p k0 len s = .ok t) : ChunkDone p k0 len s t := by
  cases hpl : s.ch.env1.playing
  · rw [channelRender_silent p k0 len hpl] at h
    cases h
    have hw := silence_written p s.ch len k0 s
    have hr := hw.rest
    refine ⟨fun _ => by rw [hr], fun hp => absurd (hpl.symm.trans hp) (by decide), ?_, hw.out, hw.pipe, hw.sync, hw.form⟩
    generalize silence s.ch len k0 s = u at hr
    rw [hr]
  · rw [channelRender_played p k0 len hpl] at h
    cases h1 : carrier p s k0 len s.ch with
    | error f => rw [h1] at h; cases h
    | ok v =>
      obtain ⟨ys, c1, sy1⟩ := v
      rw [h1] at h
      have h := (Except.ok.inj h).symm
      subst h
      simp only
      have hd := carrier_ok hp h1
      have hc := hd.channel.rest
      obtain ⟨hlen, fb, fm, hch⟩ := shapeChunk_channel p s k0 ys c1
      have hys := hd.length
      have hsy := syncs_written hd.syncs
      have hmodes : (shapeChunk p s k0 ys c1).2.outMode = s.ch.outMode ∧ (shapeChunk p s k0 ys c1).2.outPipe = s.ch.outPipe ∧
          (shapeChunk p s k0 ys c1).2.syncMode = s.ch.syncMode ∧ (shapeChunk p s k0 ys c1).2.syncPipe = s.ch.syncPipe := by
        rw [hch, hc]
        exact ⟨rfl, rfl, rfl, rfl⟩
      obtain ⟨m1, m2, m3, m4⟩ := hmodes
      have hplayed : ChannelPlayed p len s.ch (shapeChunk p s k0 ys c1).2 := by
        have o1 := hd.channel.osc1
        have o2 := hd.channel.osc2
        have ho2 (hfm : s.ch.inSens.isZero = false) : c1.osc2 = s.ch.osc2 := carrier_fm_osc2 hfm h1
        rw [hch]
        refine ⟨o1, o2, ?_, ho2⟩
        rw [hc, hys]
      generalize shapeChunk p s k0 ys c1 = r at hlen hch m1 m2 m3 m4 hplayed ⊢
      have hw := outputStage_written p r.2 k0 r.1 (({ s with syncs := sy1 } : State).setTr { s.tr with ch := r.2 })
      rw [hlen, hys] at hw
      have hrest := hw.rest
      have ho := hw.out
      have hpi := hw.pipe
      have hs := hw.sync
      have hf := hw.form
      rw [m1] at ho
      rw [m1, m2] at hpi
      rw [m3, m4] at hs
      generalize outputStage r.2 k0 r.1 (({ s with syncs := sy1 } : State).setTr { s.tr with ch := r.2 }) = u at *
      have htr : u.tracks = vset s.tracks s.engine.track { s.tr with ch := r.2 } := by rw [hrest]; rfl
      have hengine : u.engine = s.engine := by rw [hrest]; rfl
      have hutr : u.tr = { s.tr with ch := r.2 } := by
        rw [State.tr, htr, hengine, vset_get_same]
      refine ⟨fun hf => absurd (hpl.symm.trans hf) (by decide),
        fun _ => ⟨by rw [htr, hutr], by rw [hutr], by rw [hutr]; exact hplayed⟩, ?_,
        fun j hj => ho j hj, fun i j hj => hpi i j hj, fun i j hj => ?_, fun hwf hk => ?_⟩
      · rw [hrest]
        rfl
      · rw [hs i j hj]
        exact hsy.sync i j hj
      · apply hf _ hk
        have := hsy.form hwf hk
        rw [memory_wf_iff] at this ⊢
        exact this

theorem channelRender_error {p : Params} {k0 len : Nat} {s : State} {f : Fault} (h : channelRender p k0 len s = .error f) :
    f = .dpcmRead ∧ (DpcmUnreadable p s s.ch.osc1 ∨ DpcmUnreadable p s s.ch.osc2) := by
  cases hpl : s.ch.env1.playing
  · rw [channelRender_silent p k0 len hpl] at h
    cases h
  · rw [channelRender_played p k0 len hpl] at h
    cases h1 : carrier p s k0 len s.ch with
    | error g => rw [h1] at h; cases h; exact carrier_error h1
    | ok v => rw [h1] at h; cases h

end Sys2Proof.Machine
end

