-- ==== Sys2Proof/Laws/Bus.lean ====
section
/-! SUPPORT. The commands and the host's accesses: where a space lies, what a byte written reads as, and that every
command and every access keeps the canonical form of the memories. -/

namespace Sys2Proof.Machine

/-! ### Where an address lies -/

/-- The spaces of 20_memory.md R101, with the offset in bounds. -/
theorem locate_some {p : Params} {a : Nat} {sp : Space} {off : Nat} (h : locate p a = some (sp, off)) :
    (sp = .reg ∧ a = off ∧ off < 0x1000) ∨ (sp = .wave ∧ a = 0x1000 + off ∧ off < Config.waveSize) ∨
    (sp = .out ∧ a = 0x10000 + off ∧ off < 16 * p.blockMax) ∨ (sp = .dpcm ∧ a = 0x100000 + off ∧ off < p.dpcmSize) ∨
    (sp = .evm ∧ a = 0x1000000 + off ∧ off < p.evmSize) := by
  simp only [locate] at h
  split at h
  · cases h; exact Or.inl ⟨rfl, rfl, by assumption⟩
  · split at h
    · cases h; exact Or.inr (Or.inl ⟨rfl, by omega, by omega⟩)
    · split at h
      · cases h; exact Or.inr (Or.inr (Or.inl ⟨rfl, by omega, by omega⟩))
      · split at h
        · cases h; exact Or.inr (Or.inr (Or.inr (Or.inl ⟨rfl, by omega, by omega⟩)))
        · split at h
          · cases h; exact Or.inr (Or.inr (Or.inr (Or.inr ⟨rfl, by omega, by omega⟩)))
          · cases h

theorem writeTarget_some {p : Params} {addr : Word} {w : Width} {sp : Space} {off : Nat} (h : writeTarget p addr w = some (sp, off)) :
    locate p addr.toNat = some (sp, off) ∧ addr.toNat % w.bytes = 0 ∧ sp.writable w = true := by
  unfold writeTarget at h
  split at h
  · next sp' off' hl =>
    split at h
    · next hc =>
      cases h
      simp only [Bool.and_eq_true, aligned, beq_iff_eq] at hc
      exact ⟨hl, hc.1, hc.2⟩
    · cases h
  · cases h

theorem readTarget_some {p : Params} {addr : Word} {w : Width} {sp : Space} {off : Nat} (h : readTarget p addr w = some (sp, off)) :
    locate p addr.toNat = some (sp, off) ∧ addr.toNat % w.bytes = 0 ∧ sp.readable w = true := by
  unfold readTarget at h
  split at h
  · next sp' off' hl =>
    split at h
    · next hc =>
      cases h
      simp only [Bool.and_eq_true, aligned, beq_iff_eq] at hc
      exact ⟨hl, hc.1, hc.2⟩
    · cases h
  · cases h

/-- A write that is performed to a memory of whole words stays inside it. -/
theorem writeTarget_fits {p : Params} (hp : p.dpcmSize % 4 = 0 ∧ p.evmSize % 4 = 0) {addr : Word} {w : Width} {sp : Space}
    {off : Nat} (h : writeTarget p addr w = some (sp, off)) :
    sp ≠ .out ∧ (sp = .wave → off + w.bytes ≤ Config.waveSize) ∧ (sp = .dpcm → off + w.bytes ≤ p.dpcmSize) ∧
      (sp = .evm → off + w.bytes ≤ p.evmSize) := by
  obtain ⟨hl, ha, hw⟩ := writeTarget_some h
  have hs := locate_some hl
  rcases hs with ⟨rfl, _, _⟩ | ⟨rfl, e, hlt⟩ | ⟨rfl, _, _⟩ | ⟨rfl, e, hlt⟩ | ⟨rfl, e, hlt⟩
  · exact ⟨by decide, nofun, nofun, nofun⟩
  · refine ⟨by decide, fun _ => ?_, nofun, nofun⟩
    simp only [Config.waveSize] at *
    cases w <;> simp only [Width.bytes] at * <;> omega
  · cases hw
  · refine ⟨by decide, nofun, fun _ => ?_, nofun⟩
    have h4 := hp.1
    cases w <;> first | exact absurd hw (by decide) | (simp only [Width.bytes] at *; omega)
  · refine ⟨by decide, nofun, nofun, fun _ => ?_⟩
    have h4 := hp.2
    cases w <;> first | exact absurd hw (by decide) | (simp only [Width.bytes] at *; omega)

/-! ### Commands -/

theorem Memory.wf_of_same {p : Params} {s t : State} (h : Memory.wf p s = true) (h1 : t.evm = s.evm) (h2 : t.dpcm = s.dpcm)
    (h3 : t.wave = s.wave) (h4 : t.out = s.out) (h5 : t.pipes = s.pipes) (h6 : t.syncs = s.syncs) : Memory.wf p t = true := by
  simp only [Memory.wf, h1, h2, h3, h4, h5, h6] at *
  exact h

theorem Memory.wf_reset (p : Params) : Memory.wf p State.reset = true := by
  rw [memory_wf_iff]
  refine ⟨rfl, rfl, rfl, rfl, fun i => ?_, fun i => ?_⟩
  · rw [State.reset, replicate_get]; rfl
  · rw [State.reset, replicate_get]; rfl

theorem Memory.wf_clearPipes {p : Params} {s : State} (h : Memory.wf p s = true) : Memory.wf p s.clearPipes = true := by
  rw [memory_wf_iff] at h ⊢
  refine ⟨h.1, h.2.1, h.2.2.1, h.2.2.2.1, fun i => ?_, fun i => ?_⟩
  · rw [clearPipes_pipes, replicate_get]; rfl
  · rw [clearPipes_syncs, replicate_get]; rfl

theorem Memory.wf_resetCommand {p : Params} {s : State} (h : Memory.wf p s = true) : Memory.wf p s.resetCommand = true := by
  rw [memory_wf_iff] at h ⊢
  have hr := (memory_wf_iff p State.reset).mp (Memory.wf_reset p)
  exact ⟨h.1, h.2.1, h.2.2.1, hr.2.2.2⟩

theorem Memory.wf_startCommand {p : Params} {s : State} (h : Memory.wf p s = true) : Memory.wf p s.startCommand = true := by
  unfold State.startCommand
  split
  · exact h
  · exact Memory.wf_of_same (Memory.wf_clearPipes h) rfl rfl rfl rfl rfl rfl

theorem Memory.wf_renderCommand {p : Params} {s : State} (h : Memory.wf p s = true) : Memory.wf p s.renderCommand = true := by
  unfold State.renderCommand
  split
  · exact h
  · have := (memory_wf_iff p _).mp (Memory.wf_clearPipes h)
    rw [memory_wf_iff]
    exact ⟨this.1, this.2.1, this.2.2.1, rfl, this.2.2.2.2⟩

theorem Memory.wf_ctrlWrite {p : Params} {s : State} (h : Memory.wf p s = true) (v : Word) : Memory.wf p (s.ctrlWrite v) = true := by
  unfold State.ctrlWrite
  split
  · exact Memory.wf_resetCommand h
  · simp only
    have h1 : Memory.wf p (if v.getLsbD 2 then s.stopCommand else s) = true := by
      split
      · exact h
      · exact h
    generalize (if v.getLsbD 2 then s.stopCommand else s) = s1 at h1
    have h2 : Memory.wf p (if v.getLsbD 0 then s1.startCommand else s1) = true := by
      split
      · exact Memory.wf_startCommand h1
      · exact h1
    generalize (if v.getLsbD 0 then s1.startCommand else s1) = s2 at h2
    split
    · exact Memory.wf_renderCommand h2
    · exact h2

theorem Memory.wf_writeReg {p : Params} {s : State} (h : Memory.wf p s = true) (r : Reg) (v : Word) : Memory.wf p (writeReg p s r v) = true := by
  have hg {f : State → State} (hf : Memory.wf p (f s) = true) : Memory.wf p (s.guardRunning f) = true := by
    unfold State.guardRunning
    split
    · exact h
    · exact hf
  cases r
  case ctrl => exact Memory.wf_ctrlWrite h v
  case ntracks => exact hg h
  case trkBase t => exact hg h
  case trkLen t => exact hg h
  all_goals exact h

/-! ### Memories -/

/-- A memory byte as the model reads it, in a memory that holds bytes. -/
def memByte (s : State) : Space → Nat → Option Byte
  | .wave, a => some (s.waveByte a)
  | .dpcm, a => s.dpcmByte a
  | .evm, a => s.evmByte a
  | .reg, _ => none
  | .out, _ => none

/-- The size of a memory. -/
def Space.size (p : Params) : Space → Nat
  | .wave => Config.waveSize
  | .dpcm => p.dpcmSize
  | .evm => p.evmSize
  | .reg => 0
  | .out => 0

theorem Memory.wf_putByte {p : Params} {s : State} (h : Memory.wf p s = true) {sp : Space} {a : Nat} (ha : a < sp.size p) (b : Byte) :
    Memory.wf p (putByte s sp a b) = true := by
  rw [memory_wf_iff] at h
  cases sp
  · exact absurd ha (Nat.not_lt_zero _)
  · rw [memory_wf_iff]; exact ⟨h.1, h.2.1, Cells.wf_put h.2.2.1 b ha, h.2.2.2⟩
  · exact absurd ha (Nat.not_lt_zero _)
  · rw [memory_wf_iff]; exact ⟨h.1, Cells.rising_insert h.2.1 b (Nat.zero_le a) ha, h.2.2⟩
  · rw [memory_wf_iff]; exact ⟨Cells.rising_insert h.1 b (Nat.zero_le a) ha, h.2⟩

theorem Memory.wf_putBytes {p : Params} {s : State} (h : Memory.wf p s = true) {sp : Space} {a : Nat} {bs : List Byte}
    (ha : a + bs.length ≤ sp.size p) : Memory.wf p (putBytes s sp a bs) = true := by
  induction bs generalizing s a with
  | nil => exact h
  | cons b bs ih =>
    simp only [List.length_cons] at ha
    exact ih (Memory.wf_putByte h (by omega) b) (by omega)

/-- A byte written reads back; every other byte of every memory reads as before. -/
theorem memByte_putByte {p : Params} {s : State} (h : Memory.wf p s = true) {sp : Space} {a : Nat} (ha : a < sp.size p) (b : Byte)
    (sp' : Space) (a' : Nat) :
    memByte (putByte s sp a b) sp' a' = if sp' = sp ∧ a' = a then some b else memByte s sp' a' := by
  have hw := (memory_wf_iff p s).mp h
  have hwave := Cells.rising_of_wf hw.2.2.1
  cases sp
  · exact absurd ha (Nat.not_lt_zero _)
  · cases sp' <;> try rfl
    simp only [memByte, State.waveByte, putByte, Cells.get_put hwave, true_and]
    split <;> rfl
  · exact absurd ha (Nat.not_lt_zero _)
  · cases sp' <;> try rfl
    simp only [memByte, State.dpcmByte, putByte, Cells.lookup_insert, true_and]
    by_cases e : a' = a
    · subst e; simp
    · simp [e, Ne.symm e]
  · cases sp' <;> try rfl
    simp only [memByte, State.evmByte, putByte, Cells.lookup_insert, true_and]
    by_cases e : a' = a
    · subst e; simp
    · simp [e, Ne.symm e]

/-- Bytes written read back; every other byte of every memory reads as before. -/
theorem memByte_putBytes {p : Params} {s : State} (h : Memory.wf p s = true) {sp : Space} {a : Nat} {bs : List Byte}
    (ha : a + bs.length ≤ sp.size p) (sp' : Space) (a' : Nat) :
    memByte (putBytes s sp a bs) sp' a' =
      if sp' = sp ∧ a ≤ a' ∧ a' < a + bs.length then bs[a' - a]? else memByte s sp' a' := by
  induction bs generalizing s a with
  | nil => simp only [putBytes, List.length_nil]; rw [if_neg (by omega)]
  | cons b bs ih =>
    simp only [List.length_cons] at ha ⊢
    have hlt : a < sp.size p := by omega
    rw [putBytes, ih (Memory.wf_putByte h hlt b) (by omega), memByte_putByte h hlt b]
    by_cases hsp : sp' = sp
    · by_cases h1 : a' = a
      · subst h1
        rw [if_neg (by omega), if_pos ⟨hsp, rfl⟩, if_pos ⟨hsp, by omega, by omega⟩]
        simp
      · by_cases h2 : a + 1 ≤ a' ∧ a' < a + 1 + bs.length
        · rw [if_pos ⟨hsp, h2.1, h2.2⟩, if_pos ⟨hsp, by omega, by omega⟩, show a' - a = (a' - (a + 1)) + 1 by omega,
            List.getElem?_cons_succ]
        · rw [if_neg (fun hh => h2 hh.2), if_neg (fun hh => h1 hh.2), if_neg (fun hh => h2 ⟨by omega, by omega⟩)]
    · rw [if_neg (fun hh => hsp hh.1), if_neg (fun hh => hsp hh.1), if_neg (fun hh => hsp hh.1)]

theorem leBytes_length (n v : Nat) : (leBytes n v).length = n := by
  induction n generalizing v with
  | zero => rfl
  | succ n ih => simp [leBytes, ih]

/-- Little-endian assembly of little-endian bytes. -/
theorem leNat_leBytes (n v : Nat) : leNat (leBytes n v) = v % 256 ^ n := by
  induction n generalizing v with
  | zero => simp [leBytes, leNat, Nat.mod_one]
  | succ n ih =>
    simp only [leBytes, leNat, ih, BitVec.toNat_ofNat]
    rw [show 256 ^ (n + 1) = 256 * 256 ^ n by rw [pow_succ, Nat.mul_comm], Nat.mod_mul]

theorem leNat_lt (bs : List Byte) : leNat bs < 256 ^ bs.length := by
  induction bs with
  | nil => simp [leNat]
  | cons b bs ih =>
    have := b.isLt
    simp only [leNat, List.length_cons, pow_succ]
    omega

theorem leBytes_leNat (bs : List Byte) : leBytes bs.length (leNat bs) = bs := by
  induction bs with
  | nil => rfl
  | cons b bs ih =>
    have hb := b.isLt
    simp only [leNat, List.length_cons, leBytes]
    have h1 : (b.toNat + 256 * leNat bs) / 256 = leNat bs := by omega
    rw [h1, ih]
    congr 1
    apply BitVec.eq_of_toNat_eq
    simp only [BitVec.toNat_ofNat]
    omega

/-- Every host access keeps the canonical form. -/
theorem Memory.wf_hostWrite {p : Params} (hp : p.dpcmSize % 4 = 0 ∧ p.evmSize % 4 = 0) {s : State} (h : Memory.wf p s = true) (addr : Word) (w : Width) (data : BitVec 64) :
    Memory.wf p (hostWrite p addr w data s) = true := by
  unfold hostWrite
  split
  · exact Memory.wf_writeReg h _ _
  · next sp off hne ht =>
    obtain ⟨h1, h2, h3, h4⟩ := writeTarget_fits hp ht
    apply Memory.wf_putBytes h
    rw [leBytes_length]
    cases sp
    · exact (hne rfl).elim
    · exact h2 rfl
    · exact absurd rfl h1
    · exact h3 rfl
    · exact h4 rfl
  · exact h

theorem hostRead_state (p : Params) (addr : Word) (w : Width) (s : State) :
    (hostRead p addr w s).2 = s ∨ (hostRead p addr w s).2 = s.flagBuserr := by
  unfold hostRead
  split
  · exact Or.inl rfl
  · exact Or.inl rfl
  · exact Or.inr rfl

theorem Memory.wf_hostAccess {p : Params} (hp : p.dpcmSize % 4 = 0 ∧ p.evmSize % 4 = 0) {s : State}
    (h : Memory.wf p s = true) (a : Access) : Memory.wf p (hostAccess p s a) = true := by
  cases a with
  | read addr w =>
    simp only [hostAccess]
    rcases hostRead_state p addr w s with e | e <;> rw [e] <;> exact h
  | write addr w data => exact Memory.wf_hostWrite hp h addr w data

/-! ### Which accesses are performed -/

theorem widthBytes_eq (w : Width) : widthBytes w = w.bytes := by cases w <;> rfl

/-- The block performs exactly the reads of 20_memory.md R101 and R105. -/
theorem readTarget_iff {p : Params} (hp : LegalParams p) (addr : Word) (w : Width) :
    ReadPerformed p addr w ↔ ∃ x, readTarget p addr w = some x := by
  obtain ⟨_, ho, hd, he, _, _, _, _, _⟩ := hp
  unfold ReadPerformed InWritableMemory readTarget locate aligned
  rw [widthBytes_eq]
  generalize addr.toNat = a
  by_cases h1 : a < 0x1000
  · rw [if_pos h1]; cases w <;> simp [Width.bytes, Space.readable] <;> omega
  rw [if_neg h1]
  by_cases h2 : 0x1000 ≤ a ∧ a < 0x1000 + Config.waveSize
  · rw [if_pos h2]; simp only [Config.waveSize] at h2; cases w <;> simp [Width.bytes, Space.readable] <;> omega
  rw [if_neg h2]
  by_cases h3 : 0x10000 ≤ a ∧ a < 0x10000 + 16 * p.blockMax
  · rw [if_pos h3]
    cases w <;> simp [Width.bytes, Space.readable] <;> omega
  rw [if_neg h3]
  by_cases h4 : 0x100000 ≤ a ∧ a < 0x100000 + p.dpcmSize
  · rw [if_pos h4]; cases w <;> simp [Width.bytes, Space.readable] <;> omega
  rw [if_neg h4]
  by_cases h5 : 0x1000000 ≤ a ∧ a < 0x1000000 + p.evmSize
  · rw [if_pos h5]; cases w <;> simp [Width.bytes, Space.readable] <;> omega
  rw [if_neg h5]
  simp only [Config.waveSize] at *
  cases w <;> simp [Width.bytes] <;> omega

/-- The block performs exactly the writes of R101 and R105. -/
theorem writeTarget_iff {p : Params} (hp : LegalParams p) (addr : Word) (w : Width) :
    WritePerformed p addr w ↔ ∃ x, writeTarget p addr w = some x := by
  obtain ⟨_, ho, hd, he, _, _, _, _, _⟩ := hp
  unfold WritePerformed InWritableMemory writeTarget locate aligned
  rw [widthBytes_eq]
  generalize addr.toNat = a
  by_cases h1 : a < 0x1000
  · rw [if_pos h1]; cases w <;> simp [Width.bytes, Space.writable] <;> omega
  rw [if_neg h1]
  by_cases h2 : 0x1000 ≤ a ∧ a < 0x1000 + Config.waveSize
  · rw [if_pos h2]; simp only [Config.waveSize] at h2; cases w <;> simp [Width.bytes, Space.writable] <;> omega
  rw [if_neg h2]
  by_cases h3 : 0x10000 ≤ a ∧ a < 0x10000 + 16 * p.blockMax
  · rw [if_pos h3]
    cases w <;> simp [Width.bytes, Space.writable] <;> omega
  rw [if_neg h3]
  by_cases h4 : 0x100000 ≤ a ∧ a < 0x100000 + p.dpcmSize
  · rw [if_pos h4]; cases w <;> simp [Width.bytes, Space.writable] <;> omega
  rw [if_neg h4]
  by_cases h5 : 0x1000000 ≤ a ∧ a < 0x1000000 + p.evmSize
  · rw [if_pos h5]; cases w <;> simp [Width.bytes, Space.writable] <;> omega
  rw [if_neg h5]
  simp only [Config.waveSize] at *
  cases w <;> simp [Width.bytes] <;> omega

/-- An aligned word access to the register file is performed. -/
theorem target_register (p : Params) {off : Nat} (h : off < 0x1000) (h4 : off % 4 = 0) :
    readTarget p (BitVec.ofNat 32 off) .w4 = some (.reg, off) ∧
    writeTarget p (BitVec.ofNat 32 off) .w4 = some (.reg, off) := by
  have e : (BitVec.ofNat 32 off).toNat = off := by simp; omega
  simp [readTarget, writeTarget, e, locate, h, aligned, Width.bytes, h4, Space.readable, Space.writable]

theorem hostRead_register (p : Params) {off : Nat} (s : State) (h : off < 0x1000) (h4 : off % 4 = 0) :
    hostRead p (BitVec.ofNat 32 off) .w4 s = ((readReg s (regAt p off)).setWidth 64, s) := by
  simp [hostRead, target_register p h h4]

theorem hostWrite_register (p : Params) {off : Nat} (data : BitVec 64) (s : State) (h : off < 0x1000) (h4 : off % 4 = 0) :
    hostWrite p (BitVec.ofNat 32 off) .w4 data s = writeReg p s (regAt p off) (data.setWidth 32) := by
  simp [hostWrite, target_register p h h4]

/-! ### Which register an offset is -/

/-- The two rows of a track that the block has. -/
theorem trackReg_row {p : Params} (first second : Fin 64 → Reg) {b : Nat} {t : Fin 64} (h : b / 8 = t)
    (hp : t.val < p.ntrackMax) :
    trackReg p first second b = if b % 8 = 0 then first t else if b % 8 = 4 then second t else .reserved := by
  have ht : ∀ q, (⟨b / 8 % 64, q⟩ : Fin 64) = t := fun _ => Fin.ext (by simp only; omega)
  unfold trackReg
  simp only [ht]
  rw [if_neg (by omega)]

/-- The rows of a DPCM slot that the block has. -/
theorem slotReg_row {p : Params} {b : Nat} {i : Fin 16} (h : b / 16 = i) (hp : i.val < p.ndpcm) :
    slotReg p b = if b % 16 = 0 then .dpcmBase i else if b % 16 = 4 then .dpcmBits i
      else if b % 16 = 8 then .dpcmCfg i else .reserved := by
  have hi : ∀ q, (⟨b / 16 % 16, q⟩ : Fin 16) = i := fun _ => Fin.ext (by simp only; omega)
  unfold slotReg
  simp only [hi]
  rw [if_neg (by omega)]

/-- The offsets of TRK_BASE and TRK_LEN. -/
theorem regAt_logs {p : Params} {off : Nat} (h : 0x100 ≤ off) (h' : off < 0x300) :
    regAt p off = trackReg p .trkBase .trkLen (off - 0x100) := by
  rw [regAt, if_neg (by omega), if_neg (by omega), if_pos h']

/-- The offsets of the DPCM slots. -/
theorem regAt_slots {p : Params} {off : Nat} (h : 0x300 ≤ off) (h' : off < 0x400) :
    regAt p off = slotReg p (off - 0x300) := by
  rw [regAt, if_neg (by omega), if_neg (by omega), if_neg (by omega), if_pos h']

/-- The offsets of TRK_CURSOR and TRK_STAT. -/
theorem regAt_views {p : Params} {off : Nat} (h : 0x400 ≤ off) (h' : off < 0x600) :
    regAt p off = trackReg p .trkCursor .trkStat (off - 0x400) := by
  rw [regAt, if_neg (by omega), if_neg (by omega), if_neg (by omega), if_neg (by omega), if_pos h']

theorem regAt_trkBase {p : Params} {t : Fin 64} (h : t.val < p.ntrackMax) : regAt p (0x100 + 8 * t) = .trkBase t := by
  rw [regAt_logs (by omega) (by omega), trackReg_row _ _ (by omega) h, if_pos (by omega)]
theorem regAt_trkLen {p : Params} {t : Fin 64} (h : t.val < p.ntrackMax) : regAt p (0x104 + 8 * t) = .trkLen t := by
  rw [regAt_logs (by omega) (by omega), trackReg_row _ _ (by omega) h, if_neg (by omega), if_pos (by omega)]
theorem regAt_trkCursor {p : Params} {t : Fin 64} (h : t.val < p.ntrackMax) : regAt p (0x400 + 8 * t) = .trkCursor t := by
  rw [regAt_views (by omega) (by omega), trackReg_row _ _ (by omega) h, if_pos (by omega)]
theorem regAt_trkStat {p : Params} {t : Fin 64} (h : t.val < p.ntrackMax) : regAt p (0x404 + 8 * t) = .trkStat t := by
  rw [regAt_views (by omega) (by omega), trackReg_row _ _ (by omega) h, if_neg (by omega), if_pos (by omega)]
theorem regAt_dpcmBase {p : Params} {i : Fin 16} (h : i.val < p.ndpcm) : regAt p (0x300 + 16 * i) = .dpcmBase i := by
  rw [regAt_slots (by omega) (by omega), slotReg_row (by omega) h, if_pos (by omega)]
theorem regAt_dpcmBits {p : Params} {i : Fin 16} (h : i.val < p.ndpcm) : regAt p (0x304 + 16 * i) = .dpcmBits i := by
  rw [regAt_slots (by omega) (by omega), slotReg_row (by omega) h, if_neg (by omega), if_pos (by omega)]
theorem regAt_dpcmCfg {p : Params} {i : Fin 16} (h : i.val < p.ndpcm) : regAt p (0x308 + 16 * i) = .dpcmCfg i := by
  rw [regAt_slots (by omega) (by omega), slotReg_row (by omega) h]
  simp only [(by omega : (0x308 + 16 * i.val - 0x300) % 16 = 8)]
  rfl

/-- An offset that the table of 10_state.md R31 names for no register is reserved. -/
theorem regAt_reserved {p : Params} {off : Nat} (h0 : 0x18 ≤ off) (h1 : 0x100 ≤ off → 0x600 ≤ off) :
    regAt p off = .reserved := by
  unfold regAt
  split
  · omega
  · split
    · rfl
    · have h := h1 (by omega)
      rw [if_neg (by omega), if_neg (by omega), if_neg (Nat.not_lt.mpr h)]

/-- The fourth word of each DPCM slot is reserved (R31), of those the block does not have too. -/
theorem regAt_slotGap {p : Params} (i : Fin 16) : regAt p (0x30C + 16 * i) = .reserved := by
  rw [regAt_slots (by omega) (by omega)]
  unfold slotReg
  simp only [(by omega : (0x30C + 16 * i.val - 0x300) % 16 = 12)]
  split <;> rfl

/-! ### Everything a host access can do -/

/-- What a write to CTRL that is not a RESET does to the registers, the tracks, the engine and STATUS (10_state.md R32,
R35, 40_track_dispatch.md R200, R201). -/
structure CtrlEffect (s t : State) : Prop where
  registers : SameRegisters s t
  tracks : t.tracks = s.tracks ∨ t.tracks = Vector.replicate 64 Track.reset
  engine : t.engine = s.engine ∨
    t.engine = { busy := true, track := 0, pos := 0, frames := s.blockLen.toNat } ∧ t.status.running = true
  run : (t.status.ended = s.status.ended ∧ (t.status.running = true → s.status.running = true) ∧ t.tracks = s.tracks) ∨
    (t.status.ended = false ∧ t.tracks = Vector.replicate 64 Track.reset)

theorem ctrlWrite_cases (s : State) (v : Word) : CtrlEffect s (s.ctrlWrite v) ∨ s.ctrlWrite v = s.resetCommand := by
  unfold State.ctrlWrite
  split
  · exact Or.inr rfl
  left
  unfold State.startCommand State.renderCommand State.stopCommand
  simp only
  refine ⟨⟨?_, ?_, ?_, ?_, ?_⟩, ?_, ?_, ?_⟩ <;>
    cases v.getLsbD 2 <;> cases v.getLsbD 0 <;> cases v.getLsbD 1 <;> cases hr : s.status.running <;>
    simp [hr, State.flagCmderr, State.clearPipes]

/-- Writing bytes changes the three memories and nothing else. -/
theorem putBytes_frame (s : State) (sp : Space) (bs : List Byte) (a : Nat) :
    ∃ e d w, putBytes s sp a bs = { s with evm := e, dpcm := d, wave := w } := by
  induction bs generalizing s a with
  | nil => exact ⟨_, _, _, rfl⟩
  | cons b bs ih =>
    rw [putBytes]
    obtain ⟨e, d, w, h⟩ := ih (putByte s sp a b) (a + 1)
    rw [h]
    cases sp <;> exact ⟨_, _, _, rfl⟩

/-- A host access does one of these (the inversion of the host's accesses). -/
inductive HostEffect (p : Params) (s : State) : State → Prop where
  /-- bytes written to a memory -/
  | memory (e d w) : HostEffect p s { s with evm := e, dpcm := d, wave := w }
  /-- STATUS bits other than RUNNING and END -/
  | status (st : Status) (hr : st.running = s.status.running) (he : st.ended = s.status.ended) :
      HostEffect p s { s with status := st }
  /-- a read: its data to the replies, and BUSERR when it is not performed -/
  | reply (st : Status) (r : List (BitVec 64)) (hr : st.running = s.status.running) (he : st.ended = s.status.ended) :
      HostEffect p s { s with status := st, replies := r }
  /-- a write to CTRL -/
  | ctrl (v : Word) : HostEffect p s (s.ctrlWrite v)
  /-- NTRACKS, while not RUNNING -/
  | ntracks (b : Bool) (v : Word) (hr : s.status.running = false) :
      HostEffect p s (State.flagClamp { s with ntracks := clampWord 1 p.ntrackMax v } b)
  /-- BLOCK_LEN -/
  | blockLen (b : Bool) (v : Word) : HostEffect p s (State.flagClamp { s with blockLen := clampWord 1 p.blockMax v } b)
  /-- TRK_BASE, while not RUNNING -/
  | trkBase (t : Fin 64) (v : Word) (hr : s.status.running = false) :
      HostEffect p s { s with trkBase := vset s.trkBase t (v &&& 0xFFFFFFE0#32) }
  /-- TRK_LEN, while not RUNNING -/
  | trkLen (t : Fin 64) (v : Word) (hr : s.status.running = false) :
      HostEffect p s { s with trkLen := vset s.trkLen t v }
  /-- a register of a DPCM slot -/
  | slot (i : Fin 16) (f : DpcmSlot → DpcmSlot) : HostEffect p s (s.mapSlot i f)

theorem writeReg_effect (p : Params) (s : State) (r : Reg) (v : Word) : HostEffect p s (writeReg p s r v) := by
  have g (f : State → State) (h : s.status.running = false → HostEffect p s (f s)) : HostEffect p s (s.guardRunning f) := by
    unfold State.guardRunning
    cases hr : s.status.running
    · exact h hr
    · exact .status s.flagCmderr.status rfl rfl
  cases r with
  | ctrl => exact .ctrl v
  | status => exact .status _ rfl rfl
  | ntracks =>
    exact g (fun s => State.flagClamp { s with ntracks := clampWord 1 p.ntrackMax v }
      (wordClamped 1 p.ntrackMax v)) fun h => .ntracks _ _ h
  | blockLen => exact .blockLen _ _
  | trkBase t => exact g (fun s => { s with trkBase := vset s.trkBase t (v &&& 0xFFFFFFE0#32) }) fun h => .trkBase _ _ h
  | trkLen t => exact g (fun s => { s with trkLen := vset s.trkLen t v }) fun h => .trkLen _ _ h
  | dpcmBase i => exact .slot i fun d => { d with base := v }
  | dpcmBits i => exact .slot i fun d => { d with bits := v }
  | dpcmCfg i => exact .slot i fun d => { d with vol := v.extractLsb' 0 7, loop := v.getLsbD 8 }
  | id => exact .status s.status rfl rfl
  | sampleRate => exact .status s.status rfl rfl
  | trkCursor t => exact .status s.status rfl rfl
  | trkStat t => exact .status s.status rfl rfl
  | reserved => exact .status s.status rfl rfl

/-- Everything a host access can do. -/
theorem hostAccess_effect (p : Params) (a : Access) (s : State) : HostEffect p s (hostAccess p s a) := by
  cases a with
  | read addr w =>
    simp only [hostAccess]
    rcases hostRead_state p addr w s with e | e <;> rw [e]
    · exact .reply s.status _ rfl rfl
    · exact .reply s.flagBuserr.status _ rfl rfl
  | write addr w data =>
    simp only [hostAccess]
    unfold hostWrite
    split
    · exact writeReg_effect p s _ _
    · next sp off _ _ =>
      obtain ⟨e, d, w, h⟩ := putBytes_frame s sp (leBytes w.bytes data.toNat) off
      rw [h]
      exact .memory e d w
    · exact .status s.flagBuserr.status rfl rfl

end Sys2Proof.Machine
end

