-- ==== Sys2Proof/Laws/Decode.lean ====
section
/-! SUPPORT. The record format: 32 bytes and eight words are the same thing, and the fields of an encoded W0. -/

namespace Sys2Proof

open Sys2Proof.Machine

@[simp] theorem record_bytes_length (r : Record) : r.bytes.length = 32 := by
  simp [Record.bytes, leBytes_length]

/-- The word at a word-aligned place of a byte list. -/
theorem wordAt_append {xs ys zs : List Byte} {j : Nat} (hx : xs.length = 4 * j) (hy : ys.length = 4) :
    wordAt (xs ++ (ys ++ zs)) j = BitVec.ofNat 32 (leNat ys) := by
  rw [wordAt, ← hx, List.drop_left, ← hy, List.take_left]

theorem leNat_leBytes_word (w : Word) : BitVec.ofNat 32 (leNat (leBytes 4 w.toNat)) = w := by
  rw [leNat_leBytes]
  apply BitVec.eq_of_toNat_eq
  have := w.isLt
  simp only [BitVec.toNat_ofNat]
  omega

/-- Reading back the bytes of a record gives its words (30_encoding.md R140). -/
theorem recordOfBytes_bytes (r : Record) : recordOfBytes r.bytes = r := by
  have hw (xs zs : List Byte) (w : Word) (j : Nat) (hx : xs.length = 4 * j) :
      wordAt (xs ++ (leBytes 4 w.toNat ++ zs)) j = w := by
    rw [wordAt_append hx (leBytes_length _ _), leNat_leBytes_word]
  have h0 := hw [] (leBytes 4 r.w1.toNat ++ (leBytes 4 r.w2.toNat ++ (leBytes 4 r.w3.toNat ++ (leBytes 4 r.w4.toNat ++
    (leBytes 4 r.w5.toNat ++ (leBytes 4 r.w6.toNat ++ leBytes 4 r.w7.toNat)))))) r.w0 0 rfl
  have h1 := hw (leBytes 4 r.w0.toNat) (leBytes 4 r.w2.toNat ++ (leBytes 4 r.w3.toNat ++ (leBytes 4 r.w4.toNat ++
    (leBytes 4 r.w5.toNat ++ (leBytes 4 r.w6.toNat ++ leBytes 4 r.w7.toNat))))) r.w1 1 (by simp [leBytes_length])
  have h2 := hw (leBytes 4 r.w0.toNat ++ leBytes 4 r.w1.toNat) (leBytes 4 r.w3.toNat ++ (leBytes 4 r.w4.toNat ++
    (leBytes 4 r.w5.toNat ++ (leBytes 4 r.w6.toNat ++ leBytes 4 r.w7.toNat)))) r.w2 2 (by simp [leBytes_length])
  have h3 := hw (leBytes 4 r.w0.toNat ++ leBytes 4 r.w1.toNat ++ leBytes 4 r.w2.toNat) (leBytes 4 r.w4.toNat ++
    (leBytes 4 r.w5.toNat ++ (leBytes 4 r.w6.toNat ++ leBytes 4 r.w7.toNat))) r.w3 3 (by simp [leBytes_length])
  have h4 := hw (leBytes 4 r.w0.toNat ++ leBytes 4 r.w1.toNat ++ leBytes 4 r.w2.toNat ++ leBytes 4 r.w3.toNat)
    (leBytes 4 r.w5.toNat ++ (leBytes 4 r.w6.toNat ++ leBytes 4 r.w7.toNat)) r.w4 4 (by simp [leBytes_length])
  have h5 := hw (leBytes 4 r.w0.toNat ++ leBytes 4 r.w1.toNat ++ leBytes 4 r.w2.toNat ++ leBytes 4 r.w3.toNat ++
    leBytes 4 r.w4.toNat) (leBytes 4 r.w6.toNat ++ leBytes 4 r.w7.toNat) r.w5 5 (by simp [leBytes_length])
  have h6 := hw (leBytes 4 r.w0.toNat ++ leBytes 4 r.w1.toNat ++ leBytes 4 r.w2.toNat ++ leBytes 4 r.w3.toNat ++
    leBytes 4 r.w4.toNat ++ leBytes 4 r.w5.toNat) (leBytes 4 r.w7.toNat) r.w6 6 (by simp [leBytes_length])
  have h7 := hw (leBytes 4 r.w0.toNat ++ leBytes 4 r.w1.toNat ++ leBytes 4 r.w2.toNat ++ leBytes 4 r.w3.toNat ++
    leBytes 4 r.w4.toNat ++ leBytes 4 r.w5.toNat ++ leBytes 4 r.w6.toNat) [] r.w7 7 (by simp [leBytes_length])
  simp only [List.nil_append, List.append_nil, List.append_assoc] at h0 h1 h2 h3 h4 h5 h6 h7
  simp only [recordOfBytes, Record.bytes, List.append_assoc, h0, h1, h2, h3, h4, h5, h6, h7]

/-- Decoding the bytes of a record is decoding the record. -/
theorem decode_bytes (r : Record) : decode r.bytes = .ok (decodeRecord r) := by
  rw [decode, if_pos (record_bytes_length r), recordOfBytes_bytes]

/-! ### The fields of an encoded W0 -/

theorem extract_low {m n : Nat} (x : BitVec m) (y : BitVec n) {i w : Nat} (h : i + w ≤ n) :
    (x ++ y).extractLsb' i w = y.extractLsb' i w := by
  ext j hj
  simp [BitVec.getLsbD_append, show i + j < n by omega]

theorem extract_high {m n : Nat} (x : BitVec m) (y : BitVec n) : (x ++ y).extractLsb' n m = x := by
  ext j hj
  simp [BitVec.getLsbD_append, BitVec.getLsbD_eq_getElem hj]

theorem extract_all {n : Nat} (x : BitVec n) : x.extractLsb' 0 n = x := by
  ext j hj
  simp

@[simp] theorem kindWord_kind (k : Byte) (a : BitVec 24) (d x y z w : Word) : (mkRecord (kindWord k a) d x y z w).kind = k :=
  extract_high k a

@[simp] theorem fieldA0_a0 (k u : Byte) (d x y z w : Word) : (mkRecord (kindWord k (fieldA0 u)) d x y z w).a0 = u :=
  (extract_low k (fieldA0 u) (by omega)).trans ((extract_low (0#16) u (by omega)).trans (extract_all u))

@[simp] theorem fieldA01_a0 (k u v : Byte) (d x y z w : Word) :
    (mkRecord (kindWord k (fieldA01 u v)) d x y z w).a0 = u :=
  (extract_low k (fieldA01 u v) (by omega)).trans ((extract_low (0#8) (v ++ u) (by omega)).trans
    ((extract_low v u (by omega)).trans (extract_all u)))

@[simp] theorem fieldA01_a1 (k u v : Byte) (d x y z w : Word) :
    (mkRecord (kindWord k (fieldA01 u v)) d x y z w).a1 = v :=
  (extract_low k (fieldA01 u v) (by omega)).trans ((extract_low (0#8) (v ++ u) (by omega)).trans (extract_high v u))

@[simp] theorem fieldA016_a0 (k u v : Byte) (b : BitVec 1) (d x y z w : Word) :
    (mkRecord (kindWord k (fieldA016 u v b)) d x y z w).a0 = u :=
  (extract_low k (fieldA016 u v b) (by omega)).trans ((extract_low (0#7) (b ++ (v ++ u)) (by omega)).trans
    ((extract_low b (v ++ u) (by omega)).trans ((extract_low v u (by omega)).trans (extract_all u))))

@[simp] theorem fieldA016_a1 (k u v : Byte) (b : BitVec 1) (d x y z w : Word) :
    (mkRecord (kindWord k (fieldA016 u v b)) d x y z w).a1 = v :=
  (extract_low k (fieldA016 u v b) (by omega)).trans ((extract_low (0#7) (b ++ (v ++ u)) (by omega)).trans
    ((extract_low b (v ++ u) (by omega)).trans (extract_high v u)))

@[simp] theorem fieldA016_a16 (k u v : Byte) (b : BitVec 1) (d x y z w : Word) :
    (mkRecord (kindWord k (fieldA016 u v b)) d x y z w).a16 = b :=
  (extract_low k (fieldA016 u v b) (by omega)).trans ((extract_low (0#7) (b ++ (v ++ u)) (by omega)).trans
    (extract_high b (v ++ u)))

@[simp] theorem mkRecord_words (a d x y z w : Word) :
    (mkRecord a d x y z w).delta = d ∧ (mkRecord a d x y z w).w2 = x ∧ (mkRecord a d x y z w).w3 = y ∧
      (mkRecord a d x y z w).w4 = z ∧ (mkRecord a d x y z w).w5 = w :=
  ⟨rfl, rfl, rfl, rfl, rfl⟩

/-! ### The instruction of a record, by kind -/

/-- The instruction a record decodes to, one case for each row of the table (30_encoding.md R142 to R144). -/
inductive DecodesAs (r : Record) : Instr → Prop where
  | noteOn (h : r.kind = 0x01#8) : DecodesAs r (.noteOn r.delta r.a0 r.a1)
  | noteOff (h : r.kind = 0x02#8) : DecodesAs r (.noteOff r.delta r.a0 r.a1)
  | note (h : r.kind = 0x03#8) : DecodesAs r (.note r.delta r.a0)
  | tempo (h : r.kind = 0x04#8) : DecodesAs r (.tempo r.delta r.w2)
  | form (h : r.kind = 0x05#8) : DecodesAs r (.form r.delta r.a0 r.a1)
  | vcoEnv (h : r.kind = 0x06#8) : DecodesAs r (.vcoEnv r.delta r.w2 r.w3 r.w4 r.w5)
  | vcfEnv (h : r.kind = 0x07#8) : DecodesAs r (.vcfEnv r.delta r.w2 r.w3 r.w4 r.w5)
  | noiseFreq (h : r.kind = 0x08#8) : DecodesAs r (.noiseFreq r.delta r.w2)
  | pwm (h : r.kind = 0x09#8) : DecodesAs r (.pwm r.delta r.a0)
  | pan (h : r.kind = 0x0A#8) : DecodesAs r (.pan r.delta r.a0)
  | vowel (h : r.kind = 0x0B#8) : DecodesAs r (.vowel r.delta r.a0)
  | detune (h : r.kind = 0x0C#8) : DecodesAs r (.detune r.delta r.w2)
  | lfo (h : r.kind = 0x0D#8) : DecodesAs r (.lfo r.delta r.a0 r.a1 r.a16 r.w2 r.w3 r.w4 r.w5)
  | lpf (h : r.kind = 0x0E#8) : DecodesAs r (.lpf r.delta r.a0 r.w2 r.w3 r.w4)
  | volmode (h : r.kind = 0x0F#8) : DecodesAs r (.volmode r.delta r.a0)
  | input (h : r.kind = 0x10#8) : DecodesAs r (.input r.delta r.a0 r.w2)
  | output (h : r.kind = 0x11#8) : DecodesAs r (.output r.delta r.a0 r.a1)
  | expression (h : r.kind = 0x12#8) : DecodesAs r (.expression r.delta r.a0)
  | ring (h : r.kind = 0x13#8) : DecodesAs r (.ring r.delta r.a0 r.w2)
  | sync (h : r.kind = 0x14#8) : DecodesAs r (.sync r.delta r.a0 r.a1)
  | close (h : r.kind = 0x15#8) : DecodesAs r (.close r.delta)
  | eot (h : r.kind = 0x16#8) : DecodesAs r (.eot r.delta)
  | reserved00 (h : r.kind = 0x00#8) : DecodesAs r (.reserved00 r.delta)
  | reserved17 (h : r.kind = 0x17#8) : DecodesAs r (.reserved17 r.delta)
  | reserved18 (hl : 0x18 ≤ r.kind.toNat) (hh : r.kind.toNat ≤ 0x1F) : DecodesAs r (.reserved18 r.delta r.kind)
  | reserved20 (hl : 0x20 ≤ r.kind.toNat) (hh : r.kind.toNat ≤ 0x3F) : DecodesAs r (.reserved20 r.delta r.kind)
  | reserved40 (hl : 0x40 ≤ r.kind.toNat) (hh : r.kind.toNat ≤ 0x7F) : DecodesAs r (.reserved40 r.delta r.kind)
  | reserved80 (hl : 0x80 ≤ r.kind.toNat) (hh : r.kind.toNat ≤ 0xFF) : DecodesAs r (.reserved80 r.delta r.kind)

theorem decodes_as (r : Record) : DecodesAs r (decodeRecord r) := by
  have hlt := r.kind.isLt
  unfold decodeRecord
  dsimp only
  by_cases h1 : r.kind = 0x01#8
  · rw [if_pos h1]; exact .noteOn h1
  rw [if_neg h1]
  by_cases h2 : r.kind = 0x02#8
  · rw [if_pos h2]; exact .noteOff h2
  rw [if_neg h2]
  by_cases h3 : r.kind = 0x03#8
  · rw [if_pos h3]; exact .note h3
  rw [if_neg h3]
  by_cases h4 : r.kind = 0x04#8
  · rw [if_pos h4]; exact .tempo h4
  rw [if_neg h4]
  by_cases h5 : r.kind = 0x05#8
  · rw [if_pos h5]; exact .form h5
  rw [if_neg h5]
  by_cases h6 : r.kind = 0x06#8
  · rw [if_pos h6]; exact .vcoEnv h6
  rw [if_neg h6]
  by_cases h7 : r.kind = 0x07#8
  · rw [if_pos h7]; exact .vcfEnv h7
  rw [if_neg h7]
  by_cases h8 : r.kind = 0x08#8
  · rw [if_pos h8]; exact .noiseFreq h8
  rw [if_neg h8]
  by_cases h9 : r.kind = 0x09#8
  · rw [if_pos h9]; exact .pwm h9
  rw [if_neg h9]
  by_cases h10 : r.kind = 0x0A#8
  · rw [if_pos h10]; exact .pan h10
  rw [if_neg h10]
  by_cases h11 : r.kind = 0x0B#8
  · rw [if_pos h11]; exact .vowel h11
  rw [if_neg h11]
  by_cases h12 : r.kind = 0x0C#8
  · rw [if_pos h12]; exact .detune h12
  rw [if_neg h12]
  by_cases h13 : r.kind = 0x0D#8
  · rw [if_pos h13]; exact .lfo h13
  rw [if_neg h13]
  by_cases h14 : r.kind = 0x0E#8
  · rw [if_pos h14]; exact .lpf h14
  rw [if_neg h14]
  by_cases h15 : r.kind = 0x0F#8
  · rw [if_pos h15]; exact .volmode h15
  rw [if_neg h15]
  by_cases h16 : r.kind = 0x10#8
  · rw [if_pos h16]; exact .input h16
  rw [if_neg h16]
  by_cases h17 : r.kind = 0x11#8
  · rw [if_pos h17]; exact .output h17
  rw [if_neg h17]
  by_cases h18 : r.kind = 0x12#8
  · rw [if_pos h18]; exact .expression h18
  rw [if_neg h18]
  by_cases h19 : r.kind = 0x13#8
  · rw [if_pos h19]; exact .ring h19
  rw [if_neg h19]
  by_cases h20 : r.kind = 0x14#8
  · rw [if_pos h20]; exact .sync h20
  rw [if_neg h20]
  by_cases h21 : r.kind = 0x15#8
  · rw [if_pos h21]; exact .close h21
  rw [if_neg h21]
  by_cases h22 : r.kind = 0x16#8
  · rw [if_pos h22]; exact .eot h22
  rw [if_neg h22]
  by_cases h0 : r.kind = 0x00#8
  · rw [if_pos h0]; exact .reserved00 h0
  rw [if_neg h0]
  by_cases h23 : r.kind = 0x17#8
  · rw [if_pos h23]; exact .reserved17 h23
  rw [if_neg h23]
  have hn (n : Nat) (hn : n < 256) (h : r.kind ≠ BitVec.ofNat 8 n) : r.kind.toNat ≠ n := fun e =>
    h (BitVec.eq_of_toNat_eq (by rw [e, BitVec.toNat_ofNat, Nat.mod_eq_of_lt hn]))
  have hge : 0x18 ≤ r.kind.toNat := by
    have := hn 1 (by omega) h1
    have := hn 2 (by omega) h2
    have := hn 3 (by omega) h3
    have := hn 4 (by omega) h4
    have := hn 5 (by omega) h5
    have := hn 6 (by omega) h6
    have := hn 7 (by omega) h7
    have := hn 8 (by omega) h8
    have := hn 9 (by omega) h9
    have := hn 10 (by omega) h10
    have := hn 11 (by omega) h11
    have := hn 12 (by omega) h12
    have := hn 13 (by omega) h13
    have := hn 14 (by omega) h14
    have := hn 15 (by omega) h15
    have := hn 16 (by omega) h16
    have := hn 17 (by omega) h17
    have := hn 18 (by omega) h18
    have := hn 19 (by omega) h19
    have := hn 20 (by omega) h20
    have := hn 21 (by omega) h21
    have := hn 22 (by omega) h22
    have := hn 0 (by omega) h0
    have := hn 23 (by omega) h23
    omega
  by_cases h32 : r.kind.toNat < 0x20
  · rw [if_pos h32]; exact .reserved18 hge (by omega)
  rw [if_neg h32]
  by_cases h64 : r.kind.toNat < 0x40
  · rw [if_pos h64]; exact .reserved20 (by omega) (by omega)
  rw [if_neg h64]
  by_cases h128 : r.kind.toNat < 0x80
  · rw [if_pos h128]; exact .reserved40 (by omega) (by omega)
  rw [if_neg h128]
  exact .reserved80 (by omega) (by omega)

end Sys2Proof
end

