-- ==== Sys2Proof/Laws/Envelope.lean ====
section
/-! SUPPORT. The envelope generator: what Trigger, Release and a step do, and that each keeps an envelope coherent. -/

namespace Sys2Proof.Machine

/-! ### Values between 0 and 1 -/

theorem UnitValue.finite {v : F64} (h : UnitValue v) : v.isFinite = true := F64.isFinite_of_le h.1 h.2
theorem UnitValue.zero : UnitValue F64.zero := ⟨by decide, by decide⟩
theorem UnitValue.one : UnitValue F64.one := ⟨by decide, by decide⟩

theorem UnitValue.one_sub {v : F64} (h : UnitValue v) : UnitValue (F64.one.sub v) :=
  ⟨F64.zero_le_sub (by decide) h.finite h.2, F64.sub_le (by decide) h.finite h.1⟩

/-- A level divided by a positive number of samples is a level. -/
theorem UnitValue.div_samples {v : F64} (h : UnitValue v) {n : Word} (hn : n ≠ 0#32) : UnitValue (v.div (floatWord n)) := by
  have hlt : n.toNat < 2 ^ 53 := by have := n.isLt; omega
  have hn0 : n.toNat ≠ 0 := fun e => hn (BitVec.eq_of_toNat_eq e)
  obtain ⟨hu, hf, hs⟩ := F64.ofNat_exact hlt
  apply F64.div_unit h.finite h.1 hf hs
  · rw [F64.ofNat_isZero hlt]
    simpa using hn0
  · have h1 := F64.units_le_of_le h.finite (b := F64.one) (by decide) h.1 h.2
    rw [F64.one_units] at h1
    rw [hu]
    exact Nat.le_trans h1 (Nat.le_mul_of_pos_left _ (Nat.pos_of_ne_zero hn0))

theorem UnitValue.attack_step {v d : F64} (hv : UnitValue v) (hd : UnitValue d) : UnitValue ((v.add d).min F64.one) := by
  have hn := (F64.add_finite hv.finite hd.finite).2
  exact ⟨F64.le_min (F64.le_trans hv.1 (F64.le_add hv.finite hd.finite hd.1)) (by decide),
    F64.min_le_right hn (by decide)⟩

theorem UnitValue.decay_step {v d t : F64} (hv : UnitValue v) (hd : UnitValue d) (ht : UnitValue t) :
    UnitValue ((v.sub d).max t) := by
  have hn := (F64.sub_finite hv.finite hd.finite).2
  exact ⟨F64.le_trans ht.1 (F64.le_max_right hn (F64.isFinite_not_nan ht.finite)),
    F64.max_le (F64.le_trans (F64.sub_le hv.finite hd.finite hd.1) hv.2) ht.2⟩

theorem UnitValue.q16_clamped (v : Word) : UnitValue (q16 (clampWord 0 65536 v)) :=
  q16_unit (clampWord_le v (by omega) (by omega)).2

/-! ### What the operations do -/

theorem startDecay_zero {e : Envelope} (h : e.D = 0#32) :
    e.startDecay = { e with state := .sustain, count := 0#32, len := 0#32, target := e.S, value := e.S, step := F64.zero } := by
  simp [Envelope.startDecay, h]

theorem startDecay_ramp {e : Envelope} (h : e.D ≠ 0#32) :
    e.startDecay = { e with state := .decay, count := 0#32, len := e.D, target := e.S,
                            step := (F64.one.sub e.S).div (floatWord e.D) } := by
  simp [Envelope.startDecay, h]

theorem startAttack_ramp {e : Envelope} (h : e.A ≠ 0#32) :
    e.startAttack = { e with state := .attack, count := 0#32, len := e.A, target := F64.one,
                             step := (F64.one.sub e.value).div (floatWord e.A) } := by
  simp [Envelope.startAttack, h]

theorem startAttack_zero {e : Envelope} (h : e.A = 0#32) :
    e.startAttack = Envelope.startDecay { e with state := .attack, count := 0#32, len := 0#32, target := F64.one,
                                                 value := F64.one } := by
  simp [Envelope.startAttack, h]

/-- Trigger does what 43_envelope.md R410 and R411 say. -/
theorem trigger_triggered (z : Bool) (e : Envelope) :
    Triggered (if z then F64.zero else e.value) e (e.trigger z) := by
  by_cases hA : e.A = 0#32
  · by_cases hD : e.D = 0#32
    · rw [Envelope.trigger, startAttack_zero (by exact hA), startDecay_zero (by exact hD)]
      exact ⟨⟨rfl, rfl, rfl, rfl⟩, rfl, rfl, fun h => absurd hA h, fun _ h => absurd hD h,
        fun _ _ => ⟨rfl, rfl, rfl, rfl, rfl⟩⟩
    · rw [Envelope.trigger, startAttack_zero (by exact hA), startDecay_ramp (by exact hD)]
      exact ⟨⟨rfl, rfl, rfl, rfl⟩, rfl, rfl, fun h => absurd hA h, fun _ _ => ⟨rfl, rfl, rfl, rfl, rfl⟩,
        fun _ h => absurd h hD⟩
  · rw [Envelope.trigger, startAttack_ramp (by exact hA)]
    exact ⟨⟨rfl, rfl, rfl, rfl⟩, rfl, rfl, fun _ => ⟨rfl, rfl, rfl, rfl, rfl⟩, fun h => absurd h hA,
      fun h => absurd h hA⟩

/-- Release does what 43_envelope.md R412 says. -/
theorem releaseRamp_released (e : Envelope) : Released e e.releaseRamp := by
  by_cases hp : e.playing = true
  · have hp' : e.playing ≠ false := by simp [hp]
    by_cases hR : e.R = 0#32
    · have h : e.releaseRamp =
          { e with state := .idle, count := 0#32, len := e.R, target := F64.zero, value := F64.zero, playing := false } := by
        simp [Envelope.releaseRamp, hp, hR]
      rw [h]
      exact ⟨fun h => absurd h hp', ⟨rfl, rfl, rfl, rfl⟩, fun _ => rfl, fun _ => rfl, fun _ => rfl,
        fun _ h => absurd hR h, fun _ _ => ⟨rfl, rfl, rfl, rfl⟩⟩
    · have h : e.releaseRamp =
          { e with state := .release, count := 0#32, len := e.R, target := F64.zero, step := e.value.div (floatWord e.R) } := by
        simp [Envelope.releaseRamp, hp, hR]
      rw [h]
      exact ⟨fun h => absurd h hp', ⟨rfl, rfl, rfl, rfl⟩, fun _ => rfl, fun _ => rfl, fun _ => rfl,
        fun _ _ => ⟨rfl, rfl, hp, rfl⟩, fun _ h => absurd h hR⟩
  · have hf : e.playing = false := by simpa using hp
    have h : e.releaseRamp = e := by simp [Envelope.releaseRamp, hf]
    rw [h]
    exact ⟨fun _ => rfl, ⟨rfl, rfl, rfl, rfl⟩, fun h => absurd h hp, fun h => absurd h hp, fun h => absurd h hp,
      fun h => absurd h hp, fun h => absurd h hp⟩

/-- Every case of a step (43_envelope.md R413). -/
theorem advance_cases (e : Envelope) :
    ((e.state = .idle ∨ e.state = .sustain) ∧ e.advance = e) ∨
    (e.state = .attack ∧ e.len ≤ e.count + 1#32 ∧
      e.advance = Envelope.startDecay { e with count := e.count + 1#32, value := F64.one }) ∨
    (e.state = .attack ∧ ¬e.len ≤ e.count + 1#32 ∧
      e.advance = { e with count := e.count + 1#32, value := (e.value.add e.step).min F64.one }) ∨
    (e.state = .decay ∧ e.len ≤ e.count + 1#32 ∧
      e.advance = { e with count := e.count + 1#32, value := e.target, state := .sustain }) ∨
    (e.state = .decay ∧ ¬e.len ≤ e.count + 1#32 ∧
      e.advance = { e with count := e.count + 1#32, value := (e.value.sub e.step).max e.target }) ∨
    (e.state = .release ∧ (e.len ≤ e.count + 1#32 ∨ (e.value.sub e.step).le F64.zero = true) ∧
      e.advance = { e with count := e.count + 1#32, value := F64.zero, state := .idle, playing := false }) ∨
    (e.state = .release ∧ ¬e.len ≤ e.count + 1#32 ∧ (e.value.sub e.step).le F64.zero = false ∧
      e.advance = { e with count := e.count + 1#32, value := e.value.sub e.step }) := by
  obtain ⟨A, D, S, R, st, v, step, len, target, count, playing⟩ := e
  cases st
  · exact Or.inl ⟨Or.inl rfl, rfl⟩
  · by_cases h : len ≤ count + 1#32 <;> simp [Envelope.advance, h]
  · by_cases h : len ≤ count + 1#32 <;> simp [Envelope.advance, h]
  · exact Or.inl ⟨Or.inr rfl, rfl⟩
  · by_cases h : len ≤ count + 1#32
    · simp [Envelope.advance, h]
    · by_cases h' : (v.sub step).le F64.zero = true
      · simp [Envelope.advance, h']
      · simp [Envelope.advance, h, h']

/-! ### Coherence is kept -/

theorem word_succ_toNat {x y : Word} (h : x.toNat < y.toNat) : (x + 1#32).toNat = x.toNat + 1 := by
  have := y.isLt
  rw [BitVec.toNat_add]
  simp only [BitVec.toNat_ofNat]
  omega

theorem word_pos {x : Word} (h : x ≠ 0#32) : 0 < x.toNat :=
  Nat.pos_of_ne_zero (fun e => h (BitVec.eq_of_toNat_eq e))

theorem EnvelopeCoherent.reset : EnvelopeCoherent Envelope.reset where
  playing := by decide
  count := by decide
  ramp := by decide
  value := UnitValue.zero
  sustain := UnitValue.one
  target := UnitValue.zero
  step := UnitValue.zero

theorem EnvelopeCoherent.startDecay {e : Envelope} (hp : e.playing = true) (hv : UnitValue e.value) (hS : UnitValue e.S) :
    EnvelopeCoherent e.startDecay := by
  by_cases hD : e.D = 0#32
  · rw [startDecay_zero hD]
    exact ⟨by simp [hp], by simp, by simp, hS, hS, hS, UnitValue.zero⟩
  · rw [startDecay_ramp hD]
    exact ⟨by simp [hp], by simp, fun _ => by simpa using word_pos hD, hv, hS, hS, hS.one_sub.div_samples hD⟩

theorem EnvelopeCoherent.startAttack {e : Envelope} (hp : e.playing = true) (hv : UnitValue e.value) (hS : UnitValue e.S) :
    EnvelopeCoherent e.startAttack := by
  by_cases hA : e.A = 0#32
  · rw [startAttack_zero hA]
    exact EnvelopeCoherent.startDecay hp UnitValue.one hS
  · rw [startAttack_ramp hA]
    exact ⟨by simp [hp], by simp, fun _ => by simpa using word_pos hA, hv, hS, UnitValue.one, hv.one_sub.div_samples hA⟩

theorem EnvelopeCoherent.trigger {e : Envelope} (h : EnvelopeCoherent e) (z : Bool) : EnvelopeCoherent (e.trigger z) := by
  refine EnvelopeCoherent.startAttack (e := { e with value := if z then F64.zero else e.value, playing := true }) rfl ?_ h.sustain
  cases z
  · exact h.value
  · exact UnitValue.zero

theorem EnvelopeCoherent.releaseRamp {e : Envelope} (h : EnvelopeCoherent e) : EnvelopeCoherent e.releaseRamp := by
  by_cases hp : e.playing = true
  · by_cases hR : e.R = 0#32
    · have h' : e.releaseRamp =
          { e with state := .idle, count := 0#32, len := e.R, target := F64.zero, value := F64.zero, playing := false } := by
        simp [Envelope.releaseRamp, hp, hR]
      rw [h']
      exact ⟨by simp, by simp, by simp, UnitValue.zero, h.sustain, UnitValue.zero, h.step⟩
    · have h' : e.releaseRamp =
          { e with state := .release, count := 0#32, len := e.R, target := F64.zero, step := e.value.div (floatWord e.R) } := by
        simp [Envelope.releaseRamp, hp, hR]
      rw [h']
      exact ⟨by simp [hp], by simp, fun _ => by simpa using word_pos hR, h.value, h.sustain, UnitValue.zero,
        h.value.div_samples hR⟩
  · have h' : e.releaseRamp = e := by simp [Envelope.releaseRamp, hp]
    rw [h']
    exact h

theorem EnvelopeCoherent.setParams {e : Envelope} (h : EnvelopeCoherent e) (a d u r : Word) :
    EnvelopeCoherent (e.setParams a d u r) :=
  ⟨h.playing, h.count, h.ramp, h.value, UnitValue.q16_clamped u, h.target, h.step⟩

theorem EnvelopeCoherent.advance {e : Envelope} (h : EnvelopeCoherent e) : EnvelopeCoherent e.advance := by
  have hramp := h.ramp
  rcases advance_cases e with ⟨_, he⟩ | ⟨hs, _, he⟩ | ⟨hs, hc, he⟩ | ⟨hs, _, he⟩ | ⟨hs, hc, he⟩ | ⟨hs, _, he⟩ |
    ⟨hs, hc, hl, he⟩ <;> rw [he]
  · exact h
  · exact EnvelopeCoherent.startDecay (h.playing.mpr (by simp [hs])) UnitValue.one h.sustain
  · have hlt := hramp (by simp [hs])
    have hs1 := word_succ_toNat hlt
    have hc' : e.count.toNat + 1 < e.len.toNat := by
      rw [BitVec.le_def, hs1] at hc; omega
    exact ⟨h.playing, by simp only [hs1]; omega, fun _ => by simp only [hs1]; omega, h.value.attack_step h.step, h.sustain,
      h.target, h.step⟩
  · have hlt := hramp (by simp [hs])
    have hs1 := word_succ_toNat hlt
    exact ⟨by simp [h.playing.mpr (by simp [hs])], by simp only [hs1]; omega, by simp, h.target, h.sustain, h.target, h.step⟩
  · have hlt := hramp (by simp [hs])
    have hs1 := word_succ_toNat hlt
    have hc' : e.count.toNat + 1 < e.len.toNat := by
      rw [BitVec.le_def, hs1] at hc; omega
    exact ⟨h.playing, by simp only [hs1]; omega, fun _ => by simp only [hs1]; omega, h.value.decay_step h.step h.target,
      h.sustain, h.target, h.step⟩
  · have hlt := hramp (by simp [hs])
    have hs1 := word_succ_toNat hlt
    exact ⟨by simp, by simp only [hs1]; omega, by simp, UnitValue.zero, h.sustain, h.target, h.step⟩
  · have hlt := hramp (by simp [hs])
    have hs1 := word_succ_toNat hlt
    have hc' : e.count.toNat + 1 < e.len.toNat := by
      rw [BitVec.le_def, hs1] at hc; omega
    have hn := (F64.sub_finite h.value.finite h.step.finite).2
    have hpos := (F64.not_le hn (b := F64.zero) (by decide)).mp hl
    have h0 : F64.zero.le (e.value.sub e.step) = true := by
      rw [F64.lt_iff] at hpos
      exact F64.le_iff.mpr ⟨hpos.1, hpos.2.1, Int.le_of_lt hpos.2.2⟩
    exact ⟨h.playing, by simp only [hs1]; omega, fun _ => by simp only [hs1]; omega,
      ⟨h0, F64.le_trans (F64.sub_le h.value.finite h.step.finite h.step.1) h.value.2⟩, h.sustain, h.target, h.step⟩

theorem EnvelopeCoherent.iterate {e : Envelope} (h : EnvelopeCoherent e) (n : Nat) :
    EnvelopeCoherent (Envelope.advance^[n] e) := by
  induction n generalizing e with
  | zero => exact h
  | succ n ih => exact ih h.advance

end Sys2Proof.Machine
end

