-- ==== Sys2Proof/Laws/Engine.lean ====
section
/-! SUPPORT. The engine: what fetching does, every case of a step, what each record and each chunk leaves unchanged, and
that every step keeps the canonical form of the memories. -/

namespace Sys2Proof.Machine

/-! ### Fetching -/

theorem fetchBytes_ok {p : Params} {s : State} {n a : Nat} {bs : List Byte} :
    fetchBytes p s n a = .ok bs ↔ bs.length = n ∧ ∀ k, k < n → s.evmRead p (a + k) = bs[k]? := by
  induction n generalizing a bs with
  | zero =>
    simp only [fetchBytes, Except.ok.injEq]
    constructor
    · intro h; subst h; exact ⟨rfl, fun k hk => absurd hk (Nat.not_lt_zero k)⟩
    · intro h; exact (List.length_eq_zero_iff.mp h.1).symm
  | succ n ih =>
    unfold fetchBytes
    constructor
    · intro h
      split at h
      · cases h
      · next b hb =>
        split at h
        · cases h
        · next cs hc =>
          cases h
          obtain ⟨hl, hk⟩ := ih.mp hc
          refine ⟨by simp [hl], fun k hk' => ?_⟩
          cases k with
          | zero => simpa using hb
          | succ k =>
            rw [show a + (k + 1) = a + 1 + k by omega, hk k (by omega)]
            simp
    · rintro ⟨hl, hk⟩
      cases bs with
      | nil => simp at hl
      | cons b cs =>
        have h0 : s.evmRead p a = some b := by simpa using hk 0 (by omega)
        have hcs : fetchBytes p s n (a + 1) = .ok cs := by
          refine ih.mpr ⟨by simpa using hl, fun k hk' => ?_⟩
          have := hk (k + 1) (by omega)
          rw [show a + 1 + k = a + (k + 1) by omega, this]
          simp
        rw [h0, hcs]

/-- A fetch stops exactly where a byte is outside EVM or was never written (60_exceptions.md R506). -/
theorem fetchBytes_error {p : Params} {s : State} {n a : Nat} {f : Fault} :
    fetchBytes p s n a = .error f ↔ f = .eventFetch ∧ ∃ k, k < n ∧ s.evmRead p (a + k) = none := by
  induction n generalizing a with
  | zero => simp [fetchBytes]
  | succ n ih =>
    unfold fetchBytes
    constructor
    · intro h
      split at h
      · next hb => cases h; exact ⟨rfl, 0, by omega, by simpa using hb⟩
      · split at h
        · next hg =>
          cases h
          obtain ⟨e, k, hk, hn⟩ := ih.mp hg
          exact ⟨e, k + 1, by omega, by rw [show a + (k + 1) = a + 1 + k by omega]; exact hn⟩
        · cases h
    · rintro ⟨rfl, k, hk, hn⟩
      split
      · rfl
      · next b hb =>
        cases k with
        | zero => rw [Nat.add_zero, hb] at hn; cases hn
        | succ k =>
          have : fetchBytes p s n (a + 1) = .error .eventFetch :=
            ih.mpr ⟨rfl, k, by omega, by rw [show a + 1 + k = a + (k + 1) by omega]; exact hn⟩
          rw [this]

theorem fetch_ok {p : Params} {s : State} {i : Instr} (h : s.fetch p = .ok i) :
    ∃ bs, PendingBytes p s bs ∧ decode bs = .ok i := by
  unfold State.fetch at h
  split at h
  · cases h
  · next bs hb =>
    cases h
    obtain ⟨hl, hk⟩ := fetchBytes_ok.mp hb
    exact ⟨bs, ⟨hl, hk⟩, by rw [decode, if_pos hl]⟩

theorem fetch_of_bytes {p : Params} {s : State} {bs : List Byte} {i : Instr} (hb : PendingBytes p s bs) (hd : decode bs = .ok i) :
    s.fetch p = .ok i := by
  have : fetchBytes p s 32 s.recordAddr = .ok bs := fetchBytes_ok.mpr ⟨hb.1, hb.2⟩
  rw [State.fetch, this]
  rw [decode, if_pos hb.1] at hd
  cases hd
  rfl

theorem fetch_error {p : Params} {s : State} {f : Fault} :
    s.fetch p = .error f ↔ f = .eventFetch ∧ ∃ k, k < 32 ∧ s.evmRead p (s.recordAddr + k) = none := by
  rw [← fetchBytes_error, State.fetch]
  split
  · next h => rw [h]; simp
  · next h => rw [h]; simp

/-! ### Records -/

/-- Every record's meaning is the consumption of its DELTA with an effect that moves neither cursor nor needle and
touches nothing but its track and STATUS. -/
theorem exec_consume (i : Instr) (s : State) : ∃ clamped effect, exec i s = consume i.delta clamped effect s ∧
    TrackEffect (s.flagClamp clamped) (effect (s.flagClamp clamped)) ∧
    (effect (s.flagClamp clamped)).tr.cursor = s.tr.cursor ∧ (effect (s.flagClamp clamped)).tr.needle = s.tr.needle := by
  have hm (d : Word) (b : Bool) (f : Channel → Channel) :
      ∃ clamped effect, consume d b (State.mapCh f) s = consume d clamped effect s ∧
        TrackEffect (s.flagClamp clamped) (effect (s.flagClamp clamped)) ∧
        (effect (s.flagClamp clamped)).tr.cursor = s.tr.cursor ∧
        (effect (s.flagClamp clamped)).tr.needle = s.tr.needle :=
    ⟨b, State.mapCh f, rfl, .mapCh f _, by simp, by simp⟩
  have hg (d : Word) (b : Bool) (f : State → Channel → Channel) :
      ∃ clamped effect, consume d b (fun s => s.mapCh (f s)) s = consume d clamped effect s ∧
        TrackEffect (s.flagClamp clamped) (effect (s.flagClamp clamped)) ∧
        (effect (s.flagClamp clamped)).tr.cursor = s.tr.cursor ∧
        (effect (s.flagClamp clamped)).tr.needle = s.tr.needle :=
    ⟨b, fun s => s.mapCh (f s), rfl, .mapCh _ _, by simp, by simp⟩
  have hr (d : Word) : ∃ clamped effect, consumeReserved d s = consume d clamped effect s ∧
        TrackEffect (s.flagClamp clamped) (effect (s.flagClamp clamped)) ∧
        (effect (s.flagClamp clamped)).tr.cursor = s.tr.cursor ∧
        (effect (s.flagClamp clamped)).tr.needle = s.tr.needle :=
    ⟨false, State.flagUnk, rfl, .flagUnk _, by simp, by simp⟩
  cases i
  case tempo d m =>
    exact ⟨wordClamped 1 0xFFFFFFFF m, fun s => s.setTr { s.tr with spt := sptOfTempo (clampWord 1 0xFFFFFFFF m) }, rfl,
      .setTr _ _, by simp, by simp⟩
  case eot d =>
    refine ⟨false, fun s => if s.engine.track = 0 then (s.setTr { s.tr with ended := true }).setEnd
      else s.setTr { s.tr with ended := true }, rfl, ?_, ?_, ?_⟩
    · simp only
      split
      · exact (TrackEffect.setTr _ _).trans (.setEnd _)
      · exact .setTr _ _
    · simp only
      split <;> simp
    · simp only
      split <;> simp
  case noteOn d n v => exact hg _ _ fun s => enableNote s (clampByte 0 143 n) (clampByte 0 127 v)
  case lfo d f b z dep w del len =>
    exact hg d (byteClamped 0 12 f || byteClamped 0 15 b) fun s ch =>
      { ch with
        osc2 := { ch.osc2 with form := kindOfField f, sub := subOfField b }
        lfoRev := z.getLsbD 0
        lfoDepth := dep
        lfoWidth := (floatWord w).mul s.tr.spt
        lfoDelay := (floatWord del).mul s.tr.spt
        lfoLen := (floatWord len).mul s.tr.spt }
  case reserved00 d => exact hr d
  case reserved17 d => exact hr d
  case reserved18 d k => exact hr d
  case reserved20 d k => exact hr d
  case reserved40 d k => exact hr d
  case reserved80 d k => exact hr d
  all_goals exact hm _ _ _

/-- What a record leaves unchanged, whatever its kind. -/
theorem exec_effect {i : Instr} {s t : State} (h : exec i s = .next t) : TrackEffect s t := by
  obtain ⟨b, e, he, ht, _⟩ := exec_consume i s
  rw [he, consume_next] at h
  cases h
  exact ((TrackEffect.flagClamp s b).trans ht).trans (.retire _ _)

/-! ### The step -/

/-- Every case of a step of a RENDER in progress (40_track_dispatch.md R201, R210). -/
theorem renderStep_cases (p : Params) (s : State) :
    ((s.tr.ended = true ∨ s.engine.frames ≤ s.engine.pos) ∧ renderStep p s = .next s.nextTrack) ∨
    (s.tr.ended = false ∧ s.engine.pos < s.engine.frames ∧
      ((s.logExhausted = true ∧ renderStep p s = .next s.endTrack.nextTrack) ∨
       (s.logExhausted = false ∧
         ((∃ f, s.fetch p = .error f ∧ renderStep p s = .fault f) ∨
          ∃ i, s.fetch p = .ok i ∧
            ((s.isDue i = true ∧ renderStep p s = exec i s) ∨
             (s.isDue i = false ∧
               ((∃ f, s.runChunk p i = .error f ∧ renderStep p s = .fault f) ∨
                ∃ t, s.runChunk p i = .ok t ∧ renderStep p s = .next t))))))) := by
  cases he : s.tr.ended with
  | true => exact Or.inl ⟨Or.inl rfl, by simp [renderStep, he]⟩
  | false =>
    by_cases hp : s.engine.frames ≤ s.engine.pos
    · exact Or.inl ⟨Or.inr hp, by simp [renderStep, hp]⟩
    · refine Or.inr ⟨rfl, by omega, ?_⟩
      cases hx : s.logExhausted with
      | true => exact Or.inl ⟨rfl, by simp [renderStep, he, hp, hx]⟩
      | false =>
        refine Or.inr ⟨rfl, ?_⟩
        cases hf : s.fetch p with
        | error f => exact Or.inl ⟨f, rfl, by simp [renderStep, he, hp, hx, hf]⟩
        | ok i =>
          refine Or.inr ⟨i, rfl, ?_⟩
          cases hd : s.isDue i with
          | true => exact Or.inl ⟨rfl, by simp [renderStep, he, hp, hx, hf, hd]⟩
          | false =>
            refine Or.inr ⟨rfl, ?_⟩
            cases hr : s.runChunk p i with
            | error f => exact Or.inl ⟨f, rfl, by simp [renderStep, he, hp, hx, hf, hd, hr]⟩
            | ok t => exact Or.inr ⟨t, rfl, by simp [renderStep, he, hp, hx, hf, hd, hr]⟩

theorem step_idle {s : State} (h : s.engine.busy = false) : step s = .next (idleStep defaultParams s) := by
  simp [step, stepWith, h]

theorem step_busy {s : State} (h : s.engine.busy = true) : step s = renderStep defaultParams s := by
  simp [step, stepWith, h]

/-- A step that answers a next state is one of these (the inversion of the step). -/
inductive StepCase (s t : State) : Prop where
  /-- an idle engine performs the host's next access, if any -/
  | idle (h : s.engine.busy = false) (ht : t = idleStep defaultParams s)
  /-- the track is done for this block -/
  | done (h : s.engine.busy = true) (hd : s.tr.ended = true ∨ s.engine.frames ≤ s.engine.pos) (ht : t = s.nextTrack)
  /-- the log is exhausted -/
  | exhausted (h : s.engine.busy = true) (hl : s.tr.ended = false) (hp : s.engine.pos < s.engine.frames)
      (hx : s.logExhausted = true) (ht : t = s.endTrack.nextTrack)
  /-- a due record is applied -/
  | record (i : Instr) (h : s.engine.busy = true) (hl : s.tr.ended = false) (hp : s.engine.pos < s.engine.frames)
      (hx : s.logExhausted = false) (hf : s.fetch defaultParams = .ok i) (hd : s.isDue i = true) (ht : exec i s = .next t)
  /-- a chunk up to the pending record is rendered -/
  | chunk (i : Instr) (h : s.engine.busy = true) (hl : s.tr.ended = false) (hp : s.engine.pos < s.engine.frames)
      (hx : s.logExhausted = false) (hf : s.fetch defaultParams = .ok i) (hd : s.isDue i = false)
      (ht : s.runChunk defaultParams i = .ok t)

theorem step_next {s t : State} (h : step s = .next t) : StepCase s t := by
  cases hb : s.engine.busy with
  | false =>
    rw [step_idle hb] at h
    cases h
    exact .idle hb rfl
  | true =>
    rw [step_busy hb] at h
    rcases renderStep_cases defaultParams s with ⟨hd, e⟩ | ⟨hl, hp, ⟨hx, e⟩ | ⟨hx, ⟨f, _, e⟩ |
      ⟨i, hf, ⟨hd, e⟩ | ⟨hd, ⟨f, _, e⟩ | ⟨u, hr, e⟩⟩⟩⟩⟩ <;> rw [e] at h
    · cases h; exact .done hb hd rfl
    · cases h; exact .exhausted hb hl hp hx rfl
    · cases h
    · exact .record i hb hl hp hx hf hd h
    · cases h
    · cases h; exact .chunk i hb hl hp hx hf hd hr

theorem log_not_exhausted {s : State} (h : RecordPending s) : s.logExhausted = false := by
  have := h.log
  simp only [State.logExhausted, decide_eq_false_iff_not, BitVec.le_def]
  omega

/-- A step at a record that is not due is its chunk (40_track_dispatch.md R210 step (b)). -/
theorem step_waiting {s : State} {i : Instr} (h : RecordWaiting s i) :
    step s = (match s.runChunk defaultParams i with | .error f => .fault f | .ok t => .next t) := by
  obtain ⟨⟨hp, bs, hb, hd⟩, hl⟩ := h
  rw [step_busy hp.busy]
  have hf := fetch_of_bytes hb hd
  have hx := log_not_exhausted hp
  have h1 := hp.live
  have h2 := hp.samples
  have h3 : s.isDue i = false := hl
  cases hr : s.runChunk defaultParams i <;>
    simp only [renderStep, h1, hx, hf, h3, hr, Nat.not_le.mpr h2, Bool.false_eq_true, if_false, decide_false, Bool.or_self]

theorem runChunk_of_step {s t : State} {i : Instr} (h : RecordWaiting s i) (hs : step s = .next t) :
    s.runChunk defaultParams i = .ok t := by
  rw [step_waiting h] at hs
  cases hr : s.runChunk defaultParams i with
  | error f => rw [hr] at hs; cases hs
  | ok u => rw [hr] at hs; cases hs; rfl

/-! ### Chunks -/

/-- The state in which the chunk's Channel renders: needle and position moved (40_track_dispatch.md R210 step (b)). -/
def chunkState (s : State) (i : Instr) : State :=
  { s.setTr { s.tr with needle := s.tr.needle.add (F64.ofNat (s.chunkLength i)) } with
    engine := { s.engine with pos := s.engine.pos + s.chunkLength i } }

theorem runChunk_tempo (p : Params) {s : State} (i : Instr) (h : s.engine.track = 0) :
    s.runChunk p i = .ok (chunkState s i) := by
  rw [State.runChunk]
  simp only
  rw [if_pos h]
  rfl

theorem runChunk_musical (p : Params) {s : State} (i : Instr) (h : s.engine.track ≠ 0) :
    s.runChunk p i = channelRender p s.engine.pos (s.chunkLength i) (chunkState s i) := by
  rw [State.runChunk]
  simp only
  rw [if_neg h]
  rfl

@[simp] theorem chunkState_tr (s : State) (i : Instr) :
    (chunkState s i).tr = { s.tr with needle := s.tr.needle.add (F64.ofNat (s.chunkLength i)) } := vset_get_same _ _ _
@[simp] theorem chunkState_ch (s : State) (i : Instr) : (chunkState s i).ch = s.ch := by simp [State.ch]

theorem chunkLength_le (s : State) (i : Instr) : s.chunkLength i ≤ s.engine.frames - s.engine.pos := Nat.min_le_right _ _

/-- What a chunk leaves unchanged. -/
theorem runChunk_ok {p : Params} (hp : 0 < p.lfoBatch) {s t : State} {i : Instr} (h : s.runChunk p i = .ok t) :
    t = { s with out := t.out, pipes := t.pipes, syncs := t.syncs, tracks := t.tracks, engine := t.engine } ∧
    t.engine = { s.engine with pos := s.engine.pos + s.chunkLength i } ∧ OtherTracksSame s t ∧
    t.tr = { s.tr with needle := s.tr.needle.add (F64.ofNat (s.chunkLength i)), ch := t.ch } ∧
    (t.ch = s.ch ∨ s.ch.env1.playing = true ∧ ChannelPlayed p (s.chunkLength i) s.ch t.ch) ∧
    (Memory.wf p s = true → s.engine.pos < s.engine.frames → s.engine.frames ≤ p.blockMax → Memory.wf p t = true) := by
  by_cases h0 : s.engine.track = 0
  · rw [runChunk_tempo p i h0] at h
    cases h
    refine ⟨rfl, rfl, fun u hu => setTr_other s _ hu, by rw [chunkState_ch, chunkState_tr]; rfl,
      Or.inl (chunkState_ch s i), fun h _ _ => h⟩
  · rw [runChunk_musical p i h0] at h
    have hd := channelRender_ok hp h
    have hrest := hd.rest
    have heng : t.engine = (chunkState s i).engine := by rw [hrest]
    have hform : Memory.wf p s = true → s.engine.pos < s.engine.frames → s.engine.frames ≤ p.blockMax →
        Memory.wf p t = true := by
      intro hw hpos hfr
      exact hd.form hw (by have := chunkLength_le s i; omega)
    refine ⟨by rw [hrest]; rfl, heng, ?_, ?_, ?_, hform⟩
    · intro u hu
      cases hpl : (chunkState s i).ch.env1.playing with
      | false => rw [hd.silent hpl]; exact setTr_other s _ hu
      | true =>
        obtain ⟨e, _⟩ := hd.played hpl
        rw [e]
        exact (vset_get_other _ _ hu).trans (setTr_other s _ hu)
    · cases hpl : (chunkState s i).ch.env1.playing with
      | false =>
        have e : t.tr = (chunkState s i).tr := by rw [State.tr, heng, hd.silent hpl]; rfl
        rw [State.ch, e, chunkState_tr]
      | true =>
        obtain ⟨_, e, _⟩ := hd.played hpl
        rw [chunkState_tr] at e
        rw [e]
        rfl
    · cases hpl : (chunkState s i).ch.env1.playing with
      | false =>
        have e : t.tr = (chunkState s i).tr := by rw [State.tr, heng, hd.silent hpl]; rfl
        left
        rw [State.ch, e, chunkState_tr]
        rfl
      | true =>
        obtain ⟨_, _, e⟩ := hd.played hpl
        rw [chunkState_ch] at e hpl
        exact Or.inr ⟨hpl, e⟩

/-- A chunk faults only on an unreadable DPCM byte (60_exceptions.md R506). -/
theorem runChunk_error {p : Params} {s : State} {i : Instr} {f : Fault} (h : s.runChunk p i = .error f) :
    f = .dpcmRead ∧ (DpcmUnreadable p s s.ch.osc1 ∨ DpcmUnreadable p s s.ch.osc2) := by
  by_cases h0 : s.engine.track = 0
  · rw [runChunk_tempo p i h0] at h
    cases h
  · rw [runChunk_musical p i h0] at h
    have := channelRender_error h
    rwa [chunkState_ch] at this

/-! ### The end of a track's block -/

/-- What moving to the next track does (40_track_dispatch.md R201). -/
theorem nextTrack_cases (s : State) :
    (s.engine.track.val + 1 < s.ntracks.toNat ∧ s.engine.track.val + 1 < 64 ∧
      ∃ u : Fin 64, u.val = s.engine.track.val + 1 ∧
        s.nextTrack = { s with engine := { s.engine with track := u, pos := 0 } }) ∨
    (¬(s.engine.track.val + 1 < s.ntracks.toNat ∧ s.engine.track.val + 1 < 64) ∧ s.nextTrack = s.finishRender) := by
  unfold State.nextTrack
  split
  · next h =>
    split
    · next h2 => exact Or.inl ⟨h2, h, ⟨_, h⟩, rfl, rfl⟩
    · next h2 => exact Or.inr ⟨fun hh => h2 hh.1, rfl⟩
  · next h => exact Or.inr ⟨fun hh => h hh.2, rfl⟩

theorem Memory.wf_nextTrack {p : Params} {s : State} (h : Memory.wf p s = true) : Memory.wf p s.nextTrack = true := by
  rcases nextTrack_cases s with ⟨_, _, u, _, e⟩ | ⟨_, e⟩ <;> rw [e] <;> exact h

theorem Memory.wf_exec {p : Params} {i : Instr} {s t : State} (h : Memory.wf p s = true) (he : exec i s = .next t) :
    Memory.wf p t = true := by
  have hf := exec_effect he
  exact Memory.wf_of_same h hf.evm hf.dpcm hf.wave hf.out hf.pipes hf.syncs

theorem Memory.wf_idleStep {p : Params} (hp : p.dpcmSize % 4 = 0 ∧ p.evmSize % 4 = 0) {s : State}
    (h : Memory.wf p s = true) : Memory.wf p (idleStep p s) = true := by
  unfold idleStep
  split
  · exact h
  · next a rest _ =>
    have h' : Memory.wf p { s with inbox := rest } = true := by rw [← h]; rfl
    exact Memory.wf_hostAccess hp h' a

/-- An LFO sub-block of the spec's defaults is not empty. -/
theorem lfoBatch_pos : 0 < defaultParams.lfoBatch :=
  Nat.succ_pos 244

/-- The default memories are of whole words. -/
theorem defaultWords : defaultParams.dpcmSize % 4 = 0 ∧ defaultParams.evmSize % 4 = 0 := ⟨rfl, rfl⟩

/-- Every step keeps the canonical form, as long as a RENDER stays inside the block buffers. -/
theorem Memory.wf_step {s t : State} (h : Memory.wf defaultParams s = true)
    (hf : s.engine.busy = true → s.engine.frames ≤ defaultParams.blockMax) (hs : step s = .next t) : Memory.wf defaultParams t = true := by
  cases step_next hs with
  | idle _ ht => subst ht; exact Memory.wf_idleStep defaultWords h
  | done _ _ ht => subst ht; exact Memory.wf_nextTrack h
  | exhausted _ _ _ _ ht => subst ht; exact Memory.wf_nextTrack (s := s.endTrack) h
  | record i _ _ _ _ _ _ ht => exact Memory.wf_exec h ht
  | chunk i hb _ hp _ _ _ ht => exact (runChunk_ok lfoBatch_pos ht).2.2.2.2.2 h hp (hf hb)

/-- The empty memories of the state after reset have the canonical form. -/
theorem Memory.wf_evmWithBytes {hi : Nat} {m : List Host.Cell} (h : Cells.rising hi 0 m = true) {a : Nat} {bs : List Byte}
    (ha : a + bs.length ≤ hi) : Cells.rising hi 0 (evmWithBytes m a bs) = true := by
  induction bs generalizing m a with
  | nil => exact h
  | cons b bs ih =>
    simp only [List.length_cons] at ha
    exact ih (Cells.rising_insert h b (Nat.zero_le a) (by omega)) (by omega)

/-! ### Properties of Channels that every step keeps -/

/-- Ending a track moves no cursor and no Channel. -/
theorem endTrack_get (s : State) (u : Fin 64) :
    (s.endTrack.tracks.get u).cursor = (s.tracks.get u).cursor ∧ (s.endTrack.tracks.get u).ch = (s.tracks.get u).ch := by
  by_cases e : u = s.engine.track
  · subst e
    have h : s.endTrack.tracks.get s.engine.track = { s.tr with ended := true } := endTrack_tr s
    rw [h]
    exact ⟨rfl, rfl⟩
  · have h : s.endTrack.tracks.get u = s.tracks.get u := setTr_other s _ e
    rw [h]
    exact ⟨rfl, rfl⟩

/-- A property of Channels that holds after reset, that every record keeps and that rendering keeps, is kept by every
step for every Channel. -/
theorem step_keeps_channels (Q : Channel → Prop) (hr : Q Channel.reset)
    (he : ∀ i s t, exec i s = .next t → Q s.ch → Q t.ch) (hp : ∀ n c c', ChannelPlayed defaultParams n c c' → Q c → Q c') {s t : State}
    (h : ∀ u, Q (s.tracks.get u).ch) (hs : step s = .next t) : ∀ u, Q (t.tracks.get u).ch := by
  have hrep : ∀ u : Fin 64, Q ((Vector.replicate 64 Track.reset).get u).ch := fun u => by rw [replicate_get]; exact hr
  cases step_next hs with
  | idle hb ht =>
    subst ht
    unfold idleStep
    split
    · exact h
    · next a rest _ =>
      have hw := hostAccess_effect defaultParams a { s with inbox := rest }
      generalize hostAccess defaultParams { s with inbox := rest } a = u at hw
      cases hw with
      | ctrl v =>
        rcases ctrlWrite_cases { s with inbox := rest } v with hc | e
        · rcases hc.tracks with e | e <;> rw [e]
          · exact h
          · exact hrep
        · rw [e]; exact hrep
      | _ => exact h
  | done hb _ ht =>
    subst ht
    rcases nextTrack_cases s with ⟨_, _, u, _, e⟩ | ⟨_, e⟩ <;> rw [e] <;> exact h
  | exhausted hb _ _ _ ht =>
    have h' : ∀ u, Q (s.endTrack.tracks.get u).ch := fun u => by rw [(endTrack_get s u).2]; exact h u
    subst ht
    rcases nextTrack_cases s.endTrack with ⟨_, _, u, _, e⟩ | ⟨_, e⟩ <;> rw [e] <;> exact h'
  | record i _ _ _ _ _ _ ht =>
    have hf := exec_effect ht
    intro u
    by_cases e : u = s.engine.track
    · subst e
      have hq := he i s t ht (h _)
      rw [State.ch, State.tr, hf.engine] at hq
      exact hq
    · rw [hf.others u e]; exact h u
  | chunk i hb _ hpp _ _ _ ht =>
    have hf := runChunk_ok lfoBatch_pos ht
    intro u
    by_cases e : u = s.engine.track
    · subst e
      have hq : Q t.ch := by
        rcases hf.2.2.2.2.1 with e | ⟨_, e⟩
        · rw [e]; exact h _
        · exact hp _ _ _ e (h _)
      rw [State.ch, State.tr, hf.2.1] at hq
      exact hq
    · rw [hf.2.2.1 u e]; exact h u

end Sys2Proof.Machine
end

