-- ==== Sys2Proof/Laws/PerInstr.lean ====
section
/-! SUPPORT. Statements made of every instruction, one lemma per constructor. -/

namespace Sys2Proof.Laws

/-- The bits of word 0 that spec/opcode_table.json fixes for an instruction's row, and their value (30_encoding.md R142):
the whole KIND, or the leading bits that a row of reserved kinds shares. -/
def opcodeRow : Instr → Word × Word
  | .noteOn .. => (0xFF000000#32, 0x01000000#32)
  | .noteOff .. => (0xFF000000#32, 0x02000000#32)
  | .note .. => (0xFF000000#32, 0x03000000#32)
  | .tempo .. => (0xFF000000#32, 0x04000000#32)
  | .form .. => (0xFF000000#32, 0x05000000#32)
  | .vcoEnv .. => (0xFF000000#32, 0x06000000#32)
  | .vcfEnv .. => (0xFF000000#32, 0x07000000#32)
  | .noiseFreq .. => (0xFF000000#32, 0x08000000#32)
  | .pwm .. => (0xFF000000#32, 0x09000000#32)
  | .pan .. => (0xFF000000#32, 0x0A000000#32)
  | .vowel .. => (0xFF000000#32, 0x0B000000#32)
  | .detune .. => (0xFF000000#32, 0x0C000000#32)
  | .lfo .. => (0xFF000000#32, 0x0D000000#32)
  | .lpf .. => (0xFF000000#32, 0x0E000000#32)
  | .volmode .. => (0xFF000000#32, 0x0F000000#32)
  | .input .. => (0xFF000000#32, 0x10000000#32)
  | .output .. => (0xFF000000#32, 0x11000000#32)
  | .expression .. => (0xFF000000#32, 0x12000000#32)
  | .ring .. => (0xFF000000#32, 0x13000000#32)
  | .sync .. => (0xFF000000#32, 0x14000000#32)
  | .close .. => (0xFF000000#32, 0x15000000#32)
  | .eot .. => (0xFF000000#32, 0x16000000#32)
  | .reserved00 .. => (0xFF000000#32, 0x00000000#32)
  | .reserved17 .. => (0xFF000000#32, 0x17000000#32)
  | .reserved18 .. => (0xF8000000#32, 0x18000000#32)
  | .reserved20 .. => (0xE0000000#32, 0x20000000#32)
  | .reserved40 .. => (0xC0000000#32, 0x40000000#32)
  | .reserved80 .. => (0x80000000#32, 0x80000000#32)

/-- Word 0 of the encoding of a well-formed instruction has the fixed bits of its row of the opcode table. -/
def MatchesRow.Statement (i : Instr) : Prop :=
  i.wellFormed = true → (encodeRecord i).w0 &&& (opcodeRow i).1 = (opcodeRow i).2

/-- The fixed bits are those of the KIND, whatever the operands in the bits below it. -/
theorem kindWord_and_mask (k m : Byte) (a : BitVec 24) : kindWord k a &&& (m ++ 0#24) = (k &&& m) ++ 0#24 := by
  rw [kindWord, BitVec.and_append, BitVec.and_zero]

/-- A row that fixes the whole KIND. -/
theorem row_of_kind {i : Instr} {k : Byte} {a : BitVec 24} (h : (encodeRecord i).w0 = kindWord k a)
    (hr : opcodeRow i = (0xFF000000#32, k ++ 0#24)) : MatchesRow.Statement i := by
  intro _
  rw [h, hr, show (0xFF000000#32 : Word) = 0xFF#8 ++ 0#24 from rfl, kindWord_and_mask, show (0xFF#8 : Byte) = BitVec.allOnes 8 from rfl,
    BitVec.and_allOnes]

/-- A row of reserved kinds: every KIND of its range has the leading bits it fixes. -/
theorem row_of_range {i : Instr} {k m v : Byte} (h : (encodeRecord i).w0 = kindWord k 0#24)
    (hr : opcodeRow i = (m ++ 0#24, v ++ 0#24)) (hk : i.wellFormed = true → k &&& m = v) : MatchesRow.Statement i := by
  intro hw
  rw [h, hr, kindWord_and_mask, hk hw]

theorem MatchesRow.noteOn (delta : Word) (note vel : Byte) :
    MatchesRow.Statement (.noteOn delta note vel) := row_of_kind rfl rfl

theorem MatchesRow.noteOff (delta : Word) (note vel : Byte) :
    MatchesRow.Statement (.noteOff delta note vel) := row_of_kind rfl rfl

theorem MatchesRow.note (delta : Word) (note : Byte) :
    MatchesRow.Statement (.note delta note) := row_of_kind rfl rfl

theorem MatchesRow.tempo (delta mbpm : Word) :
    MatchesRow.Statement (.tempo delta mbpm) := row_of_kind rfl rfl

theorem MatchesRow.form (delta : Word) (form sub : Byte) :
    MatchesRow.Statement (.form delta form sub) := row_of_kind rfl rfl

theorem MatchesRow.vcoEnv (delta atk dec sus rel : Word) :
    MatchesRow.Statement (.vcoEnv delta atk dec sus rel) := row_of_kind rfl rfl

theorem MatchesRow.vcfEnv (delta atk dec sus rel : Word) :
    MatchesRow.Statement (.vcfEnv delta atk dec sus rel) := row_of_kind rfl rfl

theorem MatchesRow.noiseFreq (delta mhz : Word) :
    MatchesRow.Statement (.noiseFreq delta mhz) := row_of_kind rfl rfl

theorem MatchesRow.pwm (delta : Word) (pw : Byte) :
    MatchesRow.Statement (.pwm delta pw) := row_of_kind rfl rfl

theorem MatchesRow.pan (delta : Word) (pan : Byte) :
    MatchesRow.Statement (.pan delta pan) := row_of_kind rfl rfl

theorem MatchesRow.vowel (delta : Word) (vowel : Byte) :
    MatchesRow.Statement (.vowel delta vowel) := row_of_kind rfl rfl

theorem MatchesRow.detune (delta cents : Word) :
    MatchesRow.Statement (.detune delta cents) := row_of_kind rfl rfl

theorem MatchesRow.lfo (delta : Word) (form sub : Byte) (rev : BitVec 1) (depth width delay len : Word) :
    MatchesRow.Statement (.lfo delta form sub rev depth width delay len) := row_of_kind rfl rfl

theorem MatchesRow.lpf (delta : Word) (ftype : Byte) (amt cut res : Word) :
    MatchesRow.Statement (.lpf delta ftype amt cut res) := row_of_kind rfl rfl

theorem MatchesRow.volmode (delta : Word) (mode : Byte) :
    MatchesRow.Statement (.volmode delta mode) := row_of_kind rfl rfl

theorem MatchesRow.input (delta : Word) (pipe : Byte) (sens : Word) :
    MatchesRow.Statement (.input delta pipe sens) := row_of_kind rfl rfl

theorem MatchesRow.output (delta : Word) (pipe mode : Byte) :
    MatchesRow.Statement (.output delta pipe mode) := row_of_kind rfl rfl

theorem MatchesRow.expression (delta : Word) (expr : Byte) :
    MatchesRow.Statement (.expression delta expr) := row_of_kind rfl rfl

theorem MatchesRow.ring (delta : Word) (pipe : Byte) (sens : Word) :
    MatchesRow.Statement (.ring delta pipe sens) := row_of_kind rfl rfl

theorem MatchesRow.sync (delta : Word) (pipe mode : Byte) :
    MatchesRow.Statement (.sync delta pipe mode) := row_of_kind rfl rfl

theorem MatchesRow.close (delta : Word) :
    MatchesRow.Statement (.close delta) := row_of_kind rfl rfl

theorem MatchesRow.eot (delta : Word) :
    MatchesRow.Statement (.eot delta) := row_of_kind rfl rfl

theorem MatchesRow.reserved00 (delta : Word) :
    MatchesRow.Statement (.reserved00 delta) := row_of_kind rfl rfl

theorem MatchesRow.reserved17 (delta : Word) :
    MatchesRow.Statement (.reserved17 delta) := row_of_kind rfl rfl

/-- Every kind 0x18 .. 0x1F has the leading bits of the row. -/
theorem reserved18_kinds : ∀ k : Byte, kindIn 0x18 0x1F k = true → k &&& 0xF8#8 = 0x18#8 := by decide +kernel

theorem MatchesRow.reserved18 (delta : Word) (kind : Byte) : MatchesRow.Statement (.reserved18 delta kind) :=
  row_of_range rfl rfl (reserved18_kinds kind)

/-- Every kind 0x20 .. 0x3F has the leading bits of the row. -/
theorem reserved20_kinds : ∀ k : Byte, kindIn 0x20 0x3F k = true → k &&& 0xE0#8 = 0x20#8 := by decide +kernel

theorem MatchesRow.reserved20 (delta : Word) (kind : Byte) : MatchesRow.Statement (.reserved20 delta kind) :=
  row_of_range rfl rfl (reserved20_kinds kind)

/-- Every kind 0x40 .. 0x7F has the leading bits of the row. -/
theorem reserved40_kinds : ∀ k : Byte, kindIn 0x40 0x7F k = true → k &&& 0xC0#8 = 0x40#8 := by decide +kernel

theorem MatchesRow.reserved40 (delta : Word) (kind : Byte) : MatchesRow.Statement (.reserved40 delta kind) :=
  row_of_range rfl rfl (reserved40_kinds kind)

/-- Every kind 0x80 .. 0xFF has the leading bits of the row. -/
theorem reserved80_kinds : ∀ k : Byte, kindIn 0x80 0xFF k = true → k &&& 0x80#8 = 0x80#8 := by decide +kernel

theorem MatchesRow.reserved80 (delta : Word) (kind : Byte) : MatchesRow.Statement (.reserved80 delta kind) :=
  row_of_range rfl rfl (reserved80_kinds kind)

end Sys2Proof.Laws
end

