-- ==== Sys2Proof/Machine/HostDuty.lean ====
section
/-! DEFINITION. The host's duties that the spec states as algorithms: the compiler's note index and lengths
(30_encoding.md R186 to R188), `ConductTracks` (40_track_dispatch.md R230, R231), the boot sequence
(70_reset_and_hazards.md R543), and the assembly text of a record (30_encoding.md R185). No step of the block uses
them: they produce the logs and the accesses that the block receives (log 16). -/

namespace Sys2Proof

open Sys2Proof.Machine

/-! ### Notes and lengths (30_encoding.md R186 to R188) -/

/-- The note letters. -/
inductive NoteLetter where
  | c | d | e | f | g | a | b
  deriving DecidableEq, Repr

/-- The semitone offset of a letter (R186). -/
def NoteLetter.offset : NoteLetter → Int
  | .c => 0
  | .d => 2
  | .e => 4
  | .f => 5
  | .g => 7
  | .a => 9
  | .b => 11

/-- The note index a compiler writes (R186): the octave is clamped to −2..8 and the index to 0..143. -/
def noteIndex (octave : Int) (letter : NoteLetter) (noteshift : Int) : Nat :=
  (min (max (12 * (min (max octave (-2)) 8 + 2) + letter.offset + noteshift) 0) 143).toNat

/-- The ticks of length `n`, 0 meaning the current default (R187). -/
def lengthTicks (default n : Nat) : Nat := if n = 0 then default else 384 / n

/-- `total` plus the additions of `dots` dots, each half the previous addition, truncated (R187). -/
def addDots : Nat → Nat → Nat → Nat
  | 0, total, _ => total
  | dots + 1, total, addition => addDots dots (total + addition / 2) (addition / 2)

/-- A dotted length (R187). -/
def dottedTicks (ticks dots : Nat) : Nat := addDots dots ticks ticks

/-- A track being written: its records, the tick of the last one, and the write cursor (R188). -/
structure TrackWriter where
  log : List Instr
  last : Nat
  cursor : Nat
  deriving DecidableEq, Repr

/-- An empty track. -/
def TrackWriter.empty : TrackWriter := { log := [], last := 0, cursor := 0 }

/-- A record appended at an absolute tick, given as a function of its DELTA (R188). DESIGN CHOICE (log 16): a difference of
2^32 ticks or more is taken modulo 2^32, and a tick before the last record's gives a DELTA of 0. -/
def TrackWriter.emit (w : TrackWriter) (tick : Nat) (mk : Word → Instr) : TrackWriter :=
  { w with log := w.log ++ [mk (BitVec.ofNat 32 (tick - w.last))], last := tick }

/-- A note of `len` ticks (R188): NOTE_ON at the write cursor, NOTE_OFF after its sounded part `gate len`
(the parameter `GATE_TICKS`), the write cursor moved by `len`. -/
def TrackWriter.note (gate : Nat → Nat) (note vel : Byte) (len : Nat) (w : TrackWriter) : TrackWriter :=
  let w := w.emit w.cursor fun d => .noteOn d note vel
  let w := w.emit (w.cursor + gate len) fun d => .noteOff d 0#8 0#8
  { w with cursor := w.cursor + len }

/-- A rest of `len` ticks (R188): no record. -/
def TrackWriter.rest (len : Nat) (w : TrackWriter) : TrackWriter := { w with cursor := w.cursor + len }

/-- Any other command: one record at the write cursor (R189). -/
def TrackWriter.command (mk : Word → Instr) (w : TrackWriter) : TrackWriter := w.emit w.cursor mk

/-! ### ConductTracks (40_track_dispatch.md R230, R231) -/

/-- The record with another DELTA. -/
def Instr.withDelta (d : Word) : Instr → Instr
  | .noteOn _ n v => .noteOn d n v
  | .noteOff _ n v => .noteOff d n v
  | .note _ n => .note d n
  | .tempo _ m => .tempo d m
  | .form _ f b => .form d f b
  | .vcoEnv _ a e u r => .vcoEnv d a e u r
  | .vcfEnv _ a e u r => .vcfEnv d a e u r
  | .noiseFreq _ m => .noiseFreq d m
  | .pwm _ p => .pwm d p
  | .pan _ p => .pan d p
  | .vowel _ v => .vowel d v
  | .detune _ c => .detune d c
  | .lfo _ f b z dep w del len => .lfo d f b z dep w del len
  | .lpf _ t a c r => .lpf d t a c r
  | .volmode _ m => .volmode d m
  | .input _ p x => .input d p x
  | .output _ p m => .output d p m
  | .expression _ e => .expression d e
  | .ring _ p x => .ring d p x
  | .sync _ p m => .sync d p m
  | .close _ => .close d
  | .eot _ => .eot d
  | .reserved00 _ => .reserved00 d
  | .reserved17 _ => .reserved17 d
  | .reserved18 _ k => .reserved18 d k
  | .reserved20 _ k => .reserved20 d k
  | .reserved40 _ k => .reserved40 d k
  | .reserved80 _ k => .reserved80 d k

/-- The records of a log with their absolute ticks, from tick `t` on (30_encoding.md R141). -/
def absoluteTicks : Nat → List Instr → List (Nat × Instr)
  | _, [] => []
  | t, i :: is => (t + i.delta.toNat, i) :: absoluteTicks (t + i.delta.toNat) is

/-- The log of records at absolute ticks, the DELTA of each counted from the one before, the first from tick `t` (R230
steps 2 to 4). DESIGN CHOICE (log 16): a difference of 2^32 ticks or more, for which the rule states no DELTA, is taken
modulo 2^32, and a tick before the one before gives a DELTA of 0. -/
def relativeLog : Nat → List (Nat × Instr) → List Instr
  | _, [] => []
  | t, (u, i) :: rest => i.withDelta (BitVec.ofNat 32 (u - t)) :: relativeLog u rest

/-- The milli-BPM of a TEMPO record. -/
def Instr.tempoOf : Instr → Option Word
  | .tempo _ m => some m
  | _ => none

/-- The TEMPO records of a log with their ticks. -/
def tempoMarks (log : List Instr) : List (Nat × Instr) :=
  (absoluteTicks 0 log).filter fun r => r.2.tempoOf.isSome

/-- Marks inserted into records at their ticks, each before any record of the same tick and after earlier marks (R230
step 2). -/
def insertMarks : List (Nat × Instr) → List (Nat × Instr) → List (Nat × Instr)
  | [], rs => rs
  | m :: ms, rs => rs.takeWhile (fun r => r.1 < m.1) ++ m :: insertMarks ms (rs.dropWhile fun r => r.1 < m.1)

/-- The milli-BPM of the last TEMPO of a log, 120000 when it has none (R230 step 4). DESIGN CHOICE (log 16): an MBPM of 0,
for which step 4 states no BPM, counts as 1, the value at which R220 runs such a record. -/
def lastTempo (log : List Instr) : Nat :=
  (((log.filterMap Instr.tempoOf).getLast?).map fun m => max 1 m.toNat).getD 120000

/-- `ceil(EOT_TAIL_SEC × bpm_end × 96 / 60)` in ticks, exactly (R230 step 4, R231). DESIGN CHOICE (log 16): the parameter,
to which the spec gives no type but only the default 2, is a whole number of seconds. -/
def tailTicks (tailSec mbpm : Nat) : Nat := (tailSec * mbpm * 96 + 59999) / 60000

/-- `ConductTracks` (R230): `tracks` holds each slot's log and the tick of its write cursor, slot 0 the tempo track;
`tailSec` is `EOT_TAIL_SEC`, 2 by default. -/
def conductTracks (tailSec : Nat) (tracks : List (List Instr × Nat)) : List (List Instr) :=
  match tracks with
  | [] => []
  | tempo :: rest =>
    let tmax := (tracks.map Prod.snd).foldl max 0
    let eot := tmax + tailTicks tailSec (lastTempo tempo.1)
    let finish (rs : List (Nat × Instr)) : List Instr := relativeLog 0 (rs ++ [(tmax, .close 0#32), (eot, .eot 0#32)])
    finish (absoluteTicks 0 tempo.1) ::
      rest.map fun t => finish (insertMarks (tempoMarks tempo.1) (absoluteTicks 0 t.1))

/-! ### The boot sequence (70_reset_and_hazards.md R543) -/

/-- A 32-bit host write. -/
def writeWord (addr : Nat) (v : Word) : Access := .write (BitVec.ofNat 32 addr) .w4 (v.setWidth 64)

/-- The eight word writes that put a record at an EVM address. -/
def writeRecord (evmAddr : Nat) (i : Instr) : List Access :=
  let r := encodeRecord i
  [r.w0, r.w1, r.w2, r.w3, r.w4, r.w5, r.w6, r.w7].zipIdx.map fun (v, j) => writeWord (0x1000000 + evmAddr + 4 * j) v

/-- Steps 3 to 6 of R543 for logs at given EVM addresses, slot 0 first: the records, TRK_BASE, TRK_LEN, NTRACKS,
BLOCK_LEN, START. -/
def bootSequence (logs : List (Nat × List Instr)) (blockLen : Nat) : List Access :=
  (logs.map fun l => (l.2.zipIdx.map fun (i, n) => writeRecord (l.1 + 32 * n) i).flatten).flatten ++
  (logs.zipIdx.map fun (l, t) =>
    [writeWord (0x100 + 8 * t) (BitVec.ofNat 32 l.1), writeWord (0x104 + 8 * t) (BitVec.ofNat 32 l.2.length)]).flatten ++
  [writeWord 0x00C (BitVec.ofNat 32 logs.length), writeWord 0x010 (BitVec.ofNat 32 blockLen), writeWord 0x004 1#32]

/-- One RENDER command (R543 step 7). -/
def renderAccess : Access := writeWord 0x004 2#32

/-! ### Assembly text (30_encoding.md R185) -/

/-- `name=value`, nothing when the value is 0 (R185: omitted fields are zero). -/
def asmField (name : String) (v : Int) : String := if v = 0 then "" else " " ++ name ++ "=" ++ toString v

/-- The mnemonic and the fields of a record, in the table's names. -/
def Instr.asmParts : Instr → String × List (String × Int)
  | .noteOn _ n v => ("NOTE_ON", [("note", n.toNat), ("vel", v.toNat)])
  | .noteOff _ n v => ("NOTE_OFF", [("note", n.toNat), ("vel", v.toNat)])
  | .note _ n => ("NOTE", [("note", n.toNat)])
  | .tempo _ m => ("TEMPO", [("mbpm", m.toNat)])
  | .form _ f b => ("FORM", [("form", f.toNat), ("sub", b.toNat)])
  | .vcoEnv _ a e u r => ("VCO_ENV", [("atk", a.toNat), ("dec", e.toNat), ("sus", u.toNat), ("rel", r.toNat)])
  | .vcfEnv _ a e u r => ("VCF_ENV", [("atk", a.toNat), ("dec", e.toNat), ("sus", u.toNat), ("rel", r.toNat)])
  | .noiseFreq _ m => ("NOISE_FREQ", [("mhz", m.toNat)])
  | .pwm _ p => ("PWM", [("pw", p.toNat)])
  | .pan _ p => ("PAN", [("pan", p.toNat)])
  | .vowel _ v => ("VOWEL", [("vowel", v.toNat)])
  | .detune _ c => ("DETUNE", [("cents", c.toInt)])
  | .lfo _ f b z dep w del len =>
    ("LFO", [("form", f.toNat), ("sub", b.toNat), ("rev", z.toNat), ("depth", dep.toInt), ("width", w.toNat),
      ("delay", del.toNat), ("len", len.toNat)])
  | .lpf _ t a c r => ("LPF", [("type", t.toInt), ("amt", a.toInt), ("cut", c.toInt), ("res", r.toNat)])
  | .volmode _ m => ("VOLMODE", [("mode", m.toNat)])
  | .input _ p x => ("INPUT", [("pipe", p.toNat), ("sens", x.toNat)])
  | .output _ p m => ("OUTPUT", [("pipe", p.toNat), ("mode", m.toNat)])
  | .expression _ e => ("EXPRESSION", [("expr", e.toNat)])
  | .ring _ p x => ("RING", [("pipe", p.toNat), ("sens", x.toNat)])
  | .sync _ p m => ("SYNC", [("pipe", p.toNat), ("mode", m.toNat)])
  | .close _ => ("CLOSE", [])
  | .eot _ => ("EOT", [])
  | .reserved00 _ => ("RESERVED", [])
  | .reserved17 _ => ("RESERVED", [("kind", 0x17)])
  | .reserved18 _ k | .reserved20 _ k | .reserved40 _ k | .reserved80 _ k => ("RESERVED", [("kind", k.toNat)])

/-- `MNEMONIC delta field=value ...` (R185). A reserved record has no mnemonic in the spec; it is written RESERVED
with its code. -/
def Instr.assembly (i : Instr) : String :=
  i.asmParts.1 ++ " " ++ toString i.delta.toNat ++ String.join (i.asmParts.2.map fun f => asmField f.1 f.2)

end Sys2Proof
end

