-- ==== Sys2Proof/Tests/Slice0.lean ====
section
/-! SUPPORT. The model's own tests, each one step or one operation on a small state, with the expected values taken from
spec/95_test_vectors.md and the examples of the rules; and for every obligation with hypotheses a concrete state that
meets them. -/

namespace Sys2Proof.Tests

set_option Elab.async false

open Sys2Proof.Machine

/-! ### Helpers -/

/-- A RENDER of `frames` samples at sample `pos` of slot `u`, whose track is `tr` and whose log is the one record `i`. -/
def rendering (u : Fin 64) (tr : Track) (pos frames : Nat) (i : Instr) : State :=
  { State.reset with
    status := { Status.reset with running := true }
    ntracks := 2#32
    trkLen := vset State.reset.trkLen u 1#32
    tracks := vset State.reset.tracks u tr
    evm := evmWithBytes [] 0 (encode i)
    engine := { busy := true, track := u, pos := pos, frames := frames } }

/-- A track at its reset values but for its Channel. -/
def trackOf (ch : Channel) : Track := { Track.reset with ch := ch }

/-- The state in which slot 1 with the Channel `ch` is processed. -/
def voice (ch : Channel) : State := rendering 1 (trackOf ch) 0 8 (.eot 0#32)

/-- What an outcome leaves, seen through `f`. -/
def after {α : Type} (f : State → α) : Host.Outcome State Fault Refusal → Option α
  | .next t => some (f t)
  | .fault _ => none
  | .refused _ => none

/-- The Channel of the track being processed, and STATUS.CLAMP, after a record applied to the Channel `ch`. -/
def applied {α : Type} (i : Instr) (ch : Channel) (f : Channel → α) : Option (α × Bool) :=
  after (fun t => (f t.ch, t.status.clamp)) (exec i (voice ch))

/-- The bytes of a record given as its words. -/
def words (w0 w1 w2 w3 w4 w5 w6 w7 : Word) : List Byte := Record.bytes ⟨w0, w1, w2, w3, w4, w5, w6, w7⟩

/-- What the decoder reads. -/
def decoded (bs : List Byte) : Option Instr :=
  match decode bs with
  | .ok i => some i
  | .error _ => none

/-- An envelope sounding at level 1.0, sustained. -/
def sounding : Envelope := { Envelope.reset with state := .sustain, value := F64.one, target := F64.one, playing := true }

/-- A Channel that plays note 81 at full level. -/
def singing : Channel := { Channel.reset with note := 81#8, vel := 127#8, env1 := sounding, env2 := sounding }

/-- 0.5 -/
def half : F64 := ⟨0x3FE0000000000000#64⟩
/-- 0.25 -/
def quarter : F64 := ⟨0x3FD0000000000000#64⟩
/-- 0.125 -/
def eighth : F64 := ⟨0x3FC0000000000000#64⟩

/-! ### WellFormed: each check refuses a KIND outside its row -/

theorem test_wellFormed_reserved18 : (Instr.reserved18 0#32 0x17#8).wellFormed = false ∧
    (Instr.reserved18 0#32 0x20#8).wellFormed = false ∧ (Instr.reserved18 0#32 0x1F#8).wellFormed = true := by decide
theorem test_wellFormed_reserved20 : (Instr.reserved20 0#32 0x1F#8).wellFormed = false ∧
    (Instr.reserved20 0#32 0x40#8).wellFormed = false ∧ (Instr.reserved20 0#32 0x3F#8).wellFormed = true := by decide
theorem test_wellFormed_reserved40 : (Instr.reserved40 0#32 0x3F#8).wellFormed = false ∧
    (Instr.reserved40 0#32 0x80#8).wellFormed = false ∧ (Instr.reserved40 0#32 0x7F#8).wellFormed = true := by decide
theorem test_wellFormed_reserved80 : (Instr.reserved80 0#32 0x7F#8).wellFormed = false ∧
    (Instr.reserved80 0#32 0xFF#8).wellFormed = true := by decide

/-! ### Decode: a record of every constructor, its words written out from 30_encoding.md R140, R142 and R144 -/

/-- The bytes of `NOTE_ON 96 note=81 vel=127`, one by one (R140: little-endian words). -/
theorem test_decode_bytes : decoded ([0x51, 0x7F, 0x00, 0x01, 0x60] ++ List.replicate 27 0x00) =
    some (.noteOn 96#32 81#8 127#8) := by decide +kernel
/-- Any other number of bytes is no record (R180). -/
theorem test_decode_short : decoded (List.replicate 31 0x00) = none := by decide +kernel

theorem test_decode_noteOn : decoded (words 0x01006448#32 0#32 0#32 0#32 0#32 0#32 0#32 0#32) =
    some (.noteOn 0#32 72#8 100#8) := by decide +kernel
theorem test_decode_noteOff : decoded (words 0x02000102#32 6#32 0#32 0#32 0#32 0#32 0#32 0#32) =
    some (.noteOff 6#32 2#8 1#8) := by decide +kernel
theorem test_decode_note : decoded (words 0x03000054#32 1#32 0#32 0#32 0#32 0#32 0#32 0#32) =
    some (.note 1#32 84#8) := by decide +kernel
theorem test_decode_tempo : decoded (words 0x04000000#32 0#32 0x01A49204#32 0#32 0#32 0#32 0#32 0#32) =
    some (.tempo 0#32 27562500#32) := by decide +kernel
theorem test_decode_form : decoded (words 0x05000105#32 0#32 0#32 0#32 0#32 0#32 0#32 0#32) =
    some (.form 0#32 5#8 1#8) := by decide +kernel
theorem test_decode_vcoEnv : decoded (words 0x06000000#32 0#32 4#32 5#32 0x8000#32 7#32 0#32 0#32) =
    some (.vcoEnv 0#32 4#32 5#32 32768#32 7#32) := by decide +kernel
theorem test_decode_vcfEnv : decoded (words 0x07000000#32 0#32 4#32 5#32 0x8000#32 7#32 0#32 0#32) =
    some (.vcfEnv 0#32 4#32 5#32 32768#32 7#32) := by decide +kernel
theorem test_decode_noiseFreq : decoded (words 0x08000000#32 0#32 440000#32 0#32 0#32 0#32 0#32 0#32) =
    some (.noiseFreq 0#32 440000#32) := by decide +kernel
theorem test_decode_pwm : decoded (words 0x09000019#32 0#32 0#32 0#32 0#32 0#32 0#32 0#32) =
    some (.pwm 0#32 25#8) := by decide +kernel
theorem test_decode_pan : decoded (words 0x0A00007F#32 0#32 0#32 0#32 0#32 0#32 0#32 0xFFFFFFFF#32) =
    some (.pan 0#32 127#8) := by decide +kernel
theorem test_decode_vowel : decoded (words 0x0B000001#32 0#32 0#32 0#32 0#32 0#32 0#32 0#32) =
    some (.vowel 0#32 1#8) := by decide +kernel
theorem test_decode_detune : decoded (words 0x0C000000#32 0#32 0x63#32 0#32 0#32 0#32 0#32 0#32) =
    some (.detune 0#32 99#32) := by decide +kernel
/-- REV is bit 16 of W0; bits 23..17 are reserved. -/
theorem test_decode_lfo : decoded (words 0x0DFF0302#32 1#32 100#32 96#32 48#32 24#32 0#32 0#32) =
    some (.lfo 1#32 2#8 3#8 1#1 100#32 96#32 48#32 24#32) := by decide +kernel
theorem test_decode_lpf : decoded (words 0x0E0000FE#32 96#32 2400#32 6000#32 32768#32 0#32 0#32 0#32) =
    some (.lpf 96#32 0xFE#8 2400#32 6000#32 32768#32) := by decide +kernel
theorem test_decode_volmode : decoded (words 0x0F000001#32 0#32 0#32 0#32 0#32 0#32 0#32 0#32) =
    some (.volmode 0#32 1#8) := by decide +kernel
theorem test_decode_input : decoded (words 0x10000002#32 0#32 16384#32 0#32 0#32 0#32 0#32 0#32) =
    some (.input 0#32 2#8 16384#32) := by decide +kernel
theorem test_decode_output : decoded (words 0x11000102#32 0#32 0#32 0#32 0#32 0#32 0#32 0#32) =
    some (.output 0#32 2#8 1#8) := by decide +kernel
theorem test_decode_expression : decoded (words 0x12000040#32 0#32 0#32 0#32 0#32 0#32 0#32 0#32) =
    some (.expression 0#32 64#8) := by decide +kernel
theorem test_decode_ring : decoded (words 0x13000001#32 0#32 65536#32 0#32 0#32 0#32 0#32 0#32) =
    some (.ring 0#32 1#8 65536#32) := by decide +kernel
theorem test_decode_sync : decoded (words 0x14000201#32 0#32 0#32 0#32 0#32 0#32 0#32 0#32) =
    some (.sync 0#32 1#8 2#8) := by decide +kernel
theorem test_decode_close : decoded (words 0x15000000#32 672#32 0#32 0#32 0#32 0#32 0#32 0#32) =
    some (.close 672#32) := by decide +kernel
theorem test_decode_eot : decoded (words 0x16000000#32 384#32 0#32 0#32 0#32 0#32 0#32 0#32) =
    some (.eot 384#32) := by decide +kernel
theorem test_decode_reserved00 : decoded (words 0#32 9#32 1#32 2#32 3#32 4#32 5#32 6#32) = some (.reserved00 9#32) := by
  decide +kernel
theorem test_decode_reserved17 : decoded (words 0x17123456#32 1#32 0xDEADBEEF#32 0#32 0#32 0#32 0#32 0#32) =
    some (.reserved17 1#32) := by decide +kernel
theorem test_decode_reserved18 : decoded (words 0x18000000#32 1#32 0#32 0#32 0#32 0#32 0#32 0#32) =
      some (.reserved18 1#32 0x18#8) ∧
    decoded (words 0x1F000000#32 1#32 0#32 0#32 0#32 0#32 0#32 0#32) = some (.reserved18 1#32 0x1F#8) := by decide +kernel
theorem test_decode_reserved20 : decoded (words 0x20000000#32 1#32 0#32 0#32 0#32 0#32 0#32 0#32) =
      some (.reserved20 1#32 0x20#8) ∧
    decoded (words 0x3F000000#32 1#32 0#32 0#32 0#32 0#32 0#32 0#32) = some (.reserved20 1#32 0x3F#8) := by decide +kernel
theorem test_decode_reserved40 : decoded (words 0x40000000#32 1#32 0#32 0#32 0#32 0#32 0#32 0#32) =
      some (.reserved40 1#32 0x40#8) ∧
    decoded (words 0x7F000000#32 1#32 0#32 0#32 0#32 0#32 0#32 0#32) = some (.reserved40 1#32 0x7F#8) := by decide +kernel
theorem test_decode_reserved80 : decoded (words 0x80000000#32 1#32 0#32 0#32 0#32 0#32 0#32 0#32) =
      some (.reserved80 1#32 0x80#8) ∧
    decoded (words 0xFF000000#32 1#32 0#32 0#32 0#32 0#32 0#32 0#32) = some (.reserved80 1#32 0xFF#8) := by decide +kernel

/-! ### Records: at most two for each instruction -/

/-- 95_test_vectors.md 2.9: NOTE = 200 and VEL = 255 are applied as 143 and 127, with CLAMP. -/
theorem test_noteOn_clamps : applied (.noteOn 0#32 200#8 255#8) Channel.reset (fun c => (c.note, c.vel)) =
    some ((143#8, 127#8), true) := by decide +kernel
/-- R410, R414: the attack of 4 samples from 0.5 has step 0.125; R353: note 81 has period index 1. -/
theorem test_noteOn_legato : applied (.noteOn 0#32 81#8 0#8)
      { Channel.reset with env1 := { sounding with A := 4#32, value := half } }
      (fun c => (c.env1.state, c.env1.value, c.env1.step, c.osc2.dpcm.pidx)) =
    some ((.attack, half, eighth, 1#4), false) := by decide +kernel
/-- R412: a release of 4 samples from 0.5 has step 0.125; R251: the operands are not clamped. -/
theorem test_noteOff_release : applied (.noteOff 0#32 255#8 255#8)
      { Channel.reset with env1 := { sounding with R := 4#32, value := half } }
      (fun c => (c.env1.state, c.env1.step, c.note)) = some ((.release, eighth, 0#8), false) := by decide +kernel
/-- R251: with `R = 0` the envelope is idle at once. -/
theorem test_noteOff_at_once : applied (.noteOff 0#32 0#8 0#8) singing (fun c => (c.env1.playing, c.env1.value)) =
    some ((false, F64.zero), false) := by decide +kernel
/-- R252: the pitch moves, the phase does not. -/
theorem test_note : applied (.note 0#32 144#8) { singing with osc1 := { Oscillator.reset with inc := 5 } }
      (fun c => (c.note, c.osc1.inc, c.env1.state)) = some ((143#8, 5, .sustain), true) := by decide +kernel
/-- 95_test_vectors.md 2.1: MBPM 120000 gives 229.6875, and 0 is 1 with CLAMP and gives 27562500.0. -/
theorem test_tempo : (after (fun t => t.tr.spt) (exec (.tempo 0#32 120000#32) (voice Channel.reset)),
      after (fun t => (t.tr.spt, t.status.clamp)) (exec (.tempo 0#32 0#32) (voice Channel.reset))) =
    (some ⟨0x406CB60000000000#64⟩, some (F64.ofNat 27562500, true)) := by decide +kernel
/-- The needle loses the duration at the old tempo. -/
theorem test_tempo_needle : after (fun t => (t.tr.needle, t.tr.cursor))
      (exec (.tempo 1#32 27562500#32) (rendering 1 { Track.reset with spt := F64.ofNat 3, needle := F64.ofNat 5 } 0 8 (.eot 0#32))) =
    some (F64.ofNat 2, 1#32) := by decide +kernel
theorem test_form : applied (.form 0#32 5#8 1#8) Channel.reset (fun c => (c.osc1.form, c.osc1.sub, c.osc2.sub)) =
    some ((.phase .fcPulse, 1#4, 0#4), false) := by decide +kernel
theorem test_form_clamps : applied (.form 0#32 13#8 16#8) Channel.reset (fun c => (c.osc1.form, c.osc1.sub)) =
    some ((.lfsr .gbSNoise, 15#4), true) := by decide +kernel
/-- R400: a ramp in progress keeps its step. -/
theorem test_vcoEnv : applied (.vcoEnv 0#32 1#32 2#32 32768#32 3#32)
      { Channel.reset with env1 := { sounding with step := eighth } }
      (fun c => (c.env1.A, c.env1.D, c.env1.S, c.env1.R, c.env1.step)) =
    some ((1#32, 2#32, half, 3#32, eighth), false) := by decide +kernel
theorem test_vcfEnv_clamps : applied (.vcfEnv 0#32 1#32 2#32 65537#32 3#32) Channel.reset
      (fun c => (c.env2.A, c.env2.S, c.env1.A)) = some ((1#32, F64.one, 0#32), true) := by decide +kernel
theorem test_noiseFreq : applied (.noiseFreq 0#32 440000#32) Channel.reset (fun c => c.noisefreq) =
    some (440000#32, false) := by decide +kernel
theorem test_pwm_low : applied (.pwm 0#32 0#8) Channel.reset (fun c => c.pw) = some (1#8, true) := by decide +kernel
theorem test_pwm_high : applied (.pwm 0#32 100#8) Channel.reset (fun c => c.pw) = some (99#8, true) := by decide +kernel
/-- 95_test_vectors.md 2.9: PAN 0 is applied as 1, with CLAMP. -/
theorem test_pan_low : applied (.pan 0#32 0#8) Channel.reset (fun c => c.pan) = some (1#8, true) := by decide +kernel
theorem test_pan_high : applied (.pan 0#32 127#8) Channel.reset (fun c => c.pan) = some (127#8, false) := by decide +kernel
/-- R470: a change clears the history, the same vowel keeps it. -/
theorem test_vowel_change : applied (.vowel 0#32 6#8) { Channel.reset with fm := Vector.replicate 10 F64.one, vowel := .a }
      (fun c => (c.vowel, c.fm.get 0)) = some ((.u, F64.zero), true) := by decide +kernel
theorem test_vowel_same : applied (.vowel 0#32 1#8) { Channel.reset with fm := Vector.replicate 10 F64.one, vowel := .a }
      (fun c => (c.vowel, c.fm.get 9)) = some ((.a, F64.one), false) := by decide +kernel
theorem test_detune : applied (.detune 0#32 0xFFFFFFFF#32) Channel.reset (fun c => c.detune.toInt) = some (-1, false) := by
  decide +kernel
/-- R324: at 229.6875 samples per tick a width of 96 ticks is 22050 samples. -/
theorem test_lfo : applied (.lfo 0#32 0#8 0#8 1#1 100#32 96#32 0#32 192#32) Channel.reset
      (fun c => (c.lfoWidth, c.lfoDelay, c.lfoLen, c.lfoRev, c.lfoDepth)) =
    some ((F64.ofNat 22050, F64.zero, F64.ofNat 44100, true, 100#32), false) := by decide +kernel
theorem test_lfo_clamps : applied (.lfo 0#32 12#8 16#8 0#1 0#32 0#32 0#32 0#32) Channel.reset
      (fun c => (c.osc2.form, c.osc2.sub, c.osc1.sub)) = some ((.lfsr .gbSNoise, 15#4, 0#4), true) := by decide +kernel
/-- 95_test_vectors.md 2.9: TYPE 0x80 (−128) is −2, with CLAMP; the type changes, so the delay line is cleared. -/
theorem test_lpf_clamps : applied (.lpf 0#32 0x80#8 1#32 2#32 32768#32) { Channel.reset with fb := Vector.replicate 5 F64.one }
      (fun c => (c.ftype, c.famt, c.fcut, c.fres, c.fb.get 4)) = some ((.fastHpf, 1#32, 2#32, half, F64.zero), true) := by
  decide +kernel
theorem test_lpf_keeps : applied (.lpf 0#32 1#8 0#32 6900#32 0#32)
      { Channel.reset with ftype := .qualityLpf, fb := Vector.replicate 5 F64.one } (fun c => (c.ftype, c.fb.get 0)) =
    some ((.qualityLpf, F64.one), false) := by decide +kernel
theorem test_volmode : applied (.volmode 0#32 2#8) Channel.reset (fun c => c.volmode) = some (.nonLinear, true) := by
  decide +kernel
theorem test_input : applied (.input 0#32 3#8 16384#32) Channel.reset (fun c => (c.inPipe, c.inSens)) =
    some ((2, quarter), true) := by decide +kernel
theorem test_output : applied (.output 0#32 0#8 1#8) Channel.reset (fun c => (c.outPipe, c.outMode)) =
    some ((0, .overwrite), false) := by decide +kernel
theorem test_output_clamps : applied (.output 0#32 9#8 3#8) Channel.reset (fun c => (c.outPipe, c.outMode)) =
    some ((2, .add), true) := by decide +kernel
theorem test_expression : applied (.expression 0#32 128#8) Channel.reset (fun c => (c.expr, c.vel)) =
    some ((127#8, 0#8), true) := by decide +kernel
theorem test_ring : applied (.ring 0#32 1#8 65536#32) Channel.reset (fun c => (c.ringPipe, c.ringSens, c.inSens)) =
    some ((1, F64.one, F64.zero), false) := by decide +kernel
theorem test_sync : applied (.sync 0#32 1#8 2#8) Channel.reset (fun c => (c.syncPipe, c.syncMode)) =
    some ((1, .inp), false) := by decide +kernel
theorem test_close : applied (.close 0#32) { singing with env1 := { sounding with R := 4#32 } }
      (fun c => (c.env1.state, c.env1.step, c.env2.playing)) = some ((.release, quarter, false), false) := by decide +kernel
/-- R222: EOT ends a musical track only, and the run on the tempo track. -/
theorem test_eot : (after (fun t => (t.tr.ended, t.status.ended)) (exec (.eot 0#32) (voice Channel.reset)),
      after (fun t => (t.tr.ended, t.status.ended)) (exec (.eot 0#32) (rendering 0 Track.reset 0 8 (.eot 0#32)))) =
    (some (true, false), some (true, true)) := by decide +kernel
/-- R223: a reserved record consumes its DELTA and sets UNK. -/
theorem test_reserved (f : Word → Instr) (h : f ∈ [Instr.reserved00, Instr.reserved17, (Instr.reserved18 · 0x18#8),
      (Instr.reserved20 · 0x20#8), (Instr.reserved40 · 0x40#8), (Instr.reserved80 · 0xFF#8)]) :
    after (fun t => (t.status.unk, t.status.clamp, t.tr.cursor, t.tr.needle))
      (exec (f 1#32) (rendering 1 { Track.reset with needle := F64.ofNat 229 } 0 8 (.eot 0#32))) =
    some (true, false, 1#32, (F64.ofNat 229).sub sptReset) := by
  simp only [List.mem_cons, List.not_mem_nil, or_false] at h
  rcases h with rfl | rfl | rfl | rfl | rfl | rfl <;> decide +kernel

/-! ### Envelopes (95_test_vectors.md 2.6) -/

/-- The first `n` values that successive steps of an envelope return. -/
def levels : Nat → Envelope → List F64
  | 0, _ => []
  | n + 1, e => e.stepRead.1 :: levels n e.stepRead.2

/-- `A = 4, D = 4, S = 0.5, R = 4` from 0: 0, 0.25, 0.5, 0.75, 1.0, 0.875, 0.75, 0.625, 0.5, 0.5. -/
theorem test_envelope_attack : levels 10 ((Envelope.reset.setParams 4#32 4#32 32768#32 4#32).trigger true) =
    [0x0000000000000000#64, 0x3FD0000000000000#64, 0x3FE0000000000000#64, 0x3FE8000000000000#64, 0x3FF0000000000000#64,
      0x3FEC000000000000#64, 0x3FE8000000000000#64, 0x3FE4000000000000#64, 0x3FE0000000000000#64,
      0x3FE0000000000000#64].map F64.mk := by decide +kernel
/-- Then the release: 0.5, 0.375, 0.25, 0.125, 0. -/
theorem test_envelope_release : levels 5 ({ sounding with value := half, R := 4#32 } : Envelope).releaseRamp =
    [0x3FE0000000000000#64, 0x3FD8000000000000#64, 0x3FD0000000000000#64, 0x3FC0000000000000#64,
      0x0000000000000000#64].map F64.mk := by decide +kernel

/-! ### Oscillators (95_test_vectors.md 2.2 to 2.5) -/

/-- The output and the wrap flag of one sample of an oscillator in the state after reset. -/
def sampleOf (o : Oscillator) (pw : Byte) : Option (F64 × Bool × Nat) :=
  match o.next defaultParams State.reset pw with
  | .ok (y, w, o') => some (y, w, o'.phases.get (match o.form with | .phase k => k | _ => .sine))
  | .error _ => none

/-- An oscillator of the kind `k` at the phase `ph`. -/
def oscAt (k : PhaseKind) (ph inc : Nat) : Oscillator :=
  { Oscillator.reset with form := .phase k, inc := inc, phases := Phases.reset.put k ph }

/-- `SINE_TAB[8192]` = 0.7071067811865476. -/
theorem test_sine : sampleOf (oscAt .sine 0x8000000 0x8000000) 50#8 =
    some (⟨0x3FE6A09E667F3BCD#64⟩, false, 0x10000000) := by decide +kernel
/-- R327: SAW at the largest increment reads 0.999969482421875 and wraps. -/
theorem test_saw_wraps : sampleOf (oscAt .saw 0x3FFFFFFF 0x3FFFFFFF) 50#8 =
    some (⟨0x3FEFFFC000000000#64⟩, true, 0x3FFFFFFE) := by decide +kernel
/-- R338: at width 1 the threshold is 10737418. -/
theorem test_pulse : (sampleOf (oscAt .pulse 10737417 0) 1#8, sampleOf (oscAt .pulse 10737418 0) 1#8) =
    (some (F64.one, false, 10737417), some (F64.negOne, false, 10737418)) := by decide +kernel
/-- `NOISE_TAB[0]` = −0.6631072298623621. -/
theorem test_noise : sampleOf (oscAt .noise 0 0) 50#8 = some (⟨0xBFE5382CA7400000#64⟩, false, 0) := by
  decide +kernel
/-- R340: sub-form 9 is the 75 % duty. -/
theorem test_fcPulse : sampleOf { oscAt .fcPulse 0x2FFFFFFF 1 with sub := 9#4 } 50#8 =
    some (F64.one, false, 0x30000000) := by decide +kernel
/-- R344: every wave slot outputs −1.0 after power-on. -/
theorem test_gbWave : sampleOf { oscAt .gbWave 0x2000000 0 with sub := 2#4 } 50#8 =
    some (F64.negOne, false, 0x2000000) := by decide +kernel
/-- 2.4: one sample of FC_NOISE from NOTE_ON at period index 0: register 0x20, timer 51545. -/
theorem test_fcNoise : (Lfsr.reset 15).tick defaultParams 1 = { lfsr := 0x20#15, acc := 51545, pidx := 0#4 } := by
  decide +kernel
/-- 2.5: at 126 a 1-bit is dropped, and at the end of the bits the loop restarts with bit 0. -/
theorem test_dpcm_loop : (dmcClock defaultParams { State.reset with dpcm := [(1, 0xFF#8)] } ⟨1#32, 4#32, 126#7, true⟩
      ⟨126#7, 4#32, 0, 15#4⟩).toOption = some ⟨126#7, 1#32, 0, 15#4⟩ := by decide +kernel
/-- 2.2: note 81 has the increment 10713070, and 143 with +500 cents that of the last entry of the table. -/
theorem test_increment : (carrierInc defaultParams singing (basePitch singing),
      carrierInc defaultParams singing (basePitch { singing with note := 143#8, detune := 500#32 })) =
    (10713070, 407446485) := by decide +kernel
/-- 2.2: the phase offsets of 0.25, of −0.25 and of +infinity. -/
theorem test_phaseOffset : [quarter, ⟨0xBFD0000000000000#64⟩, ⟨0x7FF0000000000000#64⟩].map (phaseOffset defaultParams) =
    [0x10000000, 805306368, 0] := by decide +kernel
/-- 2.2: DbIndex of 0.5, and `DB_TAB[127]` = 0.003895724488150334. -/
theorem test_decibels : (dbIndex half, defaultParams.dbTab 127) = (127, ⟨0x3F6FE9ED28AAA7EC#64⟩) := by decide +kernel

/-! ### Filters (95_test_vectors.md 2.7) -/

/-- The first output of the quality LPF at 220 Hz for the input 1.0: 0.0009522492763920276. -/
theorem test_qualityLpf : (filterSample defaultParams { Channel.reset with ftype := .qualityLpf, fcut := 6900#32 } F64.one).1 =
    ⟨0x3F4F340BBFF797AE#64⟩ := by decide +kernel
/-- The first output of the fast HPF at 220 Hz for the input 1.0: 0.9999998978058691. -/
theorem test_fastHpf : (filterSample defaultParams { Channel.reset with ftype := .fastHpf, fcut := 6900#32 } F64.one).1 =
    ⟨0x3FEFFFFFC9228BAC#64⟩ := by decide +kernel
/-- 2.8: with the test set `0.5, 0.5, 0, …` an output is half the input plus half the previous output. -/
theorem test_formant : (formantStep (fun j => if j = 0 ∨ j = 1 then half else F64.zero)
      ((Vector.replicate 10 F64.zero).set 0 half) F64.zero).1 = quarter := by decide +kernel

/-! ### Host accesses (95_test_vectors.md 2.9 and 2.11) -/

/-- A 32-bit write of `v` to the host address `a`. -/
def poke (a v : Nat) (s : State) : State := hostWrite defaultParams (BitVec.ofNat 32 a) .w4 (BitVec.ofNat 64 v) s

/-- The data and the BUSERR of a read. -/
def peek (a : Nat) (w : Width) (s : State) : Nat × Bool :=
  let r := hostRead defaultParams (BitVec.ofNat 32 a) w s
  (r.1.toNat, r.2.status.buserr)

theorem test_read_id : peek 0x0 .w4 State.reset = (0x534C4D4C, false) := by decide +kernel
theorem test_read_reserved : peek 0x18 .w4 State.reset = (0, false) := by decide +kernel
theorem test_read_width : peek 0x0 .w2 State.reset = (0, true) := by decide +kernel
theorem test_read_misaligned : peek 0x2 .w4 State.reset = (0, true) := by decide +kernel
theorem test_read_unmapped : peek 0x3000 .w4 State.reset = (0, true) := by decide +kernel
theorem test_write_base : peek 0x100 .w4 (poke 0x100 0x123 State.reset) = (0x120, false) := by decide +kernel
theorem test_write_cfg : peek 0x308 .w4 (poke 0x308 0xFFFFFFFF State.reset) = (0x17F, false) := by decide +kernel
theorem test_write_ntracks : (fun s : State => (s.ntracks, s.status.clamp)) (poke 0xC 100 State.reset) = (64#32, true) := by
  decide +kernel
theorem test_write_blockLen : (fun s : State => (s.blockLen, s.status.clamp)) (poke 0x10 9000 State.reset) =
    (8192#32, true) := by decide +kernel
theorem test_write_out : (poke 0x10000 1 State.reset).status.buserr = true := by decide +kernel
theorem test_read_out : (peek 0x10000 .w8 { State.reset with out := [(0, ⟨0xBFE0000000000000#64⟩)] },
      peek 0x10004 .w4 { State.reset with out := [(0, ⟨0xBFE0000000000000#64⟩)] }) =
    ((0xBFE0000000000000, false), (0xBFE00000, false)) := by decide +kernel
theorem test_write_evm : peek 0x1000003 .w1 (hostWrite defaultParams 0x1000003#32 .w1 0x16#64 State.reset) = (0x16, false) := by
  decide +kernel
/-- 2.9: START, START again, and CTRL with START and RENDER from stopped. -/
theorem test_start : (poke 4 1 State.reset).status.toWord = 0x01#32 ∧
    (poke 4 1 (poke 4 1 State.reset)).status.toWord = 0x41#32 := by decide +kernel
theorem test_render : (fun s : State => (s.status.toWord, s.engine.busy)) (poke 4 3 State.reset) = (0x01#32, true) ∧
    (poke 4 2 State.reset).status.toWord = 0x40#32 := by decide +kernel
theorem test_reset_wins : (fun s : State => (s.status.toWord, s.engine.busy))
    (poke 4 0x80000003 (poke 4 1 State.reset)) = (0x00#32, false) := by decide +kernel
theorem test_stop : (poke 4 4 (poke 4 1 State.reset)).status.toWord = 0x00#32 := by decide +kernel
theorem test_status_w1c : (poke 8 0x7F { State.reset with status := ⟨false, true, true, false, false, false, true⟩ }).status.toWord =
    0x02#32 := by decide +kernel

/-! ### Steps -/

/-- 41_channel.md R281, R291: one step of a voice renders SAW −1.0 at the pan centre to both sides of its first frame. -/
theorem test_step_renders : after (fun t => (t.outAt 0, t.outAt 1, t.tr.ch.oncount, t.engine.pos))
      (step (rendering 1 (trackOf { singing with osc1 := { Oscillator.reset with form := .phase .saw } }) 0 1 (.eot 9#32))) =
    some (⟨0xBFE0000000000000#64⟩, ⟨0xBFE0000000000000#64⟩, 1#64, 1) := by decide +kernel
/-- The host interface: the very next step applies the record whose bits are given. -/
theorem test_withFetchWord : after (fun t => t.tracks.get 0 |>.ch.pan) (step (State.reset.withFetchWord 32 0x0A00007F)) =
    some 127#8 := by decide +kernel
theorem test_decodeTableWord : decodeTableWord 64 0x000000600100647F = some (.noteOn 96#32 0x7F#8 0x64#8) := by
  decide +kernel

/-! ### Host duties (95_test_vectors.md 1.1, 1.6) -/

theorem test_dotted : (dottedTicks (lengthTicks 96 5) 1, dottedTicks (lengthTicks 96 5) 2, dottedTicks (lengthTicks 96 7) 2) =
    (114, 133, 94) := by decide +kernel
/-- `t120l4cd` with a full gate, after ConductTracks. -/
theorem test_conductTracks :
    let w := (TrackWriter.empty.note id (BitVec.ofNat 8 (noteIndex 4 .c 0)) 100#8 96).note id
      (BitVec.ofNat 8 (noteIndex 4 .d 0)) 100#8 96
    conductTracks 2 [([.tempo 0#32 120000#32], 0), (w.log, w.cursor)] =
      [[.tempo 0#32 120000#32, .close 192#32, .eot 384#32],
       [.tempo 0#32 120000#32, .noteOn 0#32 72#8 100#8, .noteOff 96#32 0#8 0#8, .noteOn 0#32 74#8 100#8,
        .noteOff 96#32 0#8 0#8, .close 0#32, .eot 384#32]] := by decide +kernel

/-! ### Witnesses: concrete states and operands that meet the hypotheses of each statement together

A statement without hypotheses has none. Where a statement has clauses, each clause has its own state, at a boundary of
its range where it has one. -/

/-- A record of the track being processed is pending. -/
def isPending (s : State) : Bool :=
  s.engine.busy && !s.tr.ended && decide (s.engine.pos < s.engine.frames) &&
    decide (s.tr.cursor.toNat < (s.trkLen.get s.engine.track).toNat)

/-- The record `i` is pending and not due. -/
def isWaiting (s : State) (i : Instr) : Bool :=
  isPending s && (match s.fetch defaultParams with | .ok j => decide (j = i) | .error _ => false) && !s.isDue i

/-- The step goes on. -/
def goesOn (s : State) : Bool :=
  match step s with
  | .next _ => true
  | .fault _ => false
  | .refused _ => false

theorem pending_of {s : State} (h : isPending s = true) : RecordPending s := by
  simp only [isPending, Bool.and_eq_true, Bool.not_eq_true', decide_eq_true_eq] at h
  exact ⟨h.1.1.1, h.1.1.2, h.1.2, h.2⟩

theorem waiting_of {s : State} {i : Instr} (h : isWaiting s i = true) : RecordWaiting s i := by
  simp only [isWaiting, Bool.and_eq_true, Bool.not_eq_true'] at h
  obtain ⟨⟨hp, hf⟩, hd⟩ := h
  cases hs : s.fetch defaultParams with
  | error f => simp [hs] at hf
  | ok j =>
    rw [hs] at hf
    obtain rfl : j = i := of_decide_eq_true hf
    exact { pending := pending_of hp, bytes := fetch_ok hs, later := hd }

theorem next_of {s : State} (h : goesOn s = true) : ∃ t, step s = .next t := by
  unfold goesOn at h
  split at h
  · exact ⟨_, by assumption⟩
  · cases h
  · cases h

/-- The step answers the model fault `f`. -/
def faultsWith (s : State) (f : Fault) : Bool :=
  match step s with
  | .next _ => false
  | .fault g => decide (g = f)
  | .refused _ => false

theorem faults_of {s : State} {f : Fault} (h : faultsWith s f = true) : step s = .fault f := by
  unfold faultsWith at h
  split at h
  · cases h
  · rename_i g hg
    obtain rfl : g = f := of_decide_eq_true h
    exact hg
  · cases h

/-- A voice that sings SAW, four samples of a block before a record that waits. -/
def song : State :=
  rendering 1 (trackOf { singing with osc1 := { Oscillator.reset with form := .phase .saw } }) 0 4 (.eot 9#32)
/-- The tempo track before a record that waits. -/
def tempoSong : State := rendering 0 Track.reset 0 4 (.eot 9#32)
/-- A track whose record is due at sample 0. -/
def dueSong : State := rendering 1 (trackOf singing) 0 4 (.pan 0#32 127#8)
/-- A silent voice that overwrites its pipe and produces sync. -/
def silentSong : State :=
  rendering 1 (trackOf { Channel.reset with outMode := .overwrite, syncMode := .out }) 0 4 (.eot 9#32)
/-- A voice that plays the DPCM kind from the slot `slot` with the memory `m`. -/
def dpcmSong (slot : DpcmSlot) (m : List Host.Cell) : State :=
  { rendering 1 (trackOf { singing with osc1 := { Oscillator.reset with form := .dpcm, dpcm := ⟨0#7, 0#32, 0, 15#4⟩ } }) 0 4
      (.eot 9#32) with dpcmSlots := vset State.reset.dpcmSlots 0 slot, dpcm := m }
/-- One sample a tick: the record after `d` samples, `n` of them elapsed, in a block of `f`. -/
def tickSong (d n f : Nat) : State :=
  rendering 1 { trackOf singing with spt := F64.one, needle := F64.ofNat n } 0 f (.eot (BitVec.ofNat 32 d))

theorem witness_DecodeOfEncode : (Instr.reserved18 0xFFFFFFFF#32 0x1F#8).wellFormed = true ∧
    (Instr.lfo 1#32 255#8 255#8 1#1 5#32 6#32 7#32 0xFFFFFFFF#32).wellFormed = true := by decide
theorem witness_DecoderTotalByKind : (List.replicate 33 0#8 : List Byte).length ≠ 32 ∧
    (List.replicate 32 0xFF#8 : List Byte).length = 32 := by decide
theorem witness_StepRunsDueRecord : RecordPending dueSong ∧
    (∃ bs, PendingBytes defaultParams dueSong bs ∧ decode bs = .ok (.pan 0#32 127#8)) ∧
    (recordDuration dueSong (.pan 0#32 127#8)).le dueSong.tr.needle = true := by
  refine ⟨pending_of (by decide +kernel), fetch_ok ?_, by decide +kernel⟩
  have h : (match dueSong.fetch defaultParams with | .ok j => decide (j = .pan 0#32 127#8) | .error _ => false) = true := by
    decide +kernel
  cases hs : dueSong.fetch defaultParams with
  | error f => simp [hs] at h
  | ok j => rw [hs] at h; rw [of_decide_eq_true h]
theorem witness_NoteOffAndCloseEvents :
    (Instr.noteOff 1#32 255#8 0#8 = .noteOff 1#32 255#8 0#8 ∨ Instr.noteOff 1#32 255#8 0#8 = .close 1#32) ∧
    (Instr.close 1#32 = .noteOff 1#32 255#8 0#8 ∨ Instr.close 1#32 = .close 1#32) := by decide
/-- The clauses of Triggered and Released: an attack, a decay, neither; idle, a release, a stop; and the ends of a clamp. -/
theorem witness_NoteOnEvent : ({ sounding with A := 1#32 } : Envelope).A ≠ 0#32 ∧
    (sounding.A = 0#32 ∧ ({ sounding with D := 1#32 } : Envelope).D ≠ 0#32) ∧ sounding.D = 0#32 ∧
    Envelope.reset.playing = false ∧ sounding.playing = true ∧ sounding.R = 0#32 ∧
    ({ sounding with R := 1#32 } : Envelope).R ≠ 0#32 ∧ ClampedTo 1 127 0 1 ∧ ClampedTo 1 127 127 127 ∧
    ClampedTo 1 127 128 127 := by
  unfold ClampedTo
  decide
theorem witness_EotEvent : (voice singing).engine.track.val ≠ 0 ∧ tempoSong.engine.track.val = 0 := by decide +kernel
theorem witness_ReservedEvents (delta : Word) : ∀ i ∈ [Instr.reserved00 delta, .reserved17 delta, .reserved18 delta 0x1F#8,
      .reserved20 delta 0x1F#8, .reserved40 delta 0x1F#8, .reserved80 delta 0x1F#8],
    i = .reserved00 delta ∨ i = .reserved17 delta ∨ i = .reserved18 delta 0x1F#8 ∨ i = .reserved20 delta 0x1F#8 ∨
      i = .reserved40 delta 0x1F#8 ∨ i = .reserved80 delta 0x1F#8 := by
  intro i h
  simpa using h

theorem witness_TempoTrackChunk : RecordWaiting tempoSong (.eot 9#32) ∧ tempoSong.engine.track.val = 0 :=
  ⟨waiting_of (by decide +kernel), by decide +kernel⟩
theorem witness_SilentChunk : RecordWaiting silentSong (.eot 9#32) ∧ silentSong.engine.track.val ≠ 0 ∧
    silentSong.ch.env1.playing = false ∧ MemoryCanonical defaultParams silentSong :=
  ⟨waiting_of (by decide +kernel), by decide +kernel, by decide +kernel,
    ⟨by decide +kernel, by decide +kernel, fun _ => by decide +kernel⟩⟩
theorem witness_ChunkAdvances : RecordWaiting song (.eot 9#32) ∧ song.tr.needle.isNaN = false ∧
    (recordDuration song (.eot 9#32)).isNaN = false ∧ ∃ t, step song = .next t :=
  ⟨waiting_of (by decide +kernel), by decide +kernel, by decide +kernel, next_of (by decide +kernel)⟩
/-- A chunk whose carrier completes, and one whose carrier cannot read its DPCM slot. -/
theorem witness_ChunkRunsItsStages :
    ∀ x ∈ [(song, true), (dpcmSong ⟨0#32, 8#32, 64#7, false⟩ [], false)],
      RecordWaiting x.1 (.eot 9#32) ∧ x.1.engine.track.val ≠ 0 ∧ x.1.ch.env1.playing = true ∧
        MemoryCanonical defaultParams x.1 ∧
        (carrier defaultParams x.1 x.1.engine.pos (samplesToRun x.1 (.eot 9#32)) x.1.ch).toBool = x.2 := by
  intro x h
  simp only [List.mem_cons, List.not_mem_nil, or_false] at h
  rcases h with rfl | rfl
  · exact ⟨waiting_of (by decide +kernel), by decide +kernel, by decide +kernel,
      ⟨by decide +kernel, by decide +kernel, fun _ => by decide +kernel⟩, by decide +kernel⟩
  · exact ⟨waiting_of (by decide +kernel), by decide +kernel, by decide +kernel,
      ⟨by decide +kernel, by decide +kernel, fun _ => by decide +kernel⟩, by decide +kernel⟩
/-- The block reaches the record. -/
theorem witness_IntegerTiming_reached : ∃ t, RecordWaiting (tickSong 3 1 4) (.eot 3#32) ∧
    recordDuration (tickSong 3 1 4) (.eot 3#32) = F64.ofNat 3 ∧ (tickSong 3 1 4).tr.needle = F64.ofNat 1 ∧
    step (tickSong 3 1 4) = .next t := by
  obtain ⟨t, h⟩ := next_of (s := tickSong 3 1 4) (by decide +kernel)
  exact ⟨t, waiting_of (by decide +kernel), by decide +kernel, by decide +kernel, h⟩
/-- The block ends one sample short of the record. -/
theorem witness_IntegerTiming_short : ∃ t, RecordWaiting (tickSong 3 0 2) (.eot 3#32) ∧
    recordDuration (tickSong 3 0 2) (.eot 3#32) = F64.ofNat 3 ∧ (tickSong 3 0 2).tr.needle = F64.ofNat 0 ∧
    step (tickSong 3 0 2) = .next t := by
  obtain ⟨t, h⟩ := next_of (s := tickSong 3 0 2) (by decide +kernel)
  exact ⟨t, waiting_of (by decide +kernel), by decide +kernel, by decide +kernel, h⟩
/-- Also of ChunkStepsEnvelopes, UnselectedModulatorsKept and, with the next theorem, EngineLeavesHostState. -/
theorem witness_ChunkWritesOnlyItsSamples : ∃ t, RecordWaiting song (.eot 9#32) ∧ song.engine.track.val ≠ 0 ∧
    song.ch.env1.playing = true ∧ step song = .next t := by
  obtain ⟨t, h⟩ := next_of (s := song) (by decide +kernel)
  exact ⟨t, waiting_of (by decide +kernel), by decide +kernel, by decide +kernel, h⟩
/-- A Channel whose LFO input comes from a pipe. -/
theorem witness_UnselectedModulatorsKept : ∃ s t : State, RecordWaiting s (.eot 9#32) ∧ step s = .next t ∧
    s.ch.inSens.isZero = false := by
  let s := rendering 1 (trackOf { singing with inSens := half }) 0 2 (.eot 9#32)
  obtain ⟨t, h⟩ := next_of (s := s) (by decide +kernel)
  exact ⟨s, t, waiting_of (by decide +kernel), h, by decide +kernel⟩
/-- A due record, a chunk and a track that is done. -/
theorem witness_EngineLeavesHostState : ∀ s ∈ [dueSong, song, tickSong 3 1 0], s.engine.busy = true ∧ ∃ t, step s = .next t := by
  intro s h
  simp only [List.mem_cons, List.not_mem_nil, or_false] at h
  rcases h with rfl | rfl | rfl
  · exact ⟨by decide +kernel, next_of (by decide +kernel)⟩
  · exact ⟨by decide +kernel, next_of (by decide +kernel)⟩
  · exact ⟨by decide +kernel, next_of (by decide +kernel)⟩
/-- Ended, at the end of the block, exhausted; slot 1 of 2 is the last, slot 0 is not. -/
theorem witness_TrackGivesWay :
    (∀ s ∈ [rendering 1 { Track.reset with ended := true } 0 4 (.eot 9#32), rendering 0 Track.reset 4 4 (.eot 9#32)],
      s.engine.busy = true ∧ s.ntracks.toNat ≤ 64 ∧ (s.tr.ended = true ∨ s.engine.frames ≤ s.engine.pos)) ∧
    (∀ s ∈ [rendering 0 { Track.reset with cursor := 1#32 } 0 4 (.eot 9#32),
        { rendering 63 { Track.reset with cursor := 1#32 } 3 4 (.eot 9#32) with ntracks := 64#32 }],
      s.engine.busy = true ∧ s.ntracks.toNat ≤ 64 ∧ s.tr.ended = false ∧ s.engine.pos < s.engine.frames ∧
      (s.trkLen.get s.engine.track).toNat ≤ s.tr.cursor.toNat) := by
  decide +kernel
/-- No byte of the record, or all but its last, written; a DPCM slot that was never written. -/
theorem witness_FaultsOnlyUnreadable :
    (RecordPending { song with evm := [] } ∧ State.evmRead defaultParams { song with evm := [] } 0 = none ∧
      step { song with evm := [] } = .fault .eventFetch) ∧
    (RecordPending { song with evm := evmWithBytes [] 0 ((encode (.eot 9#32)).take 31) } ∧
      State.evmRead defaultParams { song with evm := evmWithBytes [] 0 ((encode (.eot 9#32)).take 31) } 31 = none) ∧
    step (dpcmSong ⟨0#32, 8#32, 64#7, false⟩ []) = .fault .dpcmRead := by
  exact ⟨⟨pending_of (by decide +kernel), by decide +kernel, faults_of (by decide +kernel)⟩,
    ⟨pending_of (by decide +kernel), by decide +kernel⟩, faults_of (by decide +kernel)⟩

/-- A carrier sample completes. -/
def carries (ch : Channel) (sy : Syncs) (s : State) : Bool :=
  match carrierSample defaultParams s 0 8191 ch sy with
  | .ok _ => true
  | .error _ => false

/-- The sync buffers with a flag of 1 at the last sample of buffer 0. -/
def pulse : Syncs := vset State.reset.syncs 0 [(8191, true)]

/-- A sync input of 1 and of 0; a phase, an LFSR and a DPCM kind that completes, and a DPCM kind, one
cycle short of its clock (R362), that does not. -/
theorem witness_CarrierSample :
    (∀ i, Cells.wf false defaultParams.blockMax (pulse.get i) = true) ∧
    SyncInput { singing with syncMode := .inp } pulse 8191 = true ∧ SyncInput singing pulse 8191 = false ∧
    (∀ k ∈ [Kind.phase .gbWave, .lfsr .fcNoise, .dpcm],
      carries { singing with osc1 := { Oscillator.reset with form := k }, syncMode := .out } pulse State.reset = true) ∧
    carries { singing with osc1 := { Oscillator.reset with form := .dpcm, dpcm := ⟨0#7, 0#32, 4762799, 15#4⟩ } } pulse
      (dpcmSong ⟨0#32, 8#32, 64#7, false⟩ []) = false := by
  decide +kernel
/-- Every sub-form class, the last phase below the threshold of each duty and the thresholds; the corners of TRI32. -/
theorem witness_ShapeOfPhaseKinds : 5 ≤ defaultParams.tableBits + defaultParams.fracBits ∧
    (∀ x ∈ [(0#4, 1), (1#4, 2), (2#4, 4), (3#4, 6), (15#4, 6)],
      ((x.1.toNat = 0 ∧ x.2 = 1) ∨ (x.1.toNat = 1 ∧ x.2 = 2) ∨ (x.1.toNat = 2 ∧ x.2 = 4) ∨ (3 ≤ x.1.toNat ∧ x.2 = 6)) ∧
      8 * (x.2 * 2 ^ 27 - 1) < x.2 * 2 ^ 30 ∧ ¬8 * (x.2 * 2 ^ 27) < x.2 * 2 ^ 30) ∧
    31 = 32 * (2 ^ 30 - 1) / 2 ^ (defaultParams.tableBits + defaultParams.fracBits) ∧
    PhaseKind.fcTri ≠ .fcPulse ∧ PhaseKind.fcTri ≠ .gbWave ∧ 15 < 16 := by decide +kernel
/-- A NOISE carrier with a frequency and the frequency's increment; offsets of a finite input and of one that is not. -/
theorem witness_CarrierPitchAndOffset :
    (((F64.ofNat 440).mul (F64.ofNat (2 ^ (defaultParams.tableBits + defaultParams.fracBits)))).div (F64.ofNat 44100)).floor =
      (10713070 : Nat) ∧
    quarter.isFinite = true ∧ (⟨0x7FF0000000000000#64⟩ : F64).isFinite = false ∧
    ({ singing with inSens := quarter } : Channel).inSens.isZero = false := by decide +kernel
/-- A Channel whose LFO is active, with a width of 22050 samples (42_oscillator.md R324). -/
def vibrato : Channel := { singing with lfoDepth := 100#32, lfoWidth := F64.ofNat 22050 }
/-- An active LFO and one that is not; its increment; a read of each kind of modulator that completes, and one that does
not. -/
theorem witness_LfoWindowReadAndPitch : lfoActive vibrato = true ∧ lfoActive singing = false ∧
    ((F64.ofNat (2 ^ (defaultParams.tableBits + defaultParams.fracBits))).div vibrato.lfoWidth).floor = (48695 : Nat) ∧
    lfoInc defaultParams vibrato = 48695 ∧
    (∀ k ∈ [Kind.phase .noise, .phase .sine, .lfsr .gbSNoise, .dpcm],
      (Oscillator.lfoRead defaultParams State.reset 50#8 { Oscillator.reset with form := k } 2).toBool = true) ∧
    (Oscillator.lfoRead defaultParams (dpcmSong ⟨0#32, 8#32, 64#7, false⟩ []) 50#8
      { Oscillator.reset with form := .dpcm, dpcm := ⟨0#7, 0#32, 0, 15#4⟩ } 2).toBool = false ∧
    (lfoPitch defaultParams State.reset 245 vibrato).toBool = true ∧
    vibrato.inSens.isZero = true ∧ 1 ≤ defaultParams.lfoBatch ∧
    (List.range ((600 + defaultParams.lfoBatch - 1) / defaultParams.lfoBatch)).map
      (fun b => min defaultParams.lfoBatch (600 - b * defaultParams.lfoBatch)) = [245, 245, 110] := by decide +kernel
theorem witness_AddPhaseIsSamples : OscInRange defaultParams (oscAt .gbWave 0x3FFFFFFF 0x3FFFFFFF) ∧
    (oscAt .gbWave 0x3FFFFFFF 1).form = .phase .gbWave ∧ PhaseKind.sine ≠ .gbWave := by
  refine ⟨⟨by decide +kernel, fun k => ?_⟩, by decide, by decide⟩
  cases k <;> decide +kernel
theorem witness_TimersRunTheirLoops : (∀ i : BitVec 4, 0 < defaultParams.noisePeriod i * defaultParams.refDen * 44100) ∧
    ∀ i : BitVec 4, 0 < defaultParams.dpcmRate i * defaultParams.refDen * 44100 := by decide +kernel
theorem witness_LfsrShifts : 14 < 15 ∧ 6 < 7 ∧ 0 < 92 ∧ 92 < 93 ∧ 0 < 126 ∧ 126 < 127 := by decide
/-- At the end of a slot that does not loop, of one that does, of an empty one; one bit before the end. -/
theorem witness_DpcmClock :
    ((8#32).toNat ≤ (8#32).toNat ∧ (DpcmSlot.mk 0#32 8#32 0#7 false).loop = false) ∧
    ((DpcmSlot.mk 0#32 0#32 0#7 true).bits = 0#32 ∧
      dmcClock defaultParams State.reset ⟨0#32, 0#32, 0#7, true⟩ ⟨5#7, 0#32, 0, 0#4⟩ = .ok ⟨5#7, 0#32, 0, 0#4⟩) ∧
    ((DpcmSlot.mk 0#32 8#32 0#7 true).loop = true ∧ (DpcmSlot.mk 0#32 8#32 0#7 true).bits ≠ 0#32) ∧
    ((7#32).toNat < (8#32).toNat ∧ State.dpcmRead defaultParams State.reset 0 = none ∧
      State.dpcmRead defaultParams { State.reset with dpcm := [(0, 0x80#8)] } 0 = some 0x80#8) := by
  decide +kernel

/-- An attack with and without a decay, a decay, a release, each of one sample; a sustain. -/
theorem witness_EnvelopeRampsExact :
    (∀ e ∈ [{ sounding with state := .attack, len := 1#32, D := 1#32 }, { sounding with state := .attack, len := 1#32 },
      { sounding with state := .decay, len := 1#32 }, { sounding with state := .release, len := 1#32 }],
      e.count = 0#32 ∧ 0 < e.len.toNat) ∧ sounding.state = .sustain ∧ Envelope.reset.state = .idle := by decide +kernel

/-- The conditions of EnvelopeCoherent. -/
def isCoherent (e : Envelope) : Bool :=
  decide (e.playing = true ↔ e.state ≠ .idle) && decide (e.count.toNat ≤ e.len.toNat) &&
    decide (e.state = .attack ∨ e.state = .decay ∨ e.state = .release → e.count.toNat < e.len.toNat) &&
    [e.value, e.S, e.target, e.step].all fun v => F64.zero.le v && v.le F64.one

theorem coherent_of {e : Envelope} (h : isCoherent e = true) : EnvelopeCoherent e := by
  simp only [isCoherent, List.all_cons, List.all_nil, Bool.and_true, Bool.and_eq_true, decide_eq_true_eq] at h
  obtain ⟨⟨⟨h1, h2⟩, h3⟩, h4, h5, h6, h7⟩ := h
  exact ⟨h1, h2, h3, h4, h5, h6, h7⟩

/-- An attack half way, a release at half level, a release at 0, a sustain that plays. -/
theorem witness_EnvelopeMonotone :
    (∀ e ∈ [{ sounding with state := .attack, value := half, step := quarter, len := 4#32, D := 1#32, count := 2#32 },
      { sounding with state := .release, value := half, step := quarter, len := 4#32, count := 2#32, target := F64.zero },
      { sounding with state := .release, value := F64.zero, step := F64.zero, len := 4#32, target := F64.zero },
      { sounding with R := 4#32 }], EnvelopeCoherent e) ∧
    (Envelope.advance { sounding with state := .attack, value := half, step := quarter, len := 4#32, D := 1#32, count := 2#32 }
      ).state ≠ .sustain := by
  refine ⟨?_, by decide +kernel⟩
  intro e h
  exact coherent_of ((by decide +kernel : ∀ e ∈ [_, _, _, _], isCoherent e = true) e h)

theorem witness_OutputSample : Memory.wf defaultParams song = true ∧ 8191 < defaultParams.blockMax := by decide +kernel
/-- Both volume modes; a ring sensitivity of 0 and one that is not. -/
theorem witness_AmplitudeAndRingStages : singing.volmode = .linear ∧ ({ singing with volmode := .nonLinear }).volmode = .nonLinear ∧
    singing.ringSens.isZero = true ∧ ({ singing with ringSens := quarter } : Channel).ringSens.isZero = false ∧
    [F64.one, half][1]? = some half := by decide +kernel
/-- Every type of filter, an amount of 0 and one that is not, no vowel and the last. -/
theorem witness_FilterAndFormantStages : singing.ftype = .off ∧ ({ singing with ftype := .qualityLpf }).ftype = .qualityLpf ∧
    ({ singing with ftype := .qualityHpf }).ftype = .qualityHpf ∧ ({ singing with ftype := .fastLpf }).ftype = .fastLpf ∧
    ({ singing with ftype := .fastHpf }).ftype = .fastHpf ∧ singing.famt = 0#32 ∧
    ({ singing with famt := 0xFFFFFFFF#32 }).famt ≠ 0#32 ∧ singing.vowel = .off ∧ ({ singing with vowel := .u }).vowel ≠ .off := by
  decide

/-! #### Parameters -/

theorem witness_LegalParams : LegalParams defaultParams :=
  ⟨by decide, by decide, by decide, by decide, by decide, by decide, by decide, by decide, by decide⟩
/-- A block of other parameters: 20-bit phases, 2 tracks, 1 DPCM slot and the smallest buffers and memories. -/
def tiny : Params :=
  { paramsFor 10 10 (F64.ofNat 48) with ntrackMax := 2, ndpcm := 1, blockMax := 1024, dpcmSize := 4, evmSize := 32 }
theorem witness_LegalParams_tiny : LegalParams tiny :=
  ⟨by decide, by decide, by decide, by decide, by decide, by decide, by decide, by decide, by decide⟩
/-- 20_memory.md R101 with its capacities: the last word of each memory is mapped and the next is not. -/
theorem test_tiny_map : ([0x13FFC, 0x100000, 0x100001C, 0x14000, 0x100004, 0x1000020].map fun a => (locate tiny a).isSome) =
    [true, true, true, false, false, false] := by decide +kernel
/-- NTRACKS clamps to 2, and the registers of track 2 and of slot 1 are not there. -/
theorem test_tiny_registers : regAt tiny 0x10C = .trkLen 1 ∧ regAt tiny 0x110 = .reserved ∧ regAt tiny 0x308 = .dpcmCfg 0 ∧
    regAt tiny 0x310 = .reserved ∧ (hostWrite tiny 0x00C#32 .w4 9#64 State.reset).ntracks = 2#32 := by decide +kernel
/-- SAW at a quarter of a 20-bit phase circle reads −0.5, and the increment of the sample rate is the largest. -/
theorem test_tiny_phase : shape tiny State.reset 50#8 0#4 .saw 0x40000 = half.neg ∧ incOf tiny (F64.ofNat 44100) = 0xFFFFF := by
  decide +kernel

/-- The default tables of one, two and four entries (42_oscillator.md R336 with 2^TABLE_BITS entries). -/
theorem test_small_tables : (defaultSineTab 0 0, defaultTriTab 0 0, defaultSawTab 0 0) = (F64.zero, F64.zero, F64.one.neg) ∧
    ([0, 1].map (defaultSineTab 1), [0, 1].map (defaultTriTab 1)) = ([F64.zero, F64.zero], [F64.zero, F64.zero]) ∧
    ([0, 1, 2, 3].map (defaultSineTab 2), [0, 1, 2, 3].map (defaultTriTab 2)) =
      ([F64.zero, F64.one, F64.zero, F64.one.neg], [F64.zero, F64.one, F64.zero, F64.one.neg]) := by decide +kernel

/-! #### Host accesses -/

/-- The last register and word of each space; one past each space, a wrong width, a misaligned address. -/
theorem witness_HostReads :
    (∀ x ∈ [(0xFFC, Width.w4), (0x11FF, .w1), (0x10FFFE, .w2), (0x10FFFFC, .w4), (0x10000, .w8), (0x2FFF8, .w8)],
      ReadPerformed defaultParams (BitVec.ofNat 32 x.1) x.2) ∧
    ∀ x ∈ [(0xFFC, Width.w2), (0x1200, .w1), (0xFFFF, .w1), (0x30000, .w4), (0xFFFFC, .w4), (0x110000, .w1), (0x1100000, .w4),
        (0x1001, .w2), (0x10004, .w8), (0x1000, .w8), (0xFFFFFFFF, .w1)], ¬ReadPerformed defaultParams (BitVec.ofNat 32 x.1) x.2 := by
  unfold ReadPerformed InWritableMemory
  decide +kernel
/-- A performed write when BUSERR is set already. -/
theorem witness_UnperformedWrites :
    (∀ x ∈ [(0x10000, Width.w8), (0x2FFFC, .w4), (0x0, .w1), (0x1200, .w1), (0x1100000, .w4)],
      ¬WritePerformed defaultParams (BitVec.ofNat 32 x.1) x.2) ∧
    WritePerformed defaultParams 0x11FF#32 .w1 ∧ WritePerformed defaultParams 0xFFC#32 .w4 ∧
    (hostWrite defaultParams 0x11FF#32 .w1 1#64 { State.reset with status := { Status.reset with buserr := true } }).status.buserr = true := by
  unfold WritePerformed InWritableMemory
  decide +kernel
theorem witness_RegisterReads : 63 < defaultParams.ntrackMax ∧ 15 < defaultParams.ndpcm ∧ 57 < 58 ∧ 0x18 + 4 * 57 = 0xFC ∧ 639 < 640 ∧ 0x600 + 4 * 639 = 0xFFC := by
  decide
theorem witness_RegisterWrites : (0#32) = (0xFF00000000#64).setWidth 32 ∧ (8193#32) = (8193#64).setWidth 32 ∧
    State.reset.status.running = false ∧ song.status.running = true ∧ 63 < defaultParams.ntrackMax ∧
    15 < defaultParams.ndpcm ∧ 0x30C + 16 * 15 = 0x3FC ∧ 57 < 58 ∧ 639 < 640 := by decide +kernel
/-- The end of wave RAM, the start and the end of EVM, and an address just outside each write. -/
theorem witness_MemoryWriteRead : Memory.wf defaultParams song = true ∧
    (∀ x ∈ [(0x11FE, Width.w2, 0x11FD), (0x1000000, .w4, 0x1000004), (0x10FFFFF, .w1, 0x10FFFFE), (0x10FFFC, .w4, 0x11FF)],
      InWritableMemory defaultParams x.1 ∧ x.1 % widthBytes x.2.1 = 0 ∧ x.2.1 ≠ .w8 ∧ InWritableMemory defaultParams x.2.2 ∧
      ¬(x.1 ≤ x.2.2 ∧ x.2.2 < x.1 + widthBytes x.2.1)) ∧ 3 < widthBytes .w4 := by
  unfold InWritableMemory
  decide +kernel
theorem witness_OutputReads : 0 < 2 * defaultParams.blockMax ∧ 16383 < 2 * defaultParams.blockMax := by decide
/-- Of ResetCommand, StartAndStopCommands and RenderCommand: every word of the bits 2 to 0 without RESET, the bits 2, 1 and
0 as listed, a word with RESET, and both states of RUNNING. -/
theorem witness_Commands : (0xFFFFFFFF#64).getLsbD 31 = true ∧
    (∀ x ∈ [(1#64, false, false, true), (4#64, true, false, false), (5#64, true, false, true), (2#64, false, true, false),
        (3#64, false, true, true), (6#64, true, true, false), (7#64, true, true, true)],
      x.1.getLsbD 31 = false ∧ x.1.getLsbD 2 = x.2.1 ∧ x.1.getLsbD 1 = x.2.2.1 ∧ x.1.getLsbD 0 = x.2.2.2) ∧
    song.status.running = true ∧ State.reset.status.running = false :=
  ⟨by decide +kernel, by simp, by decide +kernel, by decide +kernel⟩
theorem witness_IdleStep : State.reset.engine.busy = false ∧ State.reset.inbox = [] ∧
    ({ State.reset with inbox := [Access.read 0#32 .w4] }).inbox = .read 0#32 .w4 :: [] ∧
    ({ State.reset with inbox := [Access.write 4#32 .w4 1#64] }).inbox = .write 4#32 .w4 1#64 :: [] := by decide +kernel

/-! #### The invariants, in the state of a voice that sings -/

theorem witness_StepKeepsMemoryCanonical : ∃ t, MemoryCanonical defaultParams song ∧ step song = .next t := by
  obtain ⟨t, h⟩ := next_of (s := song) (by decide +kernel)
  exact ⟨t, ⟨by decide +kernel, by decide +kernel, fun _ => by decide +kernel⟩, h⟩

/-- The conditions of ChannelInRange. -/
def channelInRange (c : Channel) : Bool :=
  decide (c.note.toNat ≤ 143 ∧ c.vel.toNat ≤ 127 ∧ c.expr.toNat ≤ 127 ∧ 1 ≤ c.pan.toNat ∧ c.pan.toNat ≤ 127 ∧
    1 ≤ c.pw.toNat ∧ c.pw.toNat ≤ 99) &&
  ([c.osc1, c.osc2].all fun o => decide (o.inc < phaseMod defaultParams) &&
    [PhaseKind.sine, .saw, .triangle, .pulse, .noise, .fcPulse, .fcTri, .gbWave].all fun k =>
      decide (o.phases.get k < phaseMod defaultParams)) &&
  F64.zero.le c.fres && c.fres.le F64.one && F64.zero.le c.inSens && F64.zero.le c.ringSens

theorem channelInRange_of {c : Channel} (h : channelInRange c = true) : ChannelInRange defaultParams c := by
  simp only [channelInRange, List.all_cons, List.all_nil, Bool.and_true, Bool.and_eq_true, decide_eq_true_eq] at h
  obtain ⟨⟨⟨⟨⟨⟨h1, h2, h3, h4, h5, h6, h7⟩, ⟨i1, p1⟩, ⟨i2, p2⟩⟩, r0⟩, r1⟩, s1⟩, s2⟩ := h
  exact ⟨h1, h2, h3, h4, h5, h6, h7, ⟨i1, fun k => by cases k <;> simp only [p1]⟩,
    ⟨i2, fun k => by cases k <;> simp only [p2]⟩, ⟨r0, r1⟩, s1, s2⟩

theorem witness_StepKeepsRegistersInRange : ∃ t, RegistersInRange defaultParams song ∧ step song = .next t := by
  obtain ⟨t, h⟩ := next_of (s := song) (by decide +kernel)
  have hc : ∀ u : Fin 64, channelInRange (song.tracks.get u).ch = true := by decide +kernel
  exact ⟨t, ⟨by decide +kernel, by decide +kernel, by decide +kernel, by decide +kernel, by decide +kernel,
    fun u => channelInRange_of (hc u)⟩, h⟩
theorem witness_StepKeepsEnvelopesCoherent : ∃ t, EnvelopesCoherent song ∧ step song = .next t := by
  obtain ⟨t, h⟩ := next_of (s := song) (by decide +kernel)
  have hc : ∀ u : Fin 64, isCoherent (song.tracks.get u).ch.env1 = true ∧ isCoherent (song.tracks.get u).ch.env2 = true := by
    decide +kernel
  exact ⟨t, fun u => ⟨coherent_of (hc u).1, coherent_of (hc u).2⟩, h⟩
theorem witness_StepKeepsNoiseLive : ∃ t, NoiseLive song ∧ step song = .next t := by
  obtain ⟨t, h⟩ := next_of (s := song) (by decide +kernel)
  have hc : ∀ u : Fin 64, ∀ o ∈ [(song.tracks.get u).ch.osc1, (song.tracks.get u).ch.osc2], o.fcNoise.lfsr ≠ 0#15 ∧
      o.fcSNoise.lfsr ≠ 0#15 ∧ o.gbNoise.lfsr ≠ 0#15 ∧ o.gbSNoise.lfsr ≠ 0#7 := by decide +kernel
  have hl : ∀ (u : Fin 64) (o : Oscillator), o ∈ [(song.tracks.get u).ch.osc1, (song.tracks.get u).ch.osc2] → LfsrsLive o :=
    fun u o ho => ⟨(hc u o ho).1, (hc u o ho).2.1, (hc u o ho).2.2.1, (hc u o ho).2.2.2⟩
  exact ⟨t, fun u => ⟨hl u _ (by simp), hl u _ (by simp)⟩, h⟩
theorem witness_StepKeepsRunCoherent : ∃ t, RunCoherent song ∧ step song = .next t := by
  obtain ⟨t, h⟩ := next_of (s := song) (by decide +kernel)
  exact ⟨t, ⟨by decide +kernel, fun _ => by decide +kernel, fun _ => by decide +kernel, fun _ => by decide +kernel,
    fun hb _ => absurd hb (by decide +kernel)⟩, h⟩

end Sys2Proof.Tests
end

namespace Sys2Proof.Machine

/-! SUPPORT. The state (10_state.md): the invariants that every step keeps, and what the host reads from and writes to each
register. -/

/-! ### What one step does to the registers, the engine and RUNNING

The inversions of a host access and of a step of a RENDER, field by field, from which the invariants of 10_state.md are
derived. -/

/-- An idle step is the host's next access, or nothing. -/
theorem idleStep_cases (p : Params) (s : State) :
    idleStep p s = s ∨ ∃ rest, HostEffect p { s with inbox := rest } (idleStep p s) := by
  unfold idleStep
  split
  · exact Or.inl rfl
  · next a rest _ => exact Or.inr ⟨rest, hostAccess_effect p a _⟩

/-- What a host access can leave in the registers with a legal range (10_state.md R31, R34) and in the engine: the value
before, the value after reset, or a value brought into its range. -/
structure HostWritten (p : Params) (s t : State) : Prop where
  ntracks : t.ntracks = s.ntracks ∨ t.ntracks = 1#32 ∨ ∃ v, t.ntracks = clampWord 1 p.ntrackMax v
  blockLen : t.blockLen = s.blockLen ∨ t.blockLen = 1024#32 ∨ ∃ v, t.blockLen = clampWord 1 p.blockMax v
  trkBase : t.trkBase = s.trkBase ∨ t.trkBase = Vector.replicate 64 0#32 ∨
    ∃ u v, t.trkBase = vset s.trkBase u (v &&& 0xFFFFFFE0#32)
  engine : t.engine = s.engine ∨ t.engine = Engine.idle ∨
    t.engine = { busy := true, track := 0, pos := 0, frames := s.blockLen.toNat } ∧ t.status.running = true

theorem HostEffect.written {p : Params} {s t : State} (h : HostEffect p s t) : HostWritten p s t := by
  cases h with
  | ctrl v =>
    rcases ctrlWrite_cases s v with hc | e
    · exact ⟨.inl hc.registers.ntracks, .inl hc.registers.blockLen, .inl hc.registers.trkBase, hc.engine.imp_right .inr⟩
    · rw [e]; exact ⟨.inr (.inl rfl), .inr (.inl rfl), .inr (.inl rfl), .inr (.inl rfl)⟩
  | ntracks b v => exact ⟨.inr (.inr ⟨v, rfl⟩), .inl rfl, .inl rfl, .inl rfl⟩
  | blockLen b v => exact ⟨.inl rfl, .inr (.inr ⟨v, rfl⟩), .inl rfl, .inl rfl⟩
  | trkBase u v => exact ⟨.inl rfl, .inl rfl, .inr (.inr ⟨u, v, rfl⟩), .inl rfl⟩
  | _ => exact ⟨.inl rfl, .inl rfl, .inl rfl, .inl rfl⟩

/-- Moving to the next track writes no register, and keeps the frames of the RENDER while it goes on. -/
theorem nextTrack_registers (s : State) : SameRegisters s s.nextTrack ∧
    (s.nextTrack.engine.busy = true → s.nextTrack.engine.frames = s.engine.frames) := by
  rcases nextTrack_cases s with ⟨_, _, u, _, e⟩ | ⟨_, e⟩ <;> rw [e]
  · exact ⟨⟨rfl, rfl, rfl, rfl, rfl⟩, fun _ => rfl⟩
  · exact ⟨⟨rfl, rfl, rfl, rfl, rfl⟩, nofun⟩

/-- A chunk writes no register (10_state.md R31). -/
theorem runChunk_registers {p : Params} (hp : 0 < p.lfoBatch) {s t : State} {i : Instr} (h : s.runChunk p i = .ok t) :
    SameRegisters s t := by
  obtain ⟨ht, _⟩ := runChunk_ok hp h
  rw [ht]
  exact ⟨rfl, rfl, rfl, rfl, rfl⟩

/-- A step of a RENDER writes no register, and keeps its frames while it goes on (40_track_dispatch.md R201). -/
theorem step_busy_registers {s t : State} (hb : s.engine.busy = true) (h : step s = .next t) : SameRegisters s t ∧
    (t.engine.busy = true → t.engine.frames = s.engine.frames) := by
  cases step_next h with
  | idle h0 => rw [hb] at h0; cases h0
  | done _ _ ht => rw [ht]; exact nextTrack_registers s
  | exhausted _ _ _ _ ht =>
    obtain ⟨hr, hf⟩ := nextTrack_registers s.endTrack
    rw [ht]
    exact ⟨⟨hr.ntracks, hr.blockLen, hr.trkBase, hr.trkLen, hr.dpcmSlots⟩, hf⟩
  | record i _ _ _ _ _ _ ht =>
    have hf := exec_effect ht
    exact ⟨hf.registers, fun _ => by rw [hf.engine]⟩
  | chunk i _ _ _ _ _ _ ht =>
    obtain ⟨_, heng, _⟩ := runChunk_ok lfoBatch_pos ht
    exact ⟨runChunk_registers lfoBatch_pos ht, fun _ => by rw [heng]⟩

/-! ### The memories -/

/-- The default BLOCK_MAX (10_state.md R31). -/
theorem defaultBlockMax : defaultParams.blockMax = 8192 := rfl

/-- The default NTRACK_MAX (10_state.md R31). -/
theorem defaultNtrackMax : defaultParams.ntrackMax = 64 := rfl

/-- BLOCK_LEN stays at most BLOCK_MAX: RESET and the clamp of a write bring it there (10_state.md R34). -/
theorem HostWritten.blockLen_le {s t : State} (h : HostWritten defaultParams s t)
    (hs : s.blockLen.toNat ≤ defaultParams.blockMax) : t.blockLen.toNat ≤ defaultParams.blockMax := by
  rcases h.blockLen with e | e | ⟨v, e⟩ <;> rw [e]
  · exact hs
  · rw [defaultBlockMax]; decide
  · rw [defaultBlockMax]; exact (clampWord_le v (by omega) (by omega)).2

/-- A host access keeps the bounds of the block: a RENDER that it starts has BLOCK_LEN frames. -/
theorem HostWritten.frames_le {s t : State} (h : HostWritten defaultParams s t)
    (hs : s.blockLen.toNat ≤ defaultParams.blockMax) (hb : s.engine.busy = false) :
    t.engine.busy = true → t.engine.frames ≤ defaultParams.blockMax := by
  rcases h.engine with e | e | ⟨e, _⟩ <;> rw [e] <;> intro hbusy
  · rw [hb] at hbusy; cases hbusy
  · cases hbusy
  · exact hs

/-- An idle step keeps the bounds of the block. -/
theorem idleStep_bounds {s : State} (hs : s.blockLen.toNat ≤ defaultParams.blockMax) (hb : s.engine.busy = false) :
    (idleStep defaultParams s).blockLen.toNat ≤ defaultParams.blockMax ∧
      ((idleStep defaultParams s).engine.busy = true →
        (idleStep defaultParams s).engine.frames ≤ defaultParams.blockMax) := by
  rcases idleStep_cases defaultParams s with e | ⟨rest, he⟩
  · rw [e]; exact ⟨hs, fun h => by rw [hb] at h; cases h⟩
  · exact ⟨he.written.blockLen_le hs, he.written.frames_le hs hb⟩

/-- Settles O56: every step keeps the form of the memories, an idle step the bounds by the clamp of BLOCK_LEN, a step of a
RENDER by leaving BLOCK_LEN and the frames alone. -/
theorem stepKeepsMemoryCanonical : Obligations.StepKeepsMemoryCanonical := by
  intro s t h hst
  have hform := Memory.wf_step h.form h.frames hst
  cases hb : s.engine.busy with
  | false =>
    have ht : t = idleStep defaultParams s := by rw [step_idle hb] at hst; cases hst; rfl
    obtain ⟨hlen, hframes⟩ := idleStep_bounds h.blockLen hb
    subst ht
    exact ⟨hform, hlen, hframes⟩
  | true =>
    obtain ⟨hr, hf⟩ := step_busy_registers hb hst
    exact ⟨hform, by rw [hr.blockLen]; exact h.blockLen, fun hbt => by rw [hf hbt]; exact h.frames hb⟩

/-! ### Where a run stands -/

/-- NTRACKS stays at least 1 (10_state.md R34). -/
theorem HostWritten.ntracks_pos {s t : State} (h : HostWritten defaultParams s t) (hs : 1 ≤ s.ntracks.toNat) :
    1 ≤ t.ntracks.toNat := by
  rcases h.ntracks with e | e | ⟨v, e⟩ <;> rw [e]
  · exact hs
  · decide
  · rw [defaultNtrackMax]; exact (clampWord_le v (by omega) (by omega)).1

/-- What a host access does to a run (10_state.md R33, R34, 40_track_dispatch.md R200): it goes on with its cursors, logs
and END, or it is not RUNNING, or it starts afresh with every cursor at 0. -/
def RunKept (s t : State) : Prop :=
  (t.status.running = s.status.running ∧ t.status.ended = s.status.ended ∧ t.tracks = s.tracks ∧ t.trkLen = s.trkLen) ∨
  t.status.running = false ∨ (t.status.ended = false ∧ t.tracks = Vector.replicate 64 Track.reset)

theorem HostEffect.runKept {p : Params} {s t : State} (h : HostEffect p s t) : RunKept s t := by
  cases h with
  | status st hr he => exact .inl ⟨hr, he, rfl, rfl⟩
  | reply st r hr he => exact .inl ⟨hr, he, rfl, rfl⟩
  | ntracks b v hr => exact .inr (.inl hr)
  | trkBase u v hr => exact .inr (.inl hr)
  | trkLen u v hr => exact .inr (.inl hr)
  | ctrl v =>
    rcases ctrlWrite_cases s v with hc | e
    · rcases hc.run with ⟨he, hr, ht⟩ | hfresh
      · cases hrt : (s.ctrlWrite v).status.running with
        | false => exact .inr (.inl hrt)
        | true => exact .inl ⟨hrt.trans (hr hrt).symm, he, ht, hc.registers.trkLen⟩
      · exact .inr (.inr hfresh)
    · rw [e]; exact .inr (.inl rfl)
  | _ => exact .inl ⟨rfl, rfl, rfl, rfl⟩

/-- A host access of an idle engine keeps a run coherent. -/
theorem RunCoherent.hostEffect {s t : State} (h : RunCoherent s) (hb : s.engine.busy = false)
    (he : HostEffect defaultParams s t) : RunCoherent t := by
  have hw := he.written
  have hpos := hw.ntracks_pos h.ntracks
  have hstart : t.engine.busy = true → t.engine.track = 0 ∧ t.status.running = true := by
    rcases hw.engine with e | e | ⟨e, hr⟩ <;> rw [e] <;> intro hbusy
    · rw [hb] at hbusy; cases hbusy
    · cases hbusy
    · exact ⟨rfl, hr⟩
  refine ⟨hpos, fun hbt => (hstart hbt).2, fun hbt => by rw [(hstart hbt).1]; exact hpos, fun hr u => ?_, fun _ hend => ?_⟩
  · rcases he.runKept with ⟨hr', _, ht, hl⟩ | hstop | ⟨_, ht⟩
    · rw [ht, hl]; exact h.cursor (hr' ▸ hr) u
    · rw [hstop] at hr; cases hr
    · rw [ht, replicate_get]; exact Nat.zero_le _
  · rcases he.runKept with ⟨hr', he', _, _⟩ | hstop | ⟨hend', _⟩
    · rw [hr']; exact h.finished hb (he' ▸ hend)
    · exact hstop
    · rw [hend'] at hend; cases hend

/-- The next track or the end of the RENDER keeps a run coherent. -/
theorem RunCoherent.nextTrack {s : State} (h : RunCoherent s) (hb : s.engine.busy = true) : RunCoherent s.nextTrack := by
  rcases nextTrack_cases s with ⟨hn, _, u, hu, e⟩ | ⟨_, e⟩ <;> rw [e]
  · exact ⟨h.ntracks, fun _ => h.running hb, fun _ => by simpa only [hu] using hn, h.cursor,
      fun hbt => by rw [hb] at hbt; cases hbt⟩
  · refine ⟨h.ntracks, nofun, nofun, fun hr => h.cursor ?_, fun _ hend => ?_⟩
    · rw [finishRender_status, Bool.and_eq_true] at hr; exact hr.1
    · have hend : s.status.ended = true := hend
      rw [finishRender_status, hend, Bool.not_true, Bool.and_false]

/-- Ending a track keeps a run coherent. -/
theorem RunCoherent.endTrack {s : State} (h : RunCoherent s) : RunCoherent s.endTrack :=
  ⟨h.ntracks, h.running, h.slot, fun hr u => by rw [(endTrack_get s u).1]; exact h.cursor hr u, h.finished⟩

/-- A step inside a RENDER that writes no register keeps a run coherent when it keeps every other cursor and leaves that of
the track being processed within its log. -/
theorem RunCoherent.of_busy {s t : State} (h : RunCoherent s) (hb : s.engine.busy = true)
    (hbusy : t.engine.busy = s.engine.busy) (htrack : t.engine.track = s.engine.track)
    (hrun : t.status.running = s.status.running) (hregs : SameRegisters s t) (hothers : OtherTracksSame s t)
    (hcur : t.tr.cursor.toNat ≤ (s.trkLen.get s.engine.track).toNat) : RunCoherent t := by
  refine ⟨by rw [hregs.ntracks]; exact h.ntracks, fun _ => hrun.trans (h.running hb),
    fun _ => by rw [htrack, hregs.ntracks]; exact h.slot hb, fun _ u => ?_, fun hbt => by rw [hbusy, hb] at hbt; cases hbt⟩
  rw [hregs.trkLen]
  by_cases hu : u = s.engine.track
  · subst hu
    rw [State.tr, htrack] at hcur
    exact hcur
  · rw [hothers u hu]; exact h.cursor (h.running hb) u

/-- No record changes RUNNING (40_track_dispatch.md R222: EOT sets END alone). -/
theorem exec_running {i : Instr} {s t : State} (h : exec i s = .next t) : t.status.running = s.status.running := by
  cases i
  case eot d =>
    have ht := Host.Outcome.next.inj h
    subst ht
    by_cases h0 : s.engine.track = 0 <;> simp [h0]
  all_goals
    have ht := Host.Outcome.next.inj h
    subst ht
    rfl

/-- Every record moves its track's cursor by exactly one (40_track_dispatch.md R213). -/
theorem exec_cursor {i : Instr} {s t : State} (h : exec i s = .next t) : t.tr.cursor = s.tr.cursor + 1#32 := by
  obtain ⟨b, e, he, ht, hc, hn⟩ := exec_consume i s
  rw [he, consume_next] at h
  cases h
  exact (consume_consumed ht hc hn).cursor

/-- The cursor of a log that is not exhausted is below its length (40_track_dispatch.md R210). -/
theorem cursor_lt_of_log {s : State} (h : s.logExhausted = false) :
    s.tr.cursor.toNat < (s.trkLen.get s.engine.track).toNat := by
  simpa only [State.logExhausted, decide_eq_false_iff_not, BitVec.le_def, Nat.not_le] using h

/-- Settles O60, by the cases of a step: a host access, the end of a track, a record within the log, a chunk. -/
theorem stepKeepsRunCoherent : Obligations.StepKeepsRunCoherent := by
  intro s t h hst
  cases step_next hst with
  | idle hb ht =>
    subst ht
    rcases idleStep_cases defaultParams s with e | ⟨rest, he⟩
    · rw [e]; exact h
    · exact RunCoherent.hostEffect (s := { s with inbox := rest }) { h with } hb he
  | done hb _ ht => subst ht; exact h.nextTrack hb
  | exhausted hb _ _ _ ht => subst ht; exact h.endTrack.nextTrack hb
  | record i hb _ _ hx _ _ ht =>
    have hf := exec_effect ht
    have hlt := cursor_lt_of_log hx
    refine h.of_busy hb (by rw [hf.engine]) (by rw [hf.engine]) (exec_running ht) hf.registers hf.others ?_
    rw [exec_cursor ht, word_succ_toNat hlt]
    exact hlt
  | chunk i hb _ _ hx _ _ ht =>
    have hregs := runChunk_registers lfoBatch_pos ht
    obtain ⟨hrest, heng, hothers, htr, _⟩ := runChunk_ok lfoBatch_pos ht
    refine h.of_busy hb (by rw [heng]) (by rw [heng]) (by rw [hrest]) hregs hothers ?_
    rw [htr]
    exact Nat.le_of_lt (cursor_lt_of_log hx)

/-! ### What a record leaves in the Channel of its track -/

/-- The Channel `c` of the track being processed after the record of an instruction applied in the state `s` (41_channel.md
R250 to R262, 42_oscillator.md R321 to R324, 43_envelope.md R400, R401, 44_filter.md R440, 45_formant.md R470). -/
def eventChannel (s : State) (c : Channel) : Instr → Channel
  | .noteOn _ n v => enableNote s (clampByte 0 143 n) (clampByte 0 127 v) c
  | .noteOff .. | .close .. => disableNote c
  | .note _ n => { c with note := clampByte 0 143 n }
  | .form _ f b => { c with osc1 := { c.osc1 with form := kindOfField f, sub := subOfField b } }
  | .vcoEnv _ a d u r => { c with env1 := c.env1.setParams a d u r }
  | .vcfEnv _ a d u r => { c with env2 := c.env2.setParams a d u r }
  | .noiseFreq _ m => { c with noisefreq := m }
  | .pwm _ w => { c with pw := clampByte 1 99 w }
  | .pan _ x => { c with pan := clampByte 1 127 x }
  | .vowel _ v =>
    { c with fm := if vowelOfField v ≠ c.vowel then Vector.replicate 10 F64.zero else c.fm, vowel := vowelOfField v }
  | .detune _ x => { c with detune := x }
  | .lfo _ f b z depth w d l =>
    { c with
      osc2 := { c.osc2 with form := kindOfField f, sub := subOfField b }, lfoRev := z.getLsbD 0, lfoDepth := depth
      lfoWidth := (floatWord w).mul s.tr.spt, lfoDelay := (floatWord d).mul s.tr.spt, lfoLen := (floatWord l).mul s.tr.spt }
  | .lpf _ y a x r =>
    { c with
      fb := if filterTypeOfField y ≠ c.ftype then Vector.replicate 5 F64.zero else c.fb
      ftype := filterTypeOfField y, famt := a, fcut := x, fres := q16 (clampWord 0 65536 r) }
  | .volmode _ m => { c with volmode := volModeOfField m }
  | .input _ i x => { c with inPipe := pipeOfField i, inSens := q16 x }
  | .output _ i m => { c with outPipe := pipeOfField i, outMode := outModeOfField m }
  | .expression _ x => { c with expr := clampByte 0 127 x }
  | .ring _ i x => { c with ringPipe := pipeOfField i, ringSens := q16 x }
  | .sync _ i m => { c with syncPipe := pipeOfField i, syncMode := syncModeOfField m }
  | .tempo .. | .eot .. | .reserved00 .. | .reserved17 .. | .reserved18 .. | .reserved20 .. | .reserved40 ..
  | .reserved80 .. => c

/-- Every record leaves in its Channel what `eventChannel` says. -/
theorem exec_ch {i : Instr} {s t : State} (h : exec i s = .next t) : t.ch = eventChannel s s.ch i := by
  cases i
  case tempo d m => exact Host.Outcome.next.inj h ▸ (retire_ch _ _).trans (setTr_ch _ _)
  case reserved00 | reserved17 | reserved18 | reserved20 | reserved40 | reserved80 =>
    exact Host.Outcome.next.inj h ▸ retire_ch _ _
  case eot d =>
    have ht := Host.Outcome.next.inj h
    subst ht
    by_cases h0 : s.engine.track = 0 <;> simp [h0, eventChannel, State.ch]
  all_goals exact Host.Outcome.next.inj h ▸ (retire_ch _ _).trans (mapCh_ch _ _)

/-! ### The levels of the envelopes -/

/-- Both envelopes of a Channel are coherent. -/
def ChannelEnvelopesCoherent (c : Channel) : Prop := EnvelopeCoherent c.env1 ∧ EnvelopeCoherent c.env2

/-- Every record keeps the envelopes of its Channel coherent: NOTE_ON triggers them, NOTE_OFF and CLOSE release them,
VCO_ENV and VCF_ENV set their parameters (43_envelope.md R400, R401, R410, R412), no other touches them. -/
theorem ChannelEnvelopesCoherent.event {c : Channel} (h : ChannelEnvelopesCoherent c) (s : State) (i : Instr) :
    ChannelEnvelopesCoherent (eventChannel s c i) := by
  obtain ⟨h1, h2⟩ := h
  cases i
  case noteOn => exact ⟨h1.trigger false, h2.trigger true⟩
  case noteOff | close => exact ⟨h1.releaseRamp, h2.releaseRamp⟩
  case vcoEnv d a e u r => exact ⟨h1.setParams a e u r, h2⟩
  case vcfEnv d a e u r => exact ⟨h1, h2.setParams a e u r⟩
  all_goals exact ⟨h1, h2⟩

/-- A chunk steps both envelopes and so keeps them coherent (43_envelope.md R413). -/
theorem ChannelEnvelopesCoherent.played {p : Params} {n : Nat} {c c' : Channel} (h : ChannelEnvelopesCoherent c)
    (hp : ChannelPlayed p n c c') : ChannelEnvelopesCoherent c' := by
  rw [hp.rest]
  exact ⟨h.1.iterate n, h.2.iterate n⟩

/-- Settles O58: the coherence of a Channel's envelopes holds after reset and is kept by every record and every chunk. -/
theorem stepKeepsEnvelopesCoherent : Obligations.StepKeepsEnvelopesCoherent := fun _ _ h hst =>
  step_keeps_channels ChannelEnvelopesCoherent ⟨.reset, .reset⟩ (fun i s _ he hq => exec_ch he ▸ hq.event s i)
    (fun _ _ _ hp hq => hq.played hp) h hst

/-! ### The registers with a legal range -/

theorem ChannelInRange.reset (p : Params) : ChannelInRange p Channel.reset where
  note := by decide
  vel := by decide
  expr := by decide
  panLow := by decide
  panHigh := by decide
  pwLow := by decide
  pwHigh := by decide
  osc1 := .reset p
  osc2 := .reset p
  fres := .zero
  inSens := by decide
  ringSens := by decide

/-- Every record keeps its Channel's registers in range: each operand with a range is clamped to it (30_encoding.md R146),
a q16 operand is not negative (R145), and a restarted phase is 0. -/
theorem ChannelInRange.event {p : Params} {c : Channel} (h : ChannelInRange p c) (s : State) (i : Instr) :
    ChannelInRange p (eventChannel s c i) := by
  have hb {lo hi : Nat} (v : Byte) (hl : lo ≤ hi) (hh : hi < 256) := clampByte_le v hl hh
  cases i
  case noteOn d n v =>
    exact { h with
      note := (hb n (by omega) (by omega)).2, vel := (hb v (by omega) (by omega)).2
      osc1 := h.osc1.resetAll s _, osc2 := h.osc2.resetAll s _ }
  case note d n => exact { h with note := (hb n (by omega) (by omega)).2 }
  case form d f b => exact { h with osc1 := h.osc1.of_same rfl rfl }
  case pwm d w => exact { h with pwLow := (hb w (by omega) (by omega)).1, pwHigh := (hb w (by omega) (by omega)).2 }
  case pan d x => exact { h with panLow := (hb x (by omega) (by omega)).1, panHigh := (hb x (by omega) (by omega)).2 }
  case lfo d f b z depth w dl l => exact { h with osc2 := h.osc2.of_same rfl rfl }
  case lpf d y a x r => exact { h with fres := .q16_clamped r }
  case input d i x => exact { h with inSens := q16_nonneg x }
  case expression d x => exact { h with expr := (hb x (by omega) (by omega)).2 }
  case ring d i x => exact { h with ringSens := q16_nonneg x }
  all_goals exact { h with }

/-- A chunk keeps the phases and the increments in range and touches no other register with a range (42_oscillator.md
R327, R333). -/
theorem ChannelInRange.played {p : Params} {n : Nat} {c c' : Channel} (h : ChannelInRange p c)
    (hp : ChannelPlayed p n c c') : ChannelInRange p c' := by
  rw [hp.rest]
  exact { h with osc1 := hp.osc1.range h.osc1, osc2 := hp.osc2.range h.osc2 }

/-- The registers of the register file with a legal range are in it (10_state.md R31, R34): `RegistersInRange` without
the Channels. -/
structure RegisterFileInRange (p : Params) (s : State) : Prop where
  ntracksLow : 1 ≤ s.ntracks.toNat
  ntracksHigh : s.ntracks.toNat ≤ p.ntrackMax
  blockLenLow : 1 ≤ s.blockLen.toNat
  blockLenHigh : s.blockLen.toNat ≤ p.blockMax
  trkBase : ∀ t, (s.trkBase.get t).toNat % 32 = 0

/-- A word without its bits 4 to 0 is the greatest multiple of 32 below it (10_state.md R31). -/
theorem trkBase_mask (v : Word) : (v &&& 0xFFFFFFE0#32).toNat = v.toNat / 32 * 32 := by
  have := v.isLt
  rw [show 0xFFFFFFE0#32 = BitVec.allOnes 32 <<< 5 by decide, ← BitVec.shiftLeft_ushiftRight, BitVec.toNat_shiftLeft,
    BitVec.toNat_ushiftRight, Nat.shiftLeft_eq, Nat.shiftRight_eq_div_pow]
  omega

/-- A host access keeps the register file in range: RESET and the clamps of the writes bring each register there. -/
theorem RegisterFileInRange.written {s t : State} (h : RegisterFileInRange defaultParams s)
    (hw : HostWritten defaultParams s t) : RegisterFileInRange defaultParams t := by
  have hn : 1 ≤ t.ntracks.toNat ∧ t.ntracks.toNat ≤ defaultParams.ntrackMax := by
    rcases hw.ntracks with e | e | ⟨v, e⟩ <;> rw [e]
    · exact ⟨h.ntracksLow, h.ntracksHigh⟩
    · rw [defaultNtrackMax]; decide
    · rw [defaultNtrackMax]; exact clampWord_le v (by omega) (by omega)
  have hl : 1 ≤ t.blockLen.toNat ∧ t.blockLen.toNat ≤ defaultParams.blockMax := by
    rcases hw.blockLen with e | e | ⟨v, e⟩ <;> rw [e]
    · exact ⟨h.blockLenLow, h.blockLenHigh⟩
    · rw [defaultBlockMax]; decide
    · rw [defaultBlockMax]; exact clampWord_le v (by omega) (by omega)
  refine ⟨hn.1, hn.2, hl.1, hl.2, ?_⟩
  rcases hw.trkBase with e | e | ⟨u, v, e⟩ <;> rw [e]
  · exact h.trkBase
  · intro u; rw [replicate_get]; rfl
  · exact vset_forall (P := fun w : Word => w.toNat % 32 = 0) (by rw [trkBase_mask]; exact Nat.mul_mod_left _ _) h.trkBase

/-- Every step keeps the register file in range. -/
theorem RegisterFileInRange.step {s t : State} (h : RegisterFileInRange defaultParams s) (hst : step s = .next t) :
    RegisterFileInRange defaultParams t := by
  cases hb : s.engine.busy with
  | false =>
    have ht : t = idleStep defaultParams s := by rw [step_idle hb] at hst; cases hst; rfl
    subst ht
    rcases idleStep_cases defaultParams s with e | ⟨rest, he⟩
    · rw [e]; exact h
    · exact RegisterFileInRange.written (s := { s with inbox := rest }) { h with } he.written
  | true =>
    obtain ⟨⟨hn, hl, hb, _, _⟩, _⟩ := step_busy_registers hb hst
    exact ⟨hn ▸ h.ntracksLow, hn ▸ h.ntracksHigh, hl ▸ h.blockLenLow, hl ▸ h.blockLenHigh, hb ▸ h.trkBase⟩

/-- Settles O57: the register file by the clamps of the host's writes, the Channels by those of the records and by the
bounds of the phases. -/
theorem stepKeepsRegistersInRange : Obligations.StepKeepsRegistersInRange := by
  intro s t h hst
  have hfile : RegisterFileInRange defaultParams t := RegisterFileInRange.step { h with } hst
  have hch := step_keeps_channels (ChannelInRange defaultParams) (.reset _)
    (fun i s _ he hq => exec_ch he ▸ hq.event s i) (fun _ _ _ hp hq => hq.played hp) h.channels hst
  exact { hfile with channels := hch }

/-! ### The host's reads and writes of the registers (10_state.md R31 to R38) -/

/-- The data of a word read at a register's offset. -/
theorem hostRead_register_data {p : Params} {off : Nat} {r : Reg} (s : State) (hr : regAt p off = r)
    (h : off < 0x1000 := by omega) (h4 : off % 4 = 0 := by omega) :
    (hostRead p (BitVec.ofNat 32 off) .w4 s).1 = (readReg s r).setWidth 64 := by
  rw [hostRead_register p s h h4, hr]

/-- The data of a word read at a register's offset, as a number. -/
theorem hostRead_register_toNat {p : Params} {off : Nat} {r : Reg} (s : State) (hr : regAt p off = r)
    (h : off < 0x1000 := by omega) (h4 : off % 4 = 0 := by omega) :
    (hostRead p (BitVec.ofNat 32 off) .w4 s).1.toNat = (readReg s r).toNat := by
  rw [hostRead_register_data s hr h h4, BitVec.toNat_setWidth_of_le (by omega)]

/-- STATUS as a number: each bit at its weight (R31). -/
theorem status_toWord_toNat : ∀ st : Status, st.toWord.toNat = st.running.toNat + 2 * st.ended.toNat +
    4 * st.done.toNat + 8 * st.unk.toNat + 16 * st.clamp.toNat + 32 * st.buserr.toNat + 64 * st.cmderr.toNat := by
  rintro ⟨a, b, c, d, e, f, g⟩
  revert a b c d e f g
  decide

/-- DPCM_CFG as a number: VOL below bit 7, LOOP at bit 8 (R31). -/
theorem cfgWord_toNat (d : DpcmSlot) : d.cfgWord.toNat = d.vol.toNat + 256 * d.loop.toNat := by
  have hv := d.vol.isLt
  have hw : (BitVec.setWidth 32 d.vol).toNat = d.vol.toNat := BitVec.toNat_setWidth_of_le (by omega)
  rw [DpcmSlot.cfgWord, BitVec.toNat_or, hw]
  cases d.loop with
  | false => exact Nat.or_zero _
  | true =>
    calc d.vol.toNat ||| 256 = 2 ^ 8 * 1 ||| d.vol.toNat := Nat.or_comm _ _
      _ = 2 ^ 8 * 1 + d.vol.toNat := (Nat.two_pow_add_eq_or_of_lt (by omega) 1).symm
      _ = d.vol.toNat + 256 * 1 := Nat.add_comm _ _

/-- TRK_STAT as a number (R31). -/
theorem bitAt_zero_toNat (b : Bool) : (bitAt b 0).toNat = b.toNat := by
  cases b <;> rfl

/-- The registers below 0x018 (R31). -/
theorem regAt_fixed (p : Params) : regAt p 0x000 = .id ∧ regAt p 0x004 = .ctrl ∧ regAt p 0x008 = .status ∧
    regAt p 0x00C = .ntracks ∧ regAt p 0x010 = .blockLen ∧ regAt p 0x014 = .sampleRate :=
  ⟨rfl, rfl, rfl, rfl, rfl, rfl⟩

/-- The reserved offsets between the fixed registers and the tracks, and after the views of the tracks (R31). -/
theorem regAt_gaps (p : Params) (n : Nat) : (n < 58 → regAt p (0x018 + 4 * n) = .reserved) ∧
    (n < 640 → regAt p (0x600 + 4 * n) = .reserved) :=
  ⟨fun _ => regAt_reserved (by omega) (by omega), fun _ => regAt_reserved (by omega) (by omega)⟩

/-- Settles O46: each row of the table reads as its register. -/
theorem registerReads : Obligations.RegisterReads := by
  intro p s
  obtain ⟨rid, rctrl, rstatus, rntracks, rlen, rrate⟩ := regAt_fixed p
  refine ⟨?_, ?_, ?_, ?_, ?_, ?_, fun t ht => ⟨?_, ?_, ?_, ?_⟩, fun i hi => ⟨?_, ?_, ?_, ?_⟩,
    fun n => ⟨fun hn => ?_, fun hn => ?_⟩⟩
  · exact hostRead_register_data s rid
  · exact hostRead_register_data s rctrl
  · exact (hostRead_register_toNat s rstatus).trans (status_toWord_toNat s.status)
  · exact hostRead_register_toNat s rntracks
  · exact hostRead_register_toNat s rlen
  · exact hostRead_register_data s rrate
  · exact hostRead_register_toNat s (regAt_trkBase ht)
  · exact hostRead_register_toNat s (regAt_trkLen ht)
  · exact hostRead_register_toNat s (regAt_trkCursor ht)
  · exact (hostRead_register_toNat s (regAt_trkStat ht)).trans (bitAt_zero_toNat _)
  · exact hostRead_register_toNat s (regAt_dpcmBase hi)
  · exact hostRead_register_toNat s (regAt_dpcmBits hi)
  · exact (hostRead_register_toNat s (regAt_dpcmCfg hi)).trans (cfgWord_toNat _)
  · exact hostRead_register_data s (regAt_slotGap i)
  · exact hostRead_register_data s ((regAt_gaps p n).1 hn)
  · exact hostRead_register_data s ((regAt_gaps p n).2 hn)

/-- A word write at a register's offset. -/
theorem hostWrite_register_at {p : Params} {off : Nat} {r : Reg} (s : State) (data : BitVec 64) (hr : regAt p off = r)
    (h : off < 0x1000 := by omega) (h4 : off % 4 = 0 := by omega) :
    hostWrite p (BitVec.ofNat 32 off) .w4 data s = writeReg p s r (data.setWidth 32) := by
  rw [hostWrite_register p data s h h4, hr]

/-- Settles O48: the low word of the data is what the W1C bits see. -/
theorem statusWriteOneToClear : Obligations.StatusWriteOneToClear := by
  intro p s data
  obtain ⟨_, _, rstatus, _⟩ := regAt_fixed p
  refine (hostWrite_register_at s data rstatus).trans ?_
  simp [writeReg, Status.writeOneToClear]

/-- A clamped word lies where 30_encoding.md R146 says. -/
theorem clampWord_clampedTo {lo hi : Nat} (v : Word) (h : lo ≤ hi) (h32 : hi < 4294967296) :
    ClampedTo lo hi v.toNat (clampWord lo hi v).toNat := by
  rw [clampWord_toNat v h h32, clampNat_eq h]
  refine ⟨fun hv => ?_, fun hv => ?_, fun hv => ?_⟩
  · rw [if_neg (by omega), if_neg (by omega)]
  · rw [if_pos hv]
  · rw [if_neg (by omega), if_pos hv]

theorem wordClamped_eq (lo hi : Nat) (v : Word) : wordClamped lo hi v = decide (clampWord lo hi v ≠ v) := by
  rw [wordClamped, Bool.eq_iff_iff, bne_iff_ne, decide_eq_true_iff]

/-! The registers of the layout: refused with CMDERR while RUNNING (R34). -/

theorem writeReg_ntracks (p : Params) (s : State) (v : Word) : writeReg p s .ntracks v =
    if s.status.running then s.flagCmderr
    else State.flagClamp { s with ntracks := clampWord 1 p.ntrackMax v } (wordClamped 1 p.ntrackMax v) := rfl

theorem writeReg_trkBase (p : Params) (s : State) (t : Fin 64) (v : Word) : writeReg p s (.trkBase t) v =
    if s.status.running then s.flagCmderr else { s with trkBase := vset s.trkBase t (v &&& 0xFFFFFFE0#32) } := rfl

theorem writeReg_trkLen (p : Params) (s : State) (t : Fin 64) (v : Word) : writeReg p s (.trkLen t) v =
    if s.status.running then s.flagCmderr else { s with trkLen := vset s.trkLen t v } := rfl

/-- Bits 6 to 0 of a word, as VOL (R31). -/
theorem cfgVol_toNat (v : Word) : (v.extractLsb' 0 7).toNat = v.toNat % 128 := by
  rw [BitVec.extractLsb'_toNat, Nat.shiftRight_zero]

/-- Bit 8 of a word, as LOOP (R31). -/
theorem cfgLoop_eq (v : Word) : v.getLsbD 8 = decide (v.toNat / 256 % 2 = 1) := by
  rw [BitVec.getLsbD, Nat.testBit_eq_decide_div_mod_eq]

/-- Settles O47, register by register. -/
theorem registerWrites : Obligations.RegisterWrites := by
  intro p s data v hp hv
  have hblock : p.blockMax < 4294967296 := by have := hp.out; omega
  have hblockLow : 1 ≤ p.blockMax := by have := hp.blockLow; omega
  obtain ⟨htrkLow, htrkHigh⟩ := hp.tracks
  obtain ⟨rid, _, _, rntracks, rlen, rrate⟩ := regAt_fixed p
  subst hv
  refine ⟨⟨_, clampWord_clampedTo _ hblockLow hblock, ?_⟩,
    fun hstop => ?_, fun hrun => ⟨?_, fun t ht => ⟨?_, ?_⟩⟩,
    fun i hi d hd => ⟨?_, ?_, ⟨_, cfgVol_toNat _, ?_⟩, ?_⟩,
    fun t ht => ⟨?_, ?_⟩, ?_, ?_, fun n => ⟨fun hn => ?_, fun hn => ?_⟩⟩
  · rw [← wordClamped_eq]
    exact hostWrite_register_at s data rlen
  · have hstop := Bool.eq_false_iff.mp hstop
    refine ⟨⟨_, clampWord_clampedTo _ htrkLow (by omega), ?_⟩, fun t ht => ⟨⟨_, trkBase_mask _, ?_⟩, ?_⟩⟩
    · rw [← wordClamped_eq]
      exact (hostWrite_register_at s data rntracks).trans ((writeReg_ntracks p s _).trans (if_neg hstop))
    · exact (hostWrite_register_at s data (regAt_trkBase ht)).trans ((writeReg_trkBase p s t _).trans (if_neg hstop))
    · exact (hostWrite_register_at s data (regAt_trkLen ht)).trans ((writeReg_trkLen p s t _).trans (if_neg hstop))
  · exact (hostWrite_register_at s data rntracks).trans ((writeReg_ntracks p s _).trans (if_pos hrun))
  · exact (hostWrite_register_at s data (regAt_trkBase ht)).trans ((writeReg_trkBase p s t _).trans (if_pos hrun))
  · exact (hostWrite_register_at s data (regAt_trkLen ht)).trans ((writeReg_trkLen p s t _).trans (if_pos hrun))
  · subst hd
    exact hostWrite_register_at s data (regAt_dpcmBase hi)
  · subst hd
    exact hostWrite_register_at s data (regAt_dpcmBits hi)
  · subst hd
    rw [← cfgLoop_eq]
    exact hostWrite_register_at s data (regAt_dpcmCfg hi)
  · exact hostWrite_register_at s data (regAt_slotGap i)
  · exact hostWrite_register_at s data (regAt_trkCursor ht)
  · exact hostWrite_register_at s data (regAt_trkStat ht)
  · exact hostWrite_register_at s data rid
  · exact hostWrite_register_at s data rrate
  · exact hostWrite_register_at s data ((regAt_gaps p n).1 hn)
  · exact hostWrite_register_at s data ((regAt_gaps p n).2 hn)

end Sys2Proof.Machine

namespace Sys2Proof.Machine

/-! SUPPORT. The host's address space (20_memory.md): what a step of a RENDER leaves to the host, which accesses are
performed and what they do, and the bytes that a read returns. -/

/-! ### What a step of a RENDER leaves to the host (20_memory.md R102, R103, 10_state.md R39) -/

/-- STATUS inside a RENDER: no error of the host's is recorded and no condition is cleared (10_state.md R33, R39). -/
structure ConditionsKept (st st' : Status) : Prop where
  buserr : st'.buserr = st.buserr
  cmderr : st'.cmderr = st.cmderr
  unk : st.unk = true → st'.unk = true
  clamp : st.clamp = true → st'.clamp = true
  ended : st.ended = true → st'.ended = true
  done : st.done = true → st'.done = true

theorem ConditionsKept.refl (st : Status) : ConditionsKept st st := ⟨rfl, rfl, id, id, id, id⟩

theorem ConditionsKept.trans {a b c : Status} (h1 : ConditionsKept a b) (h2 : ConditionsKept b c) :
    ConditionsKept a c :=
  ⟨h2.buserr.trans h1.buserr, h2.cmderr.trans h1.cmderr, h2.unk ∘ h1.unk, h2.clamp ∘ h1.clamp, h2.ended ∘ h1.ended,
    h2.done ∘ h1.done⟩

theorem ConditionsKept.setClamp (st : Status) (b : Bool) : ConditionsKept st { st with clamp := st.clamp || b } :=
  ⟨rfl, rfl, id, fun h => by simp [h], id, id⟩

theorem ConditionsKept.setUnk (st : Status) : ConditionsKept st { st with unk := true } :=
  ⟨rfl, rfl, fun _ => rfl, id, id, id⟩

theorem ConditionsKept.setEnd (st : Status) : ConditionsKept st { st with ended := true } :=
  ⟨rfl, rfl, id, id, fun _ => rfl, id⟩

/-- The end of a RENDER sets DONE; RUNNING is no condition (40_track_dispatch.md R201). -/
theorem ConditionsKept.setDone (st : Status) (r : Bool) : ConditionsKept st { st with done := true, running := r } :=
  ⟨rfl, rfl, id, id, id, fun _ => rfl⟩

/-- A record sets at most one of CLAMP, UNK and END (30_encoding.md R146, 40_track_dispatch.md R222, R223). -/
theorem exec_conditions {i : Instr} {s t : State} (h : exec i s = .next t) : ConditionsKept s.status t.status := by
  cases i
  case eot d =>
    have ht := Host.Outcome.next.inj h
    subst ht
    by_cases h0 : s.engine.track = 0
    · simpa [h0] using ConditionsKept.setEnd s.status
    · simpa [h0] using ConditionsKept.refl s.status
  case reserved00 | reserved17 | reserved18 | reserved20 | reserved40 | reserved80 =>
    have ht := Host.Outcome.next.inj h
    subst ht
    simpa using ConditionsKept.setUnk s.status
  all_goals exact Host.Outcome.next.inj h ▸ ConditionsKept.setClamp s.status _

/-- What the engine leaves to the host between the states `s` and `t` of a RENDER (20_memory.md R102, R103). -/
structure HostStateKept (s t : State) : Prop where
  memories : SameMemories s t
  registers : SameRegisters s t
  hostQueues : SameHostQueues s t
  otherTracks : OtherTracksSame s t
  conditions : ConditionsKept s.status t.status

theorem HostStateKept.trans {s t u : State} (h1 : HostStateKept s t) (he : t.engine.track = s.engine.track)
    (h2 : HostStateKept t u) : HostStateKept s u where
  memories := ⟨fun a => (h2.memories.evm a).trans (h1.memories.evm a),
    fun a => (h2.memories.dpcm a).trans (h1.memories.dpcm a), fun a => (h2.memories.wave a).trans (h1.memories.wave a)⟩
  registers := ⟨h2.registers.ntracks.trans h1.registers.ntracks, h2.registers.blockLen.trans h1.registers.blockLen,
    h2.registers.trkBase.trans h1.registers.trkBase, h2.registers.trkLen.trans h1.registers.trkLen,
    h2.registers.dpcmSlots.trans h1.registers.dpcmSlots⟩
  hostQueues := ⟨h2.hostQueues.inbox.trans h1.hostQueues.inbox, h2.hostQueues.replies.trans h1.hostQueues.replies⟩
  otherTracks v hv := (h2.otherTracks v (he ▸ hv)).trans (h1.otherTracks v hv)
  conditions := h1.conditions.trans h2.conditions

/-- What a record does stays on its track and in STATUS. -/
theorem HostStateKept.of_trackEffect {s t : State} (h : TrackEffect s t) (hst : ConditionsKept s.status t.status) :
    HostStateKept s t :=
  ⟨.of_eq h.evm h.dpcm h.wave, h.registers, h.hostQueues, h.others, hst⟩

/-- Moving to the next track sets DONE at most, and writes no track (40_track_dispatch.md R201). -/
theorem HostStateKept.nextTrack (s : State) : HostStateKept s s.nextTrack := by
  have hregs := (nextTrack_registers s).1
  rcases nextTrack_cases s with ⟨_, _, u, _, e⟩ | ⟨_, e⟩ <;> rw [e] at hregs ⊢
  · exact ⟨.of_eq rfl rfl rfl, hregs, ⟨rfl, rfl⟩, fun _ _ => rfl, .refl s.status⟩
  · exact ⟨.of_eq rfl rfl rfl, hregs, ⟨rfl, rfl⟩, fun _ _ => rfl, .setDone s.status _⟩

/-- An exhausted log ends its own track alone (40_track_dispatch.md R215). -/
theorem HostStateKept.endTrack (s : State) : HostStateKept s s.endTrack :=
  .of_trackEffect (.setTr s { s.tr with ended := true }) (.refl s.status)

/-- A chunk writes the buffers and its own track alone (40_track_dispatch.md R210 step (b)). -/
theorem HostStateKept.runChunk {p : Params} (hp : 0 < p.lfoBatch) {s t : State} {i : Instr}
    (h : s.runChunk p i = .ok t) : HostStateKept s t := by
  have hregs := runChunk_registers hp h
  obtain ⟨hrest, _, hothers, _⟩ := runChunk_ok hp h
  refine ⟨?_, hregs, ?_, hothers, ?_⟩ <;> rw [hrest]
  · exact .of_eq rfl rfl rfl
  · exact ⟨rfl, rfl⟩
  · exact .refl s.status

/-- Every step of a RENDER, by its cases. -/
theorem HostStateKept.step {s t : State} (hb : s.engine.busy = true) (h : step s = .next t) : HostStateKept s t := by
  cases step_next h with
  | idle h0 => rw [hb] at h0; cases h0
  | done _ _ ht => rw [ht]; exact .nextTrack s
  | exhausted _ _ _ _ ht => rw [ht]; exact (HostStateKept.endTrack s).trans rfl (.nextTrack s.endTrack)
  | record i _ _ _ _ _ _ ht => exact .of_trackEffect (exec_effect ht) (exec_conditions ht)
  | chunk i _ _ _ _ _ _ ht => exact .runChunk lfoBatch_pos ht

/-- Settles O30: every case of a step of a RENDER keeps what is the host's. -/
theorem engineLeavesHostState : Obligations.EngineLeavesHostState := by
  intro s t hb hst
  obtain ⟨hm, hr, hq, ho, hc⟩ := HostStateKept.step hb hst
  exact ⟨hm, hr, hq, ho, hc.buserr, hc.cmderr, hc.unk, hc.clamp, hc.ended, hc.done⟩

/-! ### Accesses that are performed and accesses that are not (20_memory.md R101, R105, R108) -/

/-- A read that has a target leaves the state as it is. -/
theorem hostRead_performed {p : Params} {addr : Word} {w : Width} {x : Space × Nat} (s : State)
    (h : readTarget p addr w = some x) : (hostRead p addr w s).2 = s := by
  obtain ⟨sp, off⟩ := x
  cases sp <;> simp only [hostRead, h]

theorem hostRead_unperformed {p : Params} {addr : Word} {w : Width} (s : State) (h : readTarget p addr w = none) :
    hostRead p addr w s = (0#64, s.flagBuserr) := by
  simp only [hostRead, h]

theorem hostWrite_unperformed {p : Params} {addr : Word} {w : Width} (data : BitVec 64) (s : State)
    (h : writeTarget p addr w = none) : hostWrite p addr w data s = s.flagBuserr := by
  simp only [hostWrite, h]

/-- Settles O44: a read has a target exactly when it is performed. -/
theorem hostReads : Obligations.HostReads := by
  intro p addr w s hp
  rw [readTarget_iff hp]
  refine ⟨fun ⟨x, hx⟩ => hostRead_performed s hx, fun h => ?_⟩
  exact hostRead_unperformed s (Option.eq_none_iff_forall_ne_some.mpr fun x hx => h ⟨x, hx⟩)

/-- No command sets BUSERR; a RESET clears it (70_reset_and_hazards.md R541). -/
theorem ctrlWrite_buserr (s : State) (v : Word) (h : (s.ctrlWrite v).status.buserr = true) :
    s.status.buserr = true := by
  have hstop : s.stopCommand.status.buserr = s.status.buserr := rfl
  have hstart (u : State) : u.startCommand.status.buserr = u.status.buserr := by
    unfold State.startCommand; split <;> rfl
  have hrender (u : State) : u.renderCommand.status.buserr = u.status.buserr := by
    unfold State.renderCommand; split <;> rfl
  have hif {u u' : State} (b : Bool) (e : u'.status.buserr = u.status.buserr) :
      (if b then u' else u).status.buserr = u.status.buserr := by
    cases b
    · rfl
    · exact e
  unfold State.ctrlWrite at h
  split at h
  · cases h
  · rwa [hif _ (hrender _), hif _ (hstart _), hif _ hstop] at h

/-- No register write sets BUSERR (10_state.md R31 to R35). -/
theorem writeReg_buserr (p : Params) (s : State) (r : Reg) (v : Word) (h : (writeReg p s r v).status.buserr = true) :
    s.status.buserr = true := by
  cases r
  case ctrl => exact ctrlWrite_buserr s v h
  case status => exact (Bool.and_eq_true_iff.mp h).1
  case ntracks => rw [writeReg_ntracks] at h; split at h <;> exact h
  case trkBase t => rw [writeReg_trkBase] at h; split at h <;> exact h
  case trkLen t => rw [writeReg_trkLen] at h; split at h <;> exact h
  all_goals exact h

/-- A write that has a target never sets BUSERR. -/
theorem hostWrite_performed_buserr {p : Params} {addr : Word} {w : Width} {data : BitVec 64} {s : State}
    {x : Space × Nat} (hx : writeTarget p addr w = some x) (h : (hostWrite p addr w data s).status.buserr = true) :
    s.status.buserr = true := by
  obtain ⟨sp, off⟩ := x
  obtain ⟨e, d, m, hput⟩ := putBytes_frame s sp (leBytes w.bytes data.toNat) off
  cases sp <;> simp only [hostWrite, hx, hput] at h
  case reg => exact writeReg_buserr p s _ _ h
  all_goals exact h

/-- Settles O45: a write has a target exactly when it is performed. -/
theorem unperformedWrites : Obligations.UnperformedWrites := by
  intro p addr w data s hp
  rw [writeTarget_iff hp]
  refine ⟨fun h => ?_, fun ⟨x, hx⟩ => hostWrite_performed_buserr hx⟩
  exact hostWrite_unperformed data s (Option.eq_none_iff_forall_ne_some.mpr fun x hx => h ⟨x, hx⟩)

/-! ### The bytes that a read returns (20_memory.md R104) -/

/-- A read of a space of bytes returns them little-endian. -/
theorem hostRead_bytes {p : Params} {addr : Word} {w : Width} {sp : Space} {off : Nat} (s : State)
    (h : readTarget p addr w = some (sp, off)) (hne : sp ≠ .reg) :
    (hostRead p addr w s).1 = BitVec.ofNat 64 (leNat (hostBytes s sp w.bytes off)) := by
  cases sp
  case reg => exact absurd rfl hne
  all_goals simp only [hostRead, h]

/-- Bytes that are those of the number `v`, one by one, are its little-endian bytes. -/
theorem hostBytes_eq_leBytes {s : State} {sp : Space} {n a v : Nat}
    (h : ∀ k, k < n → hostByte s sp (a + k) = BitVec.ofNat 8 (v / 256 ^ k)) : hostBytes s sp n a = leBytes n v := by
  induction n generalizing a v with
  | zero => rfl
  | succ n ih =>
    have hhead : hostByte s sp a = BitVec.ofNat 8 v := by simpa using h 0 (by omega)
    have htail : hostBytes s sp n (a + 1) = leBytes n (v / 256) := ih fun k hk => by
      rw [Nat.div_div_eq_div_mul, ← pow_succ', ← h (k + 1) (by omega), Nat.add_assoc, Nat.add_comm 1 k]
    rw [hostBytes, leBytes, hhead, htail]

theorem width_pow_le (w : Width) : 256 ^ w.bytes ≤ 2 ^ 64 := by
  cases w <;> decide

/-- The data of a read whose bytes are those of the number `v`. -/
theorem hostRead_toNat {p : Params} {addr : Word} {w : Width} {sp : Space} {off v : Nat} {s : State}
    (ht : readTarget p addr w = some (sp, off)) (hne : sp ≠ .reg)
    (h : ∀ k, k < w.bytes → hostByte s sp (off + k) = BitVec.ofNat 8 (v / 256 ^ k)) :
    (hostRead p addr w s).1.toNat = v % 256 ^ w.bytes := by
  have hlt : v % 256 ^ w.bytes < 2 ^ 64 := Nat.lt_of_lt_of_le (Nat.mod_lt _ (Nat.pow_pos (by omega))) (width_pow_le w)
  rw [hostRead_bytes s ht hne, hostBytes_eq_leBytes h, leNat_leBytes, BitVec.toNat_ofNat, Nat.mod_eq_of_lt hlt]

/-! ### OUT (20_memory.md R104, R107) -/

/-- Byte `8j + k` of OUT is byte `k` of `OUT[j]`. -/
theorem hostByte_out (s : State) {j k : Nat} (hk : k < 8) :
    hostByte s .out (8 * j + k) = BitVec.ofNat 8 ((s.outAt j).bits.toNat / 256 ^ k) := by
  have hj : (8 * j + k) / 8 = j := by omega
  have hr : (8 * j + k) % 8 = k := by omega
  have hpow : 2 ^ (8 * k) = 256 ^ k := pow_mul 2 8 k
  apply BitVec.eq_of_toNat_eq
  rw [hostByte, State.outByte, hj, hr, BitVec.extractLsb'_toNat, BitVec.toNat_ofNat, Nat.shiftRight_eq_div_pow, hpow]

/-- An aligned read of a width that OUT allows, inside OUT, is performed (R105). -/
theorem readTarget_out {p : Params} (hp : LegalParams p) {off : Nat} {w : Width} (h : off < 16 * p.blockMax)
    (ha : off % w.bytes = 0) (hw : Space.out.readable w = true) :
    readTarget p (BitVec.ofNat 32 (0x10000 + off)) w = some (.out, off) := by
  have hout := hp.out
  have haddr : (BitVec.ofNat 32 (0x10000 + off)).toNat = 0x10000 + off := by
    rw [BitVec.toNat_ofNat]; exact Nat.mod_eq_of_lt (by omega)
  have hal : aligned (0x10000 + off) w = true := by
    cases w <;> simp only [aligned, Width.bytes, beq_iff_eq] at ha ⊢ <;> omega
  have hloc : locate p (0x10000 + off) = some (.out, off) := by
    rw [locate, if_neg (by omega), if_neg (by simp only [Config.waveSize]; omega), if_pos (by omega),
      Nat.add_sub_cancel_left]
  simp only [readTarget, haddr, hloc, hal, hw, Bool.and_self, if_true]

/-- Settles O50: the bytes of `OUT[j]` are those of its bits, and those from byte 4 on of its bits from 32 on. -/
theorem outputReads : Obligations.OutputReads := by
  intro p s j hp hj
  have hlow (k : Nat) (hk : k < 8) : hostByte s .out (8 * j + k) = BitVec.ofNat 8 ((s.outAt j).bits.toNat / 256 ^ k) :=
    hostByte_out s hk
  have hhigh (k : Nat) (hk : k < 4) :
      hostByte s .out (8 * j + 4 + k) = BitVec.ofNat 8 ((s.outAt j).bits.toNat / 2 ^ 32 / 256 ^ k) := by
    rw [Nat.add_assoc, hlow (4 + k) (by omega), show 2 ^ 32 = 256 ^ 4 by norm_num, Nat.div_div_eq_div_mul, pow_add]
  have hbits := (s.outAt j).bits.isLt
  have h8 := readTarget_out (w := .w8) hp (off := 8 * j) (by omega) (Nat.mul_mod_right 8 j) rfl
  have h4 := readTarget_out (w := .w4) hp (off := 8 * j) (by omega) (by simp only [Width.bytes]; omega) rfl
  have h4' := readTarget_out (w := .w4) hp (off := 8 * j + 4) (by omega) (by simp only [Width.bytes]; omega) rfl
  refine ⟨BitVec.eq_of_toNat_eq ?_, ?_, ?_⟩
  · exact (hostRead_toNat h8 nofun hlow).trans (Nat.mod_eq_of_lt hbits)
  · exact hostRead_toNat h4 nofun fun k hk => hlow k (Nat.lt_trans hk (by decide))
  · exact (hostRead_toNat h4' nofun hhigh).trans (Nat.mod_eq_of_lt (by simp only [Width.bytes]; omega))

/-! ### WAVE, DPCM and EVM (20_memory.md R100, R104) -/

/-- Where each space begins in the host's address map (R101). -/
def Space.base : Space → Nat
  | .reg => 0
  | .wave => 0x1000
  | .out => 0x10000
  | .dpcm => 0x100000
  | .evm => 0x1000000

/-- The host address `a` is byte `off` of the memory `sp`; REG and OUT, of size 0 there, are no such memory. -/
structure MemoryAt (p : Params) (a : Nat) (sp : Space) (off : Nat) : Prop where
  addr : a = sp.base + off
  inside : off < sp.size p

theorem memoryAt_of_inWritableMemory {p : Params} {a : Nat} (h : InWritableMemory p a) :
    ∃ sp off, MemoryAt p a sp off := by
  rcases h with ⟨hlo, hhi⟩ | ⟨hlo, hhi⟩ | ⟨hlo, hhi⟩
  · exact ⟨.wave, a - 0x1000, by simp only [Space.base]; omega, by simp only [Space.size, Config.waveSize]; omega⟩
  · exact ⟨.dpcm, a - 0x100000, by simp only [Space.base]; omega, by simp only [Space.size]; omega⟩
  · exact ⟨.evm, a - 0x1000000, by simp only [Space.base]; omega, by simp only [Space.size]; omega⟩

namespace MemoryAt

variable {p : Params} {a : Nat} {sp : Space} {off : Nat}

theorem ne_reg (h : MemoryAt p a sp off) : sp ≠ .reg := by
  rintro rfl
  exact Nat.not_lt_zero _ h.inside

theorem ne_out (h : MemoryAt p a sp off) : sp ≠ .out := by
  rintro rfl
  exact Nat.not_lt_zero _ h.inside

theorem locate_eq (h : MemoryAt p a sp off) (hp : LegalParams p) : locate p a = some (sp, off) := by
  obtain ⟨haddr, hin⟩ := h
  have hout := hp.out
  have hdpcm := hp.dpcm
  have hwave : Config.waveSize = 512 := rfl
  unfold locate
  cases sp <;> simp only [Space.base, Space.size] at haddr hin
  case reg | out => exact absurd hin (Nat.not_lt_zero _)
  case wave => rw [if_neg (by omega), if_pos (by omega), haddr, Nat.add_sub_cancel_left]
  case dpcm =>
    rw [if_neg (by omega), if_neg (by omega), if_neg (by omega), if_pos (by omega), haddr, Nat.add_sub_cancel_left]
  case evm =>
    rw [if_neg (by omega), if_neg (by omega), if_neg (by omega), if_neg (by omega), if_pos (by omega), haddr,
      Nat.add_sub_cancel_left]

/-- The memories lie inside 32-bit addresses (R101). -/
theorem addr_lt (h : MemoryAt p a sp off) (hp : LegalParams p) : a < 2 ^ 32 := by
  obtain ⟨haddr, hin⟩ := h
  have hdpcm := hp.dpcm
  have hevm := hp.evm
  cases sp <;> simp only [Space.base, Space.size, Config.waveSize] at haddr hin <;> omega

/-- A byte further on, as long as it lies in the memory. -/
theorem add (h : MemoryAt p a sp off) {k : Nat} (hk : off + k < sp.size p) : MemoryAt p (a + k) sp (off + k) :=
  ⟨by rw [h.addr, Nat.add_assoc], hk⟩

/-- The widths 1, 2 and 4 are allowed for reads and writes of every memory (R105). -/
theorem allowed (h : MemoryAt p a sp off) {w : Width} (hw : w ≠ .w8) :
    sp.readable w = true ∧ sp.writable w = true := by
  cases sp
  case reg => exact absurd rfl h.ne_reg
  case out => exact absurd rfl h.ne_out
  all_goals exact ⟨bne_iff_ne.mpr hw, bne_iff_ne.mpr hw⟩

variable {addr : Word} {w : Width}

/-- An aligned access of width 1, 2 or 4 to a memory is performed there, a read and a write (R105). -/
theorem target_eq (h : MemoryAt p addr.toNat sp off) (hp : LegalParams p) (ha : addr.toNat % w.bytes = 0)
    (hw : w ≠ .w8) : readTarget p addr w = some (sp, off) ∧ writeTarget p addr w = some (sp, off) := by
  obtain ⟨hr, hwr⟩ := h.allowed hw
  have hal : aligned addr.toNat w = true := beq_iff_eq.mpr ha
  simp only [readTarget, writeTarget, h.locate_eq hp, hal, hr, hwr, Bool.and_self, if_true, and_self]

/-- An aligned access to a memory of whole words stays inside it. -/
theorem fits (h : MemoryAt p addr.toNat sp off) (hp : LegalParams p) (ha : addr.toNat % w.bytes = 0) (hw : w ≠ .w8) :
    off + w.bytes ≤ sp.size p := by
  obtain ⟨_, hwave, hdpcm, hevm⟩ := writeTarget_fits hp.words (h.target_eq hp ha hw).2
  cases sp
  case reg => exact absurd rfl h.ne_reg
  case out => exact absurd rfl h.ne_out
  case wave => exact hwave rfl
  case dpcm => exact hdpcm rfl
  case evm => exact hevm rfl

/-- A write to a memory writes its bytes there. -/
theorem hostWrite_eq (h : MemoryAt p addr.toNat sp off) (hp : LegalParams p) (ha : addr.toNat % w.bytes = 0)
    (hw : w ≠ .w8) (data : BitVec 64) (s : State) :
    hostWrite p addr w data s = putBytes s sp off (leBytes w.bytes data.toNat) := by
  obtain ⟨_, ht⟩ := h.target_eq hp ha hw
  have hne := h.ne_reg
  cases sp
  case reg => exact absurd rfl hne
  all_goals simp only [hostWrite, ht]

/-- The data of a read of a memory whose bytes are those of the number `v`. -/
theorem hostRead_eq (h : MemoryAt p addr.toNat sp off) (hp : LegalParams p) (ha : addr.toNat % w.bytes = 0)
    (hw : w ≠ .w8) {s : State} {v : Nat}
    (hb : ∀ k, k < w.bytes → hostByte s sp (off + k) = BitVec.ofNat 8 (v / 256 ^ k)) :
    (hostRead p addr w s).1.toNat = v % 256 ^ w.bytes :=
  hostRead_toNat (h.target_eq hp ha hw).1 h.ne_reg hb

/-- The data of a read of one byte of a memory. -/
theorem hostRead_byte (h : MemoryAt p addr.toNat sp off) (hp : LegalParams p) (s : State) :
    (hostRead p addr .w1 s).1.toNat = (hostByte s sp off).toNat := by
  have hb : ∀ k, k < Width.w1.bytes →
      hostByte s sp (off + k) = BitVec.ofNat 8 ((hostByte s sp off).toNat / 256 ^ k) := by
    intro k hk
    obtain rfl : k = 0 := Nat.lt_one_iff.mp hk
    simp
  rw [h.hostRead_eq (w := .w1) hp (Nat.mod_one _) nofun hb]
  exact Nat.mod_eq_of_lt (hostByte s sp off).isLt

end MemoryAt

/-- What the host reads of a memory depends on what the memory holds, a byte that nothing has written on its address
alone (log 7). -/
theorem hostByte_congr {p : Params} {a : Nat} {sp : Space} {off : Nat} (h : MemoryAt p a sp off) {s t : State}
    (hb : memByte t sp off = memByte s sp off) : hostByte t sp off = hostByte s sp off := by
  cases sp
  case reg => exact absurd rfl h.ne_reg
  case out => exact absurd rfl h.ne_out
  case wave => exact Option.some.inj hb
  case dpcm => exact congrArg (Option.getD · (Config.unwrittenDpcmByte off)) hb
  case evm => exact congrArg (Option.getD · (Config.unwrittenEvmByte off)) hb

/-- The host reads the byte that a memory holds. -/
theorem hostByte_of_memByte {s : State} {sp : Space} {off : Nat} {b : Byte} (h : memByte s sp off = some b) :
    hostByte s sp off = b := by
  cases sp
  case reg | out => cases h
  case wave => exact Option.some.inj h
  case dpcm => exact congrArg (Option.getD · (Config.unwrittenDpcmByte off)) h
  case evm => exact congrArg (Option.getD · (Config.unwrittenEvmByte off)) h

/-- Byte `k` of a number, the lowest first (R104). -/
theorem leBytes_getElem? {n v k : Nat} (h : k < n) : (leBytes n v)[k]? = some (BitVec.ofNat 8 (v / 256 ^ k)) := by
  induction n generalizing v k with
  | zero => exact absurd h (Nat.not_lt_zero k)
  | succ n ih =>
    cases k with
    | zero => simp [leBytes]
    | succ k => rw [leBytes, List.getElem?_cons_succ, ih (by omega), Nat.div_div_eq_div_mul, ← pow_succ']

/-- Settles O49: the bytes of the write stand where it was performed, every other byte of a memory as before. -/
theorem memoryWriteRead : Obligations.MemoryWriteRead := by
  intro p s addr w data hp hwf hmem ha hw
  rw [widthBytes_eq] at ha ⊢
  obtain ⟨sp, off, hat⟩ := memoryAt_of_inWritableMemory hmem
  have hfits : off + (leBytes w.bytes data.toNat).length ≤ sp.size p := by
    rw [leBytes_length]; exact hat.fits hp ha hw
  have hwrite := hat.hostWrite_eq hp ha hw data s
  have hholds := memByte_putBytes hwf hfits
  obtain ⟨e, d, m, hframe⟩ := putBytes_frame s sp (leBytes w.bytes data.toNat) off
  rw [leBytes_length] at hfits hholds
  rw [← hwrite] at hholds hframe
  have hnew (k : Nat) (hk : k < w.bytes) :
      hostByte (hostWrite p addr w data s) sp (off + k) = BitVec.ofNat 8 (data.toNat / 256 ^ k) := by
    apply hostByte_of_memByte
    rw [hholds, if_pos ⟨rfl, by omega, by omega⟩, Nat.add_sub_cancel_left, leBytes_getElem? hk]
  refine ⟨_, rfl, ?_, ?_, fun k hk => ?_, fun a hain hout => ?_⟩
  · rw [hframe]
  · exact hat.hostRead_eq hp ha hw hnew
  · have hk' := hat.add (k := k) (by omega)
    have hsum : (addr + BitVec.ofNat 32 k).toNat = addr.toNat + k := by
      have := hk'.addr_lt hp
      rw [BitVec.toNat_add, BitVec.toNat_ofNat]
      omega
    rw [← hsum] at hk'
    rw [hk'.hostRead_byte hp, hnew k hk, BitVec.toNat_ofNat]
  · obtain ⟨sp', off', hat'⟩ := memoryAt_of_inWritableMemory hain
    apply BitVec.eq_of_toNat_eq
    rw [hat'.hostRead_byte hp, hat'.hostRead_byte hp]
    congr 1
    apply hostByte_congr hat'
    rw [hholds, if_neg]
    rintro ⟨rfl, hlo, hhi⟩
    have h1 := hat.addr
    have h2 := hat'.addr
    exact hout ⟨by omega, by omega⟩

/-! ### The host's accesses, one at a time (20_memory.md R120) -/

/-- An idle engine with nothing to perform changes nothing (log 2). -/
theorem idleStep_nil {p : Params} {s : State} (h : s.inbox = []) : idleStep p s = s := by
  rw [idleStep, h]

/-- An idle engine performs the first access of the queue. -/
theorem idleStep_cons {p : Params} {s : State} {a : Access} {rest : List Access} (h : s.inbox = a :: rest) :
    idleStep p s = hostAccess p { s with inbox := rest } a := by
  rw [idleStep, h]

/-- A read leaves the replies before it as they are. -/
theorem hostRead_replies (p : Params) (addr : Word) (w : Width) (s : State) :
    (hostRead p addr w s).2.replies = s.replies := by
  rcases hostRead_state p addr w s with e | e <;> rw [e]
  rfl

/-- A read appends its data to the replies. -/
theorem hostAccess_read (p : Params) (addr : Word) (w : Width) (s : State) : hostAccess p s (.read addr w) =
    { (hostRead p addr w s).2 with replies := s.replies ++ [(hostRead p addr w s).1] } := by
  simp only [hostAccess, hostRead_replies]

theorem State.with_replies {s : State} {r : List (BitVec 64)} (h : s.replies = r) : { s with replies := r } = s := by
  subst h
  rfl

/-- Settles O54, by the queue: empty, a read first, a write first. -/
theorem idleStep_performs_accesses : Obligations.IdleStep := by
  intro s hb
  rw [step_idle hb]
  refine ⟨fun h => ?_, fun addr w rest h => ?_, fun addr w data rest h => ?_⟩
  · rw [idleStep_nil h]
  · refine ⟨_, rfl, ?_⟩
    rw [idleStep_cons h, hostAccess_read]
    exact ⟨rfl, State.with_replies (hostRead_replies defaultParams addr w { s with inbox := rest })⟩
  · rw [idleStep_cons h]
    rfl

end Sys2Proof.Machine

/-! ## Encoding (30_encoding.md) -/

namespace Sys2Proof

open Sys2Proof.Machine

/-! ### Reserved kinds (30_encoding.md R170) -/

theorem kindIn_iff {lo hi : Nat} {k : Byte} : kindIn lo hi k = true ↔ lo ≤ k.toNat ∧ k.toNat ≤ hi := by
  simp [kindIn]

/-- A KIND from 0x18 on is none of those below. -/
theorem ne_of_reserved_kind {k n : Byte} (h : 0x18 ≤ k.toNat) (hn : n.toNat < 0x18) : k ≠ n := by
  rintro rfl
  omega

/-- From KIND 0x18 on only the ranges of the reserved rows are left to the decoder (R142). -/
theorem decodeRecord_of_reserved {r : Record} (h : 0x18 ≤ r.kind.toNat) : decodeRecord r =
    if r.kind.toNat < 0x20 then .reserved18 r.delta r.kind
    else if r.kind.toNat < 0x40 then .reserved20 r.delta r.kind
    else if r.kind.toNat < 0x80 then .reserved40 r.delta r.kind
    else .reserved80 r.delta r.kind := by
  simp [decodeRecord, ne_of_reserved_kind h]

/-- Of a reserved KIND from 0x18 on nothing but KIND and DELTA is used (R144, R171). -/
theorem clearReserved_of_reserved {r : Record} (h : 0x18 ≤ r.kind.toNat) : r.clearReserved =
    mkRecord (r.w0 &&& 0xFF000000#32) r.delta 0#32 0#32 0#32 0#32 := by
  simp [Record.clearReserved, usedW0, usedWide, ne_of_reserved_kind h, mkRecord, Record.delta]

/-- The reserved kinds are 0x00 and those from 0x17 on (R142, R170). -/
theorem Instr.isReserved_iff {i : Instr} (hw : i.wellFormed = true) :
    i.isReserved = true ↔ i.kindCode.toNat = 0 ∨ 0x17 ≤ i.kindCode.toNat := by
  cases i
  case reserved18 d k | reserved20 d k | reserved40 d k | reserved80 d k =>
    have hlow := (kindIn_iff.mp hw).1
    exact iff_of_true rfl (.inr (by simp only [Instr.kindCode]; omega))
  all_goals simp [Instr.isReserved, Instr.kindCode]

/-! ### Decoding an encoding -/

/-- Decoding the words of an instruction: each operand is read from the field in which R144 has it written. -/
theorem decodeRecord_encodeRecord {i : Instr} (hw : i.wellFormed = true) : decodeRecord (encodeRecord i) = i := by
  cases i
  case reserved18 d k | reserved20 d k | reserved40 d k | reserved80 d k =>
    obtain ⟨hlow, hhigh⟩ := kindIn_iff.mp hw
    rw [encodeRecord, decodeRecord_of_reserved (by rw [kindWord_kind]; omega), kindWord_kind, (mkRecord_words ..).1]
    grind
  all_goals simp [decodeRecord, encodeRecord]

/-- Settles O1: the bytes of an encoding are those of its words, and these decode to the instruction. -/
theorem decodeOfEncode : Obligations.DecodeOfEncode := by
  intro i hw
  rw [encode, decode_bytes, decodeRecord_encodeRecord hw]

/-! ### Reserved bits and words (30_encoding.md R171) -/

/-- A mask that keeps the highest `k` bits and the lowest `n`. -/
theorem and_mask_high_low {k m n : Nat} (x : BitVec (k + (m + n))) :
    x &&& (BitVec.allOnes k ++ (0#m ++ BitVec.allOnes n)) =
      x.extractLsb' (m + n) k ++ (0#m ++ x.extractLsb' 0 n) := by
  have hx : x = x.extractLsb' (m + n) k ++ (x.extractLsb' n m ++ x.extractLsb' 0 n) := by
    rw [BitVec.extractLsb'_append_extractLsb'_eq_extractLsb' (Nat.zero_add n).symm,
      BitVec.extractLsb'_append_extractLsb']
  conv_lhs => rw [hx]
  rw [BitVec.and_append, BitVec.and_append, BitVec.and_allOnes, BitVec.and_zero, BitVec.and_allOnes]

/-- W0 of a kind without an operand in A. -/
theorem w0_and_kind (r : Record) : r.w0 &&& 0xFF000000#32 = kindWord r.kind 0#24 :=
  calc r.w0 &&& 0xFF000000#32 = kindWord r.kind (r.w0.extractLsb' 0 24) &&& (BitVec.allOnes 8 ++ 0#24) :=
        congrArg (· &&& 0xFF000000#32) (BitVec.extractLsb'_append_extractLsb' (w := 8) (len := 24)).symm
    _ = kindWord r.kind 0#24 := by rw [Laws.kindWord_and_mask, BitVec.and_allOnes, kindWord]

/-- W0 of a kind with an operand in A[7:0]. -/
theorem w0_and_a0 (r : Record) : r.w0 &&& 0xFF0000FF#32 = kindWord r.kind (fieldA0 r.a0) :=
  and_mask_high_low (k := 8) (m := 16) (n := 8) r.w0

/-- A[15:0] is its two bytes. -/
theorem a1_append_a0 (r : Record) : r.a1 ++ r.a0 = r.w0.extractLsb' 0 16 :=
  BitVec.extractLsb'_append_extractLsb'_eq_extractLsb' rfl

/-- W0 of a kind with operands in A[7:0] and A[15:8]. -/
theorem w0_and_a01 (r : Record) : r.w0 &&& 0xFF00FFFF#32 = kindWord r.kind (fieldA01 r.a0 r.a1) := by
  rw [fieldA01, a1_append_a0]
  exact and_mask_high_low (k := 8) (m := 8) (n := 16) r.w0

/-- W0 of LFO. -/
theorem w0_and_a016 (r : Record) : r.w0 &&& 0xFF01FFFF#32 = kindWord r.kind (fieldA016 r.a0 r.a1 r.a16) := by
  have h : r.a16 ++ (r.a1 ++ r.a0) = r.w0.extractLsb' 0 17 := by
    rw [a1_append_a0]
    exact BitVec.extractLsb'_append_extractLsb'_eq_extractLsb' rfl
  rw [fieldA016, h]
  exact and_mask_high_low (k := 8) (m := 7) (n := 17) r.w0

/-- The encoding of a record's instruction is the record with its reserved bits and words 0: the encoder writes the fields
that R144 names for the kind, and nothing else. -/
theorem DecodesAs.encodeRecord_eq {r : Record} {i : Instr} (h : DecodesAs r i) : encodeRecord i = r.clearReserved := by
  cases h
  case reserved18 hlow _ | reserved20 hlow _ | reserved40 hlow _ | reserved80 hlow _ =>
    rw [clearReserved_of_reserved (by omega), w0_and_kind, encodeRecord]
  all_goals next hk =>
    simp [encodeRecord, mkRecord, Record.clearReserved, usedW0, usedWide, Record.delta, hk, w0_and_kind, w0_and_a0, w0_and_a01,
      w0_and_a016]

/-- The instruction of a record is well-formed. -/
theorem DecodesAs.wellFormed {r : Record} {i : Instr} (h : DecodesAs r i) : i.wellFormed = true := by
  cases h
  case reserved18 hlow hhigh | reserved20 hlow hhigh | reserved40 hlow hhigh | reserved80 hlow hhigh =>
    exact kindIn_iff.mpr ⟨hlow, hhigh⟩
  all_goals rfl

/-- Settles O2: the record without its reserved bits is the encoding of the record's instruction, which decodes to it. -/
theorem reservedBitsIgnored : Obligations.ReservedBitsIgnored := by
  intro r
  have henc : encodeRecord (decodeRecord r) = r.clearReserved := (decodes_as r).encodeRecord_eq
  refine ⟨?_, henc⟩
  rw [← henc, decodeRecord_encodeRecord (decodes_as r).wellFormed]

/-! ### Every 32 bytes are a record (30_encoding.md R142, R143, R180) -/

/-- The instruction of a record has the record's KIND. -/
theorem DecodesAs.kindCode_eq {r : Record} {i : Instr} (h : DecodesAs r i) : i.kindCode = r.kind := by
  cases h
  case reserved18 | reserved20 | reserved40 | reserved80 => rfl
  all_goals next hk => exact hk.symm

/-- The instruction of a record has the record's DELTA. -/
theorem DecodesAs.delta_eq {r : Record} {i : Instr} (h : DecodesAs r i) : i.delta = r.delta := by
  cases h <;> rfl

/-- A word of a byte list is the number of its four bytes (R140). -/
theorem wordAt_toNat (bs : List Byte) (j : Nat) : (wordAt bs j).toNat = leNat ((bs.drop (4 * j)).take 4) := by
  have hlt := leNat_lt ((bs.drop (4 * j)).take 4)
  have hpow : 256 ^ ((bs.drop (4 * j)).take 4).length ≤ 256 ^ 4 :=
    Nat.pow_le_pow_right (by omega) (List.length_take_le ..)
  rw [wordAt, BitVec.toNat_ofNat, Nat.mod_eq_of_lt (by omega)]

/-- Byte `k` of a byte list, by its number. -/
theorem getElem?_eq_leNat {bs : List Byte} {k : Nat} (h : k < bs.length) :
    bs[k]? = some (BitVec.ofNat 8 (leNat bs / 256 ^ k)) := by
  rw [← leBytes_getElem? h, leBytes_leNat]

/-- KIND is byte 3 of a record (R140). -/
theorem recordOfBytes_kind {bs : List Byte} (h : 4 ≤ bs.length) : bs[3]? = some (recordOfBytes bs).kind := by
  have htake : (bs.take 4)[3]? = bs[3]? := List.getElem?_take_of_lt (by omega)
  rw [← htake, getElem?_eq_leNat (by rw [List.length_take]; omega)]
  congr 1
  apply BitVec.eq_of_toNat_eq
  rw [BitVec.toNat_ofNat, Record.kind, recordOfBytes, BitVec.extractLsb'_toNat, wordAt_toNat, Nat.shiftRight_eq_div_pow]
  rfl

/-- Settles O3: the number of bytes decides whether there is a record, and `DecodesAs` gives its instruction. -/
theorem decoderTotalByKind : Obligations.DecoderTotalByKind := by
  intro bs
  refine ⟨fun hlen => by rw [decode, if_neg hlen], fun hlen => ?_⟩
  have has := decodes_as (recordOfBytes bs)
  refine ⟨_, by rw [decode, if_pos hlen], has.wellFormed, ?_, ?_, Instr.isReserved_iff has.wellFormed⟩
  · rw [has.kindCode_eq, recordOfBytes_kind (by omega)]
  · rw [has.delta_eq]
    exact wordAt_toNat bs 1

/-! ### Records written out (30_encoding.md R185) -/

/-- Bytes that are the encoding of an instruction decode to it. -/
theorem decode_eq_of_encode {i : Instr} {bs : List Byte} (hw : i.wellFormed = true) (h : encode i = bs) :
    decode bs = .ok i := by
  rw [← h, decodeOfEncode i hw]

/-- Settles O4: four of the records are encodings; the last has every reserved bit set, and its words are decoded. -/
theorem writtenRecordsDecode : Obligations.WrittenRecordsDecode :=
  ⟨decode_eq_of_encode rfl (by decide), decode_eq_of_encode rfl (by decide), decode_eq_of_encode rfl (by decide),
    decode_eq_of_encode rfl (by decide), by decide⟩

end Sys2Proof

/-! ## Tracks, records and commands (40_track_dispatch.md) -/

namespace Sys2Proof.Machine

/-! ### Control events and reserved kinds (40_track_dispatch.md R220 to R223) -/

/-- The samples per tick of a tempo, by the formula of R220. -/
theorem sptOfTempo_eq (m : Word) : sptOfTempo m =
    (F64.ofNat 44100).div ((((F64.ofNat m.toNat).div (F64.ofNat 1000)).mul (F64.ofNat 96)).div (F64.ofNat 60)) := by
  rw [sptOfTempo, floatWord, Config.sampleRate]

/-- MBPM is out of range exactly when it is 0: every other word is at most the greatest. -/
theorem mbpmClamped_iff (m : Word) : wordClamped 1 0xFFFFFFFF m = true ↔ m.toNat = 0 := by
  rw [wordClamped_iff m (by omega) (by omega)]
  omega

/-- What TEMPO does to the state before the record is retired: `spt` alone (R220). -/
def tempoEffect (mbpm : Word) (s : State) : State :=
  s.setTr { s.tr with spt := sptOfTempo (clampWord 1 0xFFFFFFFF mbpm) }

theorem exec_tempo (delta mbpm : Word) (s : State) :
    exec (.tempo delta mbpm) s = consume delta (wordClamped 1 0xFFFFFFFF mbpm) (tempoEffect mbpm) s := rfl

theorem tempoEffect_tr (mbpm : Word) (s : State) :
    (tempoEffect mbpm s).tr = { s.tr with spt := sptOfTempo (clampWord 1 0xFFFFFFFF mbpm) } := setTr_tr _ _

/-- Settles O17: TEMPO writes `spt` alone, after the record's duration was taken. -/
theorem tempoEvent : Obligations.TempoEvent := by
  intro delta mbpm s
  refine ⟨_, (clampWord 1 0xFFFFFFFF mbpm).toNat, exec_tempo delta mbpm s,
    clampWord_clampedTo mbpm (by omega) (by omega),
    consume_consumed (.setTr _ _) (by simp [tempoEffect_tr]) (by simp [tempoEffect_tr]),
    clampRecorded_flagClamp (mbpmClamped_iff mbpm) rfl, by simp [tempoEffect_tr], by simp [tempoEffect_tr], ?_⟩
  rw [← sptOfTempo_eq]
  simp [tempoEffect_tr]

/-- What EOT does to the state before the record is retired: END only on the tempo track (R222). -/
def eotEffect (s : State) : State :=
  if s.engine.track = 0 then s.endTrack.setEnd else s.endTrack

theorem exec_eot (delta : Word) (s : State) : exec (.eot delta) s = consume delta false eotEffect s := rfl

theorem eotEffect_tr (s : State) : (eotEffect s).tr = { s.tr with ended := true } := by
  unfold eotEffect
  split <;> simp

theorem eotEffect_status (s : State) : (eotEffect s).status =
    if s.engine.track = 0 then { s.status with ended := true } else s.status := by
  unfold eotEffect
  split <;> rfl

theorem TrackEffect.eot (s : State) : TrackEffect s (eotEffect s) := by
  have hend : TrackEffect s s.endTrack := .setTr s _
  unfold eotEffect
  split
  · exact hend.trans (.setEnd _)
  · exact hend

/-- Settles O18: the track ends in both cases of `eotEffect`, END is set in the one of track 0. -/
theorem eotEvent : Obligations.EotEvent := by
  intro delta s
  refine ⟨_, exec_eot delta s, consume_consumed (.eot _) (by simp [eotEffect_tr]) (by simp [eotEffect_tr]),
    by simp [eotEffect_tr], by simp [eotEffect_tr], by simp [eotEffect_tr], fun h0 => ?_, fun h0 => ?_⟩
  · simp [eotEffect_status, Fin.ext_iff, h0]
  · simp [eotEffect_status, Fin.ext_iff, h0]

/-- A record whose meaning is that of a reserved kind consumes its DELTA and sets UNK (R223). -/
theorem consumeReserved_next (delta : Word) (s : State) : ∃ t, consumeReserved delta s = .next t ∧
    RecordConsumed delta s t ∧ t.status = { s.status with unk := true } ∧ t.tr.spt = s.tr.spt ∧
    t.tr.ended = s.tr.ended ∧ t.tr.ch = s.tr.ch :=
  ⟨_, rfl, consume_consumed (.flagUnk _) (by simp) (by simp), by simp, by simp, by simp, by simp⟩

/-- Settles O19: every reserved kind has the one meaning. -/
theorem reservedEvents : Obligations.ReservedEvents := by
  rintro delta k s i (rfl | rfl | rfl | rfl | rfl | rfl) <;> exact consumeReserved_next delta s

/-! ### What a record of any kind does (40_track_dispatch.md R212, R213) -/

/-- The meaning of every record is one of four: it writes its Channel, or it is TEMPO, EOT or reserved. -/
inductive RecordMeaning (s : State) : Instr → Prop where
  /-- the record writes its Channel, and CLAMP if a field was out of range -/
  | channel {i : Instr} (clamped : Bool) (hr : i.isReserved = false) (he : i ≠ .eot i.delta)
      (h : exec i s = consume i.delta clamped (fun s => s.mapCh fun c => eventChannel s c i) s) : RecordMeaning s i
  | tempo (delta mbpm : Word) : RecordMeaning s (.tempo delta mbpm)
  | eot (delta : Word) : RecordMeaning s (.eot delta)
  | reserved {i : Instr} (hr : i.isReserved = true) (h : exec i s = consumeReserved i.delta s) : RecordMeaning s i

theorem recordMeaning (i : Instr) (s : State) : RecordMeaning s i := by
  cases i
  case tempo d m => exact .tempo d m
  case eot d => exact .eot d
  case reserved00 | reserved17 | reserved18 | reserved20 | reserved40 | reserved80 => exact .reserved rfl rfl
  all_goals exact .channel _ rfl nofun rfl

theorem ne_eot_of_isReserved {i : Instr} (h : i.isReserved = true) (d : Word) : i ≠ .eot d := by
  rintro rfl
  cases h

/-- A record that writes CLAMP alone keeps every other bit of STATUS. -/
theorem ClampRecorded.kept {out : Prop} {s t : State} (h : ClampRecorded out s t) :
    t.status.ended = s.status.ended ∧ t.status.unk = s.status.unk ∧ t.status.running = s.status.running ∧
      t.status.done = s.status.done ∧ t.status.buserr = s.status.buserr ∧ t.status.cmderr = s.status.cmderr := by
  rw [h.others]
  exact ⟨rfl, rfl, rfl, rfl, rfl, rfl⟩

/-- Settles O6: each of the four meanings completes, and its own statement says what it writes. -/
theorem everyRecordCompletes : Obligations.EveryRecordCompletes := by
  intro i s
  cases recordMeaning i s with
  | channel clamped hr he h =>
    obtain ⟨t, ht, hc⟩ := consume_mapCh_of (delta := i.delta) (clamped := clamped) Iff.rfl
      (fun s c => eventChannel s c i) s
    obtain ⟨hend, hunk, hkept⟩ := hc.status.kept
    exact ⟨t, h.trans ht, hc.consumed, fun hne => absurd hc.spt hne, by simp [hc.ended, he], by simp [hend, he],
      by simp [hunk, hr], fun hcl => hc.status.clamp.mpr (.inl hcl), hkept⟩
  | tempo delta mbpm =>
    obtain ⟨t, m, ht, -, hcons, hclamp, hended, -, -⟩ := tempoEvent delta mbpm s
    obtain ⟨hend, hunk, hkept⟩ := hclamp.kept
    exact ⟨t, ht, hcons, fun _ => rfl, by simp [hended], by simp [hend], by simp [hunk, Instr.isReserved],
      fun hcl => hclamp.clamp.mpr (.inl hcl), hkept⟩
  | eot delta =>
    obtain ⟨t, ht, hcons, hended, hspt, -, hzero, hother⟩ := eotEvent delta s
    refine ⟨t, ht, hcons, fun hne => absurd hspt hne, by simp [hended, Instr.delta], ?_⟩
    by_cases h0 : s.engine.track = 0
    · rw [hzero (congrArg Fin.val h0)]
      simp [h0, Instr.delta, Instr.isReserved]
    · rw [hother fun hv => h0 (Fin.ext hv)]
      simp [h0, Instr.isReserved]
  | reserved hr h =>
    obtain ⟨t, ht, hcons, hst, hspt, hended, -⟩ := consumeReserved_next i.delta s
    have he := ne_eot_of_isReserved hr i.delta
    exact ⟨t, h.trans ht, hcons, fun hne => absurd hspt hne, by simp [hended, he], by simp [hst, he],
      by simp [hst, hr], by simp [hst], by simp [hst], by simp [hst], by simp [hst], by simp [hst]⟩

/-- Settles O5: no other branch of the step is open at a due record. -/
theorem stepRunsDueRecord : Obligations.StepRunsDueRecord := by
  intro s bs i hp hb hd hdue
  have hnot : (s.tr.ended || decide (s.engine.frames ≤ s.engine.pos)) = false := by
    simp [hp.live, hp.samples]
  have hlog := log_not_exhausted hp
  have hf := fetch_of_bytes hb hd
  have hdue : s.isDue i = true := hdue
  rw [step_busy hp.busy]
  simp [renderStep, hnot, hlog, hf, hdue]

/-! ### Chunks (40_track_dispatch.md R210, R214, R216, R217) -/

/-- A chunk moves the needle and the position, whatever it renders. -/
theorem ChunkFrame.of_runChunk {p : Params} (hp : 0 < p.lfoBatch) {s t : State} {i : Instr}
    (h : s.runChunk p i = .ok t) : ChunkFrame (samplesToRun s i) s t := by
  have hkept := HostStateKept.runChunk hp h
  obtain ⟨hrest, heng, hothers, htr, -⟩ := runChunk_ok hp h
  exact ⟨heng, htr, hothers, by rw [hrest], hkept.registers, hkept.memories, hkept.hostQueues⟩

/-- A step at a record that is not due moves the needle and the position. -/
theorem ChunkFrame.of_step {s t : State} {i : Instr} (h : RecordWaiting s i) (hs : step s = .next t) :
    ChunkFrame (samplesToRun s i) s t :=
  .of_runChunk lfoBatch_pos (runChunk_of_step h hs)

/-- Settles O20: on track 0 the chunk is `chunkState` itself. -/
theorem tempoTrackChunk : Obligations.TempoTrackChunk := by
  intro s i h h0
  have hrun := runChunk_tempo defaultParams i (Fin.ext h0)
  refine ⟨chunkState s i, by rw [step_waiting h, hrun], .of_runChunk lfoBatch_pos hrun, ?_, .of_eq rfl rfl rfl⟩
  rw [chunkState_tr]

theorem samplesToRun_le (s : State) (i : Instr) : samplesToRun s i ≤ s.engine.frames - s.engine.pos :=
  chunkLength_le s i

/-- A chunk is not empty: the duration exceeds the needle, the difference does not round to zero, and samples are left. -/
theorem samplesToRun_pos {s : State} {i : Instr} (h : RecordWaiting s i) (hn : s.tr.needle.isNaN = false)
    (hd : (recordDuration s i).isNaN = false) : 1 ≤ samplesToRun s i := by
  have hlt : s.tr.needle.lt (recordDuration s i) = true := (F64.not_le hd hn).mp h.later
  have hceil : 1 ≤ ((recordDuration s i).sub s.tr.needle).ceil := F64.one_le_ceil (F64.zero_lt_sub_of_lt hlt)
  have hleft := h.pending.samples
  exact Nat.le_min.mpr ⟨by omega, by omega⟩

/-- Settles O22: the position moves by the length of the chunk, which lies between 1 and the samples left. -/
theorem chunkAdvances : Obligations.ChunkAdvances := by
  intro s i h hn hd
  have hpos := samplesToRun_pos h hn hd
  have hle := samplesToRun_le s i
  have hleft := h.pending.samples
  refine ⟨hpos, by omega, fun t hs => ?_⟩
  rw [(ChunkFrame.of_step h hs).engine]
  exact ⟨Nat.add_le_add_left hpos _, by simp only; omega, rfl⟩

/-- With whole numbers for the duration and the needle, the chunk is the shorter of the distance to the record and the rest
of the block. -/
theorem samplesToRun_ofNat {s : State} {i : Instr} {d n : Nat} (hd : d < 2 ^ 53) (hlt : n < d)
    (hdur : recordDuration s i = F64.ofNat d) (hneedle : s.tr.needle = F64.ofNat n) :
    samplesToRun s i = min (d - n) (s.engine.frames - s.engine.pos) := by
  rw [samplesToRun, hdur, hneedle, F64.sub_ofNat hd hlt, F64.ceil_ofNat (by omega), Int.toNat_natCast]

/-- Settles O23: the difference, its ceiling and the sum of the needle and the chunk are exact below 2^53. -/
theorem integerTiming : Obligations.IntegerTiming := by
  intro s t i d n h hd hn hdur hneedle hs
  have hlt : n < d := by
    have hle := F64.ofNat_le hd hn
    rw [← hdur, ← hneedle, h.later] at hle
    simpa using hle
  have hrun := samplesToRun_ofNat hd hlt hdur hneedle
  have hframe := ChunkFrame.of_step h hs
  rw [hrun] at hframe
  generalize hk : min (d - n) (s.engine.frames - s.engine.pos) = k at hframe
  have hadd : t.tr.needle = F64.ofNat (n + k) := by
    rw [hframe.track, hneedle]
    exact F64.add_ofNat hn (by omega)
  have hdur' : recordDuration t i = F64.ofNat d := by
    rw [← hdur, recordDuration, recordDuration, hframe.track]
  refine ⟨by rw [hframe.engine], hadd, ?_⟩
  rw [hdur', hadd, F64.ofNat_le hd (by omega)]
  omega

/-! ### The end of a track's block (40_track_dispatch.md R201, R210, R215) -/

/-- Moving to the next track is what `TrackDone` says; no slot is beyond the last of NTRACKS. -/
theorem TrackDone.nextTrack {s : State} (hb : s.engine.busy = true) (hn : s.ntracks.toNat ≤ 64) :
    TrackDone s s.nextTrack := by
  have hregs := (nextTrack_registers s).1
  rcases nextTrack_cases s with ⟨hlt, _, u, hu, e⟩ | ⟨hlast, e⟩ <;> rw [e] at hregs ⊢
  · exact ⟨fun _ => ⟨rfl, hb, hu, rfl, rfl⟩, fun hge => absurd hlt (Nat.not_lt.mpr hge), hregs, .of_eq rfl rfl rfl,
      .of_eq rfl rfl rfl, ⟨rfl, rfl⟩⟩
  · exact ⟨fun hlt => absurd ⟨hlt, Nat.lt_of_lt_of_le hlt hn⟩ hlast, fun _ => ⟨rfl, rfl⟩, hregs, .of_eq rfl rfl rfl,
      .of_eq rfl rfl rfl, ⟨rfl, rfl⟩⟩

/-- Ending a track first makes no difference to what is done for the block: it writes the track alone. -/
theorem TrackDone.of_endTrack {s t : State} (h : TrackDone s.endTrack t) : TrackDone s t where
  next := h.next
  last := h.last
  registers := ⟨h.registers.ntracks, h.registers.blockLen, h.registers.trkBase, h.registers.trkLen, h.registers.dpcmSlots⟩
  memories := ⟨h.memories.evm, h.memories.dpcm, h.memories.wave⟩
  buffers := ⟨h.buffers.out, h.buffers.pipe, h.buffers.sync⟩
  hostQueues := ⟨h.hostQueues.inbox, h.hostQueues.replies⟩

theorem nextTrack_tracks (s : State) : s.nextTrack.tracks = s.tracks := by
  rcases nextTrack_cases s with ⟨_, _, u, _, e⟩ | ⟨_, e⟩ <;> rw [e]
  rfl

/-- The step of a track that has ended or has no sample left. -/
theorem step_done {s : State} (hb : s.engine.busy = true) (h : s.tr.ended = true ∨ s.engine.frames ≤ s.engine.pos) :
    step s = .next s.nextTrack := by
  rw [step_busy hb, renderStep, if_pos (by simpa using h)]

/-- The step of a track whose log is exhausted (R215). -/
theorem step_exhausted {s : State} (hb : s.engine.busy = true) (hl : s.tr.ended = false)
    (hp : s.engine.pos < s.engine.frames) (hx : s.logExhausted = true) : step s = .next s.endTrack.nextTrack := by
  rw [step_busy hb, renderStep, if_neg (by simp [hl, hp]), if_pos hx]

/-- Settles O28: the two steps that leave a track, each followed by `nextTrack`. -/
theorem trackGivesWay : Obligations.TrackGivesWay := by
  intro s hb hn
  refine ⟨fun h => ⟨_, step_done hb h, .nextTrack hb hn, nextTrack_tracks s⟩, fun hl hp hlen => ?_⟩
  have hx : s.logExhausted = true := decide_eq_true hlen
  refine ⟨_, step_exhausted hb hl hp hx, (TrackDone.nextTrack (s := s.endTrack) hb hn).of_endTrack, ?_, ?_⟩
  · intro u hu
    rw [nextTrack_tracks]
    exact setTr_other s _ hu
  · rw [nextTrack_tracks]
    exact endTrack_tr s

/-! ### Commands (10_state.md R32, R35, 40_track_dispatch.md R200, R201) -/

/-- The state after a START that is not refused (R200). -/
def State.started (s : State) : State :=
  { s.clearPipes with
    tracks := Vector.replicate 64 Track.reset
    status := { s.status with ended := false, running := true } }

/-- The state after a RENDER that is not refused: the buffers cleared, track 0 next (R201). -/
def State.renderBegun (s : State) : State :=
  { s.clearPipes with out := [], engine := { busy := true, track := 0, pos := 0, frames := s.blockLen.toNat } }

theorem startCommand_refused {s : State} (h : s.status.running = true) : s.startCommand = s.flagCmderr :=
  if_pos h

theorem startCommand_accepted {s : State} (h : s.status.running = false) : s.startCommand = s.started :=
  if_neg (by simp [h])

theorem renderCommand_refused {s : State} (h : s.status.running = false) : s.renderCommand = s.flagCmderr :=
  if_pos (by simp [h])

theorem renderCommand_accepted {s : State} (h : s.status.running = true) : s.renderCommand = s.renderBegun :=
  if_neg (by simp [h])

/-- STOP and then START, each when its bit is set (R32). -/
def State.stopStart (stop start : Bool) (s : State) : State :=
  let s := if stop then s.stopCommand else s
  if start then s.startCommand else s

/-- A write to CTRL without RESET: STOP, START and RENDER in this order (R32). -/
theorem hostWrite_ctrl (p : Params) (s : State) {data : BitVec 64} (h : data.getLsbD 31 = false) :
    hostWrite p 0x004#32 .w4 data s =
      if data.getLsbD 1 then (s.stopStart (data.getLsbD 2) (data.getLsbD 0)).renderCommand
      else s.stopStart (data.getLsbD 2) (data.getLsbD 0) := by
  have hbit (k : Nat) (hk : k < 32) : (data.setWidth 32).getLsbD k = data.getLsbD k := by
    rw [BitVec.getLsbD_setWidth, decide_eq_true hk, Bool.true_and]
  obtain ⟨_, rctrl, _⟩ := regAt_fixed p
  refine (hostWrite_register_at s data rctrl).trans ?_
  rw [writeReg, State.ctrlWrite, hbit 31 (by omega), hbit 2 (by omega), hbit 1 (by omega), hbit 0 (by omega), h]
  rfl

/-- A STOP of a block that is not RUNNING changes nothing (R35). -/
theorem stopCommand_of_stopped {s : State} (h : s.status.running = false) : s.stopCommand = s := by
  rw [State.stopCommand, ← h]

/-- Where STOP runs or the block is not RUNNING, START begins from a block that is not RUNNING (R32, R35). -/
theorem stopStart_of_stopped {stop : Bool} {s : State} (h : stop = true ∨ s.status.running = false) (start : Bool) :
    s.stopStart stop start = if start then s.started else s.stopCommand := by
  have hstop : (if stop then s.stopCommand else s) = s.stopCommand := by
    split
    · rfl
    · next hne => exact (stopCommand_of_stopped (h.resolve_left hne)).symm
  rw [State.stopStart, hstop]
  rfl

/-- Without STOP, START is refused while RUNNING (R200). -/
theorem stopStart_of_running {s : State} (h : s.status.running = true) (start : Bool) : s.stopStart false start =
    { s with status := { s.status with cmderr := s.status.cmderr || start } } := by
  cases start with
  | false => simp [State.stopStart]
  | true => simpa [State.stopStart, State.flagCmderr] using startCommand_refused h

theorem started_cleared (s : State) : (∀ u, s.started.tracks.get u = Track.reset) ∧
    (∀ i k, s.started.pipeAt i k = F64.zero) ∧ (∀ i k, s.started.syncAt i k = false) := by
  refine ⟨fun u => replicate_get u _, fun i k => ?_, fun i k => ?_⟩
  · simp [State.pipeAt, State.started]
  · simp [State.syncAt, State.started]

theorem renderBegun_cleared (s : State) : (∀ j, s.renderBegun.outAt j = F64.zero) ∧
    (∀ i k, s.renderBegun.pipeAt i k = F64.zero) ∧ (∀ i k, s.renderBegun.syncAt i k = false) := by
  refine ⟨fun j => rfl, fun i k => ?_, fun i k => ?_⟩
  · simp [State.pipeAt, State.renderBegun]
  · simp [State.syncAt, State.renderBegun]

/-- Settles O52: the START refused, the START accepted, the STOP alone. -/
theorem startAndStopCommands : Obligations.StartAndStopCommands := by
  intro p s data h31 h1
  rw [hostWrite_ctrl p s h31, h1]
  simp only [Bool.false_eq_true, if_false]
  refine ⟨fun h2 h0 hr => ?_, fun h h0 => ?_, fun h2 h0 => ?_⟩
  · rw [h2, h0, stopStart_of_running hr, Bool.or_true]
  · rw [h0, stopStart_of_stopped h]
    exact ⟨s.started, rfl, rfl, started_cleared s⟩
  · rw [h0, stopStart_of_stopped (.inl h2)]
    rfl

/-- Settles O53: the RENDER refused; else begun in the state that STOP and START leave, of a block that is RUNNING without
STOP or of one that START has started. -/
theorem renderCommand : Obligations.RenderCommand := by
  intro p s data h31 h1
  rw [hostWrite_ctrl p s h31, h1]
  simp only [if_true]
  refine ⟨fun h0 h => ?_, fun h => ?_⟩
  · rw [h0, stopStart_of_stopped h, renderCommand_refused (by rfl)]
    rfl
  by_cases hstopped : data.getLsbD 2 = true ∨ s.status.running = false
  · have hnot : ¬(data.getLsbD 2 = false ∧ s.status.running = true) := by
      rintro ⟨h2, hr⟩
      rw [h2, hr] at hstopped
      exact absurd hstopped (by decide)
    rw [h.resolve_right hnot, stopStart_of_stopped hstopped, if_pos rfl, renderCommand_accepted (s := s.started) rfl]
    obtain ⟨hout, hpipe, hsync⟩ := renderBegun_cleared s.started
    obtain ⟨htracks, _⟩ := started_cleared s
    refine ⟨_, rfl, hout, hpipe, hsync, rfl, rfl, rfl, rfl, fun h2 hr => absurd ⟨h2, hr⟩ hnot,
      fun _ => ⟨rfl, htracks⟩⟩
  · obtain ⟨h2, hr⟩ : data.getLsbD 2 = false ∧ s.status.running = true := by simpa using hstopped
    rw [h2, stopStart_of_running hr, renderCommand_accepted (by exact hr)]
    obtain ⟨hout, hpipe, hsync⟩ :=
      renderBegun_cleared { s with status := { s.status with cmderr := s.status.cmderr || data.getLsbD 0 } }
    refine ⟨_, rfl, hout, hpipe, hsync, rfl, rfl, rfl, rfl, fun _ _ => rfl, fun hor => ?_⟩
    simp [hr] at hor

end Sys2Proof.Machine

/-! ## The Channel: events, stages and chunks (41_channel.md) -/

namespace Sys2Proof.Machine

/-! ### Clamped operands (30_encoding.md R145, R146) -/

theorem clampNat_clampedTo {lo hi : Nat} (v : Nat) (h : lo ≤ hi) : ClampedTo lo hi v (clampNat lo hi v) := by
  unfold ClampedTo clampNat
  omega

/-- A clamped byte lies where R146 says. -/
theorem clampByte_clampedTo {lo hi : Nat} (v : Byte) (h : lo ≤ hi) (h256 : hi < 256) :
    ClampedTo lo hi v.toNat (clampByte lo hi v).toNat :=
  clampByte_toNat v h h256 ▸ clampNat_clampedTo v.toNat h

/-- A field with no lower bound is out of range exactly above its upper one. -/
theorem byteClamped_zero_iff {hi : Nat} (v : Byte) (h256 : hi < 256) : byteClamped 0 hi v = true ↔ hi < v.toNat := by
  rw [byteClamped_iff v (Nat.zero_le hi) h256]
  omega

/-- A record of two such fields is out of range when one of them is. -/
theorem bytesClamped_zero_iff {hi hi' : Nat} (v w : Byte) (h : hi < 256) (h' : hi' < 256) :
    (byteClamped 0 hi v || byteClamped 0 hi' w) = true ↔ hi < v.toNat ∨ hi' < w.toNat := by
  rw [Bool.or_eq_true, byteClamped_zero_iff v h, byteClamped_zero_iff w h']

theorem pipeOfField_clampedTo (v : Byte) : ClampedTo 0 2 v.toNat (pipeOfField v).val := by
  unfold ClampedTo pipeOfField
  simp only
  omega

/-- The volume mode of a MODE field has the number of the clamped field (10_state.md R42). -/
theorem volModeOfField_code (v : Byte) : (volModeOfField v).code = (clampByte 0 1 v).toNat := by
  have hle := (clampByte_le (lo := 0) (hi := 1) v (by omega) (by omega)).2
  unfold volModeOfField
  split
  · next h => rw [h]; rfl
  · next h =>
    have hne : (clampByte 0 1 v).toNat ≠ 0 := fun h0 => h (BitVec.eq_of_toNat_eq h0)
    rw [VolMode.code]
    omega

/-- The output mode of a MODE field has the number of the clamped field (10_state.md R49). -/
theorem outModeOfField_code (v : Byte) : (outModeOfField v).code = (clampByte 0 2 v).toNat := by
  have hle := (clampByte_le (lo := 0) (hi := 2) v (by omega) (by omega)).2
  unfold outModeOfField
  split
  · next h => rw [h]; rfl
  · next h => rw [h]; rfl
  · next h0 h1 => exact Nat.le_antisymm ((Nat.two_le_iff _).mpr ⟨h0, h1⟩) hle

/-- The sync mode of a MODE field has the number of the clamped field (10_state.md R49). -/
theorem syncModeOfField_code (v : Byte) : (syncModeOfField v).code = (clampByte 0 2 v).toNat := by
  have hle := (clampByte_le (lo := 0) (hi := 2) v (by omega) (by omega)).2
  unfold syncModeOfField
  split
  · next h => rw [h]; rfl
  · next h => rw [h]; rfl
  · next h0 h1 => exact Nat.le_antisymm ((Nat.two_le_iff _).mpr ⟨h0, h1⟩) hle

/-! ### Events of the Channel as a whole (R250 to R262) -/

/-- The period index of a note is its low four bits (42_oscillator.md R353). -/
theorem noteIndex_eq (n : Byte) : BitVec.ofNat 4 (n.toNat % 16) = BitVec.ofNat 4 n.toNat :=
  BitVec.eq_of_toNat_eq (by simp)

/-- Settles O7: `enableNote` is a Trigger of both envelopes and a restart of both oscillators. -/
theorem noteOnEvent : Obligations.NoteOnEvent := by
  intro delta note vel s
  obtain ⟨t, ht, hevent⟩ := consume_mapCh_of (delta := delta)
    (bytesClamped_zero_iff note vel (hi := 143) (hi' := 127) (by omega) (by omega))
    (fun s => enableNote s (clampByte 0 143 note) (clampByte 0 127 vel)) s
  have hrestart := resetAll_restarted s (BitVec.ofNat 4 (clampByte 0 143 note).toNat)
  refine ⟨t, _, _, _, _, _, _, ht, clampByte_clampedTo note (by omega) (by omega),
    clampByte_clampedTo vel (by omega) (by omega), trigger_triggered false s.ch.env1,
    trigger_triggered true s.ch.env2, ?_, ?_, hevent⟩ <;> rw [noteIndex_eq]
  · exact hrestart s.ch.osc1
  · exact hrestart s.ch.osc2

/-- Settles O8: NOTE_OFF and CLOSE are both `disableNote`, a Release of each envelope. -/
theorem noteOffAndCloseEvents : Obligations.NoteOffAndCloseEvents := by
  intro delta note vel s i hi
  have hexec : exec i s = consume delta false (State.mapCh disableNote) s := by
    rcases hi with rfl | rfl <;> rfl
  obtain ⟨t, ht, hevent⟩ := consume_mapCh (delta := delta) (clamped := false) (out := False) (by simp) disableNote s
  exact ⟨t, _, _, hexec.trans ht, releaseRamp_released s.ch.env1, releaseRamp_released s.ch.env2, hevent⟩

/-- Settles O9: each record stores its clamped operand in one field of the Channel. -/
theorem noteExpressionVolmodeAndPanEvents : Obligations.NoteExpressionVolmodeAndPanEvents := by
  intro delta v s
  refine ⟨?note, ?expression, ?volmode, ?pan⟩
  case note =>
    obtain ⟨t, ht, hevent⟩ := consume_mapCh (delta := delta) (byteClamped_zero_iff v (hi := 143) (by omega))
      (fun ch => { ch with note := clampByte 0 143 v }) s
    exact ⟨t, _, ht, clampByte_clampedTo v (by omega) (by omega), hevent⟩
  case expression =>
    obtain ⟨t, ht, hevent⟩ := consume_mapCh (delta := delta) (byteClamped_zero_iff v (hi := 127) (by omega))
      (fun ch => { ch with expr := clampByte 0 127 v }) s
    exact ⟨t, _, ht, clampByte_clampedTo v (by omega) (by omega), hevent⟩
  case volmode =>
    obtain ⟨t, ht, hevent⟩ := consume_mapCh (delta := delta) (byteClamped_zero_iff v (hi := 1) (by omega))
      (fun ch => { ch with volmode := volModeOfField v }) s
    refine ⟨t, _, ht, ?_, hevent⟩
    rw [volModeOfField_code]
    exact clampByte_clampedTo v (by omega) (by omega)
  case pan =>
    have hout : byteClamped 1 127 v = true ↔ v.toNat = 0 ∨ 127 < v.toNat := by
      rw [byteClamped_iff v (by omega) (by omega)]
      omega
    obtain ⟨t, ht, hevent⟩ := consume_mapCh (delta := delta) hout (fun ch => { ch with pan := clampByte 1 127 v }) s
    exact ⟨t, _, ht, clampByte_clampedTo v (by omega) (by omega), hevent⟩

/-- Settles O10: nothing is clamped, so neither record can set CLAMP. -/
theorem detuneAndNoiseFreqEvents : Obligations.DetuneAndNoiseFreqEvents := by
  intro delta v s
  have hout : false = true ↔ False := by simp
  exact ⟨consume_mapCh hout (fun ch => { ch with detune := v }) s,
    consume_mapCh hout (fun ch => { ch with noisefreq := v }) s⟩

/-- Settles O11: all four records share one clamp of the pipe, and OUTPUT and SYNC one clamp of the mode. -/
theorem routingEvents : Obligations.RoutingEvents := by
  intro delta pipe mode sens s
  have hmode : ClampedTo 0 2 mode.toNat (clampByte 0 2 mode).toNat := clampByte_clampedTo mode (by omega) (by omega)
  have hpipe : byteClamped 0 2 pipe = true ↔ 2 < pipe.toNat := byteClamped_zero_iff pipe (by omega)
  have hboth := bytesClamped_zero_iff pipe mode (hi := 2) (hi' := 2) (by omega) (by omega)
  exact ⟨pipeOfField pipe, outModeOfField mode, syncModeOfField mode, pipeOfField_clampedTo pipe,
    outModeOfField_code mode ▸ hmode, syncModeOfField_code mode ▸ hmode,
    consume_mapCh hpipe (fun ch => { ch with inPipe := pipeOfField pipe, inSens := q16 sens }) s,
    consume_mapCh hpipe (fun ch => { ch with ringPipe := pipeOfField pipe, ringSens := q16 sens }) s,
    consume_mapCh hboth (fun ch => { ch with outPipe := pipeOfField pipe, outMode := outModeOfField mode }) s,
    consume_mapCh hboth (fun ch => { ch with syncPipe := pipeOfField pipe, syncMode := syncModeOfField mode }) s⟩

/-! ### The stages after the carrier (R285 to R292) -/

theorem dbIndex_eq (e : F64) : (dbIndex e : Int) = min (max (e.mul (F64.ofNat 255)).floor 0) 255 := by
  unfold dbIndex clampInt
  omega

theorem amplitudeSample_linear (p : Params) {ch : Channel} (h : ch.volmode = .linear) (x : F64) :
    amplitudeSample p ch x = ((x.mul ch.env1.value).mul (voiceGain ch), { ch with env1 := ch.env1.advance }) := by
  simp [amplitudeSample, Envelope.stepRead, h]

theorem amplitudeSample_nonLinear (p : Params) {ch : Channel} (h : ch.volmode = .nonLinear) (x : F64) :
    amplitudeSample p ch x =
      ((x.mul (p.dbTab (dbIndex ch.env1.value))).mul (voiceGain ch), { ch with env1 := ch.env1.advance }) := by
  simp [amplitudeSample, Envelope.stepRead, h]

/-- With a sensitivity of 0 the ring stage passes its input (R288). -/
theorem ringStage_off (s : State) {ch : Channel} (h : ch.ringSens.isZero = true) (k : Nat) (xs : List F64) :
    ringStage s ch k xs = xs := by
  induction xs generalizing k with
  | nil => rfl
  | cons x xs ih => rw [ringStage, if_pos h, ih]

/-- Settles O42: the amplitude stage by its two volume modes, the ring stage by its sensitivity. -/
theorem amplitudeAndRingStages : Obligations.AmplitudeAndRingStages := by
  intro p ch x
  refine ⟨?amplitude, fun s k xs => ⟨ringStage_length s ch k xs, fun h => ringStage_off s h k xs, fun h j y hy => ?_⟩⟩
  case amplitude =>
    rintro g rfl
    exact ⟨fun h => amplitudeSample_linear p h x,
      fun h => ⟨dbIndex ch.env1.value, dbIndex_eq ch.env1.value, amplitudeSample_nonLinear p h x⟩⟩
  rw [ringStage_get s ch k hy, if_neg (by simp [h])]

/-- What one output sample leaves in each element of OUT (R291, R292). -/
theorem outputSample_outAt {p : Params} {s : State} (hw : Memory.wf p s = true) {k : Nat} (hk : k < p.blockMax)
    (ch : Channel) (y : F64) (j : Nat) :
    (outputSample ch k y s).outAt j =
      if ch.outMode = .mix ∧ j = 2 * k then (s.outAt j).add (y.mul (gainLeft ch.pan))
      else if ch.outMode = .mix ∧ j = 2 * k + 1 then (s.outAt j).add (y.mul (gainRight ch.pan))
      else s.outAt j := by
  cases hm : ch.outMode with
  | mix =>
    have hleft := wf_setOut hw (by omega : 2 * k < 2 * p.blockMax) ((s.outAt (2 * k)).add (y.mul (gainLeft ch.pan)))
    obtain ⟨-, -, -, hout, -⟩ := (memory_wf_iff p s).mp hw
    obtain ⟨-, -, -, hout', -⟩ := (memory_wf_iff p _).mp hleft
    simp only [outputSample, hm, outAt_setOut (Cells.rising_of_wf hout'), outAt_setOut (Cells.rising_of_wf hout)]
    by_cases hl : j = 2 * k
    · simp [hl]
    · by_cases hr : j = 2 * k + 1
      · simp [hr]
      · simp [hl, hr]
  | overwrite => simp [outputSample, hm]
  | add => simp [outputSample, hm]

/-- What one output sample leaves in each element of the pipes (R291). -/
theorem outputSample_pipeAt {p : Params} {s : State} (hw : Memory.wf p s = true) (ch : Channel) (k : Nat) (y : F64)
    (i : Fin 3) (j : Nat) :
    (outputSample ch k y s).pipeAt i j =
      if ch.outMode = .overwrite ∧ i = ch.outPipe ∧ j = k then y
      else if ch.outMode = .add ∧ i = ch.outPipe ∧ j = k then (s.pipeAt i j).add y
      else s.pipeAt i j := by
  obtain ⟨-, -, -, -, hpipes, -⟩ := (memory_wf_iff p s).mp hw
  have hset (v : F64) := pipeAt_setPipe (Cells.rising_of_wf (hpipes ch.outPipe)) k v i j
  cases hm : ch.outMode with
  | mix => simp [outputSample, hm]
  | overwrite => simp [outputSample, hm, hset]
  | add =>
    simp only [outputSample, hm, hset, true_and, reduceCtorEq, false_and, if_false]
    split
    · next h => rw [h.1, h.2]
    · rfl

/-- One output sample writes OUT and the pipes alone. -/
theorem outputSample_rest (p : Params) (ch : Channel) (k : Nat) (y : F64) (s : State) :
    outputSample ch k y s =
      { s with out := (outputSample ch k y s).out, pipes := (outputSample ch k y s).pipes } := by
  have hrest := (outputSample_written p ch k y s).rest
  have hsyncs : (outputSample ch k y s).syncs = s.syncs := outputStage_syncs ch k [y] s
  rwa [hsyncs] at hrest

/-- Settles O41: the gains of `outputSample` are those of R292. -/
theorem outputSample_writes_element : Obligations.OutputSample := fun p ch k y s hw hk =>
  ⟨_, rfl, outputSample_rest p ch k y s, outputSample_outAt hw hk ch y, outputSample_pipeAt hw ch k y⟩

/-! ### The carrier's pitch and read offset (R282, R283, 42_oscillator.md R326, R327) -/

theorem capInc_natCast (p : Params) (n : Nat) : capInc p n = min n (phaseMod p - 1) := by
  have hpos := phaseMod_pos p
  unfold capInc
  omega

theorem incOf_of_floor {p : Params} {f : F64} {n : Nat}
    (h : ((f.mul (phaseScale p)).div (F64.ofNat Config.sampleRate)).floor = n) :
    incOf p f = min n (phaseMod p - 1) := by
  rw [incOf, h, capInc_natCast]

/-- The index of a pitch in the frequency table (R326). -/
def pitchIndex (pitch : F64) : Nat := (clampInt 0 Config.pMax pitch.floor).toNat

theorem freqOf_eq (p : Params) (pitch : F64) : freqOf p pitch = p.freqTab (pitchIndex pitch) := rfl

theorem pitchIndex_eq (pitch : F64) : (pitchIndex pitch : Int) = min (max pitch.floor 0) 14399 := by
  unfold pitchIndex clampInt Config.pMax
  omega

/-- The increment of the carrier is that of its frequency, whichever gives it (R282). -/
theorem carrierInc_eq (p : Params) (ch : Channel) (pitch : F64) :
    carrierInc p ch pitch = incOf p (if ch.osc1.form = .phase .noise ∧ ch.noisefreq ≠ 0#32
      then (F64.ofNat ch.noisefreq.toNat).div (F64.ofNat 1000) else p.freqTab (pitchIndex pitch)) := by
  rw [carrierInc, freqOf_eq]
  split <;> rfl

theorem phaseOffset_of_finite {p : Params} {x : F64} (h : x.isFinite = true) :
    (phaseOffset p x : Int) = (x.mul (phaseScale p)).floor % phaseMod p := by
  have hpos := phaseMod_pos p
  rw [phaseOffset, if_pos h, Int.toNat_of_nonneg (Int.emod_nonneg _ (by omega))]

theorem phaseMod_natCast (p : Params) : (phaseMod p : Int) = 2 ^ (p.tableBits + p.fracBits) := by
  rw [phaseMod, pwBits]
  push_cast
  rfl

/-- Settles O33: the increment and the offset by their formulas, the FM path as `carrierRun` in order. -/
theorem carrierPitchAndOffset : Obligations.CarrierPitchAndOffset := by
  intro p
  refine ⟨fun ch pitch => ?increment, fun x => ⟨fun h => ?notFinite, fun h => ?finite⟩, fun s ch k n h => ?fm⟩
  case increment =>
    exact ⟨pitchIndex pitch, _, pitchIndex_eq pitch, rfl,
      fun n h => (carrierInc_eq p ch pitch).trans (incOf_of_floor h)⟩
  case notFinite => rw [phaseOffset, if_neg (by simp [h])]
  case finite => exact phaseMod_natCast p ▸ phaseOffset_of_finite h
  case fm =>
    rw [carrier, if_neg (by simp [h])]
    exact carrierRun_inOrder p s _ n k _ s.syncs

/-! ### A silent chunk (R281) -/

theorem silence_out (c : Channel) (n k : Nat) (s : State) : (silence c n k s).out = s.out := by
  induction n generalizing k s with
  | zero => rfl
  | succ n ih =>
    have hp : (if c.outMode = .overwrite then s.setPipe c.outPipe k F64.zero else s).out = s.out := by
      split <;> rfl
    rw [silence, ih, ← hp]
    split <;> rfl

/-- The step of a silent chunk of a musical track. -/
theorem step_silent {s : State} {i : Instr} (h : RecordWaiting s i) (h0 : s.engine.track ≠ 0)
    (hpl : s.ch.env1.playing = false) :
    step s = .next (silence s.ch (samplesToRun s i) s.engine.pos (chunkState s i)) := by
  have hpl' : (chunkState s i).ch.env1.playing = false := by rw [chunkState_ch, hpl]
  rw [step_waiting h, runChunk_musical _ i h0, channelRender_silent _ _ _ hpl', chunkState_ch]
  rfl

/-- A chunk ends inside the block buffers. -/
theorem chunk_le_blockMax {s : State} {i : Instr} (h : RecordWaiting s i) (hc : MemoryCanonical defaultParams s) :
    s.engine.pos + samplesToRun s i ≤ defaultParams.blockMax := by
  have hle := samplesToRun_le s i
  have hleft := h.pending.samples
  have hframes := hc.frames h.pending.busy
  omega

/-- Settles O21: the buffers by `silence_buffers`, all else by the frame of the chunk. -/
theorem silentChunk : Obligations.SilentChunk := by
  intro s i h htrack hpl hc
  have hs := step_silent h (fun e => htrack (congrArg Fin.val e)) hpl
  obtain ⟨hpipe, hsync⟩ := silence_buffers defaultParams s.ch (samplesToRun s i) s.engine.pos (chunkState s i) hc.form
    (chunk_le_blockMax h hc)
  obtain ⟨-, -, -, -, hch, -⟩ := runChunk_ok lfoBatch_pos (runChunk_of_step h hs)
  refine ⟨_, hs, .of_step h hs, hch.resolve_right ?_, fun j => ?_, hpipe, hsync⟩
  · rintro ⟨hplays, -⟩
    rw [hpl] at hplays
    cases hplays
  · rw [State.outAt, silence_out]
    rfl

/-! ### What a chunk writes (R280, R291, R293) -/

/-- Settles O24: `ChunkDone` of the state in which the Channel renders. -/
theorem chunkWritesOnlyItsSamples : Obligations.ChunkWritesOnlyItsSamples := by
  intro s t i h htrack hs
  have hrun := runChunk_of_step h hs
  rw [runChunk_musical _ i (fun e => htrack (congrArg Fin.val e))] at hrun
  obtain ⟨-, -, -, hout, hpipe, hsync, -⟩ := channelRender_ok lfoBatch_pos hrun
  rw [chunkState_ch] at hout hpipe hsync
  exact ⟨.of_step h hs, hout, hpipe, hsync⟩

/-! ### A playing chunk, stage by stage (R280, R285 to R292) -/

/-- The fields of a Channel that say where its chunk goes, which no stage of the chunk writes. -/
structure SameRouting (c c' : Channel) : Prop where
  ringSens : c'.ringSens = c.ringSens
  ringPipe : c'.ringPipe = c.ringPipe
  outMode : c'.outMode = c.outMode
  outPipe : c'.outPipe = c.outPipe
  pan : c'.pan = c.pan

theorem SameRouting.trans {a b c : Channel} (h1 : SameRouting a b) (h2 : SameRouting b c) : SameRouting a c :=
  ⟨h2.ringSens.trans h1.ringSens, h2.ringPipe.trans h1.ringPipe, h2.outMode.trans h1.outMode,
    h2.outPipe.trans h1.outPipe, h2.pan.trans h1.pan⟩

theorem SameRouting.of_carrier {p : Params} {n : Nat} {c c' : Channel} (h : CarrierMoved p n c c') :
    SameRouting c c' := by
  rw [h.rest]
  exact ⟨rfl, rfl, rfl, rfl, rfl⟩

theorem SameRouting.amplitude (p : Params) (xs : List F64) (c : Channel) :
    SameRouting c (mapStage (amplitudeSample p) xs c).2 := by
  rw [amplitude_channel]
  exact ⟨rfl, rfl, rfl, rfl, rfl⟩

theorem SameRouting.shapeChunk (p : Params) (s : State) (k0 : Nat) (xs : List F64) (c : Channel) :
    SameRouting c (shapeChunk p s k0 xs c).2 := by
  obtain ⟨-, fb, fm, hch⟩ := shapeChunk_channel p s k0 xs c
  rw [hch]
  exact ⟨rfl, rfl, rfl, rfl, rfl⟩

/-- The stages between the carrier and the output, each over what the one before made (R280). -/
theorem shapeChunk_stages (p : Params) (s : State) (k0 : Nat) (xs : List F64) (c : Channel) :
    ∃ (as rs fs : List F64) (c2 c3 : Channel), StageRun (amplitudeSample p) xs as c c2 ∧ rs.length = xs.length ∧
      (∀ (j : Nat) (a : F64), as[j]? = some a → rs[j]? = some (if c.ringSens.isZero = true then a
        else (a.mul (s.pipeAt c.ringPipe (k0 + j))).mul c.ringSens)) ∧
      StageRun (formantSample p) rs fs c2 c3 ∧
      StageRun (filterSample p) fs (shapeChunk p s k0 xs c).1 c3 (shapeChunk p s k0 xs c).2 := by
  have hroute := SameRouting.amplitude p xs c
  refine ⟨_, ringStage s (mapStage (amplitudeSample p) xs c).2 k0 _, _, _, _, mapStage_run _ xs c, ?_,
    fun j a ha => ?_, mapStage_run _ _ _, mapStage_run _ _ _⟩
  · rw [ringStage_length, mapStage_length]
  · rw [ringStage_get s _ k0 ha, hroute.ringSens, hroute.ringPipe]

/-- What the output stage leaves in an element of OUT is what the output sample of its frame alone would leave. -/
theorem outputStage_outAt {p : Params} {s : State} (hw : Memory.wf p s = true) {ch : Channel} {k : Nat} {ys : List F64}
    (hk : k + ys.length ≤ p.blockMax) {j : Nat} {y : F64} (hy : ys[j]? = some y) {e : Nat} (he : e / 2 = k + j) :
    (outputStage ch k ys s).outAt e = (outputSample ch (k + j) y s).outAt e := by
  induction ys generalizing k s j with
  | nil => cases hy
  | cons x xs ih =>
    rw [List.length_cons] at hk
    have hx := outputSample_written p ch k x s
    have hw' := hx.form hw (by omega)
    cases j with
    | zero =>
      cases hy
      exact (outputStage_written p ch (k + 1) xs _).out e (by omega)
    | succ j =>
      have hlt : j + 1 < xs.length + 1 := (List.getElem?_eq_some_iff.mp hy).1
      have hprev : (outputSample ch k x s).outAt e = s.outAt e := hx.out e (by omega)
      rw [outputStage, ih hw' (by omega) hy (by omega), show k + 1 + j = k + (j + 1) by omega,
        outputSample_outAt hw' (by omega), hprev]
      exact (outputSample_outAt hw (by omega) ch y e).symm

/-- The same of an element of a pipe. -/
theorem outputStage_pipeAt {p : Params} {s : State} (hw : Memory.wf p s = true) {ch : Channel} {k : Nat} {ys : List F64}
    (hk : k + ys.length ≤ p.blockMax) {j : Nat} {y : F64} (hy : ys[j]? = some y) (i : Fin 3) :
    (outputStage ch k ys s).pipeAt i (k + j) = (outputSample ch (k + j) y s).pipeAt i (k + j) := by
  induction ys generalizing k s j with
  | nil => cases hy
  | cons x xs ih =>
    rw [List.length_cons] at hk
    have hx := outputSample_written p ch k x s
    have hw' := hx.form hw (by omega)
    cases j with
    | zero =>
      cases hy
      exact (outputStage_written p ch (k + 1) xs _).pipe i k (by omega)
    | succ j =>
      have hprev : (outputSample ch k x s).pipeAt i (k + (j + 1)) = s.pipeAt i (k + (j + 1)) := hx.pipe i _ (by omega)
      have hstage := ih hw' (k := k + 1) (by omega) hy
      rw [show k + 1 + j = k + (j + 1) by omega] at hstage
      rw [outputStage, hstage, outputSample_pipeAt hw', hprev]
      exact (outputSample_pipeAt hw ch _ y i _).symm

/-- The samples `ys` of a Channel `c`, put out from index `k0` on, stand in the buffers of `t`, over those of `s`, as the
output mode says (R291, R292). -/
structure SamplesOut (c : Channel) (k0 : Nat) (ys : List F64) (s t : State) : Prop where
  mix : c.outMode = .mix → ∀ (j : Nat) (y : F64), ys[j]? = some y →
    t.outAt (2 * (k0 + j)) = (s.outAt (2 * (k0 + j))).add (y.mul (gainLeft c.pan)) ∧
    t.outAt (2 * (k0 + j) + 1) = (s.outAt (2 * (k0 + j) + 1)).add (y.mul (gainRight c.pan))
  overwrite : c.outMode = .overwrite → ∀ (j : Nat) (y : F64), ys[j]? = some y → t.pipeAt c.outPipe (k0 + j) = y
  add : c.outMode = .add → ∀ (j : Nat) (y : F64), ys[j]? = some y →
    t.pipeAt c.outPipe (k0 + j) = (s.pipeAt c.outPipe (k0 + j)).add y

theorem outputStage_samplesOut {p : Params} {s : State} (hw : Memory.wf p s = true) (ch : Channel) {k : Nat}
    {ys : List F64} (hk : k + ys.length ≤ p.blockMax) : SamplesOut ch k ys s (outputStage ch k ys s) where
  mix hm j y hy := by
    have hlt : j < ys.length := (List.getElem?_eq_some_iff.mp hy).1
    rw [outputStage_outAt hw hk hy (by omega), outputStage_outAt hw hk hy (by omega),
      outputSample_outAt hw (by omega), outputSample_outAt hw (by omega), if_pos ⟨hm, rfl⟩, if_neg (by omega),
      if_pos ⟨hm, rfl⟩]
    exact ⟨rfl, rfl⟩
  overwrite hm j y hy := by
    rw [outputStage_pipeAt hw hk hy, outputSample_pipeAt hw, if_pos ⟨hm, rfl, rfl⟩]
  add hm j y hy := by
    rw [outputStage_pipeAt hw hk hy, outputSample_pipeAt hw, if_neg (by simp [hm]), if_pos ⟨hm, rfl, rfl⟩]

theorem SamplesOut.of_routing {c c' : Channel} (hr : SameRouting c c') {k0 : Nat} {ys : List F64} {s t : State}
    (h : SamplesOut c' k0 ys s t) : SamplesOut c k0 ys s t := by
  obtain ⟨hmix, hover, hadd⟩ := h
  rw [hr.outMode, hr.pan] at hmix
  rw [hr.outMode, hr.outPipe] at hover hadd
  exact ⟨hmix, hover, hadd⟩

theorem outputStage_tr (c : Channel) (k : Nat) (ys : List F64) (s : State) : (outputStage c k ys s).tr = s.tr := by
  rw [(outputStage_written defaultParams c k ys s).rest]
  rfl

/-- The state in which the output stage of a chunk begins: the sync buffers those that the carrier left, the Channel the
one that the other stages left. -/
def shapedState (s : State) (i : Instr) (sy : Syncs) (c : Channel) : State :=
  ({ chunkState s i with syncs := sy } : State).setTr { (chunkState s i).tr with ch := c }

theorem shapedState_wf {p : Params} {s : State} (hw : Memory.wf p s = true) (i : Instr) {sy : Syncs}
    (hsy : ∀ q, Cells.wf false p.blockMax (sy.get q) = true) (c : Channel) :
    Memory.wf p (shapedState s i sy c) = true := by
  obtain ⟨hevm, hdpcm, hwave, hout, hpipes, -⟩ := (memory_wf_iff p s).mp hw
  exact (memory_wf_iff p _).mpr ⟨hevm, hdpcm, hwave, hout, hpipes, hsy⟩

/-- The carrier of a chunk reads the state before the chunk: the needle and the position do not matter to it. -/
theorem carrier_chunkState (p : Params) (s : State) (i : Instr) (k n : Nat) (ch : Channel) :
    carrier p (chunkState s i) k n ch = carrier p s k n ch :=
  carrier_moveTo p s _ _ k n ch

/-- The step of a playing chunk of a musical track is what its carrier makes of it. -/
theorem step_playing {s : State} {i : Instr} (h : RecordWaiting s i) (h0 : s.engine.track ≠ 0)
    (hpl : s.ch.env1.playing = true) :
    (∀ f, carrier defaultParams s s.engine.pos (samplesToRun s i) s.ch = .error f → step s = .fault f) ∧
    ∀ xs c1 sy, carrier defaultParams s s.engine.pos (samplesToRun s i) s.ch = .ok (xs, c1, sy) →
      ∃ ys c', shapeChunk defaultParams (chunkState s i) s.engine.pos xs c1 = (ys, c') ∧
        step s = .next (outputStage c' s.engine.pos ys (shapedState s i sy c')) := by
  have hpl' : (chunkState s i).ch.env1.playing = true := by rw [chunkState_ch, hpl]
  have hrun := runChunk_musical defaultParams i h0
  rw [channelRender_played _ _ _ hpl', chunkState_ch, carrier_chunkState] at hrun
  have hlen : s.chunkLength i = samplesToRun s i := rfl
  rw [hlen] at hrun
  refine ⟨fun f hf => ?_, fun xs c1 sy hc => ⟨_, _, rfl, ?_⟩⟩
  · rw [hf] at hrun
    rw [step_waiting h, hrun]
  · rw [hc] at hrun
    rw [step_waiting h, hrun]
    rfl

/-- Settles O25: the carrier by `step_playing`, the stages after it by `shapeChunk_stages`, the output by
`outputStage_samplesOut`. -/
theorem chunkRunsItsStages : Obligations.ChunkRunsItsStages := by
  rintro s i _ _ h htrack hpl hc rfl rfl
  obtain ⟨hfault, hplays⟩ := step_playing h (fun e => htrack (congrArg Fin.val e)) hpl
  refine ⟨hfault, fun xs c1 sy hcarrier => ?_⟩
  obtain ⟨ys, c', hshape, hs⟩ := hplays xs c1 sy hcarrier
  obtain ⟨hlen, hmoved, hsyncs⟩ := carrier_ok lfoBatch_pos hcarrier
  have hchunk := chunk_le_blockMax h hc
  have hroute1 := SameRouting.of_carrier hmoved
  have hroute := hroute1.trans (.shapeChunk defaultParams (chunkState s i) s.engine.pos xs c1)
  have hylen : ys.length = samplesToRun s i := by
    rw [← hlen, ← (shapeChunk_channel defaultParams (chunkState s i) s.engine.pos xs c1).1, hshape]
  obtain ⟨as, rs, fs, c2, c3, hamp, hrlen, hring, hformant, hfilter⟩ :=
    shapeChunk_stages defaultParams (chunkState s i) s.engine.pos xs c1
  rw [hroute1.ringSens, hroute1.ringPipe] at hring
  rw [hshape] at hroute hfilter
  obtain ⟨-, -, -, -, -, hsw⟩ := (memory_wf_iff _ _).mp hc.form
  have hw := shapedState_wf hc.form i (hsyncs.form hsw hchunk) c'
  have hout := (outputStage_samplesOut hw c' (hylen ▸ hchunk)).of_routing hroute
  refine ⟨_, as, rs, fs, ys, c2, c3, hs, hlen, hamp, hrlen.trans hlen, hring, hformant, ?_, fun j y hy =>
    ⟨fun hm => hout.mix hm j y hy, fun hm => hout.overwrite hm j y hy, fun hm => hout.add hm j y hy⟩, fun q k => ?_⟩
  · rw [outputStage_tr, shapedState, setTr_tr]
    exact hfilter
  · rw [State.syncAt, outputStage_syncs]
    rfl

end Sys2Proof.Machine

/-! ## The oscillators (42_oscillator.md) -/

namespace Sys2Proof.Machine

/-! ### No LFSR stops (R332, R351) -/

/-- No LFSR of a Channel is 0. -/
def ChannelNoiseLive (c : Channel) : Prop := LfsrsLive c.osc1 ∧ LfsrsLive c.osc2

/-- Every record keeps the LFSRs of its Channel live: NOTE_ON sets each to 1, FORM and LFO select another modulator, no
other touches an oscillator. -/
theorem ChannelNoiseLive.event {c : Channel} (h : ChannelNoiseLive c) (s : State) (i : Instr) :
    ChannelNoiseLive (eventChannel s c i) := by
  obtain ⟨h1, h2⟩ := h
  cases i
  case noteOn => exact ⟨.resetAll s _ _, .resetAll s _ _⟩
  case form => exact ⟨{ h1 with }, h2⟩
  case lfo => exact ⟨h1, { h2 with }⟩
  all_goals exact ⟨h1, h2⟩

theorem ChannelNoiseLive.played {p : Params} {n : Nat} {c c' : Channel} (h : ChannelNoiseLive c)
    (hp : ChannelPlayed p n c c') : ChannelNoiseLive c' :=
  ⟨hp.osc1.live h.1, hp.osc2.live h.2⟩

/-- Settles O59: the LFSRs of a Channel are live after reset, and every record and every chunk keeps them so. -/
theorem stepKeepsNoiseLive : Obligations.StepKeepsNoiseLive := fun _ _ h hst =>
  step_keeps_channels ChannelNoiseLive ⟨.reset, .reset⟩ (fun i s _ he hq => exec_ch he ▸ hq.event s i)
    (fun _ _ _ hp hq => hq.played hp) h hst

/-! ### The events FORM, PWM and LFO (R321, R322, R324) -/

/-- Every code of R320 is that of its kind. -/
theorem kindOfCode_code : ∀ {c : Nat}, c ≤ 12 → (kindOfCode c).code = c := by decide

/-- The kind of a FORM field has the number of the clamped field. -/
theorem kindOfField_code (v : Byte) : (kindOfField v).code = (clampByte 0 12 v).toNat :=
  kindOfCode_code (clampByte_le (lo := 0) v (by omega) (by omega)).2

/-- The sub-form of a SUB field is the clamped field. -/
theorem subOfField_toNat (v : Byte) : (subOfField v).toNat = (clampByte 0 15 v).toNat := by
  have hle := (clampByte_le (lo := 0) (hi := 15) v (by omega) (by omega)).2
  rw [subOfField, BitVec.toNat_ofNat, Nat.mod_eq_of_lt (by omega)]

theorem kindOfField_clampedTo (v : Byte) : ClampedTo 0 12 v.toNat (kindOfField v).code :=
  kindOfField_code v ▸ clampByte_clampedTo v (by omega) (by omega)

theorem subOfField_clampedTo (v : Byte) : ClampedTo 0 15 v.toNat (subOfField v).toNat :=
  subOfField_toNat v ▸ clampByte_clampedTo v (by omega) (by omega)

/-- Settles O12: FORM writes two fields of `osc1`, PWM one of the Channel. -/
theorem formAndPwmEvents : Obligations.FormAndPwmEvents := by
  intro delta form sub pw s
  have hpw : byteClamped 1 99 pw = true ↔ pw.toNat = 0 ∨ 99 < pw.toNat := by
    rw [byteClamped_iff pw (by omega) (by omega)]
    omega
  refine ⟨?form, ?pwm⟩
  case form =>
    obtain ⟨t, ht, hevent⟩ := consume_mapCh (delta := delta)
      (bytesClamped_zero_iff form sub (hi := 12) (hi' := 15) (by omega) (by omega))
      (fun ch => { ch with osc1 := { ch.osc1 with form := kindOfField form, sub := subOfField sub } }) s
    exact ⟨t, _, _, ht, kindOfField_clampedTo form, subOfField_clampedTo sub, hevent⟩
  case pwm =>
    obtain ⟨t, ht, hevent⟩ := consume_mapCh (delta := delta) hpw (fun ch => { ch with pw := clampByte 1 99 pw }) s
    exact ⟨t, _, ht, clampByte_clampedTo pw (by omega) (by omega), hevent⟩

/-- The one bit of the REV field. -/
theorem revBit_eq : ∀ rev : BitVec 1, decide (rev = 1#1) = rev.getLsbD 0 := by decide

/-- Settles O13: `spt` is that of the state in which the record is applied. -/
theorem lfoEvent : Obligations.LfoEvent := by
  intro delta form sub rev depth width delay len s
  rw [revBit_eq]
  obtain ⟨t, ht, hevent⟩ := consume_mapCh_of (delta := delta)
    (bytesClamped_zero_iff form sub (hi := 12) (hi' := 15) (by omega) (by omega))
    (fun s ch => eventChannel s ch (.lfo delta form sub rev depth width delay len)) s
  exact ⟨t, _, _, ht, kindOfField_clampedTo form, subOfField_clampedTo sub, hevent⟩

/-! ### A chunk moves the selected modulators alone (R331) -/

/-- Settles O27: a chunk leaves the Channel, or leaves what `ChannelPlayed` says. -/
theorem unselectedModulatorsKept : Obligations.UnselectedModulatorsKept := by
  intro s t i h hs
  obtain ⟨-, -, -, -, hch, -⟩ := runChunk_ok lfoBatch_pos (runChunk_of_step h hs)
  change OnlySelectedMoved { s.ch.osc1 with inc := t.ch.osc1.inc } t.ch.osc1 ∧
    OnlySelectedMoved { s.ch.osc2 with inc := t.ch.osc2.inc } t.ch.osc2 ∧ (_ → t.ch.osc2 = _)
  rcases hch with hsame | ⟨-, hplayed⟩
  · rw [hsame]
    exact ⟨.refl _, .refl _, fun _ => rfl⟩
  · exact ⟨hplayed.osc1.moved, hplayed.osc2.moved, hplayed.lfoIdle⟩

/-! ### The shapes of the phase kinds (R337 to R344) -/

/-- The step of a phase in a 32-step wave is its position in 32 equal parts of the circle. -/
theorem waveStep_eq {p : Params} (h : 5 ≤ pwBits p) (pr : Nat) : waveStep p pr = 32 * pr / phaseMod p := by
  have hsplit : phaseMod p = 32 * 2 ^ (pwBits p - 5) := by
    rw [phaseMod, ← Nat.pow_add 2 5, Nat.add_sub_cancel' h]
  rw [waveStep, hsplit, Nat.mul_div_mul_left _ _ (by omega)]

/-- A phase is below a duty threshold of some eighths of the circle exactly when eight of it are below them: the circle
has a whole number of units in an eighth. -/
theorem lt_eighths_iff {p : Params} (h : 5 ≤ pwBits p) (eighths pr : Nat) :
    pr < eighths * phaseMod p / 8 ↔ 8 * pr < eighths * phaseMod p := by
  have h8 : 8 ∣ phaseMod p := Nat.pow_dvd_pow 2 (by omega : 3 ≤ pwBits p)
  rw [Nat.lt_div_iff_mul_lt_of_dvd (by omega) (h8.mul_left eighths), Nat.mul_comm pr]

/-- The duty of a sub-form in eighths of the circle; sub-forms above 3 are 3 (R340). -/
theorem dutyThreshold_eq (p : Params) {sub : BitVec 4} {eighths : Nat}
    (h : (sub.toNat = 0 ∧ eighths = 1) ∨ (sub.toNat = 1 ∧ eighths = 2) ∨ (sub.toNat = 2 ∧ eighths = 4) ∨
      (3 ≤ sub.toNat ∧ eighths = 6)) : dutyThreshold p sub = eighths * phaseMod p / 8 := by
  rw [dutyThreshold]
  rcases h with ⟨hs, rfl⟩ | ⟨hs, rfl⟩ | ⟨hs, rfl⟩ | ⟨hs, rfl⟩
  · rw [hs]; rfl
  · rw [hs]; rfl
  · rw [hs]; rfl
  · rw [Nat.min_eq_right hs]; rfl

theorem negOne_eq : F64.negOne = F64.one.neg := by decide

theorem pulseOut_eq (pr th : Nat) : pulseOut pr th = if pr < th then F64.one else F64.one.neg := by
  rw [pulseOut, negOne_eq]

/-- Only FC_PULSE and GB_WAVE read the sub-form. -/
theorem shape_sub (p : Params) (s : State) (pw : Byte) {k : PhaseKind} (h1 : k ≠ .fcPulse) (h2 : k ≠ .gbWave)
    (sub sub' : BitVec 4) (pr : Nat) : shape p s pw sub k pr = shape p s pw sub' k pr := by
  cases k
  case fcPulse => exact absurd rfl h1
  case gbWave => exact absurd rfl h2
  all_goals rfl

/-- The default 32-step triangle (R342). -/
theorem defaultTri32_eq {j : Nat} (h : j < 16) : defaultTri32 j = 15 - j ∧ defaultTri32 (16 + j) = j := by
  rw [defaultTri32, defaultTri32, if_pos h, if_neg (by omega), Nat.add_sub_cancel_left]
  exact ⟨rfl, rfl⟩

/-- Settles O32: the tables, the pulse thresholds and the 32-step waves, each by its own rule. -/
theorem shapeOfPhaseKinds : Obligations.ShapeOfPhaseKinds := by
  refine ⟨fun p s pw sub pr h => ?_, fun j hj => defaultTri32_eq hj⟩
  refine ⟨rfl, rfl, rfl, rfl, pulseOut_eq _ _, fun eighths hsub => ?duty, fun step hstep => ?wave,
    fun k sub' h1 h2 => shape_sub p s pw h1 h2 sub sub' pr⟩
  case duty =>
    refine (pulseOut_eq pr (dutyThreshold p sub)).trans ?_
    rw [dutyThreshold_eq p hsub]
    exact if_congr (lt_eighths_iff h eighths pr) rfl rfl
  case wave =>
    have hwave : waveStep p pr = step := (waveStep_eq h pr).trans hstep.symm
    rw [← hwave]
    exact ⟨rfl, rfl⟩

/-! ### Timers (R351, R360) -/

/-- `n` clocks in order; the first that faults is the result. -/
def clockTimes {α : Type} (clock : α → Except Fault α) : Nat → α → Except Fault α
  | 0, x => .ok x
  | n + 1, x =>
    match clock x with
    | .error f => .error f
    | .ok y => clockTimes clock n y

theorem dmcClocks_eq_clockTimes (p : Params) (s : State) (slot : DpcmSlot) (n : Nat) (m : Dpcm) :
    dmcClocks p s slot n m = clockTimes (dmcClock p s slot) n m := by
  induction n generalizing m with
  | zero => rfl
  | succ n ih =>
    rw [dmcClocks, clockTimes]
    cases dmcClock p s slot m with
    | error f => rfl
    | ok m' => exact ih m'

theorem clockTimes_lfsrShift {w : Nat} (tap n : Nat) (r : BitVec w) :
    clockTimes (fun r => .ok (lfsrShift tap r)) n r = .ok (lfsrShifts tap n r) := by
  induction n generalizing r with
  | zero => rfl
  | succ n ih => exact ih (lfsrShift tap r)

/-- The loop of the rules takes off the quotient's worth of periods, clocking once for each, and leaves the remainder. -/
theorem timerLoop_eq {α : Type} {T : Nat} (hT : 0 < T) (clock : α → Except Fault α) {fuel acc : Nat} (hf : acc ≤ fuel)
    (x : α) : timerLoop T clock fuel acc x = (clockTimes clock (acc / T) x).map (acc % T, ·) := by
  induction fuel generalizing acc x with
  | zero =>
    obtain rfl : acc = 0 := by omega
    simp [timerLoop, clockTimes, Except.map]
  | succ fuel ih =>
    rw [timerLoop]
    by_cases h : T ≤ acc
    · have hdiv : acc / T = (acc - T) / T + 1 := Nat.div_eq_sub_div hT h
      have hmod : acc % T = (acc - T) % T := Nat.mod_eq_sub_mod h
      rw [if_pos h, hdiv, hmod, clockTimes]
      cases clock x with
      | error f => rfl
      | ok y => exact ih (by omega) y
    · rw [if_neg h, Nat.div_eq_of_lt (by omega), Nat.mod_eq_of_lt (by omega)]
      rfl

/-- A DPCM clock neither reads nor moves the timer. -/
theorem dmcClock_setAcc (p : Params) (s : State) (slot : DpcmSlot) (a : Nat) (m : Dpcm) :
    dmcClock p s slot { m with acc := a } = (dmcClock p s slot m).map ({ · with acc := a }) := by
  have hpos : dpcmPosition slot { m with acc := a } = dpcmPosition slot m := rfl
  rw [dmcClock, dmcClock, hpos]
  cases dpcmPosition slot m with
  | none => rfl
  | some pos =>
    simp only
    cases dpcmBit p s slot pos.toNat <;> rfl

theorem dmcClocks_setAcc (p : Params) (s : State) (slot : DpcmSlot) (a n : Nat) (m : Dpcm) :
    dmcClocks p s slot n { m with acc := a } = (dmcClocks p s slot n m).map ({ · with acc := a }) := by
  induction n generalizing m with
  | zero => rfl
  | succ n ih =>
    rw [dmcClocks, dmcClocks, dmcClock_setAcc]
    cases dmcClock p s slot m with
    | error f => rfl
    | ok m' => exact ih m'

/-- The period `T` of a timer in its units (R351, R360). -/
abbrev timerPeriod (p : Params) (cycles : Nat) : Nat := cycles * p.refDen * 44100

/-- What an output sample does to an LFSR modulator. -/
theorem lfsrTick_eq {w : Nat} (p : Params) (tap : Nat) (m : Lfsr w) : m.tick p tap =
    { m with
      lfsr := lfsrShifts tap ((m.acc + p.refNum) / timerPeriod p (p.noisePeriod m.pidx)) m.lfsr
      acc := (m.acc + p.refNum) % timerPeriod p (p.noisePeriod m.pidx) } := rfl

/-- What an output sample does to the DPCM modulator. -/
theorem dpcmTick_eq (p : Params) (s : State) (slot : DpcmSlot) (m : Dpcm) : m.tick p s slot =
    dmcClocks p s slot ((m.acc + p.refNum) / timerPeriod p (p.dpcmRate m.pidx))
      { m with acc := (m.acc + p.refNum) % timerPeriod p (p.dpcmRate m.pidx) } := rfl

/-- Settles O36: both timers by `timerLoop_eq`; the DPCM clocks do not see the timer that the model sets before them. -/
theorem timersRunTheirLoops : Obligations.TimersRunTheirLoops := by
  intro p
  refine ⟨fun w tap m hT => ⟨?_, rfl⟩, fun s slot m hT => ?_⟩
  · rw [timerLoop_eq hT _ (Nat.le_refl _), clockTimes_lfsrShift, lfsrTick_eq]
    rfl
  · rw [timerLoop_eq hT _ (Nat.le_refl _), ← dmcClocks_eq_clockTimes, dpcmTick_eq, dmcClocks_setAcc]
    cases dmcClocks p s slot _ m <;> rfl

/-! ### Shift registers (R351) -/

/-- A shift bit by bit: each bit moves one place down, and the exclusive or of bit 0 and the tap enters at the top. -/
theorem lfsrShift_getLsbD {w : Nat} (tap : Nat) (r : BitVec w) {i : Nat} (hi : i < w) :
    (lfsrShift tap r).getLsbD i = if i = w - 1 then r.getLsbD 0 != r.getLsbD tap else r.getLsbD (i + 1) := by
  have hw : 0 < w := by omega
  rw [lfsrShift, BitVec.getLsbD_or, BitVec.getLsbD_ushiftRight, BitVec.getLsbD_shiftLeft, BitVec.getLsbD_setWidth,
    BitVec.getLsbD_ofBool, Nat.add_comm 1 i]
  split
  · next h =>
    subst h
    rw [Nat.sub_add_cancel hw, BitVec.getLsbD_of_ge r w (Nat.le_refl w)]
    simp [hi, hw]
  · next h =>
    have hlow : i < w - 1 := by omega
    simp [hlow]

theorem lfsrShifts_eq_iterate {w : Nat} (tap n : Nat) (r : BitVec w) :
    lfsrShifts tap n r = (lfsrShift tap)^[n] r := by
  induction n generalizing r with
  | zero => rfl
  | succ n ih => exact ih (lfsrShift tap r)

/-- A register that comes back after `N` shifts, and after none of the proper divisors of `N`, does not come back in
between: the times at which it comes back are closed under the greatest common divisor. -/
theorem lfsrShifts_ne_of_divisors {w tap N : Nat} {r : BitVec w} (hN : lfsrShifts tap N r = r)
    (hdiv : ∀ d ∈ N.properDivisors, lfsrShifts tap d r ≠ r) {n : Nat} (h0 : 0 < n) (hn : n < N) :
    lfsrShifts tap n r ≠ r := by
  simp only [lfsrShifts_eq_iterate] at hN hdiv ⊢
  intro hback
  have hgcd : (lfsrShift tap)^[n.gcd N] r = r := Function.IsPeriodicPt.gcd (f := lfsrShift tap) hback hN
  have hlt : n.gcd N < N := Nat.lt_of_le_of_lt (Nat.gcd_le_left N h0) hn
  exact hdiv _ (Nat.mem_properDivisors.mpr ⟨Nat.gcd_dvd_right n N, hlt⟩) hgcd

/-- FC_S_NOISE comes back from seed 1 after 93 shifts. -/
theorem shortNoise_back : lfsrShifts 6 93 1#15 = 1#15 := by decide +kernel

/-- The 7-bit register comes back from seed 1 after 127 shifts. -/
theorem sevenBitNoise_back : lfsrShifts 1 127 1#7 = 1#7 := by decide +kernel

/-- FC_S_NOISE does not come back from seed 1 earlier: 93 is 3 times 31. -/
theorem shortNoise_period {n : Nat} (h0 : 0 < n) (hn : n < 93) : lfsrShifts 6 n 1#15 ≠ 1#15 :=
  lfsrShifts_ne_of_divisors shortNoise_back (by decide +kernel) h0 hn

/-- The 7-bit register does not come back from seed 1 earlier: 127 is a prime. -/
theorem sevenBitNoise_period {n : Nat} (h0 : 0 < n) (hn : n < 127) : lfsrShifts 1 n 1#7 ≠ 1#7 :=
  lfsrShifts_ne_of_divisors sevenBitNoise_back (by decide +kernel) h0 hn

/-- Settles O37: a shift bit by bit, the timer of each kind, the periods by their divisors. -/
theorem lfsrShifts_taps_and_periods : Obligations.LfsrShifts := by
  refine ⟨fun r tap i _ hi => lfsrShift_getLsbD tap r hi, fun r tap i _ hi => lfsrShift_getLsbD tap r hi,
    fun p o total period htotal hperiod => ?_, shortNoise_back, fun n => shortNoise_period, sevenBitNoise_back,
    fun n => sevenBitNoise_period, by decide, by decide, by decide⟩
  simp only [htotal, hperiod]
  exact ⟨rfl, rfl, rfl, rfl⟩

/-! ### DPCM clock (R361) -/

/-- A slot is at its end, and does not start again, exactly when it does not loop or holds no bit. -/
theorem dpcmPosition_none {slot : DpcmSlot} {m : Dpcm} (hend : slot.bits.toNat ≤ m.bitpos.toNat)
    (h : slot.loop = false ∨ slot.bits = 0#32) : dpcmPosition slot m = none := by
  have hstop : ¬(slot.loop = true ∧ slot.bits ≠ 0#32) := by
    rintro ⟨hl, hb⟩
    rcases h with h | h
    · rw [hl] at h; cases h
    · exact hb h
  rw [dpcmPosition, if_pos (BitVec.le_def.mpr hend), if_neg hstop]

/-- Otherwise the next bit is at the position of the modulator, or at the start again. -/
theorem dpcmPosition_some {slot : DpcmSlot} {m : Dpcm}
    (h : m.bitpos.toNat < slot.bits.toNat ∨ (slot.loop = true ∧ slot.bits ≠ 0#32)) :
    dpcmPosition slot m = some (if slot.bits.toNat ≤ m.bitpos.toNat then 0#32 else m.bitpos) := by
  by_cases hend : slot.bits.toNat ≤ m.bitpos.toNat
  · rw [dpcmPosition, if_pos (BitVec.le_def.mpr hend), if_pos (h.resolve_left (by omega)), if_pos hend]
  · rw [dpcmPosition, if_neg (fun hle => hend (BitVec.le_def.mp hle)), if_neg hend]

theorem dmcClock_idle (p : Params) (s : State) {slot : DpcmSlot} {m : Dpcm} (h : dpcmPosition slot m = none) :
    dmcClock p s slot m = .ok m := by
  rw [dmcClock, h]

/-- A clock that reads a bit, by the byte it is in. -/
theorem dmcClock_reads (p : Params) (s : State) {slot : DpcmSlot} {m : Dpcm} {pos : Word}
    (h : dpcmPosition slot m = some pos) : dmcClock p s slot m =
      match s.dpcmRead p (slot.base.toNat + pos.toNat / 8) with
      | none => .error .dpcmRead
      | some b => .ok { m with amp := dpcmDelta (b.getLsbD (pos.toNat % 8)) m.amp, bitpos := pos + 1#32 } := by
  rw [dmcClock, h]
  simp only [dpcmBit]
  cases s.dpcmRead p (slot.base.toNat + pos.toNat / 8) <;> rfl

/-- A bit of 1 moves the amplitude up, unless it would leave the range. -/
theorem dpcmDelta_up (amp : BitVec 7) :
    (dpcmDelta true amp).toNat = if amp.toNat ≤ 125 then amp.toNat + 2 else amp.toNat := by
  rw [dpcmDelta, if_pos rfl]
  split
  · next h => rw [BitVec.toNat_add, Nat.mod_eq_of_lt (by simp; omega)]; rfl
  · rfl

/-- A bit of 0 moves the amplitude down, unless it would leave the range. -/
theorem dpcmDelta_down (amp : BitVec 7) :
    (dpcmDelta false amp).toNat = if 2 ≤ amp.toNat then amp.toNat - 2 else amp.toNat := by
  rw [dpcmDelta, if_neg (by decide)]
  split
  · next h => exact BitVec.toNat_sub_of_le (BitVec.le_def.mpr h)
  · rfl

/-- Settles O38: where the clock reads by `dpcmPosition`, what it does by the byte read there. -/
theorem dpcmClock : Obligations.DpcmClock := by
  intro p s slot m
  refine ⟨fun hend h => dmcClock_idle p s (dpcmPosition_none hend h), fun h => ⟨_, rfl, ?_⟩⟩
  generalize hpos : (if slot.bits.toNat ≤ m.bitpos.toNat then 0#32 else m.bitpos) = pos
  have hclock := dmcClock_reads p s ((dpcmPosition_some h).trans (congrArg some hpos))
  refine ⟨fun hnone => ?_, fun b hb =>
    ⟨dpcmDelta (b.getLsbD (pos.toNat % 8)) m.amp, ?_, fun hbit => ?_, fun hbit => ?_⟩⟩
  · rw [hclock, hnone]
  · rw [hclock, hb]
  · rw [hbit, dpcmDelta_up]
  · rw [hbit, dpcmDelta_down]

/-! ### One sample of each kind, and many (R333, R334) -/

theorem nextFrom_phase (p : Params) (s : State) (pw : Byte) {o : Oscillator} {k : PhaseKind} (h : o.form = .phase k)
    (off : Nat) : o.nextFrom p s pw off =
      .ok (shape p s pw o.sub k ((o.phases.get k + off) % phaseMod p), decide (phaseMod p ≤ o.phases.get k + o.inc),
        { o with phases := o.phases.put k ((o.phases.get k + o.inc) % phaseMod p) }) := by
  rw [Oscillator.nextFrom, h]

theorem nextFrom_lfsr (p : Params) (s : State) (pw : Byte) {o : Oscillator} {k : LfsrKind} (h : o.form = .lfsr k)
    (off : Nat) : o.nextFrom p s pw off = .ok (o.lfsrSample k, false, o.tickLfsr p k) := by
  rw [Oscillator.nextFrom, h]

theorem nextFrom_dpcm (p : Params) (s : State) (pw : Byte) {o : Oscillator} (h : o.form = .dpcm) (off : Nat) :
    o.nextFrom p s pw off =
      (o.dpcm.tick p s (dpcmSlotOf s o)).map fun m => (dpcmOut o.dpcm, false, { o with dpcm := m }) := by
  rw [Oscillator.nextFrom, h]
  simp only
  cases o.dpcm.tick p s (dpcmSlotOf s o) <;> rfl

/-- One sample or more of a phase kind: as many increments, each reduced on the way. -/
theorem skip_phase (p : Params) (s : State) (pw : Byte) {o : Oscillator} {k : PhaseKind} (h : o.form = .phase k) (n : Nat) :
    o.skip p s pw (n + 1) =
      .ok { o with phases := o.phases.put k ((o.phases.get k + (n + 1) * o.inc) % phaseMod p) } := by
  induction n generalizing o with
  | zero =>
    rw [Oscillator.skip, Oscillator.next, nextFrom_phase p s pw h, Nat.zero_add, Nat.one_mul]
    rfl
  | succ n ih =>
    rw [Oscillator.skip, Oscillator.next, nextFrom_phase p s pw h]
    refine (ih (o := { o with phases := o.phases.put k ((o.phases.get k + o.inc) % phaseMod p) }) h).trans ?_
    simp only [phases_get_put_same, phases_put_put, Nat.mod_add_mod]
    rw [Nat.add_assoc, Nat.succ_mul (n + 1), Nat.add_comm o.inc]

theorem addPhase_phase (p : Params) (s : State) (pw : Byte) {o : Oscillator} {k : PhaseKind} (h : o.form = .phase k)
    (n : Nat) : o.addPhase p s pw n =
      .ok { o with phases := o.phases.put k ((o.phases.get k + n * o.inc) % phaseMod p) } := by
  rw [Oscillator.addPhase, h]

/-- The kinds with a timer are advanced sample by sample. -/
theorem addPhase_timed (p : Params) (s : State) (pw : Byte) {o : Oscillator} (h : ∀ k, o.form ≠ .phase k) (n : Nat) :
    o.addPhase p s pw n = o.skip p s pw n := by
  rw [Oscillator.addPhase]
  split
  · next k hk => exact absurd hk (h k)
  · rfl
  · rfl

/-- A bulk advance of a phase kind by at least one sample is that many samples. -/
theorem addPhase_succ (p : Params) (s : State) (pw : Byte) (o : Oscillator) (n : Nat) :
    o.addPhase p s pw (n + 1) = o.skip p s pw (n + 1) := by
  by_cases h : ∃ k, o.form = .phase k
  · obtain ⟨k, hk⟩ := h
    rw [addPhase_phase p s pw hk, skip_phase p s pw hk]
  · exact addPhase_timed p s pw (not_exists.mp h) (n + 1)

/-- A bulk advance by no sample changes nothing when the phases are phases. -/
theorem addPhase_zero {p : Params} {o : Oscillator} (h : OscInRange p o) (s : State) (pw : Byte) :
    o.addPhase p s pw 0 = .ok o := by
  by_cases hf : ∃ k, o.form = .phase k
  · obtain ⟨k, hk⟩ := hf
    rw [addPhase_phase p s pw hk, Nat.zero_mul, Nat.add_zero, Nat.mod_eq_of_lt (h.phases k), phases_put_get]
  · rw [addPhase_timed p s pw (not_exists.mp hf)]
    rfl

/-- Settles O35: the phase of a bulk advance by its own equation, its samples by induction on their number. -/
theorem addPhaseIsSamples : Obligations.AddPhaseIsSamples := by
  intro p s pw o n h
  refine ⟨fun k hk => ⟨_, addPhase_phase p s pw hk n, rfl, phases_get_put_same _ _ _, fun j hj =>
    phases_get_put_other _ _ hj⟩, ?_⟩
  cases n with
  | zero => exact addPhase_zero h s pw
  | succ n => exact addPhase_succ p s pw o n

/-! ### One carrier sample (R370, R371, 41_channel.md R283) -/

/-- Bit 0 of an LFSR kind as a sample (R351). -/
theorem lfsrSample_eq (o : Oscillator) (k : LfsrKind) :
    o.lfsrSample k = if o.lfsrBit k = false then F64.one else F64.one.neg := by
  have hout {w : Nat} (m : Lfsr w) : lfsrOut m = if m.lfsr.getLsbD 0 = false then F64.one else F64.one.neg := by
    rw [lfsrOut, negOne_eq]
    cases m.lfsr.getLsbD 0 <;> rfl
  cases k <;> exact hout _

theorem resetSelected_reset (s : State) (o : Oscillator) : SelectedReset s.dpcmSlots o (o.resetSelected s) where
  moved := resetSelected_moved s o
  phase k h := by simp only [Oscillator.resetSelected, h, phases_get_put_same]
  fcNoise h := by simp only [Oscillator.resetSelected, h, Lfsr.resetPhase]
  fcSNoise h := by simp only [Oscillator.resetSelected, h, Lfsr.resetPhase]
  gbNoise h := by simp only [Oscillator.resetSelected, h, Lfsr.resetPhase]
  gbSNoise h := by simp only [Oscillator.resetSelected, h, Lfsr.resetPhase]
  dpcm h := by simp only [Oscillator.resetSelected, h, Dpcm.resetPhase, dpcmSlotOf]

/-- The carrier's oscillator once it has honoured its sync input at index `k` (R370). -/
def syncedOsc (s : State) (k : Nat) (ch : Channel) (sy : Syncs) : Oscillator :=
  if SyncInput ch sy k then ch.osc1.resetSelected s else ch.osc1

theorem syncedOsc_form (s : State) (k : Nat) (ch : Channel) (sy : Syncs) :
    (syncedOsc s k ch sy).form = ch.osc1.form ∧ (syncedOsc s k ch sy).sub = ch.osc1.sub := by
  have h := resetSelected_moved s ch.osc1
  unfold syncedOsc
  split
  · exact ⟨h.form, h.sub⟩
  · exact ⟨rfl, rfl⟩

/-- The sync buffers after the sample at index `k` with the wrap flag `w` (R371). -/
def syncsAfter (ch : Channel) (k : Nat) (w : Bool) (sy : Syncs) : Syncs :=
  if ch.syncMode = .out then setSync sy ch.syncPipe k w else sy

theorem syncsAfter_written {size : Nat} {sy : Syncs} (h : ∀ i, Cells.wf false size (sy.get i) = true) (ch : Channel)
    (k : Nat) (w : Bool) : SyncWritten ch k w sy (syncsAfter ch k w sy) := by
  intro i j
  unfold syncsAfter
  by_cases hm : ch.syncMode = .out
  · rw [if_pos hm, setSync, vset_get]
    by_cases hi : i = ch.syncPipe
    · subst hi
      rw [if_pos rfl, Cells.get_put (Cells.rising_of_wf (h _))]
      simp only [hm, true_and]
    · rw [if_neg hi, if_neg (fun hh => hi hh.2.1)]
  · rw [if_neg hm, if_neg (fun hh => hm hh.1)]

/-- A carrier sample is the next sample of the oscillator after its sync input. -/
theorem carrierSample_eq (p : Params) (s : State) (off k : Nat) (ch : Channel) (sy : Syncs) :
    carrierSample p s off k ch sy = ((syncedOsc s k ch sy).nextFrom p s ch.pw off).map fun x =>
      (x.1, { ch with osc1 := x.2.2, oncount := ch.oncount + 1#64 }, syncsAfter ch k x.2.1 sy) := by
  have hosc : (if ch.syncMode = .inp ∧ Cells.get false (sy.get ch.syncPipe) k then ch.osc1.resetSelected s
      else ch.osc1) = syncedOsc s k ch sy := by
    simp only [syncedOsc, SyncInput, Bool.and_eq_true, decide_eq_true_eq]
  rw [carrierSample, hosc]
  cases (syncedOsc s k ch sy).nextFrom p s ch.pw off <;> rfl

/-- Settles O31: the oscillator after its sync input, then one sample of its kind. -/
theorem carrierSample_of_kind : Obligations.CarrierSample := by
  intro p s off k ch sy hw
  obtain ⟨hform, hsub⟩ := syncedOsc_form s k ch sy
  have hsync (w : Bool) := syncsAfter_written hw ch k w
  rw [carrierSample_eq]
  refine ⟨syncedOsc s k ch sy, fun h => ?synced, fun h => ?unsynced, fun kind hk => ?phase, fun kind hk => ?lfsr,
    fun hk => ?dpcm⟩
  case synced => rw [syncedOsc, if_pos h]; exact resetSelected_reset s ch.osc1
  case unsynced => rw [syncedOsc, if_neg (by simp [h])]
  case phase =>
    have hk' := hform.trans hk
    rw [nextFrom_phase p s ch.pw hk', ← hsub]
    exact ⟨_, _, rfl, .phase hk' _, phases_get_put_same _ _ _, hsync _⟩
  case lfsr =>
    rw [nextFrom_lfsr p s ch.pw (hform.trans hk), lfsrSample_eq]
    exact ⟨_, rfl, hsync false⟩
  case dpcm =>
    rw [nextFrom_dpcm p s ch.pw (hform.trans hk)]
    refine ⟨fun f hf => by rw [hf]; rfl, fun m hm => ?_⟩
    rw [hm]
    exact ⟨_, rfl, hsync false⟩

/-! ### The LFO (R325, R335, 41_channel.md R284) -/

theorem lfoActive_iff (ch : Channel) : lfoActive ch = true ↔ F64.zero.lt ch.lfoWidth = true ∧ ch.lfoDepth ≠ 0#32 ∧
    ch.lfoDelay.le (F64.ofNat ch.oncount.toNat) = true ∧
    (ch.lfoLen.isZero = true ∨ (F64.ofNat ch.oncount.toNat).lt (ch.lfoDelay.add ch.lfoLen) = true) := by
  simp only [lfoActive, Bool.and_eq_true, Bool.or_eq_true, decide_eq_true_eq, and_assoc]

/-- The sum over the NOISE table is in ascending order (R335). -/
theorem noiseSum_eq_foldl (p : Params) (ph inc n j : Nat) (acc : F64) : noiseSum p ph inc n j acc =
    (List.range' j n).foldl
      (fun acc j => acc.add (p.noiseTab (tableIndex p ((ph + j * inc) % phaseMod p)))) acc := by
  induction n generalizing j acc with
  | zero => rfl
  | succ n ih => rw [noiseSum, ih, List.range'_succ, List.foldl_cons]

/-- The LFO value of a sub-block of `n` samples (R335): the modulator's first sample, but for NOISE the mean of the table
values that it passes over. -/
def lfoValue (p : Params) (s : State) (pw : Byte) (o : Oscillator) (n : Nat) : F64 :=
  match o.form with
  | .phase .noise => (noiseSum p o.phases.noise o.inc n 0 F64.zero).div (F64.ofNat n)
  | .phase k => shape p s pw o.sub k (o.phases.get k)
  | .lfsr k => o.lfsrSample k
  | .dpcm => dpcmOut o.dpcm

theorem lfoValue_phase (p : Params) (s : State) (pw : Byte) {o : Oscillator} {k : PhaseKind} (hk : o.form = .phase k)
    (hne : k ≠ .noise) (n : Nat) : lfoValue p s pw o n = shape p s pw o.sub k (o.phases.get k) := by
  rw [lfoValue, hk]
  cases k
  case noise => exact absurd rfl hne
  all_goals rfl

/-- The first sample of a kind with a timer is its LFO value. -/
theorem next_lfoValue {p : Params} {s : State} {pw : Byte} {o o' : Oscillator} {v : F64} {w : Bool}
    (hk : ∀ k, o.form ≠ .phase k) (h : o.next p s pw = .ok (v, w, o')) (n : Nat) : v = lfoValue p s pw o n := by
  rcases nextFrom_ok h with ⟨k, hf, _⟩ | ⟨k, hf, hv, _⟩ | ⟨m, hf, hv, _⟩
  · exact absurd hf (hk k)
  · rw [hv, lfoValue, hf]
  · rw [hv, lfoValue, hf]

/-- A read of a phase kind is a bulk advance. -/
theorem lfoRead_phase (p : Params) (s : State) (pw : Byte) {o : Oscillator} {k : PhaseKind} (hk : o.form = .phase k)
    (n : Nat) : o.lfoRead p s pw n = (o.addPhase p s pw n).map (lfoValue p s pw o n, ·) := by
  rw [Oscillator.lfoRead, lfoValue, hk]
  generalize o.addPhase p s pw n = r
  cases k <;> cases r <;> rfl

/-- A read of a kind with a timer is its first sample and a bulk advance by the others. -/
theorem lfoRead_timed (p : Params) (s : State) (pw : Byte) {o : Oscillator} (hk : ∀ k, o.form ≠ .phase k) (n : Nat) :
    o.lfoRead p s pw (n + 1) = (o.skip p s pw (n + 1)).map (lfoValue p s pw o (n + 1), ·) := by
  have hread : o.lfoRead p s pw (n + 1) = match o.next p s pw with
      | .error f => .error f
      | .ok (v, _, o') => (o'.addPhase p s pw n).map (v, ·) := by
    rw [Oscillator.lfoRead]
    split
    · next hf => exact absurd hf (hk _)
    · next hf => exact absurd hf (hk _)
    all_goals
      cases o.next p s pw with
      | error f => rfl
      | ok x => simp only [Nat.add_sub_cancel]; cases x.2.2.addPhase p s pw n <;> rfl
  rw [hread, Oscillator.skip]
  cases hnext : o.next p s pw with
  | error f => rfl
  | ok x =>
    obtain ⟨v, w, o'⟩ := x
    have hk' : ∀ k, o'.form ≠ .phase k := fun k => (nextFrom_moved hnext).form ▸ hk k
    simp only [addPhase_timed p s pw hk', next_lfoValue hk hnext (n + 1)]

/-- A read is `n` samples of the modulator and the LFO value before them. -/
theorem lfoRead_eq (p : Params) (s : State) (pw : Byte) (o : Oscillator) {n : Nat} (hn : 1 ≤ n) :
    o.lfoRead p s pw n = (o.skip p s pw n).map (lfoValue p s pw o n, ·) := by
  obtain ⟨n, rfl⟩ := Nat.exists_eq_add_of_le' hn
  by_cases h : ∃ k, o.form = .phase k
  · obtain ⟨k, hk⟩ := h
    rw [lfoRead_phase p s pw hk, addPhase_succ]
  · exact lfoRead_timed p s pw (not_exists.mp h) n

theorem lfoPitch_inactive (p : Params) (s : State) (n : Nat) {ch : Channel} (h : lfoActive ch = false) :
    lfoPitch p s n ch = .ok (basePitch ch, ch) := by
  rw [lfoPitch, if_neg (by simp [h])]

theorem lfoPitch_active (p : Params) (s : State) (n : Nat) {ch : Channel} (h : lfoActive ch = true) :
    lfoPitch p s n ch = (Oscillator.lfoRead p s ch.pw { ch.osc2 with inc := lfoInc p ch } n).map fun x =>
      ((basePitch ch).add ((F64.ofInt ch.lfoDepth.toInt).mul (if ch.lfoRev then x.1.neg else x.1)),
        { ch with osc2 := x.2 }) := by
  rw [lfoPitch, if_pos h]
  cases Oscillator.lfoRead p s ch.pw { ch.osc2 with inc := lfoInc p ch } n <;> rfl

theorem carrier_lfo (p : Params) (s : State) (k n : Nat) {ch : Channel} (h : ch.inSens.isZero = true) :
    carrier p s k n ch = lfoSubBlocks p s n n k ch s.syncs := by
  rw [carrier, if_pos h, carrierLFO]

/-- Settles O34: the window, the read by `lfoRead_eq`, the pitch by its two cases, the sub-blocks in order. -/
theorem lfoWindowReadAndPitch : Obligations.LfoWindowReadAndPitch := by
  intro p s pw
  refine ⟨fun ch => ⟨lfoActive_iff ch, fun n hn => ?inc⟩, fun o n hn => ⟨lfoValue p s pw o n, ?read, fun h => ?noise,
    fun k h hne => ?phase, fun k h => ?lfsr, fun h => ?dpcm⟩, ?pitch, fun ch k n hs hb => ?blocks⟩
  case inc => rw [lfoInc, phaseScale, phaseMod, pwBits, hn]; exact capInc_natCast p n
  case read => rw [lfoRead_eq p s pw o hn]; cases o.skip p s pw n <;> rfl
  case noise => rw [lfoValue, h, List.range_eq_range', noiseSum_eq_foldl]; rfl
  case phase => exact lfoValue_phase p s pw h hne n
  case lfsr => rw [lfoValue, h]; exact lfsrSample_eq o k
  case dpcm => rw [lfoValue, h]; rfl
  case pitch =>
    rintro ch n base rfl
    refine ⟨lfoPitch_inactive p s n, fun h => ?_⟩
    rw [lfoPitch_active p s n h]
    exact ⟨fun f hf => by rw [hf]; rfl, fun v o hv => by rw [hv]; rfl⟩
  case blocks => rw [carrier_lfo p s k n hs]; exact lfoSubBlocks_inOrder p hb s n n k ch s.syncs (Nat.le_refl n)

end Sys2Proof.Machine

/-! ## The envelopes (43_envelope.md) -/

namespace Sys2Proof.Machine

/-! ### The events VCO_ENV and VCF_ENV (R400, R401) -/

/-- The level of a SUS field is that of the clamped field, in parts of 65536. -/
theorem setParams_eq_withParams (atk dec sus rel : Word) (e : Envelope) : e.setParams atk dec sus rel =
    withParams atk dec ((F64.ofNat (clampWord 0 65536 sus).toNat).div (F64.ofNat 65536)) rel e := rfl

/-- Settles O14: both records are `Envelope.setParams` of one envelope. -/
theorem envelopeEvents : Obligations.EnvelopeEvents := by
  intro delta atk dec sus rel s
  have hsus : wordClamped 0 65536 sus = true ↔ 65536 < sus.toNat := by
    rw [wordClamped_iff sus (by omega) (by omega)]
    omega
  refine ⟨_, clampWord_clampedTo sus (by omega) (by omega), ?_⟩
  simp only [← setParams_eq_withParams]
  exact ⟨consume_mapCh hsus (fun ch => { ch with env1 := ch.env1.setParams atk dec sus rel }) s,
    consume_mapCh hsus (fun ch => { ch with env2 := ch.env2.setParams atk dec sus rel }) s⟩

/-! ### The envelopes over a chunk (R415) -/

/-- A moved oscillator keeps its form and its sub-form. -/
theorem OscMoved.eq_with_forms {p : Params} {o o' : Oscillator} (h : OscMoved p o o') :
    o' = { o' with form := o.form, sub := o.sub } := by
  rw [← h.moved.form, ← h.moved.sub]

/-- A chunk that a musical track plays leaves its Channel as `ChannelPlayed` says. -/
theorem channelPlayed_of_step {s t : State} {i : Instr} (h : RecordWaiting s i) (h0 : s.engine.track ≠ 0)
    (hpl : s.ch.env1.playing = true) (hs : step s = .next t) :
    ChannelPlayed defaultParams (samplesToRun s i) s.ch t.tr.ch := by
  have hrun := runChunk_of_step h hs
  rw [runChunk_musical _ i h0] at hrun
  have hdone := channelRender_ok lfoBatch_pos hrun
  rw [← chunkState_ch s i] at hpl ⊢
  obtain ⟨-, -, hplayed⟩ := hdone.played hpl
  exact hplayed

/-- Settles O26: `ChannelPlayed`, with the forms of the moved oscillators. -/
theorem chunkStepsEnvelopes : Obligations.ChunkStepsEnvelopes := by
  intro s t i h htrack hpl hs
  obtain ⟨hosc1, hosc2, hrest, -⟩ := channelPlayed_of_step h (fun e => htrack (congrArg Fin.val e)) hpl hs
  rw [← hosc1.eq_with_forms, ← hosc2.eq_with_forms]
  exact hrest

/-! ### A step of each ramp (R413) -/

theorem advance_attack {e : Envelope} (h : e.state = .attack) :
    (e.len ≤ e.count + 1#32 ∧ e.advance = Envelope.startDecay { e with count := e.count + 1#32, value := F64.one }) ∨
    (¬e.len ≤ e.count + 1#32 ∧
      e.advance = { e with count := e.count + 1#32, value := (e.value.add e.step).min F64.one }) := by
  simpa [h] using advance_cases e

theorem advance_decay {e : Envelope} (h : e.state = .decay) :
    (e.len ≤ e.count + 1#32 ∧ e.advance = { e with count := e.count + 1#32, value := e.target, state := .sustain }) ∨
    (¬e.len ≤ e.count + 1#32 ∧
      e.advance = { e with count := e.count + 1#32, value := (e.value.sub e.step).max e.target }) := by
  simpa [h] using advance_cases e

theorem advance_release {e : Envelope} (h : e.state = .release) :
    ((e.len ≤ e.count + 1#32 ∨ (e.value.sub e.step).le F64.zero = true) ∧
      e.advance = { e with count := e.count + 1#32, value := F64.zero, state := .idle, playing := false }) ∨
    (¬e.len ≤ e.count + 1#32 ∧ (e.value.sub e.step).le F64.zero = false ∧
      e.advance = { e with count := e.count + 1#32, value := e.value.sub e.step }) := by
  simpa [h] using advance_cases e

/-- Sustain and idle stay. -/
theorem advance_eq_self {e : Envelope} (h : e.state = .sustain ∨ e.state = .idle) : e.advance = e := by
  rcases advance_cases e with ⟨-, he⟩ | ⟨hs, -⟩ | ⟨hs, -⟩ | ⟨hs, -⟩ | ⟨hs, -⟩ | ⟨hs, -⟩ | ⟨hs, -⟩
  · exact he
  all_goals simp [hs] at h

/-- Within a ramp, a step ends it exactly when its last sample is taken: the count does not wrap. -/
theorem rampEnds_iff {e : Envelope} (h : e.count.toNat < e.len.toNat) :
    e.len ≤ e.count + 1#32 ↔ e.count.toNat + 1 = e.len.toNat := by
  rw [BitVec.le_def, word_succ_toNat h]
  omega

/-! ### Ramps over many samples (R411, R413) -/

/-- `e'` is `e` after `k` samples in which its ramp has not ended: the value may differ, the count is `k` further. -/
structure OnRamp (k : Nat) (e e' : Envelope) : Prop where
  params : SameParams e e'
  state : e'.state = e.state
  len : e'.len = e.len
  target : e'.target = e.target
  count : e'.count.toNat = e.count.toNat + k

theorem OnRamp.refl (e : Envelope) : OnRamp 0 e e := ⟨⟨rfl, rfl, rfl, rfl⟩, rfl, rfl, rfl, rfl⟩

theorem OnRamp.trans {j k : Nat} {a b c : Envelope} (h1 : OnRamp j a b) (h2 : OnRamp k b c) : OnRamp (j + k) a c where
  params := ⟨h2.params.A.trans h1.params.A, h2.params.D.trans h1.params.D, h2.params.S.trans h1.params.S,
    h2.params.R.trans h1.params.R⟩
  state := h2.state.trans h1.state
  len := h2.len.trans h1.len
  target := h2.target.trans h1.target
  count := by rw [h2.count, h1.count, Nat.add_assoc]

/-- One more sample, of any value. -/
theorem OnRamp.tick {e : Envelope} (h : e.count.toNat < e.len.toNat) (v : F64) :
    OnRamp 1 e { e with count := e.count + 1#32, value := v } :=
  ⟨⟨rfl, rfl, rfl, rfl⟩, rfl, rfl, rfl, word_succ_toNat h⟩

/-- An attack or a decay before its last sample goes on. -/
theorem OnRamp.advance {e : Envelope} (hs : e.state = .attack ∨ e.state = .decay)
    (h : e.count.toNat + 1 < e.len.toNat) : OnRamp 1 e e.advance := by
  have hlt : e.count.toNat < e.len.toNat := by omega
  have hgoes : ¬e.len ≤ e.count + 1#32 := by
    rw [rampEnds_iff hlt]
    omega
  rcases hs with hs | hs
  · obtain ⟨-, he⟩ := (advance_attack hs).resolve_left (fun hend => hgoes hend.1)
    rw [he]
    exact .tick hlt _
  · obtain ⟨-, he⟩ := (advance_decay hs).resolve_left (fun hend => hgoes hend.1)
    rw [he]
    exact .tick hlt _

/-- An attack or a decay goes on for all but the last of its samples. -/
theorem OnRamp.iterate {e : Envelope} (hs : e.state = .attack ∨ e.state = .decay) {k : Nat}
    (h : e.count.toNat + k < e.len.toNat) : OnRamp k e (Envelope.advance^[k] e) := by
  induction k with
  | zero => exact .refl e
  | succ k ih =>
    have hk := ih (by omega)
    rw [Function.iterate_succ_apply']
    exact hk.trans (.advance (hk.state ▸ hs) (by rw [hk.count, hk.len]; omega))

/-- The last sample of an attack or a decay that begins: the step at the end of the ramp. -/
theorem iterate_len {e : Envelope} (hs : e.state = .attack ∨ e.state = .decay) (h0 : e.count = 0#32)
    (hlen : 0 < e.len.toNat) : ∃ e', OnRamp (e.len.toNat - 1) e e' ∧ e'.len ≤ e'.count + 1#32 ∧
      Envelope.advance^[e.len.toNat] e = e'.advance := by
  have hcount : e.count.toNat = 0 := by rw [h0]; rfl
  have hramp := OnRamp.iterate hs (k := e.len.toNat - 1) (by omega)
  refine ⟨_, hramp, (rampEnds_iff ?_).mpr ?_, ?_⟩
  · rw [hramp.count, hramp.len]
    omega
  · rw [hramp.count, hramp.len]
    omega
  · rw [← Function.iterate_succ_apply' Envelope.advance, Nat.succ_eq_add_one, Nat.sub_add_cancel hlen]

/-- An attack that ends leaves exactly 1.0 to a decay, or the sustain level when the decay is empty. -/
theorem advance_attack_end {e : Envelope} (hs : e.state = .attack) (hend : e.len ≤ e.count + 1#32) :
    (e.D ≠ 0#32 → e.advance.state = .decay ∧ e.advance.value = F64.one) ∧
    (e.D = 0#32 → e.advance.state = .sustain ∧ e.advance.value = e.S) := by
  obtain ⟨-, he⟩ := (advance_attack hs).resolve_right (fun hgoes => hgoes.1 hend)
  rw [he]
  refine ⟨fun hD => ?_, fun hD => ?_⟩
  · rw [startDecay_ramp (by exact hD)]
    exact ⟨rfl, rfl⟩
  · rw [startDecay_zero (by exact hD)]
    exact ⟨rfl, rfl⟩

/-- A decay that ends leaves exactly its target. -/
theorem advance_decay_end {e : Envelope} (hs : e.state = .decay) (hend : e.len ≤ e.count + 1#32) :
    e.advance.state = .sustain ∧ e.advance.value = e.target := by
  obtain ⟨-, he⟩ := (advance_decay hs).resolve_right (fun hgoes => hgoes.1 hend)
  rw [he]
  exact ⟨rfl, rfl⟩

/-- The envelope has stopped: idle at exactly +0.0, not playing. -/
structure Stopped (e : Envelope) : Prop where
  state : e.state = .idle
  value : e.value = F64.zero
  playing : e.playing = false

theorem Stopped.advance {e : Envelope} (h : Stopped e) : Stopped e.advance := by
  rw [advance_eq_self (.inr h.state)]
  exact h

/-- A step of a release stops it, or the last sample is not taken yet. -/
theorem advance_release_cases {e : Envelope} (hs : e.state = .release) (h : e.count.toNat < e.len.toNat) :
    Stopped e.advance ∨ (e.count.toNat + 1 < e.len.toNat ∧ OnRamp 1 e e.advance) := by
  rcases advance_release hs with ⟨-, he⟩ | ⟨hgoes, -, he⟩
  · rw [he]
    exact .inl ⟨rfl, rfl, rfl⟩
  · rw [rampEnds_iff h] at hgoes
    rw [he]
    exact .inr ⟨by omega, .tick h _⟩

/-- A release after `k` samples has stopped, or is still on its ramp. -/
theorem iterate_release {e : Envelope} (hs : e.state = .release) (h : e.count.toNat < e.len.toNat) (k : Nat) :
    Stopped (Envelope.advance^[k] e) ∨
      (e.count.toNat + k < e.len.toNat ∧ OnRamp k e (Envelope.advance^[k] e)) := by
  induction k with
  | zero => exact .inr ⟨h, .refl e⟩
  | succ k ih =>
    rw [Function.iterate_succ_apply']
    rcases ih with hstop | ⟨hk, hramp⟩
    · exact .inl hstop.advance
    · refine (advance_release_cases (hramp.state.trans hs) ?_).imp_right fun ⟨hlt, hnext⟩ =>
        ⟨?_, hramp.trans hnext⟩
      · rw [hramp.count, hramp.len]
        exact hk
      · rw [hramp.count, hramp.len] at hlt
        exact hlt

/-- A release has stopped after its number of samples. -/
theorem stopped_of_release {e : Envelope} (hs : e.state = .release) (h0 : e.count = 0#32) (hlen : 0 < e.len.toNat) :
    Stopped (Envelope.advance^[e.len.toNat] e) := by
  have hcount : e.count.toNat = 0 := by rw [h0]; rfl
  exact (iterate_release hs (by omega) e.len.toNat).resolve_right (fun hgoes => by omega)

/-- Settles O39: each ramp by its last sample, the release by whether it has stopped. -/
theorem envelopeRampsExact : Obligations.EnvelopeRampsExact := by
  intro e
  refine ⟨advance_eq_self, fun h0 hlen => ⟨fun hs => ?attack, fun hs => ?decay, fun hs => ?release⟩⟩
  case attack =>
    obtain ⟨e', hramp, hend, he⟩ := iterate_len (.inl hs) h0 hlen
    obtain ⟨hdecay, hsustain⟩ := advance_attack_end (hramp.state.trans hs) hend
    rw [he, ← hramp.params.D, ← hramp.params.S]
    exact ⟨fun k hk => (OnRamp.iterate (.inl hs) (by simpa [h0] using hk)).state.trans hs, hdecay, hsustain⟩
  case decay =>
    obtain ⟨e', hramp, hend, he⟩ := iterate_len (.inr hs) h0 hlen
    rw [he, ← hramp.target]
    exact ⟨fun k hk => (OnRamp.iterate (.inr hs) (by simpa [h0] using hk)).state.trans hs,
      advance_decay_end (hramp.state.trans hs) hend⟩
  case release =>
    obtain ⟨hidle, hvalue, hplaying⟩ := stopped_of_release hs h0 hlen
    exact ⟨hidle, hvalue, hplaying⟩

/-! ### Monotonicity (R416) -/

/-- The step of a coherent attack is not negative and 1.0 is above every level. -/
theorem le_advance_attack {e : Envelope} (h : EnvelopeCoherent e) (hs : e.state = .attack)
    (hne : e.advance.state ≠ .sustain) : e.value.le e.advance.value = true := by
  obtain ⟨-, hle⟩ := h.value
  rcases advance_attack hs with ⟨hend, -⟩ | ⟨-, he⟩
  · obtain ⟨hdecay, hsustain⟩ := advance_attack_end hs hend
    obtain ⟨-, hv⟩ := hdecay (fun hD => hne (hsustain hD).1)
    rw [hv]
    exact hle
  · rw [he]
    exact F64.le_min (F64.le_add h.value.finite h.step.finite h.step.1) hle

theorem sub_step_le {e : Envelope} (h : EnvelopeCoherent e) : (e.value.sub e.step).le e.value = true :=
  F64.sub_le h.value.finite h.step.finite h.step.1

theorem advance_release_le {e : Envelope} (h : EnvelopeCoherent e) (hs : e.state = .release) :
    e.advance.value.le e.value = true := by
  rcases advance_release hs with ⟨-, he⟩ | ⟨-, -, he⟩ <;> rw [he]
  · exact h.value.1
  · exact sub_step_le h

/-- A release at 0 ends at its first step. -/
theorem advance_release_zero {e : Envelope} (h : EnvelopeCoherent e) (hs : e.state = .release)
    (h0 : e.value = F64.zero) : e.advance.state = .idle := by
  have hle := sub_step_le h
  rcases advance_release hs with ⟨-, he⟩ | ⟨-, hpos, -⟩
  · rw [he]
  · rw [h0] at hle hpos
    rw [hpos] at hle
    cases hle

/-- An envelope that plays has stopped `R` samples after its Release. -/
theorem stopped_of_releaseRamp {e : Envelope} (hp : e.playing = true) :
    Stopped (Envelope.advance^[e.R.toNat] e.releaseRamp) := by
  have hrel := releaseRamp_released e
  by_cases hR : e.R = 0#32
  · obtain ⟨hidle, hvalue, hplaying, -⟩ := hrel.stop hp hR
    rw [hR]
    exact ⟨hidle, hvalue, hplaying⟩
  · obtain ⟨hs, -⟩ := hrel.ramp hp hR
    rw [← hrel.len hp] at hR ⊢
    exact stopped_of_release hs (hrel.count hp) (word_pos hR)

/-- Settles O40: the step of a coherent envelope is not negative, and a release stops in time. -/
theorem envelopeMonotone : Obligations.EnvelopeMonotone := fun _ h =>
  ⟨le_advance_attack h, advance_release_le h, advance_release_zero h,
    fun hp => ⟨(stopped_of_releaseRamp hp).state, (stopped_of_releaseRamp hp).value⟩⟩

end Sys2Proof.Machine

/-! ## The filter and the formant (44_filter.md, 45_formant.md) -/

namespace Sys2Proof.Machine

/-! ### The event LPF (R440) -/

/-- The type of a TYPE field has the number of the clamped field. -/
theorem filterTypeOfField_code (v : Byte) : (filterTypeOfField v).code = min (max v.toInt (-2)) 2 := by
  change _ = clampInt (-2) 2 v.toInt
  have hlo : -2 ≤ clampInt (-2) 2 v.toInt := by unfold clampInt; omega
  have hhi : clampInt (-2) 2 v.toInt ≤ 2 := by unfold clampInt; omega
  unfold filterTypeOfField
  split
  · next h => rw [h]; rfl
  · next h => rw [h]; rfl
  · next h => rw [h]; rfl
  · next h => rw [h]; rfl
  · next hm2 hm1 h0 h1 =>
    simp only [imp_false] at hm2 hm1 h0 h1
    rw [FilterType.code]
    omega

/-- LPF is out of range in its type or in its resonance. -/
theorem lpfClamped_iff (ftype : Byte) (res : Word) : (typeClamped ftype || wordClamped 0 65536 res) = true ↔
    ftype.toInt < -2 ∨ 2 < ftype.toInt ∨ 65536 < res.toNat := by
  rw [Bool.or_eq_true, typeClamped_iff, wordClamped_iff res (by omega) (by omega)]
  omega

/-- Settles O15: LPF clamps its type and its resonance, and keeps the delay line exactly when it keeps the type. -/
theorem lpfEvent : Obligations.LpfEvent := by
  intro delta ftype amt cut res s
  obtain ⟨t, ht, hevent⟩ := consume_mapCh (delta := delta) (lpfClamped_iff ftype res)
    (fun ch => eventChannel s ch (.lpf delta ftype amt cut res)) s
  simp only [eventChannel, ne_eq, ite_not] at hevent
  exact ⟨t, _, _, ht, filterTypeOfField_code ftype, clampWord_clampedTo res (by omega) (by omega), hevent⟩

/-! ### The filter stage (R441 to R444) -/

theorem cutoffHz_eq (p : Params) (ch : Channel) (e : F64) : cutoffHz p ch e =
    if ch.famt = 0#32 then freqOf p (F64.ofInt ch.fcut.toInt)
    else freqOf p ((F64.ofInt ch.fcut.toInt).add ((F64.ofInt ch.famt.toInt).mul e)) := by
  simp only [cutoffHz, filterModulated_iff, ne_eq, ite_not]

/-- The output and the delay line of the filter stage, the coefficients taken at the cutoff `fc`. -/
def filteredAt (p : Params) (fc : F64) (ch : Channel) (x : F64) : F64 × Vector F64 5 :=
  filt ch.ftype.isHpf (filterCoef p ch.ftype ch.fres fc) ch.fb x

/-- The cutoff is that of the envelope's value before its step. -/
theorem filterSample_eq (p : Params) (ch : Channel) (x : F64) : filterSample p ch x =
    ((filteredAt p (cutoffHz p ch ch.env2.value) ch x).1,
      { ch with env2 := ch.env2.advance, fb := (filteredAt p (cutoffHz p ch ch.env2.value) ch x).2 }) := rfl

theorem filteredAt_off (p : Params) (fc : F64) {ch : Channel} (x : F64) (h : ch.ftype = .off) :
    filteredAt p fc ch x = (x, ch.fb) := by
  rw [filteredAt, h]
  rfl

theorem filteredAt_quality (p : Params) (fc : F64) {ch : Channel} (x : F64)
    (h : ch.ftype = .qualityLpf ∨ ch.ftype = .qualityHpf) : filteredAt p fc ch x =
      qualityFilt ch.ftype.isHpf (p.qcoef ch.fres fc) ch.fb x := by
  rcases h with h | h <;> rw [filteredAt, h] <;> rfl

theorem filteredAt_fast (p : Params) (fc : F64) {ch : Channel} (x : F64)
    (h : ch.ftype = .fastLpf ∨ ch.ftype = .fastHpf) : filteredAt p fc ch x =
      fastFilt ch.ftype.isHpf (p.fcoef ch.fres fc) ch.fb x := by
  rcases h with h | h <;> rw [filteredAt, h] <;> rfl

/-- The two one-pole stages of a quality filter (R443). -/
theorem qualityFilt_eq (hpf : Bool) (c : QCoef) (fb : Vector F64 5) (x : F64) {b0 b1 : F64}
    (h0 : b0 = (fb.get 0).add (c.f.mul ((x.sub (fb.get 0)).add (c.fbk.mul ((fb.get 0).sub (fb.get 1))))))
    (h1 : b1 = (fb.get 1).add (c.f.mul (b0.sub (fb.get 1)))) :
    qualityFilt hpf c fb x = (if hpf then x.sub b1 else b1, #v[b0, b1, fb.get 2, fb.get 3, fb.get 4]) := by
  subst h0 h1
  rfl

/-- The four one-pole stages of a fast filter, the last saturated (R444). -/
theorem fastFilt_eq (hpf : Bool) (c : FCoef) (fb : Vector F64 5) (x : F64) {xi b1 b2 b3 b4 b5 : F64}
    (hxi : xi = x.sub (c.k.mul (fb.get 4)))
    (h1 : b1 = ((xi.add (fb.get 0)).mul c.p).sub ((fb.get 1).mul c.fk))
    (h2 : b2 = ((b1.add (fb.get 1)).mul c.p).sub ((fb.get 2).mul c.fk))
    (h3 : b3 = ((b2.add (fb.get 2)).mul c.p).sub ((fb.get 3).mul c.fk))
    (h4 : b4 = ((b3.add (fb.get 3)).mul c.p).sub ((fb.get 4).mul c.fk))
    (h5 : b5 = b4.sub (((b4.mul b4).mul b4).mul (F64.lit 166667 1000000))) :
    fastFilt hpf c fb x = (if hpf then xi.sub b5 else b5, #v[xi, b1, b2, b3, b5]) := by
  subst hxi h1 h2 h3 h4 h5
  rfl

/-! ### The formant stage (R471) -/

/-- The row of a vowel is the one before its number. -/
theorem Vowel.row_eq {v : Vowel} (h : v ≠ .off) : v.row = some (v.code - 1) := by
  cases v with
  | off => exact absurd rfl h
  | a | e | i | o | u => rfl

theorem formantSum_ofFn (c : Nat → F64) {n : Nat} (j : Nat) (h : Fin n → F64) (acc : F64) :
    formantSum c j (List.ofFn h) acc =
      (List.finRange n).foldl (fun y i => y.add ((c (i + j)).mul (h i))) acc := by
  induction n generalizing j acc with
  | zero => rfl
  | succ n ih =>
    rw [List.ofFn_succ, formantSum, ih, List.finRange_succ, List.foldl_cons, List.foldl_map]
    simp only [Fin.val_zero, Nat.zero_add, Fin.val_succ, Nat.add_assoc, Nat.add_comm 1]

theorem formantStep_output (c : Nat → F64) (fm : Vector F64 10) (x : F64) : (formantStep c fm x).1 =
    (List.finRange 10).foldl (fun y j => y.add ((c (j + 1)).mul (fm.get j))) ((c 0).mul x) := by
  have hfm : fm.toList = List.ofFn fm.get := List.ext_getElem (by simp) fun i _ _ => by
    rw [List.getElem_ofFn, Vector.getElem_toList, Vector.get_eq_getElem]
  rw [← formantSum_ofFn, ← hfm]
  rfl

/-- The entries of the history move one place. -/
theorem formantStep_history (c : Nat → F64) (fm : Vector F64 10) (x : F64) (j : Fin 9) :
    (formantStep c fm x).2.get j.succ = fm.get j.castSucc := by
  fin_cases j <;> rfl

theorem formantSample_off (p : Params) {ch : Channel} (h : ch.vowel = .off) (x : F64) :
    formantSample p ch x = (x, ch) := by
  simp [formantSample, h, Vowel.row]

theorem formantSample_vowel (p : Params) {ch : Channel} (h : ch.vowel ≠ .off) (x : F64) : formantSample p ch x =
    ((formantStep (p.formantCoef (ch.vowel.code - 1)) ch.fm x).1,
      { ch with fm := (formantStep (p.formantCoef (ch.vowel.code - 1)) ch.fm x).2 }) := by
  simp [formantSample, Vowel.row_eq h]

/-- Settles O43: the filter stage by its type, the formant stage by its vowel. -/
theorem filterAndFormantStages : Obligations.FilterAndFormantStages := by
  intro p ch x fc hfc
  rw [filterSample_eq, cutoffHz_eq, ← hfc]
  refine ⟨rfl, fun h => ?off, fun f fbk b0 b1 hf hfbk h0 h1 => ?quality,
    fun g fk k xi b1 b2 b3 b4 b5 hg hfk hk hxi h1 h2 h3 h4 h5 => ?fast,
    fun h => formantSample_off p h x, fun h => ?formant⟩
  case off => rw [filteredAt_off p fc x h]
  case quality =>
    subst hf hfbk
    have hfilt := qualityFilt_eq ch.ftype.isHpf (p.qcoef ch.fres fc) ch.fb x h0 h1
    refine ⟨fun h => ?_, fun h => ?_, fun h => ?_⟩
    · rw [filteredAt_quality p fc x (.inl h), hfilt, h]
      rfl
    · rw [filteredAt_quality p fc x (.inr h), hfilt, h]
      rfl
    · rw [filteredAt_quality p fc x h, hfilt]
  case fast =>
    subst hg hfk hk
    have hfilt := fastFilt_eq ch.ftype.isHpf (p.fcoef ch.fres fc) ch.fb x hxi h1 h2 h3 h4 h5
    refine ⟨fun h => ?_, fun h => ?_, fun h => ?_⟩
    · rw [filteredAt_fast p fc x (.inl h), hfilt, h]
      rfl
    · rw [filteredAt_fast p fc x (.inr h), hfilt, h]
      rfl
    · rw [filteredAt_fast p fc x h, hfilt]
  case formant =>
    rw [formantSample_vowel p h]
    exact ⟨rfl, formantStep_output _ ch.fm x, rfl, formantStep_history _ ch.fm x⟩

end Sys2Proof.Machine

namespace Sys2Proof.Machine

/-! ### The event VOWEL (45_formant.md R470) -/

/-- The vowel of a VOWEL field has the number of the clamped field. -/
theorem vowelOfField_code (v : Byte) : (vowelOfField v).code = (clampByte 0 5 v).toNat := by
  have hle := (clampByte_le (lo := 0) (hi := 5) v (by omega) (by omega)).2
  unfold vowelOfField
  split
  · next h => rw [h]; rfl
  · next h => rw [h]; rfl
  · next h => rw [h]; rfl
  · next h => rw [h]; rfl
  · next h => rw [h]; rfl
  · next h0 h1 h2 h3 h4 =>
    simp only [imp_false] at h0 h1 h2 h3 h4
    rw [Vowel.code]
    omega

theorem vowelOfField_clampedTo (v : Byte) : ClampedTo 0 5 v.toNat (vowelOfField v).code :=
  vowelOfField_code v ▸ clampByte_clampedTo v (by omega) (by omega)

/-- Settles O16: VOWEL clears the history when the vowel of the clamped field is another, so it keeps it exactly when
that vowel is the one in use. -/
theorem vowelEvent : Obligations.VowelEvent := by
  intro delta vowel s
  obtain ⟨t, ht, hevent⟩ := consume_mapCh (delta := delta) (byteClamped_zero_iff vowel (hi := 5) (by omega))
    (fun ch => eventChannel s ch (.vowel delta vowel)) s
  simp only [eventChannel, ne_eq, ite_not] at hevent
  exact ⟨t, _, ht, vowelOfField_clampedTo vowel, hevent⟩

end Sys2Proof.Machine

/-! ## Exceptions (60_exceptions.md) -/

namespace Sys2Proof.Machine

/-! ### Where a step stops (R506) -/

/-- The branch of the step that processes a record is taken at a pending record only. -/
theorem recordPending_of {s : State} (hb : s.engine.busy = true) (hl : s.tr.ended = false)
    (hp : s.engine.pos < s.engine.frames) (hx : s.logExhausted = false) : RecordPending s :=
  ⟨hb, hl, hp, cursor_lt_of_log hx⟩

theorem exec_next (i : Instr) (s : State) : ∃ t, exec i s = .next t := by
  obtain ⟨t, ht, -⟩ := everyRecordCompletes i s
  exact ⟨t, ht⟩

/-- What a step answers: it completes, or at a pending record the fetch or the chunk faults, and so does the step. -/
inductive StepAnswer (s : State) : Prop where
  /-- the step completes -/
  | next (t : State) (h : step s = .next t)
  /-- the pending record cannot be fetched -/
  | fetchFault (f : Fault) (hp : RecordPending s) (hf : s.fetch defaultParams = .error f) (h : step s = .fault f)
  /-- the chunk up to the pending record cannot be rendered -/
  | chunkFault (i : Instr) (f : Fault) (hp : RecordPending s) (hr : s.runChunk defaultParams i = .error f)
      (h : step s = .fault f)

theorem stepAnswer (s : State) : StepAnswer s := by
  cases hb : s.engine.busy with
  | false => exact .next _ (step_idle hb)
  | true =>
    rcases renderStep_cases defaultParams s with ⟨-, e⟩ | ⟨hl, hp, ⟨-, e⟩ | ⟨hx, ⟨f, hf, e⟩ |
      ⟨i, -, ⟨-, e⟩ | ⟨-, ⟨f, hr, e⟩ | ⟨t, -, e⟩⟩⟩⟩⟩ <;> rw [← step_busy hb] at e
    · exact .next _ e
    · exact .next _ e
    · exact .fetchFault f (recordPending_of hb hl hp hx) hf e
    · obtain ⟨t, ht⟩ := exec_next i s
      exact .next t (e.trans ht)
    · exact .chunkFault i f (recordPending_of hb hl hp hx) hr e
    · exact .next t e

theorem step_ne_refused (s : State) (r : Refusal) : step s ≠ .refused r := by
  intro hr
  cases stepAnswer s with
  | next t h => cases h.symm.trans hr
  | fetchFault f _ _ h => cases h.symm.trans hr
  | chunkFault i f _ _ h => cases h.symm.trans hr

/-- Only the chunk of a musical track that plays faults: the tempo track renders nothing, and silence reads nothing. -/
theorem runChunk_error_playing {p : Params} {s : State} {i : Instr} {f : Fault} (h : s.runChunk p i = .error f) :
    s.engine.track ≠ 0 ∧ s.ch.env1.playing = true := by
  have h0 : s.engine.track ≠ 0 := by
    intro h0
    rw [runChunk_tempo p i h0] at h
    cases h
  refine ⟨h0, ?_⟩
  cases hpl : s.ch.env1.playing with
  | true => rfl
  | false =>
    have hpl' : (chunkState s i).ch.env1.playing = false := by rw [chunkState_ch, hpl]
    rw [runChunk_musical p i h0, channelRender_silent p _ _ hpl'] at h
    cases h

/-- A pending record that cannot be fetched stops the step. -/
theorem step_fetch_error {s : State} {f : Fault} (h : RecordPending s) (hf : s.fetch defaultParams = .error f) :
    step s = .fault f := by
  rw [step_busy h.busy, renderStep, if_neg (by simp [h.live, h.samples]), if_neg (by simp [log_not_exhausted h]), hf]

/-- Settles O29: by the three answers of a step; the faults of the fetch by `fetch_error`, those of the chunk by
`runChunk_error`. -/
theorem faultsOnlyUnreadable : Obligations.FaultsOnlyUnreadable := by
  intro s
  refine ⟨step_ne_refused s, fun f hs => ?_, fun k hp hk hnone =>
    step_fetch_error hp (fetch_error.mpr ⟨rfl, k, hk, hnone⟩)⟩
  cases stepAnswer s with
  | next t h => cases h.symm.trans hs
  | fetchFault g hp hf h =>
    obtain rfl : g = f := Host.Outcome.fault.inj (h.symm.trans hs)
    exact ⟨hp, .inl (fetch_error.mp hf)⟩
  | chunkFault i g hp hr h =>
    obtain rfl : g = f := Host.Outcome.fault.inj (h.symm.trans hs)
    obtain ⟨hkind, hbyte⟩ := runChunk_error hr
    obtain ⟨htrack, hplays⟩ := runChunk_error_playing hr
    exact ⟨hp, .inr ⟨hkind, fun h0 => htrack (Fin.ext h0), hplays, hbyte⟩⟩

end Sys2Proof.Machine

/-! ## Reset (70_reset_and_hazards.md) -/

namespace Sys2Proof.Machine

/-! ### The RESET command (R541) -/

/-- Bit 31 of CTRL is seen before any other command bit (10_state.md R32). -/
theorem ctrlWrite_reset (s : State) {v : Word} (h : v.getLsbD 31 = true) : s.ctrlWrite v = s.resetCommand := by
  rw [State.ctrlWrite, if_pos h]

/-- Settles O51: the low word of the data carries the RESET bit to CTRL. -/
theorem resetCommand : Obligations.ResetCommand := by
  intro p s data h31
  have hbit : (data.setWidth 32).getLsbD 31 = true := by
    rw [BitVec.getLsbD_setWidth, h31]
    rfl
  obtain ⟨_, rctrl, _⟩ := regAt_fixed p
  calc hostWrite p 0x004#32 .w4 data s
      _ = s.ctrlWrite (data.setWidth 32) := hostWrite_register_at s data rctrl
      _ = s.resetCommand := ctrlWrite_reset s hbit

/-! ### The state after power-on (R540, R542) -/

theorem reset_tracks (t : Fin 64) : State.reset.tracks.get t = Track.reset := replicate_get t _

/-- 229.6875 is the samples per tick at 120 BPM (10_state.md R41). -/
theorem sptReset_eq : sptReset = (F64.ofNat 2296875).div (F64.ofNat 10000) := by decide +kernel

/-- No sample of PIPE, SYNC or OUT is anything but 0. -/
theorem reset_cleared : (∀ i k, State.reset.pipeAt i k = F64.zero ∧ State.reset.syncAt i k = false) ∧
    ∀ j, State.reset.outAt j = F64.zero := by
  refine ⟨fun i k => ⟨?_, ?_⟩, fun j => rfl⟩
  · simp [State.pipeAt, State.reset]
  · simp [State.syncAt, State.reset]

/-- What holds of the Channel after reset holds of every Channel at power-on. -/
theorem reset_channels {P : Channel → Prop} (h : P Channel.reset) (t : Fin 64) : P (State.reset.tracks.get t).ch := by
  rw [reset_tracks]
  exact h

theorem MemoryCanonical.reset : MemoryCanonical defaultParams State.reset where
  form := Memory.wf_reset _
  blockLen := by rw [defaultBlockMax]; decide
  frames := nofun

theorem RegistersInRange.reset : RegistersInRange defaultParams State.reset where
  ntracksLow := by decide
  ntracksHigh := by rw [defaultNtrackMax]; decide
  blockLenLow := by decide
  blockLenHigh := MemoryCanonical.reset.blockLen
  trkBase t := by rw [State.reset, replicate_get]; rfl
  channels := reset_channels (.reset _)

theorem EnvelopesCoherent.reset : EnvelopesCoherent State.reset :=
  reset_channels (P := ChannelEnvelopesCoherent) ⟨.reset, .reset⟩

theorem NoiseLive.reset : NoiseLive State.reset := reset_channels (P := ChannelNoiseLive) ⟨.reset, .reset⟩

/-- At power-on no run and no RENDER is in progress. -/
theorem RunCoherent.reset : RunCoherent State.reset where
  ntracks := by decide
  running := nofun
  slot := nofun
  cursor := nofun
  finished := nofun

/-- Settles O55: the register file and the Channels by their reset records, one of each for all slots; the invariants by
those records. -/
theorem resetState : Obligations.ResetState := by
  obtain ⟨hbuffers, hout⟩ := reset_cleared
  refine ⟨rfl, rfl, rfl, fun t => ⟨replicate_get t _, replicate_get t _⟩, fun i => replicate_get i _, fun t => ?track,
    hbuffers, hout, fun a => ⟨rfl, rfl, rfl⟩, .reset, .reset, EnvelopesCoherent.reset, NoiseLive.reset, .reset⟩
  case track =>
    rw [reset_tracks]
    refine ⟨rfl, rfl, sptReset_eq, rfl, Channel.reset, rfl,
      rfl, rfl, rfl, rfl, rfl, rfl, rfl, rfl, rfl,
      rfl, rfl, rfl, rfl, rfl,
      rfl, rfl, rfl, rfl, fun j => replicate_get j _, rfl, fun j => replicate_get j _,
      rfl, rfl, rfl, rfl, rfl, rfl, rfl, rfl, fun o ho => ?oscillator, fun e he => ?envelope⟩
    case oscillator =>
      obtain rfl : o = Oscillator.reset := ho.elim id id
      exact ⟨rfl, rfl, rfl, phases_reset_get, rfl, rfl, rfl, rfl, rfl⟩
    case envelope =>
      obtain rfl : e = Envelope.reset := he.elim id id
      exact ⟨rfl, rfl, rfl, rfl, rfl, rfl, rfl, rfl, rfl, rfl, rfl⟩

end Sys2Proof.Machine
